-- ==== Sys2Proof/Word.lean ====
section
/-! DEFINITION. The word types of the machine (00_scope.md R9), the spec's value `unset` (R13), the four element
widths (R8) and a bank of one value per hardware channel (R7, `NCH` = 8). -/

namespace Sys2Proof

/-- A byte is 8 bits (00_scope.md R9). -/
abbrev Byte := BitVec 8

/-- A word, and an address held in a register or a descriptor, is 32 bits (00_scope.md R9). -/
abbrev Word := BitVec 32

/-- The index of a hardware channel, 0..7 (00_scope.md R7). -/
abbrev Chan := Fin 8

/-- The content of a register or field: `unset`, the spec's own value for "nothing has written it"
(00_scope.md R13, 92_eei_decisions.md D36), or a written value. -/
inductive Val (α : Type) where
  | unset
  | of (v : α)
  deriving DecidableEq, Repr, Inhabited

/-- The closed set of element widths (00_scope.md R8, 40_descriptor_and_buffers.md R127). -/
inductive Width where
  | b8
  | b16
  | b32
  | b64
  deriving DecidableEq, Repr, Inhabited

/-- One value for each of the 8 hardware channels. -/
structure PerChannel (α : Type) where
  c0 : α
  c1 : α
  c2 : α
  c3 : α
  c4 : α
  c5 : α
  c6 : α
  c7 : α
  deriving DecidableEq, Repr, Inhabited

end Sys2Proof
end

