-- ==== Sys2Proof/Config.lean ====
section
/-! DEFINITION. What is fixed for the machine (00_scope.md R7), what is fixed for a run (10_state.md R51), and the
free value of the schedule (70_reset_and_hazards.md R283). -/

namespace Sys2Proof

/-- `LINK_END`, the `next_addr` value that means "no further descriptor" (00_scope.md R7, 30_encoding.md R93). -/
def linkEnd : Word := 0xFFFFF800#32

/-- `MAX_LEN` = `u32::MAX`, the largest byte size the software check admits (00_scope.md R7, 92_eei_decisions.md D33). -/
def maxLen : Nat := 4294967295

/-- One region of RAM: the byte addresses `base .. base + size - 1`. -/
structure Region where
  base : Nat
  size : Nat
  deriving DecidableEq, Repr, Inhabited

/-- `CfgLayout`: where the eight fields of the config word sit, each by its lowest bit, and the codes of their values
(30_encoding.md R94 to R98). The default is PRESUMED by the spec [G1 to G5]; log 2. The widths of the fields are those of the
default table in every layout: DESIGN CHOICE, log 32. -/
structure CfgLayout where
  srcDrqAt   : Nat := 0
  srcModeAt  : Nat := 5
  srcBurstAt : Nat := 6
  srcWidthAt : Nat := 9
  dstDrqAt   : Nat := 16
  dstModeAt  : Nat := 21
  dstBurstAt : Nat := 22
  dstWidthAt : Nat := 25
  /-- The data width codes (R95). -/
  bits8      : BitVec 2 := 0#2
  bits16     : BitVec 2 := 1#2
  bits32     : BitVec 2 := 2#2
  bits64     : BitVec 2 := 3#2
  /-- The address mode code of `linear` (R96). -/
  linear     : BitVec 1 := 0#1
  /-- The burst length codes of 1, 4 and 8 accesses; the fourth code is 16 (R97). -/
  burst1     : BitVec 2 := 0#2
  burst4     : BitVec 2 := 1#2
  burst8     : BitVec 2 := 2#2
  /-- `DRQ_MEMORY`, the DRQ port code of system memory (R98). -/
  drqMemory  : BitVec 5 := 1#5
  deriving DecidableEq, Repr, Inhabited

/-- `RegMap`: where the registers of the block sit, where their fields sit in them, and which bit value means what
(30_encoding.md R105, 10_state.md R37). The default is PRESUMED by the spec [G6]; log 3. -/
structure RegMap where
  base        : Nat  := 0x01C02000
  secOff      : Nat  := 0x20
  autogateOff : Nat  := 0x28
  staOff      : Nat  := 0x30
  chBase      : Nat  := 0x100
  chStride    : Nat  := 0x40
  enOff       : Nat  := 0x00
  pauseOff    : Nat  := 0x04
  descAddrOff : Nat  := 0x08
  cfgOff      : Nat  := 0x0C
  curSrcOff   : Nat  := 0x10
  curDstOff   : Nat  := 0x14
  bcntLeftOff : Nat  := 0x18
  paraOff     : Nat  := 0x1C
  modeOff     : Nat  := 0x28
  fdescOff    : Nat  := 0x2C
  pkgNumOff   : Nat  := 0x30
  /-- The bit of `en` in the enable register. -/
  enBit       : Nat  := 0
  /-- The bit of `pause` in the pause register. Every write to that register is refused alike, whatever bit it writes
  (42_channel_commands.md R168), and every read (R169). -/
  pauseBit    : Nat  := 0
  /-- The bit of `sec[n]` in the security register. -/
  secBit      : PerChannel Nat := ⟨0, 1, 2, 3, 4, 5, 6, 7⟩
  /-- The bit of `busy[n]` in the status register. -/
  busyBit     : PerChannel Nat := ⟨0, 1, 2, 3, 4, 5, 6, 7⟩
  /-- The bits of the three auto-gating fields. -/
  agChanBit   : Nat  := 0
  agCommonBit : Nat  := 1
  agMclkBit   : Nat  := 2
  /-- The bit value that means `NonSecure`. -/
  nonSecureIs : Bool := true
  /-- The bit value that means `AutoGateOn`, field by field. -/
  agChanOnIs   : Bool := false
  agCommonOnIs : Bool := false
  agMclkOnIs   : Bool := false
  deriving DecidableEq, Repr, Inhabited

/-- The parameters the spec leaves open, fixed for a run (00_scope.md R7, 10_state.md R51). -/
structure Config where
  /-- `is_ram`: the addresses that are memory (20_memory.md R60, R68). -/
  ram             : List Region
  /-- `BURST_DEFAULT`, as the 2-bit code of 30_encoding.md R97. -/
  burstDefault    : BitVec 2
  /-- `PARAM_NORMAL_WAIT` (30_encoding.md R93). -/
  paramNormalWait : Word
  /-- `POLL_LIMIT`: none, or the bound of `wait_bounded`, which a positive one makes exist (44_transfer_lifecycle.md R205). -/
  pollLimit       : Option Nat
  /-- `NIMPL`: how many channels `split` hands out (45_split.md R224). -/
  nimpl           : Nat
  /-- `RegMap` (30_encoding.md R105). -/
  regMap          : RegMap
  /-- `CfgLayout` (30_encoding.md R94). -/
  layout          : CfgLayout
  deriving DecidableEq, Repr, Inhabited

/-- The example configuration EC of 95_test_vectors.md. DESIGN CHOICE, log 1. -/
def exampleConfig : Config where
  ram := [{ base := 0x40000000, size := 0x40000000 }]
  burstDefault := 2#2
  paramNormalWait := 8#32
  pollLimit := none
  nimpl := 1
  regMap := {}
  layout := {}

/-- Who takes the next step (00_scope.md R3, 20_memory.md R74). `eng n` is ENG(n) taking its next named step
(43_engine.md R175), `interp n` is ENG(n) carrying out the whole descriptor word it stands at (log 10), `drain` is the
internal step of 20_memory.md R74. -/
inductive Agent where
  | cpu
  | eng (n : Chan)
  | interp (n : Chan)
  | drain
  deriving DecidableEq, Repr, Inhabited

/-- A turn: the agent that steps, and the number its free choice is made from (`choose`, 00_scope.md R12). -/
structure Turn where
  agent : Agent
  pick  : Nat
  deriving DecidableEq, Repr, Inhabited

/-- The free choice of the turn when the state names none: any agent may be next (70_reset_and_hazards.md R283,
10_state.md R51). It has no body: no proof can see its value. Log 7. -/
opaque freeTurn : Nat → Turn

end Sys2Proof
end

