-- ==== Sys2Proof/Syntax.lean ====
section
/-! DEFINITION. The syntax of the machine: the descriptor record (30_encoding.md R90), the software objects an operation
names (10_state.md R44 to R47), one constructor of `Instr` per row of spec/opcode_table.json, and the operations of a CPU
program (30_encoding.md R107, R108; 20_memory.md R71, R72; 30_encoding.md R104). -/

namespace Sys2Proof

/-- A descriptor: six 32-bit words in this order (30_encoding.md R90). -/
structure Desc where
  config   : Word
  srcAddr  : Word
  dstAddr  : Word
  length   : Word
  param    : Word
  nextAddr : Word
  deriving DecidableEq, Repr, Inhabited

/-- A buffer: `count` elements of `width` from `base` (10_state.md R45). -/
structure Buffer where
  base  : Nat
  count : Nat
  width : Width
  deriving DecidableEq, Repr, Inhabited

/-- A `TransferResources`: a descriptor's address and two buffers (10_state.md R46). -/
structure Resources where
  desc : Nat
  src  : Buffer
  dst  : Buffer
  deriving DecidableEq, Repr, Inhabited

/-- The two states of a `Transfer` value (44_transfer_lifecycle.md R200). -/
inductive TransferState where
  | ready
  | started
  deriving DecidableEq, Repr, Inhabited

/-- A `Transfer`: resources and a state (10_state.md R47). -/
structure Transfer where
  res   : Resources
  state : TransferState
  deriving DecidableEq, Repr, Inhabited

/-- The instructions: one constructor per row of spec/opcode_table.json. The channel `n` of a descriptor row is the
channel whose engine carries the descriptor out. -/
inductive Instr where
  /-- `DESC`: the descriptor of 30_encoding.md R90 is latched (43_engine.md R179). -/
  | desc (n : Chan) (d : Desc)
  /-- `M2M.<S>.<D>` (30_encoding.md R102, 43_engine.md R183); `sb`, `db` are the free burst codes. -/
  | m2mB8B8 (n : Chan) (sb db : BitVec 2)
  | m2mB8B16 (n : Chan) (sb db : BitVec 2)
  | m2mB8B32 (n : Chan) (sb db : BitVec 2)
  | m2mB8B64 (n : Chan) (sb db : BitVec 2)
  | m2mB16B8 (n : Chan) (sb db : BitVec 2)
  | m2mB16B16 (n : Chan) (sb db : BitVec 2)
  | m2mB16B32 (n : Chan) (sb db : BitVec 2)
  | m2mB16B64 (n : Chan) (sb db : BitVec 2)
  | m2mB32B8 (n : Chan) (sb db : BitVec 2)
  | m2mB32B16 (n : Chan) (sb db : BitVec 2)
  | m2mB32B32 (n : Chan) (sb db : BitVec 2)
  | m2mB32B64 (n : Chan) (sb db : BitVec 2)
  | m2mB64B8 (n : Chan) (sb db : BitVec 2)
  | m2mB64B16 (n : Chan) (sb db : BitVec 2)
  | m2mB64B32 (n : Chan) (sb db : BitVec 2)
  | m2mB64B64 (n : Chan) (sb db : BitVec 2)
  /-- `LINK.END` (43_engine.md R187). -/
  | linkEnd (n : Chan)
  /-- `LINK.NEXT` (43_engine.md R186); `a` is the address of the next descriptor. -/
  | linkNext (n : Chan) (a : Word)
  /-- `CH_ENABLE n` (42_channel_commands.md R156). -/
  | chEnable (n : Chan)
  /-- `CH_IS_ACTIVE n` (42_channel_commands.md R157). -/
  | chIsActive (n : Chan)
  /-- `CH_SET_DESC_ADDR n, a` (42_channel_commands.md R158). -/
  | chSetDescAddr (n : Chan) (a : Word)
  /-- `CH_SET_NONSECURE n` (42_channel_commands.md R159). -/
  | chSetNonsecure (n : Chan)
  /-- `BLK_AUTOGATE_ENABLE` (45_split.md R223). -/
  | blkAutogateEnable
  /-- `CCU_RESET_ASSERT` (45_split.md R221). -/
  | ccuResetAssert
  /-- `CCU_RESET_DEASSERT` (45_split.md R221). -/
  | ccuResetDeassert
  /-- `CCU_CLOCK_ENABLE` (45_split.md R222). -/
  | ccuClockEnable
  /-- `FENCE` (20_memory.md R75). -/
  | fence
  /-- `Descriptor::new() @ A` (40_descriptor_and_buffers.md R120). -/
  | descriptorNew (A : Nat)
  /-- `d.as_ptr()` of the descriptor at `A` (40_descriptor_and_buffers.md R121). -/
  | descriptorAsPtr (A : Nat)
  /-- `s.base_address()` (40_descriptor_and_buffers.md R123). -/
  | bufferBaseAddress (b : Buffer)
  /-- `s.element_count()` (40_descriptor_and_buffers.md R124). -/
  | bufferElementCount (b : Buffer)
  /-- `s.size_bytes()` (40_descriptor_and_buffers.md R125). -/
  | bufferSizeBytes (b : Buffer)
  /-- `mem_to_mem(d @ A, s, t)` (41_transfer_resources.md R140). -/
  | memToMem (A : Nat) (src dst : Buffer)
  /-- `res.free()` (41_transfer_resources.md R148). -/
  | resFree (r : Resources)
  /-- `Transfer::new(res, ch n)` (44_transfer_lifecycle.md R201). -/
  | transferNew (r : Resources) (n : Chan)
  /-- `x.start(ch n)` (44_transfer_lifecycle.md R202). -/
  | transferStart (x : Transfer) (n : Chan)
  /-- `x.wait(ch n)` (44_transfer_lifecycle.md R203). -/
  | transferWait (x : Transfer) (n : Chan)
  /-- `x.is_active(ch n)` (44_transfer_lifecycle.md R204). -/
  | transferIsActive (x : Transfer) (n : Chan)
  /-- `x.wait_bounded(ch n, L)` (44_transfer_lifecycle.md R205). -/
  | transferWaitBounded (x : Transfer) (n : Chan) (L : Nat)
  /-- `split(raw, ccu)` (45_split.md R220). -/
  | split
  /-- `ENG_FETCH n, i` (43_engine.md R178). -/
  | engFetch (n : Chan) (i : Fin 6)
  /-- `ENG_DECODE n` (43_engine.md R179). -/
  | engDecode (n : Chan)
  /-- `ENG_MOVE n, k` (43_engine.md R183). -/
  | engMove (n : Chan) (k : Nat)
  /-- `ENG_LINK n` (43_engine.md R186). -/
  | engLink (n : Chan)
  /-- `ENG_COMPLETE n` (43_engine.md R187). -/
  | engComplete (n : Chan)
  /-- `DRAIN` (20_memory.md R74); `j` is the position in `cpu.sb` of the store that is picked. -/
  | drain (j : Nat)
  deriving DecidableEq, Repr, Inhabited

/-- A CPU step left of an operation under way: what its expansion still has to do (30_encoding.md R108; log 9). -/
inductive Rest where
  /-- `CpuStore(a, 4, v)`, a word of a descriptor (40_descriptor_and_buffers.md R120, 41_transfer_resources.md R145). -/
  | store (a : Nat) (v : Word)
  /-- The last store of `mem_to_mem` and its return: the ranges are pinned (41_transfer_resources.md R140). -/
  | bind (A : Nat) (src dst : Buffer)
  /-- `CH_SET_DESC_ADDR n, res.desc` and the return of `Transfer::new` (44_transfer_lifecycle.md R201). -/
  | newAddr (r : Resources) (n : Chan)
  /-- `CH_ENABLE n` and the return of `start` (44_transfer_lifecycle.md R202). -/
  | startEnable (x : Transfer) (n : Chan)
  /-- One more poll of `wait` (no bound), or of `wait_bounded` with this many left (44_transfer_lifecycle.md R203, R205). -/
  | poll (x : Transfer) (n : Chan) (left : Option Nat)
  /-- The fence after the poll that found the channel idle, and the return (44_transfer_lifecycle.md R203, R205). -/
  | waitEnd (x : Transfer) (n : Chan)
  /-- `CCU_RESET_DEASSERT`, `CCU_CLOCK_ENABLE`, `BLK_AUTOGATE_ENABLE` with the return of `split` (45_split.md R220). -/
  | release
  | clock
  | gates
  deriving DecidableEq, Repr, Inhabited

/-- One raw access of the CPU to the register space (30_encoding.md R103): a read of which one bit is looked at, a
32-bit write, or an atomic modify-field of one bit. Log 3. -/
inductive RegAccess where
  | read (a : Nat) (bit : Nat)
  | write (a : Nat) (v : Word)
  | modify (a : Nat) (bit : Nat) (v : Bool)
  deriving DecidableEq, Repr, Inhabited

/-- The three controls of the auto-gating register (10_state.md R37). -/
inductive GateField where
  | mclk
  | chan
  | common
  deriving DecidableEq, Repr, Inhabited

/-- What a raw register access is under a `RegMap`: a host command of 30_encoding.md R103, one of the three accesses
that `BLK_AUTOGATE_ENABLE` is made of, a read of a status bit that is not described, or one of the accesses R104 puts outside
the admitted set. -/
inductive AccessMeaning where
  | command (i : Instr)
  | gateOn (g : GateField)
  /-- A read of a bit of the status register that is no channel's busy flag (10_state.md R35; log 26). -/
  | statusBit
  /-- A write of 0 to `ch[n].en` (42_channel_commands.md R168). -/
  | disable
  /-- Any write to `ch[n].pause` (42_channel_commands.md R168). -/
  | pause
  /-- Every other register access (42_channel_commands.md R169). -/
  | other
  deriving DecidableEq, Repr, Inhabited

/-- One operation of the CPU's program (30_encoding.md R107, R108). -/
inductive CpuOp where
  /-- A host command, FENCE or an API operation. -/
  | instr (i : Instr)
  /-- `CpuLoad(a, k)` (20_memory.md R71), `k` the bytes of a width (R66 (e)). -/
  | load (a : Nat) (w : Width)
  /-- `CpuStore(a, k, v)` (20_memory.md R72). -/
  | store (a : Nat) (w : Width) (v : Nat)
  /-- A raw register access (30_encoding.md R103, R104). -/
  | access (r : RegAccess)
  /-- Discarding a `Transfer` value without `wait` (44_transfer_lifecycle.md R209). -/
  | dropTransfer (x : Transfer)
  deriving DecidableEq, Repr, Inhabited

end Sys2Proof
end

