-- ==== Sys2Proof/WellFormed.lean ====
section
/-! DEFINITION. Which terms of the syntax the spec lets be written: bounds of operands (00_scope.md R9, 30_encoding.md
R101, 43_engine.md R183, 44_transfer_lifecycle.md R205), and which instructions software may issue (30_encoding.md R109). -/

namespace Sys2Proof

/-- A software size or address fits the 64-bit `usize` (00_scope.md R9, 92_eei_decisions.md D27). -/
def fitsUsize (x : Nat) : Bool := decide (x < 2 ^ 64)

/-- The numbers of a buffer fit `usize`. -/
def bufferWf (b : Buffer) : Bool := fitsUsize b.base && fitsUsize b.count

/-- The numbers of a `TransferResources` fit `usize`. -/
def resourcesWf (r : Resources) : Bool := fitsUsize r.desc && bufferWf r.src && bufferWf r.dst

/-- A `LINK.NEXT` word: a multiple of 4 in range that is not the sentinel (30_encoding.md R101 (h), R102). -/
def linkNextWf (a : Word) : Bool :=
  decide (a ≠ linkEnd) && decide (a.toNat % 4 = 0) && decide (a.toNat + 24 ≤ 2 ^ 32)

/-- The well-formed instructions. -/
def instrWf : Instr → Bool
  | .desc _ _ => true
  | .m2mB8B8 _ _ _ => true
  | .m2mB8B16 _ _ _ => true
  | .m2mB8B32 _ _ _ => true
  | .m2mB8B64 _ _ _ => true
  | .m2mB16B8 _ _ _ => true
  | .m2mB16B16 _ _ _ => true
  | .m2mB16B32 _ _ _ => true
  | .m2mB16B64 _ _ _ => true
  | .m2mB32B8 _ _ _ => true
  | .m2mB32B16 _ _ _ => true
  | .m2mB32B32 _ _ _ => true
  | .m2mB32B64 _ _ _ => true
  | .m2mB64B8 _ _ _ => true
  | .m2mB64B16 _ _ _ => true
  | .m2mB64B32 _ _ _ => true
  | .m2mB64B64 _ _ _ => true
  | .linkEnd _ => true
  | .linkNext _ a => linkNextWf a
  | .chEnable _ => true
  | .chIsActive _ => true
  | .chSetDescAddr _ _ => true
  | .chSetNonsecure _ => true
  | .blkAutogateEnable => true
  | .ccuResetAssert => true
  | .ccuResetDeassert => true
  | .ccuClockEnable => true
  | .fence => true
  | .descriptorNew A => fitsUsize A
  | .descriptorAsPtr A => fitsUsize A
  | .bufferBaseAddress b => bufferWf b
  | .bufferElementCount b => bufferWf b
  | .bufferSizeBytes b => bufferWf b
  | .memToMem A s t => fitsUsize A && bufferWf s && bufferWf t
  | .resFree r => resourcesWf r
  | .transferNew r _ => resourcesWf r
  | .transferStart x _ => resourcesWf x.res
  | .transferWait x _ => resourcesWf x.res
  | .transferIsActive x _ => resourcesWf x.res
  | .transferWaitBounded x _ L => resourcesWf x.res && decide (0 < L)
  | .split => true
  | .engFetch _ _ => true
  | .engDecode _ => true
  | .engMove _ k => decide (0 < k) && decide (k < 2 ^ 32)
  | .engLink _ => true
  | .engComplete _ => true
  | .drain _ => true

/-- The instructions software writes: host commands, FENCE and API operations. Descriptor rows are carried out by an
engine, engine steps and DRAIN "are not written by software" (30_encoding.md R109). -/
def instrIsSoftware : Instr → Bool
  | .desc _ _ => false
  | .m2mB8B8 _ _ _ => false
  | .m2mB8B16 _ _ _ => false
  | .m2mB8B32 _ _ _ => false
  | .m2mB8B64 _ _ _ => false
  | .m2mB16B8 _ _ _ => false
  | .m2mB16B16 _ _ _ => false
  | .m2mB16B32 _ _ _ => false
  | .m2mB16B64 _ _ _ => false
  | .m2mB32B8 _ _ _ => false
  | .m2mB32B16 _ _ _ => false
  | .m2mB32B32 _ _ _ => false
  | .m2mB32B64 _ _ _ => false
  | .m2mB64B8 _ _ _ => false
  | .m2mB64B16 _ _ _ => false
  | .m2mB64B32 _ _ _ => false
  | .m2mB64B64 _ _ _ => false
  | .linkEnd _ => false
  | .linkNext _ _ => false
  | .engFetch _ _ => false
  | .engDecode _ => false
  | .engMove _ _ => false
  | .engLink _ => false
  | .engComplete _ => false
  | .drain _ => false
  | .chEnable _ => true
  | .chIsActive _ => true
  | .chSetDescAddr _ _ => true
  | .chSetNonsecure _ => true
  | .blkAutogateEnable => true
  | .ccuResetAssert => true
  | .ccuResetDeassert => true
  | .ccuClockEnable => true
  | .fence => true
  | .descriptorNew _ => true
  | .descriptorAsPtr _ => true
  | .bufferBaseAddress _ => true
  | .bufferElementCount _ => true
  | .bufferSizeBytes _ => true
  | .memToMem _ _ _ => true
  | .resFree _ => true
  | .transferNew _ _ => true
  | .transferStart _ _ => true
  | .transferWait _ _ => true
  | .transferIsActive _ _ => true
  | .transferWaitBounded _ _ _ => true
  | .split => true

/-- A stored value fits its width (20_memory.md R66 (e)). -/
def storeFits (w : Width) (v : Nat) : Bool :=
  match w with
  | .b8 => decide (v < 2 ^ 8)
  | .b16 => decide (v < 2 ^ 16)
  | .b32 => decide (v < 2 ^ 32)
  | .b64 => decide (v < 2 ^ 64)

/-- The well-formed operations of a CPU program. -/
def cpuOpWf : CpuOp → Bool
  | .instr i => instrIsSoftware i && instrWf i
  | .load a _ => fitsUsize a
  | .store a w v => fitsUsize a && storeFits w v
  | .access _ => true
  | .dropTransfer x => resourcesWf x.res

end Sys2Proof
end

