-- ==== Sys2Proof/Decode.lean ====
section
/-! DEFINITION. Byte order (20_memory.md R62), the fields of the config word (30_encoding.md R94 to R98), the decoder of
descriptors, config words, link words (R101, R102) and raw register accesses (R103 to R105), and after it the encoder. -/

namespace Sys2Proof

/-- The number of bytes of an element (00_scope.md R8). -/
def Width.bytes : Width → Nat
  | .b8 => 1
  | .b16 => 2
  | .b32 => 4
  | .b64 => 8

/-- The data width code (30_encoding.md R95). -/
def widthCode (l : CfgLayout) : Width → BitVec 2
  | .b8 => l.bits8
  | .b16 => l.bits16
  | .b32 => l.bits32
  | .b64 => l.bits64

/-- The width a data width code stands for: all four codes are in use (30_encoding.md R95). -/
def widthOfCode (l : CfgLayout) (c : BitVec 2) : Width :=
  if c = l.bits8 then .b8 else if c = l.bits16 then .b16 else if c = l.bits32 then .b32 else .b64

/-- Accesses per burst of a burst length code (30_encoding.md R97). -/
def burstLength (l : CfgLayout) (c : BitVec 2) : Nat :=
  if c = l.burst1 then 1 else if c = l.burst4 then 4 else if c = l.burst8 then 8 else 16

/-- The `k` bytes of a number, the least significant at the lowest address (20_memory.md R62). -/
def leBytes : Nat → Nat → List Byte
  | 0, _ => []
  | k + 1, v => BitVec.ofNat 8 v :: leBytes k (v / 256)

/-- The number that bytes in ascending address order hold (20_memory.md R62). -/
def leValue : List Byte → Nat
  | [] => 0
  | b :: bs => b.toNat + 256 * leValue bs

/-- The 32-bit word that four bytes hold. -/
def leWord (bs : List Byte) : Word := BitVec.ofNat 32 (leValue bs)

/-- The four bytes of a word. -/
def wordBytes (w : Word) : List Byte := leBytes 4 w.toNat

/-! The fields of `config`, where the layout puts them (30_encoding.md R94). -/

def cfgSrcDrq (l : CfgLayout) (w : Word) : BitVec 5 := w.extractLsb' l.srcDrqAt 5
def cfgSrcMode (l : CfgLayout) (w : Word) : BitVec 1 := w.extractLsb' l.srcModeAt 1
def cfgSrcBurst (l : CfgLayout) (w : Word) : BitVec 2 := w.extractLsb' l.srcBurstAt 2
def cfgSrcWidth (l : CfgLayout) (w : Word) : BitVec 2 := w.extractLsb' l.srcWidthAt 2
def cfgDstDrq (l : CfgLayout) (w : Word) : BitVec 5 := w.extractLsb' l.dstDrqAt 5
def cfgDstMode (l : CfgLayout) (w : Word) : BitVec 1 := w.extractLsb' l.dstModeAt 1
def cfgDstBurst (l : CfgLayout) (w : Word) : BitVec 2 := w.extractLsb' l.dstBurstAt 2
def cfgDstWidth (l : CfgLayout) (w : Word) : BitVec 2 := w.extractLsb' l.dstWidthAt 2

/-- The eight fields as (lowest bit, width in bits) pairs. A layout moves a field and keeps its width, the one the default
table of 30_encoding.md R94 shows: DESIGN CHOICE, log 32. -/
def cfgFields (l : CfgLayout) : List (Nat × Nat) :=
  [(l.srcDrqAt, 5), (l.srcModeAt, 1), (l.srcBurstAt, 2), (l.srcWidthAt, 2),
   (l.dstDrqAt, 5), (l.dstModeAt, 1), (l.dstBurstAt, 2), (l.dstWidthAt, 2)]

/-- Bit `i` of `config` belongs to no field: it is reserved. For the default layout the table of 30_encoding.md R94 says so;
for another one it is DESIGN CHOICE, log 33. -/
def cfgReservedBit (l : CfgLayout) (i : Nat) : Bool :=
  (cfgFields l).all (fun f => decide (i < f.1) || decide (f.1 + f.2 ≤ i))

/-- Every reserved bit of `config` is 0 (30_encoding.md R101 (c)). -/
def cfgReservedClear (l : CfgLayout) (w : Word) : Bool :=
  (List.range 32).all (fun i => !(cfgReservedBit l i && w.getLsbD i))

/-- A layout describes a config word: the eight fields lie inside 32 bits and apart from each other, and the four width
codes differ (30_encoding.md R94, R95). -/
def cfgLayoutWf (l : CfgLayout) : Bool :=
  (cfgFields l).all (fun f => decide (f.1 + f.2 ≤ 32))
    && decide ((cfgFields l).Pairwise (fun f g => f.1 + f.2 ≤ g.1 ∨ g.1 + g.2 ≤ f.1))
    && decide ([l.bits8, l.bits16, l.bits32, l.bits64].Pairwise (· ≠ ·))

/-- Why a word or a byte string is no instruction of the descriptor rows. -/
inductive DecodeError where
  /-- The bytes are neither a descriptor (24) nor one word of it (4) (30_encoding.md R91). -/
  | length
  /-- The source DRQ port is not memory (R98, R101 (a)). -/
  | srcDrq
  /-- The destination DRQ port is not memory (R98, R101 (a)). -/
  | dstDrq
  /-- The source address mode is not linear (R96, R101 (b)). -/
  | srcMode
  /-- The destination address mode is not linear (R96, R101 (b)). -/
  | dstMode
  /-- A reserved bit of `config` is 1 (R94, R101 (c)). -/
  | reserved
  /-- A `next_addr` that is neither the sentinel nor a multiple of 4 (R101 (h)). -/
  | linkMisaligned
  /-- A `next_addr` whose descriptor would pass 2^32 (R101 (h)). -/
  | linkOutOfRange
  deriving DecidableEq, Repr, Inhabited

/-- The form `M2M.<S>.<D>` of a pair of width codes (30_encoding.md R102). -/
def m2mInstr (n : Chan) (ws wd : Width) (sb db : BitVec 2) : Instr :=
  match ws, wd with
  | .b8, .b8 => .m2mB8B8 n sb db
  | .b8, .b16 => .m2mB8B16 n sb db
  | .b8, .b32 => .m2mB8B32 n sb db
  | .b8, .b64 => .m2mB8B64 n sb db
  | .b16, .b8 => .m2mB16B8 n sb db
  | .b16, .b16 => .m2mB16B16 n sb db
  | .b16, .b32 => .m2mB16B32 n sb db
  | .b16, .b64 => .m2mB16B64 n sb db
  | .b32, .b8 => .m2mB32B8 n sb db
  | .b32, .b16 => .m2mB32B16 n sb db
  | .b32, .b32 => .m2mB32B32 n sb db
  | .b32, .b64 => .m2mB32B64 n sb db
  | .b64, .b8 => .m2mB64B8 n sb db
  | .b64, .b16 => .m2mB64B16 n sb db
  | .b64, .b32 => .m2mB64B32 n sb db
  | .b64, .b64 => .m2mB64B64 n sb db

/-- The config word as an `M2M` form: memory ports, linear modes, reserved bits 0, bursts free (30_encoding.md R101
(a) to (c), R102). -/
def decodeConfig (l : CfgLayout) (n : Chan) (w : Word) : Except DecodeError Instr :=
  if cfgSrcDrq l w ≠ l.drqMemory then .error .srcDrq
  else if cfgDstDrq l w ≠ l.drqMemory then .error .dstDrq
  else if cfgSrcMode l w ≠ l.linear then .error .srcMode
  else if cfgDstMode l w ≠ l.linear then .error .dstMode
  else if cfgReservedClear l w = false then .error .reserved
  else .ok (m2mInstr n (widthOfCode l (cfgSrcWidth l w)) (widthOfCode l (cfgDstWidth l w)) (cfgSrcBurst l w)
    (cfgDstBurst l w))

/-- The `next_addr` word as a link form; the sentinel takes priority (30_encoding.md R93, R102). -/
def decodeLink (n : Chan) (w : Word) : Except DecodeError Instr :=
  if w = linkEnd then .ok (.linkEnd n)
  else if w.toNat % 4 ≠ 0 then .error .linkMisaligned
  else if 2 ^ 32 < w.toNat + 24 then .error .linkOutOfRange
  else .ok (.linkNext n w)

/-- One word of a descriptor. Under the default layout a config form has bits [1:0] = 01 and a link form 00, so no word
is both; an engine knows which of the two it reads (43_engine.md R183, R186). -/
def decodeWord (l : CfgLayout) (n : Chan) (w : Word) : Except DecodeError Instr :=
  match decodeConfig l n w with
  | .ok i => .ok i
  | .error e => if w.toNat % 4 = 0 then decodeLink n w else .error e

/-- The record that 24 bytes hold (30_encoding.md R90). -/
def descOfBytes (bs : List Byte) : Desc where
  config   := leWord (bs.take 4)
  srcAddr  := leWord ((bs.drop 4).take 4)
  dstAddr  := leWord ((bs.drop 8).take 4)
  length   := leWord ((bs.drop 12).take 4)
  param    := leWord ((bs.drop 16).take 4)
  nextAddr := leWord ((bs.drop 20).take 4)

/-- The decoder: the bytes engine `n` reads, a whole descriptor or one word of it. Total; every other length is refused
by name (30_encoding.md R91). Whether a descriptor is admitted is judged when it is latched (43_engine.md R179). -/
def decode (l : CfgLayout) (n : Chan) (bs : List Byte) : Except DecodeError Instr :=
  if bs.length = 24 then .ok (.desc n (descOfBytes bs))
  else if bs.length = 4 then decodeWord l n (leWord bs)
  else .error .length

/-! Raw register accesses (30_encoding.md R103 to R105; 42_channel_commands.md R168, R169). -/

/-- The value of channel `n`. -/
def Machine.bankGet {α : Type} (b : PerChannel α) (n : Chan) : α :=
  match n with
  | 0 => b.c0
  | 1 => b.c1
  | 2 => b.c2
  | 3 => b.c3
  | 4 => b.c4
  | 5 => b.c5
  | 6 => b.c6
  | 7 => b.c7

/-- The 8 channel indices in order. -/
def allChans : List Chan := [0, 1, 2, 3, 4, 5, 6, 7]

/-- The address of a register of channel `n`'s block. -/
def chanReg (m : RegMap) (n : Chan) (off : Nat) : Nat := m.base + m.chBase + n.val * m.chStride + off

/-- The channel whose register at offset `off` has address `a`. -/
def chanAt (m : RegMap) (off a : Nat) : Option Chan := allChans.find? (fun n => a == chanReg m n off)

/-- The channel whose bit in a shared register is number `bit`. -/
def chanOfBit (bits : PerChannel Nat) (bit : Nat) : Option Chan :=
  allChans.find? (fun n => bit == Machine.bankGet bits n)

/-- The bit of an auto-gating field. -/
def gateBit (m : RegMap) : GateField → Nat
  | .mclk => m.agMclkBit
  | .chan => m.agChanBit
  | .common => m.agCommonBit

/-- The bit value that means `AutoGateOn` in an auto-gating field. -/
def gateOnIs (m : RegMap) : GateField → Bool
  | .mclk => m.agMclkOnIs
  | .chan => m.agChanOnIs
  | .common => m.agCommonOnIs

/-- The auto-gating field at a bit, in the order of 45_split.md R223. -/
def gateOfBit (m : RegMap) (bit : Nat) : Option GateField :=
  [GateField.mclk, .chan, .common].find? (fun g => bit == gateBit m g)

/-- What a raw access is. Only the accesses of R103 are commands; R168 names the disable and the pause, R169 the rest;
a status bit beside the busy flags holds any value (10_state.md R35; log 26). -/
def decodeAccess (m : RegMap) : RegAccess → AccessMeaning
  | .read a bit =>
    if a = m.base + m.staOff then
      match chanOfBit m.busyBit bit with
      | some n => .command (.chIsActive n)
      | none => if bit < 32 then .statusBit else .other
    else .other
  | .write a v =>
    match chanAt m m.pauseOff a with
    | some _ => .pause
    | none =>
      match chanAt m m.enOff a with
      | some n =>
        if v.getLsbD m.enBit = false then .disable
        else if v = 1#32 <<< m.enBit then .command (.chEnable n)
        else .other
      | none =>
        match chanAt m m.descAddrOff a with
        | some n => .command (.chSetDescAddr n v)
        | none => .other
  | .modify a bit v =>
    match chanAt m m.pauseOff a with
    | some _ => .pause
    | none =>
      match chanAt m m.enOff a with
      | some n => if bit ≠ m.enBit then .other else if v then .command (.chEnable n) else .disable
      | none =>
        if a = m.base + m.secOff then
          match chanOfBit m.secBit bit with
          | some n => if v = m.nonSecureIs then .command (.chSetNonsecure n) else .other
          | none => .other
        else if a = m.base + m.autogateOff then
          match gateOfBit m bit with
          | some g => if v = gateOnIs m g then .gateOn g else .other
          | none => .other
        else .other

/-! The encoder. -/

/-- `config` from its fields (30_encoding.md R94). -/
def configWord (l : CfgLayout) (srcDrq : BitVec 5) (srcMode : BitVec 1) (sb : BitVec 2) (ws : BitVec 2)
    (dstDrq : BitVec 5) (dstMode : BitVec 1) (db : BitVec 2) (wd : BitVec 2) : Word :=
  (srcDrq.setWidth 32 <<< l.srcDrqAt) ||| (srcMode.setWidth 32 <<< l.srcModeAt) ||| (sb.setWidth 32 <<< l.srcBurstAt) |||
    (ws.setWidth 32 <<< l.srcWidthAt) ||| (dstDrq.setWidth 32 <<< l.dstDrqAt) |||
    (dstMode.setWidth 32 <<< l.dstModeAt) ||| (db.setWidth 32 <<< l.dstBurstAt) ||| (wd.setWidth 32 <<< l.dstWidthAt)

/-- The config word of the form `M2M.<S>.<D>` with burst codes `sb`, `db` (30_encoding.md R99, R102). -/
def m2mWord (l : CfgLayout) (ws wd : Width) (sb db : BitVec 2) : Word :=
  configWord l l.drqMemory l.linear sb (widthCode l ws) l.drqMemory l.linear db (widthCode l wd)

/-- The 24 bytes of a descriptor in memory (30_encoding.md R90). -/
def descBytes (d : Desc) : List Byte :=
  wordBytes d.config ++ (wordBytes d.srcAddr ++ (wordBytes d.dstAddr ++
    (wordBytes d.length ++ (wordBytes d.param ++ wordBytes d.nextAddr))))

/-- How the spec encodes an instruction: bytes in memory (30_encoding.md R90, R102), raw register accesses (R103), or not
at all (R106, R108, R109). -/
inductive Code where
  | bytes (bs : List Byte)
  | accesses (as : List RegAccess)
  | nothing
  deriving DecidableEq, Repr, Inhabited

/-- The three modify-field accesses of `BLK_AUTOGATE_ENABLE` (45_split.md R223). -/
def autogateAccesses (m : RegMap) : List RegAccess :=
  [GateField.mclk, .chan, .common].map (fun g => .modify (m.base + m.autogateOff) (gateBit m g) (gateOnIs m g))

/-- The encoder, from the tables of 30_encoding.md (R90, R99, R102, R103). Config forms are encoded under a
`CfgLayout`, host commands under a `RegMap`; CCU commands, FENCE, API operations and engine steps have no encoding
(log 20). -/
def encode (l : CfgLayout) (m : RegMap) : Instr → Code
  | .desc _ d => .bytes (descBytes d)
  | .m2mB8B8 _ sb db => .bytes (wordBytes (m2mWord l .b8 .b8 sb db))
  | .m2mB8B16 _ sb db => .bytes (wordBytes (m2mWord l .b8 .b16 sb db))
  | .m2mB8B32 _ sb db => .bytes (wordBytes (m2mWord l .b8 .b32 sb db))
  | .m2mB8B64 _ sb db => .bytes (wordBytes (m2mWord l .b8 .b64 sb db))
  | .m2mB16B8 _ sb db => .bytes (wordBytes (m2mWord l .b16 .b8 sb db))
  | .m2mB16B16 _ sb db => .bytes (wordBytes (m2mWord l .b16 .b16 sb db))
  | .m2mB16B32 _ sb db => .bytes (wordBytes (m2mWord l .b16 .b32 sb db))
  | .m2mB16B64 _ sb db => .bytes (wordBytes (m2mWord l .b16 .b64 sb db))
  | .m2mB32B8 _ sb db => .bytes (wordBytes (m2mWord l .b32 .b8 sb db))
  | .m2mB32B16 _ sb db => .bytes (wordBytes (m2mWord l .b32 .b16 sb db))
  | .m2mB32B32 _ sb db => .bytes (wordBytes (m2mWord l .b32 .b32 sb db))
  | .m2mB32B64 _ sb db => .bytes (wordBytes (m2mWord l .b32 .b64 sb db))
  | .m2mB64B8 _ sb db => .bytes (wordBytes (m2mWord l .b64 .b8 sb db))
  | .m2mB64B16 _ sb db => .bytes (wordBytes (m2mWord l .b64 .b16 sb db))
  | .m2mB64B32 _ sb db => .bytes (wordBytes (m2mWord l .b64 .b32 sb db))
  | .m2mB64B64 _ sb db => .bytes (wordBytes (m2mWord l .b64 .b64 sb db))
  | .linkEnd _ => .bytes (wordBytes linkEnd)
  | .linkNext _ a => .bytes (wordBytes a)
  | .chEnable n => .accesses [.modify (chanReg m n m.enOff) m.enBit true]
  | .chIsActive n => .accesses [.read (m.base + m.staOff) (Machine.bankGet m.busyBit n)]
  | .chSetDescAddr n a => .accesses [.write (chanReg m n m.descAddrOff) a]
  | .chSetNonsecure n => .accesses [.modify (m.base + m.secOff) (Machine.bankGet m.secBit n) m.nonSecureIs]
  | .blkAutogateEnable => .accesses (autogateAccesses m)
  | .ccuResetAssert => .nothing
  | .ccuResetDeassert => .nothing
  | .ccuClockEnable => .nothing
  | .fence => .nothing
  | .descriptorNew _ => .nothing
  | .descriptorAsPtr _ => .nothing
  | .bufferBaseAddress _ => .nothing
  | .bufferElementCount _ => .nothing
  | .bufferSizeBytes _ => .nothing
  | .memToMem _ _ _ => .nothing
  | .resFree _ => .nothing
  | .transferNew _ _ => .nothing
  | .transferStart _ _ => .nothing
  | .transferWait _ _ => .nothing
  | .transferIsActive _ _ => .nothing
  | .transferWaitBounded _ _ _ => .nothing
  | .split => .nothing
  | .engFetch _ _ => .nothing
  | .engDecode _ => .nothing
  | .engMove _ _ => .nothing
  | .engLink _ => .nothing
  | .engComplete _ => .nothing
  | .drain _ => .nothing

/-- The channel a descriptor row belongs to. -/
def descriptorChan : Instr → Option Chan
  | .desc n _ => some n
  | .m2mB8B8 n _ _ => some n
  | .m2mB8B16 n _ _ => some n
  | .m2mB8B32 n _ _ => some n
  | .m2mB8B64 n _ _ => some n
  | .m2mB16B8 n _ _ => some n
  | .m2mB16B16 n _ _ => some n
  | .m2mB16B32 n _ _ => some n
  | .m2mB16B64 n _ _ => some n
  | .m2mB32B8 n _ _ => some n
  | .m2mB32B16 n _ _ => some n
  | .m2mB32B32 n _ _ => some n
  | .m2mB32B64 n _ _ => some n
  | .m2mB64B8 n _ _ => some n
  | .m2mB64B16 n _ _ => some n
  | .m2mB64B32 n _ _ => some n
  | .m2mB64B64 n _ _ => some n
  | .linkEnd n => some n
  | .linkNext n _ => some n
  | .chEnable _ => none
  | .chIsActive _ => none
  | .chSetDescAddr _ _ => none
  | .chSetNonsecure _ => none
  | .blkAutogateEnable => none
  | .ccuResetAssert => none
  | .ccuResetDeassert => none
  | .ccuClockEnable => none
  | .fence => none
  | .descriptorNew _ => none
  | .descriptorAsPtr _ => none
  | .bufferBaseAddress _ => none
  | .bufferElementCount _ => none
  | .bufferSizeBytes _ => none
  | .memToMem _ _ _ => none
  | .resFree _ => none
  | .transferNew _ _ => none
  | .transferStart _ _ => none
  | .transferWait _ _ => none
  | .transferIsActive _ _ => none
  | .transferWaitBounded _ _ _ => none
  | .split => none
  | .engFetch _ _ => none
  | .engDecode _ => none
  | .engMove _ _ => none
  | .engLink _ => none
  | .engComplete _ => none
  | .drain _ => none

/-- The instruction an opcode-table word stands for, read by the decoder as channel 0's engine reads it under the default
layout. The table gives
DESC 192 bits, a config or link word 32, and LINK.NEXT's fixed bits alone fit one byte (the rest of the word is 0). The
one bit the table gives CH_ENABLE_n is its `value` field, and value 1 is the command (30_encoding.md R103); log 19. -/
def decodeTableWord (nbits w : Nat) : Option Instr :=
  if nbits = 192 then
    match decode {} 0 (leBytes 24 w) with
    | .ok i => some i
    | .error _ => none
  else if nbits ≤ 32 ∧ w < 2 ^ nbits then
    match decode {} 0 (leBytes 4 w) with
    | .ok i => some i
    | .error _ =>
      if nbits ≤ 8 ∧ w = 2 then
        match decodeAccess {} (.modify (chanReg {} 0 0) 0 true) with
        | .command i => some i
        | _ => none
      else none
  else none

end Sys2Proof
end

