-- ==== Sys2Proof/Machine/State.lean ====
section
/-! DEFINITION. The state of the machine (10_state.md), its faults and refusals (60_exceptions.md R245, R246), and the
state at power-on (10_state.md R53, 70_reset_and_hazards.md R260). -/

namespace Sys2Proof.Machine

/-- The one reason an engine faults (43_engine.md R177, R190). -/
inductive FaultReason where
  | misalignedDescriptor
  deriving DecidableEq, Repr, Inhabited

/-- What an engine does next (43_engine.md R175). `fault` holds the recorded reason (R190). -/
inductive Phase where
  | idle
  | fetch
  | move
  | fault (r : FaultReason)
  deriving DecidableEq, Repr, Inhabited

/-- The words of the current descriptor read so far, word index 0..5 (10_state.md R34). -/
structure FetchBuf where
  w0 : Option Word
  w1 : Option Word
  w2 : Option Word
  w3 : Option Word
  w4 : Option Word
  w5 : Option Word
  deriving DecidableEq, Repr, Inhabited

/-- The register block and the hidden engine state of one channel (10_state.md R20 to R34). -/
structure Channel where
  /-- R21. -/
  en        : Val Bool
  /-- R22. -/
  pause     : Val Bool
  /-- R23. -/
  descAddr  : Val Word
  /-- R24. -/
  cfg       : Val Word
  /-- R25. -/
  curSrc    : Val Word
  /-- R26. -/
  curDst    : Val Word
  /-- R27. -/
  bcntLeft  : Val Word
  /-- R28. -/
  para      : Val Word
  /-- R29: no rule reads or writes it but the block reset. -/
  mode      : Val Word
  /-- R30: no rule reads or writes it but the block reset. -/
  fdescAddr : Val Word
  /-- R31: no rule reads or writes it but the block reset. -/
  pkgNum    : Val Word
  /-- R32: the program counter of the channel. -/
  dptr      : Val Word
  /-- R34. -/
  phase     : Phase
  /-- R34. -/
  fw        : FetchBuf
  /-- R34. -/
  nxt       : Val Word
  /-- The model's own: `length` of the descriptor under way, so that its whole ranges are known (20_memory.md R84;
  log 30). -/
  len       : Val Word
  deriving DecidableEq, Repr, Inhabited

/-- A security domain (10_state.md R36). -/
inductive Domain where
  | secure
  | nonSecure
  deriving DecidableEq, Repr, Inhabited

/-- A value of an auto-gating field (10_state.md R37). -/
inductive Gate where
  | on
  | off
  deriving DecidableEq, Repr, Inhabited

/-- Block-level state (10_state.md R35 to R39). -/
structure Block where
  /-- R35: the busy flags of the shared status register. -/
  busy      : PerChannel (Val Bool)
  /-- R36. -/
  sec       : PerChannel (Val Domain)
  /-- R37. -/
  agMclk    : Val Gate
  /-- R37. -/
  agChan    : Val Gate
  /-- R37. -/
  agCommon  : Val Gate
  /-- R38. -/
  clkOn     : Val Bool
  /-- R38. -/
  inReset   : Val Bool
  /-- R39. -/
  splitDone : Bool
  deriving DecidableEq, Repr, Inhabited

/-- System memory as (address, byte) pairs, addresses strictly rising; an unlisted byte is `unset` (10_state.md R53;
log 6). -/
abbrev Memory := List Host.Cell

/-- One pending CPU store (20_memory.md R72): the bytes go to `addr`, `addr + 1`, ... -/
structure PendingStore where
  addr  : Nat
  bytes : List Byte
  deriving DecidableEq, Repr, Inhabited

/-- The lifecycle arbiter's record of one channel (10_state.md R49). -/
inductive Life where
  | free
  | ready (r : Resources)
  | started (r : Resources)
  deriving DecidableEq, Repr, Inhabited

/-- Which side a `SizeOverflow` names (60_exceptions.md R230). -/
inductive Side where
  | src
  | dst
  deriving DecidableEq, Repr, Inhabited

/-- The operation a `LifecycleViolation` names (44_transfer_lifecycle.md R206; `wait_bounded` raises it as `wait`, R205). -/
inductive LifeOp where
  | new
  | start
  | wait
  | isActive
  deriving DecidableEq, Repr, Inhabited

/-- The fatal errors with the information they record (60_exceptions.md R230). `HardwareTimeout` is returned, not raised
(R231): it is `Ret.timeout`. -/
inductive CpuError where
  | sizeOverflow (side : Side) (size : Nat)
  | sizeMismatch (srcSize dstSize : Nat)
  | alignmentViolation (A : Nat)
  | lifecycleViolation (op : LifeOp) (found : Life)
  deriving DecidableEq, Repr, Inhabited

/-- The CPU's run state (10_state.md R50). -/
inductive Run where
  | running
  | aborted (e : CpuError)
  deriving DecidableEq, Repr, Inhabited

/-- The value the last value-returning operation of the CPU gave (log 8). -/
inductive Ret where
  | nothing
  /-- `CH_IS_ACTIVE`, `is_active` (42_channel_commands.md R157). -/
  | active (b : Bool)
  /-- A read of a status bit that is not described (10_state.md R35; log 26). -/
  | statusBit (b : Bool)
  /-- `as_ptr`, `base_address` (40_descriptor_and_buffers.md R121, R123). -/
  | address (a : Nat)
  /-- `element_count` (R124). -/
  | count (c : Nat)
  /-- `size_bytes` (R125). -/
  | size (z : Nat)
  /-- `CpuLoad` (20_memory.md R71). -/
  | loaded (v : Nat)
  /-- `mem_to_mem` (41_transfer_resources.md R140), `wait` (44_transfer_lifecycle.md R203), `Ok(res)` of `wait_bounded`. -/
  | resources (r : Resources)
  /-- `free`: the descriptor's address and the two buffers (41_transfer_resources.md R148). -/
  | parts (desc : Nat) (src dst : Buffer)
  /-- `Transfer::new`, `start` (44_transfer_lifecycle.md R201, R202). -/
  | transfer (x : Transfer)
  /-- `Err(HardwareTimeout, x)` of `wait_bounded` (44_transfer_lifecycle.md R205). -/
  | timeout (x : Transfer)
  /-- `split`: a handle with the channels `0 .. nimpl - 1` (45_split.md R224). -/
  | dma (nimpl : Nat)
  deriving DecidableEq, Repr, Inhabited

/-- The CPU side (10_state.md R43, R50). `prog`, `ret` (log 8) and `doing` (log 9) are the model's own. -/
structure Cpu where
  /-- R43: the pending stores, oldest first. -/
  sb    : List PendingStore
  /-- R43: (address, older value) pairs; the older value may be `unset` (log 17). -/
  stale : List (Nat × Val Byte)
  /-- R50. -/
  run   : Run
  /-- What the CPU does next, in order. -/
  prog  : List CpuOp
  /-- The CPU steps left of the operation under way, before `prog` goes on. -/
  doing : List Rest
  /-- The last returned value. -/
  ret   : Ret
  deriving DecidableEq, Repr, Inhabited

/-- The whole machine. `config` is fixed for a run (10_state.md R51); `sched` and `tick` carry the free choice of who
steps next (log 7). -/
structure State where
  config : Config
  ch     : PerChannel Channel
  blk    : Block
  mem    : Memory
  cpu    : Cpu
  /-- R49, one record per channel. -/
  life   : PerChannel Life
  /-- R49: the `TransferResources` in existence, whose ranges are pinned (log 27). -/
  pinned : List Resources
  sched  : List Turn
  tick   : Nat
  deriving DecidableEq, Repr, Inhabited

/-- The machine stops with a fault only where an instruction is asked for that is no transition of this state. -/
inductive Fault where
  /-- Raised by exec for a descriptor row, an engine step or DRAIN whose enabling condition does not hold (43_engine.md
  R175, R178, R179, R183, R186, R187; 20_memory.md R74). Safe: there is no such step. `step` never asks for one. -/
  | notEnabled
  deriving DecidableEq, Repr, Inhabited

/-- The refusals: the closed list of 60_exceptions.md R246, and three of the model's own. All are safe. -/
inductive Refusal where
  /-- Raised by exec for an instruction without a meaning. Safe. -/
  | notModelled (mnemonic : String)
  /-- 00_scope.md R13, 42_channel_commands.md R160: a rule reads a value nothing has written. Safe. -/
  | unsetState
  /-- 20_memory.md R60, 43_engine.md R177, R183: an access to an address `is_ram` rejects. Safe. -/
  | unmappedAccess
  /-- 20_memory.md R83, R84, 41_transfer_resources.md R144, R149: an access to, or a use of, what is owned. Safe. -/
  | ownershipViolation
  /-- 40_descriptor_and_buffers.md R121, R128, 41_transfer_resources.md R144. Safe. -/
  | addressOutOfRange
  /-- 40_descriptor_and_buffers.md R128. Safe. -/
  | misalignedBuffer
  /-- 41_transfer_resources.md R144. Safe. -/
  | overlappingResources
  /-- 42_channel_commands.md R155, 45_split.md R223. Safe. -/
  | channelNotUsable
  /-- 42_channel_commands.md R161. Safe. -/
  | enableWhileBusy
  /-- 42_channel_commands.md R162. Safe. -/
  | writeWhileBusy
  /-- 42_channel_commands.md R156, R159. Safe. -/
  | secureChannel
  /-- 42_channel_commands.md R168: a raw write of 0 to the enable bit. Safe. -/
  | disableNotModelled
  /-- 42_channel_commands.md R168: a raw write to the pause register. Safe. -/
  | pauseNotModelled
  /-- 42_channel_commands.md R169: any other raw register access. Safe. -/
  | registerAccessNotModelled
  /-- 43_engine.md R180. Safe. -/
  | malformedDescriptor
  /-- 44_transfer_lifecycle.md R209: a CPU program drops a `Transfer`. Safe. -/
  | transferDropped
  /-- 45_split.md R226. Safe. -/
  | secondSplit
  /-- 45_split.md R226. Safe. -/
  | resetWhileBusy
  /-- The model's own: the CPU's program holds a term that cannot be written (log 29). Safe. -/
  | illFormed
  /-- The model's own: `wait_bounded` with a bound that is not a configured positive `POLL_LIMIT`
  (44_transfer_lifecycle.md R205; log 15). Safe. -/
  | operationAbsent
  deriving DecidableEq, Repr, Inhabited

/-- The outcome of one instruction or one step. -/
abbrev Outcome := Host.Outcome State Fault Refusal

/-- Why a guard of a rule does not let the rule go on. -/
inductive Stop where
  | notEnabled
  | refuse (r : Refusal)
  deriving DecidableEq, Repr, Inhabited

/-- The same value for every channel. -/
def everyChannel {α : Type} (v : α) : PerChannel α := ⟨v, v, v, v, v, v, v, v⟩

/-- No word read yet. -/
def emptyFetch : FetchBuf := ⟨none, none, none, none, none, none⟩

/-- A channel at power-on (70_reset_and_hazards.md R260): idle, and nothing else has a value (log 5). -/
def powerOnChannel : Channel where
  en := .unset
  pause := .unset
  descAddr := .unset
  cfg := .unset
  curSrc := .unset
  curDst := .unset
  bcntLeft := .unset
  para := .unset
  mode := .unset
  fdescAddr := .unset
  pkgNum := .unset
  dptr := .unset
  phase := .idle
  fw := emptyFetch
  nxt := .unset
  len := .unset

/-- A channel after the block reset: the table of 10_state.md R53 (45_split.md R221). -/
def resetChannel : Channel := { powerOnChannel with en := .of false, pause := .of false }

/-- The block at power-on (70_reset_and_hazards.md R260; log 5). -/
def powerOnBlock : Block where
  busy := everyChannel .unset
  sec := everyChannel .unset
  agMclk := .unset
  agChan := .unset
  agCommon := .unset
  clkOn := .unset
  inReset := .unset
  splitDone := false

/-- The CPU at power-on (10_state.md R53). -/
def resetCpu : Cpu where
  sb := []
  stale := []
  run := .running
  prog := []
  doing := []
  ret := .nothing

/-- The machine at power-on (70_reset_and_hazards.md R260, 10_state.md R53), in the example configuration (log 1). -/
def State.reset : State where
  config := exampleConfig
  ch := everyChannel powerOnChannel
  blk := powerOnBlock
  mem := []
  cpu := resetCpu
  life := everyChannel .free
  pinned := []
  sched := []
  tick := 0

end Sys2Proof.Machine
end

