-- ==== Sys2Proof/Machine/Operands.lean ====
section
/-! DEFINITION. The operand forms: what a descriptor's words stand for (30_encoding.md R100), which descriptors are
admitted (R101, 43_engine.md R180), the geometry of buffers (40_descriptor_and_buffers.md R123 to R128) and of resources
(10_state.md R46, R49), the words `mem_to_mem` writes (41_transfer_resources.md R145), and free choices (00_scope.md R12). -/

namespace Sys2Proof.Machine

/-- `is_ram(a)` (20_memory.md R60): a 32-bit address inside a region of RAM. -/
def isRam (c : Config) (a : Nat) : Bool :=
  decide (a < 2 ^ 32) && c.ram.any (fun r => decide (r.base ≤ a) && decide (a < r.base + r.size))

/-- Every byte of `a .. a + k - 1` is RAM. -/
def rangeRam (c : Config) (a : Nat) : Nat → Bool
  | 0 => true
  | k + 1 => isRam c (a + k) && rangeRam c a k

/-- The byte ranges `[a, a + k)` and `[b, b + l)` have a common byte; an empty range overlaps nothing
(41_transfer_resources.md R144). -/
def overlaps (a k b l : Nat) : Bool :=
  decide (0 < k) && decide (0 < l) && decide (a < b + l) && decide (b < a + k)

/-- `s.size_bytes()`, a natural number (40_descriptor_and_buffers.md R125). -/
def sizeBytes (b : Buffer) : Nat := b.count * b.width.bytes

/-- The three ranges a `TransferResources` owns (10_state.md R49), as (base, length) pairs. -/
def resourceRanges (r : Resources) : List (Nat × Nat) :=
  [(r.desc, 24), (r.src.base, sizeBytes r.src), (r.dst.base, sizeBytes r.dst)]

/-- `[a, a + k)` overlaps a range of `r`. -/
def touchesResources (r : Resources) (a k : Nat) : Bool :=
  (resourceRanges r).any (fun p => overlaps p.1 p.2 a k)

/-- `[a, a + k)` overlaps `pinned` (10_state.md R49). -/
def touchesPinned (pinned : List Resources) (a k : Nat) : Bool :=
  pinned.any (fun r => touchesResources r a k)

/-- The access width of the source side in bytes, `1 << src_width` (30_encoding.md R100). -/
def srcAccess (l : CfgLayout) (d : Desc) : Nat := (widthOfCode l (cfgSrcWidth l d.config)).bytes

/-- The access width of the destination side in bytes (30_encoding.md R100). -/
def dstAccess (l : CfgLayout) (d : Desc) : Nat := (widthOfCode l (cfgDstWidth l d.config)).bytes

/-- The burst length of the source side (30_encoding.md R97, R100). It selects no result (70_reset_and_hazards.md R284). -/
def srcBurst (l : CfgLayout) (d : Desc) : Nat := burstLength l (cfgSrcBurst l d.config)

/-- The burst length of the destination side (30_encoding.md R97, R100). -/
def dstBurst (l : CfgLayout) (d : Desc) : Nat := burstLength l (cfgDstBurst l d.config)

/-- 30_encoding.md R101 (a) to (c): memory ports, linear modes, reserved bits 0. -/
def configAdmitted (l : CfgLayout) (w : Word) : Bool :=
  match decodeConfig l 0 w with
  | .ok _ => true
  | .error _ => false

/-- 30_encoding.md R101 (h): the sentinel, or a multiple of 4 with room for a descriptor. -/
def linkAdmitted (w : Word) : Bool :=
  decide (w = linkEnd) || (decide (w.toNat % 4 = 0) && decide (w.toNat + 24 ≤ 2 ^ 32))

/-- The admitted descriptors, `a` the descriptor's own address (30_encoding.md R101, 43_engine.md R180). -/
def admitted (l : CfgLayout) (d : Desc) (a : Nat) : Bool :=
  configAdmitted l d.config
    && decide (1 ≤ d.length.toNat)
    && decide (d.length.toNat % srcAccess l d = 0) && decide (d.length.toNat % dstAccess l d = 0)
    && decide (d.srcAddr.toNat % srcAccess l d = 0) && decide (d.dstAddr.toNat % dstAccess l d = 0)
    && decide (d.srcAddr.toNat + d.length.toNat ≤ 2 ^ 32) && decide (d.dstAddr.toNat + d.length.toNat ≤ 2 ^ 32)
    && !overlaps d.dstAddr.toNat d.length.toNat d.srcAddr.toNat d.length.toNat
    && !overlaps d.dstAddr.toNat d.length.toNat a 24
    && linkAdmitted d.nextAddr

/-- Why a buffer is not well formed (40_descriptor_and_buffers.md R128), in the order R128 lists the conditions (log 14).
An address of 2^32 or more is out of range even where no byte lies there (70_reset_and_hazards.md R281). -/
def bufferStop (c : Config) (b : Buffer) : Option Stop :=
  if b.base % b.width.bytes ≠ 0 then some (.refuse .misalignedBuffer)
  else if 2 ^ 32 ≤ b.base ∨ 2 ^ 32 < b.base + sizeBytes b then some (.refuse .addressOutOfRange)
  else if rangeRam c b.base (sizeBytes b) = false then some (.refuse .addressOutOfRange)
  else none

/-- The descriptor `mem_to_mem` writes (41_transfer_resources.md R145, 30_encoding.md R99). -/
def memToMemDesc (c : Config) (s t : Buffer) : Desc where
  config   := m2mWord c.layout s.width t.width c.burstDefault c.burstDefault
  srcAddr  := BitVec.ofNat 32 s.base
  dstAddr  := BitVec.ofNat 32 t.base
  length   := BitVec.ofNat 32 (sizeBytes s)
  param    := c.paramNormalWait
  nextAddr := linkEnd

/-- The words of a fresh descriptor (40_descriptor_and_buffers.md R120). -/
def freshDesc : Desc where
  config   := 0#32
  srcAddr  := 0#32
  dstAddr  := 0#32
  length   := 0#32
  param    := 0#32
  nextAddr := linkEnd

/-- `choose` from a non-empty list (00_scope.md R12): the element the number picks. -/
def choose {α : Type} (first : α) (others : List α) (pick : Nat) : α :=
  ((first :: others)[pick % (others.length + 1)]?).getD first

/-- The `j`-th independent choice inside one pick: one digit to base 512, since a byte has at most 258 candidates
(`mem` and every `stale` value, log 16). -/
def pickDigit (pick j : Nat) : Nat := pick / 512 ^ j % 512

/-- The register `dom(fw)` at word index `i` (10_state.md R34). -/
def fwGet (f : FetchBuf) (i : Fin 6) : Option Word :=
  match i with
  | 0 => f.w0
  | 1 => f.w1
  | 2 => f.w2
  | 3 => f.w3
  | 4 => f.w4
  | 5 => f.w5

/-- `fw[i] <- w` (43_engine.md R178). -/
def fwSet (f : FetchBuf) (i : Fin 6) (w : Word) : FetchBuf :=
  match i with
  | 0 => { f with w0 := some w }
  | 1 => { f with w1 := some w }
  | 2 => { f with w2 := some w }
  | 3 => { f with w3 := some w }
  | 4 => { f with w4 := some w }
  | 5 => { f with w5 := some w }

/-- The six words when all have been read (43_engine.md R179). -/
def fwDesc (f : FetchBuf) : Option Desc :=
  match f.w0, f.w1, f.w2, f.w3, f.w4, f.w5 with
  | some c, some s, some d, some l, some p, some n => some ⟨c, s, d, l, p, n⟩
  | _, _, _, _, _, _ => none

/-- The words not yet read (43_engine.md R178). -/
def unreadWords (f : FetchBuf) : List (Fin 6) :=
  ([0, 1, 2, 3, 4, 5] : List (Fin 6)).filter (fun i => (fwGet f i).isNone)

end Sys2Proof.Machine
end

