-- ==== Sys2Proof/Machine/Ops.lean ====
section
/-! DEFINITION. The shared operations: banks of channels, memory (20_memory.md R60, R62), the CPU's pending stores and
stale bytes (R71 to R75), the engine's reads and writes (R73), and the two ways a rule goes wrong by changing state:
raising a fatal error (60_exceptions.md R236) and faulting an engine (43_engine.md R190). There is no return from either
(60_exceptions.md R243, 43_engine.md R190). -/

namespace Sys2Proof.Machine

/-! Banks. -/

/-- The bank with the value of channel `n` replaced. -/
def bankSet {α : Type} (b : PerChannel α) (n : Chan) (v : α) : PerChannel α :=
  match n with
  | 0 => { b with c0 := v }
  | 1 => { b with c1 := v }
  | 2 => { b with c2 := v }
  | 3 => { b with c3 := v }
  | 4 => { b with c4 := v }
  | 5 => { b with c5 := v }
  | 6 => { b with c6 := v }
  | 7 => { b with c7 := v }

/-- Channel `n`'s registers and hidden state. -/
def getCh (s : State) (n : Chan) : Channel := bankGet s.ch n

/-- Replace channel `n`'s registers and hidden state. -/
def setCh (s : State) (n : Chan) (c : Channel) : State := { s with ch := bankSet s.ch n c }

/-- `blk.busy[n]` (10_state.md R35). -/
def getBusy (s : State) (n : Chan) : Val Bool := bankGet s.blk.busy n

/-- `blk.sec[n]` (10_state.md R36). -/
def getSec (s : State) (n : Chan) : Val Domain := bankGet s.blk.sec n

/-- `life[n]` (10_state.md R49). -/
def getLife (s : State) (n : Chan) : Life := bankGet s.life n

/-- `life[n] <- l`. -/
def setLife (s : State) (n : Chan) (l : Life) : State := { s with life := bankSet s.life n l }

/-- The value an operation returns to the program (log 8). -/
def setRet (s : State) (v : Ret) : State := { s with cpu := { s.cpu with ret := v } }

/-- An operation goes in front of the CPU's program. -/
def pushOp (s : State) (op : CpuOp) : State := { s with cpu := { s.cpu with prog := op :: s.cpu.prog } }

/-- These steps are what the CPU does next: the operation under way goes on with them (30_encoding.md R108; log 9). -/
def pushRest (s : State) (rs : List Rest) : State := { s with cpu := { s.cpu with doing := rs ++ s.cpu.doing } }

/-- The operation goes on in the CPU's next steps. -/
def later (rs : List Rest) (s : State) : Outcome := .next (pushRest s rs)

/-! Guards. -/

/-- The outcome of a guard that fails. -/
def stopOutcome : Stop → Outcome
  | .notEnabled => .fault .notEnabled
  | .refuse r => .refused r

/-- Go on when the guard lets the rule go on. -/
def guarded (g : Option Stop) (k : Outcome) : Outcome :=
  match g with
  | none => k
  | some x => stopOutcome x

/-- `require b else x`. -/
def require (b : Bool) (x : Stop) : Option Stop := if b then none else some x

/-- `require v = a else x`, where reading an `unset` value refuses (00_scope.md R13). -/
def requireVal {α : Type} [DecidableEq α] (v : Val α) (a : α) (x : Stop) : Option Stop :=
  match v with
  | .unset => some (.refuse .unsetState)
  | .of b => if b = a then none else some x

/-- Go on with a value a rule reads; reading an `unset` one refuses (00_scope.md R13). -/
def readVal {α : Type} (v : Val α) (k : α → Outcome) : Outcome :=
  match v with
  | .unset => .refused .unsetState
  | .of a => k a

/-- The first of two guards that fails, read from left to right (log 18). -/
def both (g h : Option Stop) : Option Stop :=
  match g with
  | none => h
  | some x => some x

/-- One operation after another: the second runs in the state the first leaves (30_encoding.md R108). -/
def andThen (o : Outcome) (k : State → Outcome) : Outcome :=
  match o with
  | .next s => k s
  | .fault f => .fault f
  | .refused r => .refused r

/-! The two changes of state of a rule that goes wrong. -/

/-- `raise E(info)`: the CPU's run ends, and nothing else changes (60_exceptions.md R236, R237). -/
def raiseError (e : CpuError) (s : State) : Outcome :=
  .next { s with cpu := { s.cpu with run := .aborted e } }

/-- `fault(reason)`: the engine enters its absorbing phase; `busy[n]` and `en` stay as they are (43_engine.md R190). -/
def engineFault (n : Chan) (r : FaultReason) (s : State) : State :=
  setCh s n { getCh s n with phase := .fault r }

/-! Memory. -/

/-- The canonical form: addresses strictly rising, all below 2^32. No entry can equal what an unlisted address reads as,
since that is `unset` (log 6). -/
def Memory.wf : Memory → Bool
  | [] => true
  | [(x, _)] => decide (x < 2 ^ 32)
  | (x, _) :: (y, c) :: rest => decide (x < y) && Memory.wf ((y, c) :: rest)

/-- `mem[a]` (00_scope.md R10); `unset` where nothing has written (10_state.md R53). -/
def memRead : Memory → Nat → Val Byte
  | [], _ => .unset
  | (x, b) :: rest, a => if x = a then .of b else memRead rest a

/-- `mem[a] <- b`, keeping the canonical form. -/
def memWrite : Memory → Nat → Byte → Memory
  | [], a, b => [(a, b)]
  | (x, c) :: rest, a, b =>
    if a < x then (a, b) :: (x, c) :: rest
    else if a = x then (a, b) :: rest
    else (x, c) :: memWrite rest a b

/-- Bytes to ascending addresses from `a`. -/
def memWriteBytes : Memory → Nat → List Byte → Memory
  | m, _, [] => m
  | m, a, b :: bs => memWriteBytes (memWrite m a b) (a + 1) bs

/-- `MemRead(a, k)`: the bytes `mem[a] .. mem[a+k-1]` (20_memory.md R73); none when one of them is `unset`. -/
def memReadBytes (m : Memory) (a : Nat) : Nat → Option (List Byte)
  | 0 => some []
  | k + 1 =>
    match memRead m a with
    | .unset => none
    | .of b => (memReadBytes m (a + 1) k).map (b :: ·)

/-- A little-endian 32-bit word of memory (20_memory.md R62). -/
def memReadWord (m : Memory) (a : Nat) : Option Word := (memReadBytes m a 4).map leWord

/-- Add an older value to the stale set of an address (20_memory.md R73). -/
def staleAdd (st : List (Nat × Val Byte)) (a : Nat) (v : Val Byte) : List (Nat × Val Byte) :=
  if (a, v) ∈ st then st else (a, v) :: st

/-- The older values a load of address `a` may still return. -/
def staleAt (st : List (Nat × Val Byte)) (a : Nat) : List (Val Byte) :=
  (st.filter (fun p => p.1 == a)).map Prod.snd

/-- Empty the stale sets of `a .. a + k - 1` (20_memory.md R72). -/
def staleClear (st : List (Nat × Val Byte)) (a k : Nat) : List (Nat × Val Byte) :=
  st.filter (fun p => !(decide (a ≤ p.1) && decide (p.1 < a + k)))

/-- `MemWrite(a, k, v)` by an engine: each old byte goes to the stale set, then the new byte is written (20_memory.md
R73). -/
def engineWrite : State → Nat → List Byte → State
  | s, _, [] => s
  | s, a, b :: bs =>
    engineWrite
      { s with
        mem := memWrite s.mem a b
        cpu := { s.cpu with stale := staleAdd s.cpu.stale a (memRead s.mem a) } }
      (a + 1) bs

/-! The CPU's stores and loads. -/

/-- The store covers the byte at `b`. -/
def storeCovers (p : PendingStore) (b : Nat) : Bool :=
  decide (p.addr ≤ b) && decide (b < p.addr + p.bytes.length)

/-- The byte a store holds for address `b`. -/
def storeByte (p : PendingStore) (b : Nat) : Byte := (p.bytes[b - p.addr]?).getD 0#8

/-- The byte of the latest pending store that covers `b` (20_memory.md R71). -/
def forwarded (sb : List PendingStore) (b : Nat) : Option Byte :=
  (sb.reverse.find? (fun p => storeCovers p b)).map (fun p => storeByte p b)

/-- One byte of a CPU load: forwarded, else chosen among `mem[b]` and the stale bytes (20_memory.md R71). -/
def loadByte (s : State) (b pick : Nat) : Val Byte :=
  match forwarded s.cpu.sb b with
  | some v => .of v
  | none => choose (memRead s.mem b) (staleAt s.cpu.stale b) pick

/-- The bytes of a CPU load, each chosen by itself; none when a chosen byte is `unset`. -/
def loadBytes (s : State) (a pick : Nat) : Nat → Nat → Option (List Byte)
  | _, 0 => some []
  | j, k + 1 =>
    match loadByte s (a + j) (pickDigit pick j) with
    | .unset => none
    | .of b => (loadBytes s a pick (j + 1) k).map (b :: ·)

/-- Why the CPU may not touch `[a, a + k)`: it is pinned (20_memory.md R83), or it is not memory (R60; log 12). Unpinned
memory that an engine driven by hand works on is not refused (R81, 43_engine.md R184). DEDUCED, log 39. -/
def accessStop (s : State) (a k : Nat) : Option Stop :=
  both (require (!touchesPinned s.pinned a k) (.refuse .ownershipViolation))
    (require (rangeRam s.config a k) (.refuse .unmappedAccess))

/-- The effect of `CpuStore`: the store is pending and the stale bytes it covers are gone (20_memory.md R72). -/
def storeEffect (a : Nat) (bs : List Byte) (s : State) : State :=
  { s with
    cpu := { s.cpu with
      sb := s.cpu.sb ++ [⟨a, bs⟩]
      stale := staleClear s.cpu.stale a bs.length } }

/-- `CpuStore(a, 4, v)` of a word of a descriptor (20_memory.md R66 (e), R72, R83). -/
def storeWord (a : Nat) (v : Word) (s : State) : Outcome :=
  guarded (accessStop s a 4) (.next (storeEffect a (wordBytes v) s))

/-- The second to the fifth of the six stores of a descriptor (41_transfer_resources.md R145). -/
def storeMiddle (A : Nat) (d : Desc) (s : State) : Outcome :=
  andThen (andThen (andThen (storeWord (A + 4) d.srcAddr s) (storeWord (A + 8) d.dstAddr))
    (storeWord (A + 12) d.length)) (storeWord (A + 16) d.param)

/-- The same as steps left. -/
def middleRest (A : Nat) (d : Desc) : List Rest :=
  [.store (A + 4) d.srcAddr, .store (A + 8) d.dstAddr, .store (A + 12) d.length, .store (A + 16) d.param]

/-- The state after the six 4-byte stores of a descriptor, in field order (20_memory.md R66 (e), 41_transfer_resources.md
R145). -/
def storeDesc (A : Nat) (d : Desc) (s : State) : State :=
  storeEffect (A + 20) (wordBytes d.nextAddr)
    (storeEffect (A + 16) (wordBytes d.param)
      (storeEffect (A + 12) (wordBytes d.length)
        (storeEffect (A + 8) (wordBytes d.dstAddr)
          (storeEffect (A + 4) (wordBytes d.srcAddr)
            (storeEffect A (wordBytes d.config) s)))))

/-- Write pending stores to memory in program order (20_memory.md R75). -/
def drainAll : Memory → List PendingStore → Memory
  | m, [] => m
  | m, p :: rest => drainAll (memWriteBytes m p.addr p.bytes) rest

/-- `Fence()`: every pending store is in memory and no stale byte is left (20_memory.md R75). -/
def fenceEffect (s : State) : State :=
  { s with
    mem := drainAll s.mem s.cpu.sb
    cpu := { s.cpu with sb := [], stale := [] } }

/-- Two stores have a byte in common. -/
def storesOverlap (p q : PendingStore) : Bool := overlaps p.addr p.bytes.length q.addr q.bytes.length

/-- The store at position `j` may drain: no earlier pending store overlaps it (20_memory.md R74). -/
def eligible (sb : List PendingStore) (j : Nat) : Bool :=
  match sb[j]? with
  | none => false
  | some p => (sb.take j).all (fun q => !storesOverlap q p)

/-- The store at position `j` reaches memory and leaves `cpu.sb` (20_memory.md R74). -/
def drainEffect (j : Nat) (s : State) : State :=
  match s.cpu.sb[j]? with
  | none => s
  | some p =>
    { s with
      mem := memWriteBytes s.mem p.addr p.bytes
      cpu := { s.cpu with sb := s.cpu.sb.eraseIdx j } }

/-! Ownership. -/

/-- A `Transfer` on some channel holds `r`: it is not in the caller's hands (41_transfer_resources.md R149). -/
def heldByTransfer (s : State) (r : Resources) : Bool :=
  allChans.any (fun n => decide (getLife s n = .ready r) || decide (getLife s n = .started r))

/-- `r` is a `TransferResources` in the caller's hands: it exists and no `Transfer` holds it (10_state.md R46,
41_transfer_resources.md R149; log 13). An engine that works on `r` because its descriptor was enabled by hand is no
`Transfer`: R149 gives `free` no outcome then, and it is carried out. DESIGN CHOICE, log 38. -/
def inCallersHands (s : State) (r : Resources) : Bool :=
  decide (r ∈ s.pinned) && !heldByTransfer s r

end Sys2Proof.Machine
end

