-- ==== Sys2Proof/Machine/Binding.lean ====
section
/-! DEFINITION. The meanings of `mem_to_mem` and `free` (41_transfer_resources.md R140 to R149). -/

namespace Sys2Proof.Machine

/-- The error `mem_to_mem` raises, in the order of the checks (41_transfer_resources.md R141 to R143, 60_exceptions.md
R234). -/
def memToMemError (A : Nat) (s t : Buffer) : Option CpuError :=
  if maxLen < sizeBytes s then some (.sizeOverflow .src (sizeBytes s))
  else if maxLen < sizeBytes t then some (.sizeOverflow .dst (sizeBytes t))
  else if sizeBytes s ≠ sizeBytes t then some (.sizeMismatch (sizeBytes s) (sizeBytes t))
  else if A % 2 ≠ 0 then some (.alignmentViolation A)
  else none

/-- Two of the three ranges of `r` overlap (41_transfer_resources.md R144). -/
def selfOverlap (r : Resources) : Bool :=
  overlaps r.desc 24 r.src.base (sizeBytes r.src)
    || overlaps r.desc 24 r.dst.base (sizeBytes r.dst)
    || overlaps r.src.base (sizeBytes r.src) r.dst.base (sizeBytes r.dst)

/-- The descriptor's place is memory below 2^32 (41_transfer_resources.md R144). -/
def descPlaceStop (c : Config) (A : Nat) : Option Stop :=
  both (require (decide (A + 24 ≤ 2 ^ 32)) (.refuse .addressOutOfRange))
    (require (rangeRam c A 24) (.refuse .addressOutOfRange))

/-- The model-side refusals of `mem_to_mem`, in the order R144 lists them (41_transfer_resources.md R144; log 14).
Memory that an engine driven by hand works on is no ground of R144 while it is unpinned: DEDUCED, log 39. -/
def memToMemStop (A : Nat) (s t : Buffer) (m : State) : Option Stop :=
  both (bufferStop m.config s)
    (both (bufferStop m.config t)
      (both (descPlaceStop m.config A)
        (both (require (!selfOverlap ⟨A, s, t⟩) (.refuse .overlappingResources))
          (require (!(resourceRanges ⟨A, s, t⟩).any (fun p => touchesPinned m.pinned p.1 p.2))
            (.refuse .ownershipViolation)))))

/-- `mem_to_mem(d @ A, s, t)` up to its first store, and then `k` (41_transfer_resources.md R140, R145). The six stores
pass the ownership check of R83 by themselves: nothing of the descriptor is pinned until the last one is made. -/
def memToMemFrom (A : Nat) (s t : Buffer) (k : State → Outcome) (m : State) : Outcome :=
  match memToMemError A s t with
  | some e => raiseError e m
  | none =>
    guarded (memToMemStop A s t m) (andThen (storeWord A (memToMemDesc m.config s t).config m) k)

/-- The last store of `mem_to_mem`, and its return: the three ranges are pinned (41_transfer_resources.md R140). -/
def bindEnd (A : Nat) (s t : Buffer) (m : State) : Outcome :=
  andThen (storeWord (A + 20) linkEnd m)
    (fun u => .next (setRet { u with pinned := ⟨A, s, t⟩ :: u.pinned } (.resources ⟨A, s, t⟩)))

/-- `mem_to_mem(d @ A, s, t)` (41_transfer_resources.md R140, R145). -/
def execMemToMem (A : Nat) (s t : Buffer) (m : State) : Outcome :=
  memToMemFrom A s t (fun u => andThen (storeMiddle A (memToMemDesc u.config s t) u) (bindEnd A s t)) m

/-- `res.free()` (41_transfer_resources.md R148), of a `TransferResources` in the caller's hands (R149; log 13, and log 38 for an
engine that works on it by hand). -/
def execResFree (r : Resources) (s : State) : Outcome :=
  guarded (require (inCallersHands s r) (.refuse .ownershipViolation))
    (.next (setRet { s with pinned := s.pinned.filter (fun q => decide (q ≠ r)) } (.parts r.desc r.src r.dst)))

end Sys2Proof.Machine
end

