-- ==== Sys2Proof/Machine/Flags.lean ====
section
/-! DEFINITION. The four one-bit flags of a channel (10_state.md R33), the guards built on them (42_channel_commands.md
R155, 43_engine.md R175), and the transitions of `en` and `busy` (R156, R187) and of the block reset (45_split.md R221). -/

namespace Sys2Proof.Machine

/-- The block is set up: the part of `usable(n)` that names no channel (42_channel_commands.md R155). 45_split.md R225 says
that `split_done` implies all of the set-up, auto-gating too, while a reset asserted and released after `split` (R221) unsets
auto-gating and leaves `split_done`. DESIGN CHOICE, log 35: the guard is the line of R155 and does not look at auto-gating. -/
def blockUp (s : State) : Option Stop :=
  both (require s.blk.splitDone (.refuse .channelNotUsable))
    (both (requireVal s.blk.clkOn true (.refuse .channelNotUsable))
      (requireVal s.blk.inReset false (.refuse .channelNotUsable)))

/-- `usable(n)`: the common guard of every channel command (42_channel_commands.md R155; log 35). -/
def usable (n : Chan) (s : State) : Option Stop :=
  both (blockUp s) (require (decide (n.val < s.config.nimpl)) (.refuse .channelNotUsable))

/-- `live(n)`: the common guard of every engine step (43_engine.md R175, R182). -/
def live (n : Chan) (s : State) : Option Stop :=
  both (requireVal s.blk.clkOn true .notEnabled)
    (both (requireVal s.blk.inReset false .notEnabled)
      (requireVal (getCh s n).pause false .notEnabled))

/-- The engine is in a phase and alive: the head of the guard of every engine step (43_engine.md R175). -/
def engineAt (n : Chan) (p : Phase) (s : State) : Option Stop :=
  both (require (decide ((getCh s n).phase = p)) .notEnabled) (live n s)

/-- `blk.busy[n] <- b` (10_state.md R35). -/
def setBusy (s : State) (n : Chan) (b : Bool) : State :=
  { s with blk := { s.blk with busy := bankSet s.blk.busy n (.of b) } }

/-- `blk.sec[n] <- d`, the other channels' bits as they are (42_channel_commands.md R159). -/
def setSec (s : State) (n : Chan) (d : Domain) : State :=
  { s with blk := { s.blk with sec := bankSet s.blk.sec n (.of d) } }

/-- The enable trigger: `en` and `busy[n]` to 1 in one step, `dptr` loaded, phase Fetch (42_channel_commands.md R156). -/
def enableEffect (n : Chan) (s : State) : State :=
  setBusy
    (setCh s n { getCh s n with en := .of true, dptr := (getCh s n).descAddr, phase := .fetch }) n true

/-- End of chain: `en` and `busy[n]` to 0 in one step, phase Idle (43_engine.md R187). -/
def completeEffect (n : Chan) (s : State) : State :=
  setBusy (setCh s n { getCh s n with en := .of false, phase := .idle }) n false

/-- What the block reset leaves: the table of 10_state.md R53 (45_split.md R221). `split_done` stays as it is, as in the lines
of R221, also where R225 would have it imply auto-gating: DESIGN CHOICE, log 35. -/
def resetEffect (s : State) : State :=
  { s with
    ch := everyChannel resetChannel
    blk := { s.blk with
      busy := everyChannel (.of false)
      sec := everyChannel .unset
      agMclk := .unset
      agChan := .unset
      agCommon := .unset
      inReset := .of true } }

/-- Every engine is idle (45_split.md R221). -/
def allIdle (s : State) : Bool := allChans.all (fun n => decide ((getCh s n).phase = .idle))

/-- Auto-gating on, one field (45_split.md R223). -/
def setGate (s : State) (g : GateField) : State :=
  match g with
  | .mclk => { s with blk := { s.blk with agMclk := .of .on } }
  | .chan => { s with blk := { s.blk with agChan := .of .on } }
  | .common => { s with blk := { s.blk with agCommon := .of .on } }

end Sys2Proof.Machine
end

