-- ==== Sys2Proof/Machine/Bringup.lean ====
section
/-! DEFINITION. The meanings of the block's set-up: the CCU commands, auto-gating and `split` (45_split.md R220 to R226). -/

namespace Sys2Proof.Machine

/-- `CCU_RESET_ASSERT` (45_split.md R221): refused while an engine is not idle (R226). -/
def execCcuResetAssert (s : State) : Outcome :=
  guarded (require (allIdle s) (.refuse .resetWhileBusy)) (.next (resetEffect s))

/-- `CCU_RESET_DEASSERT` (45_split.md R221). -/
def execCcuResetDeassert (s : State) : Outcome :=
  .next { s with blk := { s.blk with inReset := .of false } }

/-- `CCU_CLOCK_ENABLE` (45_split.md R222). -/
def execCcuClockEnable (s : State) : Outcome :=
  .next { s with blk := { s.blk with clkOn := .of true } }

/-- The guard of an auto-gating access (45_split.md R223). -/
def gateStop (s : State) : Option Stop :=
  both (requireVal s.blk.clkOn true (.refuse .channelNotUsable))
    (requireVal s.blk.inReset false (.refuse .channelNotUsable))

/-- `BLK_AUTOGATE_ENABLE` (45_split.md R223). -/
def execBlkAutogateEnable (s : State) : Outcome :=
  guarded (gateStop s) (.next (setGate (setGate (setGate s .mclk) .chan) .common))

/-- `split(raw, ccu)` up to its first command, and then `k` (45_split.md R220, R226). -/
def splitFrom (k : State → Outcome) (s : State) : Outcome :=
  guarded (require (!s.blk.splitDone) (.refuse .secondSplit)) (andThen (execCcuResetAssert s) k)

/-- The last command of `split`, and its return (45_split.md R220, R224). -/
def splitEnd (s : State) : Outcome :=
  andThen (execBlkAutogateEnable s)
    (fun t => .next (setRet { t with blk := { t.blk with splitDone := true } } (.dma t.config.nimpl)))

/-- `split(raw, ccu)` (45_split.md R220, R224, R226): reset, clock, auto-gating, in this order (90_conflicts.md C2). -/
def execSplit (s : State) : Outcome :=
  splitFrom (fun t => andThen (andThen (execCcuResetDeassert t) execCcuClockEnable) splitEnd) s

end Sys2Proof.Machine
end

