-- ==== Sys2Proof/Machine/Channels.lean ====
section
/-! DEFINITION. The meanings of the four host commands on a channel (42_channel_commands.md R155 to R164). -/

namespace Sys2Proof.Machine

/-- The guard of `CH_ENABLE n`, in the order of R156. It does not read `life[n]`, and no rule gives an outcome of a command
issued directly on a channel that a `Transfer` holds, which only that `Transfer` may touch (44_transfer_lifecycle.md R200):
DESIGN CHOICE, such a command is carried out (log 36). -/
def enableStop (n : Chan) (s : State) : Option Stop :=
  both (usable n s)
    (both (require (decide ((getCh s n).phase = .idle)) (.refuse .enableWhileBusy))
      (both (require (decide ((getCh s n).descAddr ≠ .unset)) (.refuse .unsetState))
        (require (decide (getSec s n = .of .nonSecure)) (.refuse .secureChannel))))

/-- The guard of the two writes that need an idle channel (42_channel_commands.md R158, R159, R162). Like `enableStop` it
does not read `life[n]` (44_transfer_lifecycle.md R200): DESIGN CHOICE, log 36. -/
def writeStop (n : Chan) (s : State) : Option Stop :=
  both (usable n s) (require (decide ((getCh s n).phase = .idle)) (.refuse .writeWhileBusy))

/-- `CH_ENABLE n` (42_channel_commands.md R156, R160, R161). -/
def execChEnable (n : Chan) (s : State) : Outcome :=
  guarded (enableStop n s) (.next (enableEffect n s))

/-- `CH_IS_ACTIVE n` (42_channel_commands.md R157): the busy flag is what the command returns; nothing else changes. A flag that
nothing has written refuses (00_scope.md R13); after `split` every flag is written (10_state.md R53). -/
def execChIsActive (n : Chan) (s : State) : Outcome :=
  guarded (usable n s) (readVal (getBusy s n) (fun b => .next (setRet s (.active b))))

/-- `CH_SET_DESC_ADDR n, a` (42_channel_commands.md R158). -/
def execChSetDescAddr (n : Chan) (a : Word) (s : State) : Outcome :=
  guarded (writeStop n s) (.next (setCh s n { getCh s n with descAddr := .of a }))

/-- `CH_SET_NONSECURE n` (42_channel_commands.md R159). -/
def execChSetNonsecure (n : Chan) (s : State) : Outcome :=
  guarded (writeStop n s) (.next (setSec s n .nonSecure))

end Sys2Proof.Machine
end

