-- ==== Sys2Proof/Machine/Engine.lean ====
section
/-! DEFINITION. The engine's operations and the meanings of its five named steps (43_engine.md R175 to R190). -/

namespace Sys2Proof.Machine

/-! Memory shared with another running engine (20_memory.md R84, 60_exceptions.md R252, 93_implementation_defined.md U23;
log 30). A range is a (base, length) pair. -/

/-- The range one side of the descriptor under way covers, from its working registers: it ends where the bytes left
end. -/
def sideRange (cur left len : Val Word) : List (Nat × Nat) :=
  match cur, left, len with
  | .of a, .of l, .of k => [((a + l - k).toNat, k.toNat)]
  | _, _, _ => []

/-- The 24 bytes a channel's descriptor pointer points to. -/
def descRange (c : Channel) : List (Nat × Nat) :=
  match c.dptr with
  | .unset => []
  | .of a => [(a.toNat, 24)]

/-- What a running engine reads: its descriptor and, once that is decoded, the source. Only the descriptor under way counts,
not an earlier one of the chain: DESIGN CHOICE, log 30. -/
def engineReads (c : Channel) : List (Nat × Nat) :=
  match c.phase with
  | .idle => []
  | .fault _ => []
  | .fetch => descRange c
  | .move => descRange c ++ sideRange c.curSrc c.bcntLeft c.len

/-- What a running engine writes: the destination of the descriptor under way. An engine back in Fetch writes nothing: what an
earlier descriptor of its chain wrote no longer counts (20_memory.md R84 and U23 do not say): DESIGN CHOICE, log 30. -/
def engineWrites (c : Channel) : List (Nat × Nat) :=
  match c.phase with
  | .idle => []
  | .fault _ => []
  | .fetch => []
  | .move => sideRange c.curDst c.bcntLeft c.len

/-- A range of one list has a byte in common with a range of the other. -/
def rangesMeet (xs ys : List (Nat × Nat)) : Bool := xs.any (fun x => ys.any (fun y => overlaps x.1 x.2 y.1 y.2))

/-- Another running engine touches a byte engine `n` would write, or writes one it would read (20_memory.md R84). -/
def sharesWritten (n : Chan) (reads writes : List (Nat × Nat)) (s : State) : Bool :=
  allChans.any (fun m => decide (m ≠ n) &&
    (rangesMeet writes (engineReads (getCh s m) ++ engineWrites (getCh s m)) ||
      rangesMeet reads (engineWrites (getCh s m))))

/-- Engine `n`, in carrying out the descriptor `d` at `a`, would share written memory with a running engine. -/
def descShares (n : Chan) (d : Desc) (a : Nat) (s : State) : Bool :=
  sharesWritten n [(a, 24), (d.srcAddr.toNat, d.length.toNat)] [(d.dstAddr.toNat, d.length.toNat)] s

/-- What the guard of a fetch says of `dptr` (43_engine.md R177). -/
inductive FetchVerdict where
  /-- Word-aligned, all 24 bytes are memory, and no running engine writes them. -/
  | clear (a : Nat)
  /-- `a[1:0] ≠ 0`: the engine faults. -/
  | misaligned
  /-- The rule refuses. -/
  | refuse (r : Refusal)
  deriving DecidableEq, Repr, Inhabited

/-- The guard of a fetch (43_engine.md R177), and after it that no other engine writes the descriptor (20_memory.md R84;
log 30). -/
def judgeFetch (n : Chan) (s : State) : FetchVerdict :=
  match (getCh s n).dptr with
  | .unset => .refuse .unsetState
  | .of a =>
    if a.toNat % 4 ≠ 0 then .misaligned
    else if 2 ^ 32 < a.toNat + 24 then .refuse .unmappedAccess
    else if rangeRam s.config a.toNat 24 = false then .refuse .unmappedAccess
    else if sharesWritten n [(a.toNat, 24)] [] s then .refuse .ownershipViolation
    else .clear a.toNat

/-- Word `i` of the descriptor at `a`: latched in `fw`, or read from memory now (43_engine.md R178). -/
def descWord (n : Chan) (a : Nat) (i : Fin 6) (s : State) : Option Word :=
  match fwGet (getCh s n).fw i with
  | some w => some w
  | none => memReadWord s.mem (a + 4 * i.val)

/-- The six words of the descriptor at `a`; none when one holds an `unset` byte. -/
def descAt (n : Chan) (a : Nat) (s : State) : Option Desc :=
  match descWord n a 0 s, descWord n a 1 s, descWord n a 2 s, descWord n a 3 s, descWord n a 4 s, descWord n a 5 s with
  | some c, some x, some y, some l, some p, some t => some ⟨c, x, y, l, p, t⟩
  | _, _, _, _, _, _ => none

/-- The descriptor in the working registers, phase Move (43_engine.md R179). -/
def latchEffect (n : Chan) (d : Desc) (s : State) : State :=
  setCh s n { getCh s n with
    cfg := .of d.config
    curSrc := .of d.srcAddr
    curDst := .of d.dstAddr
    bcntLeft := .of d.length
    para := .of d.param
    nxt := .of d.nextAddr
    len := .of d.length
    fw := emptyFetch
    phase := .move }

/-- Latch a descriptor into the working registers, and go on to Move when it is admitted (43_engine.md R179, R180) and
shares no written memory with a running engine (20_memory.md R84; log 30). -/
def latchDesc (n : Chan) (d : Desc) (s : State) : Outcome :=
  readVal (getCh s n).dptr (fun a =>
    if admitted s.config.layout d a.toNat then
      if descShares n d a.toNat s then .refused .ownershipViolation else .next (latchEffect n d s)
    else .refused .malformedDescriptor)

/-- The working registers after `k` bytes have been moved (43_engine.md R183, R185). -/
def advance (n : Chan) (src dst left : Word) (k : Nat) (s : State) : State :=
  setCh s n { getCh s n with
    curSrc := .of (src + BitVec.ofNat 32 k)
    curDst := .of (dst + BitVec.ofNat 32 k)
    bcntLeft := .of (left - BitVec.ofNat 32 k) }

/-- Move the next `k` bytes, `1 ≤ k ≤ left` (43_engine.md R183). The destination of a descriptor that is driven by hand may
cover a pinned byte or another descriptor, which 41_transfer_resources.md R146 and 43_engine.md R192 say an engine never
writes: R183 checks RAM alone, and the bytes are written. DESIGN CHOICE, log 37. -/
def moveBytes (n : Chan) (left : Word) (k : Nat) (s : State) : Outcome :=
  readVal (getCh s n).curSrc (fun src => readVal (getCh s n).curDst (fun dst =>
    if rangeRam s.config src.toNat k && rangeRam s.config dst.toNat k then
      match memReadBytes s.mem src.toNat k with
      | none => .refused .unsetState
      | some v => .next (advance n src dst left k (engineWrite s dst.toNat v))
    else .refused .unmappedAccess))

/-- Take the link word latched at the last decode (43_engine.md R186). -/
def linkEffect (n : Chan) (a : Word) (s : State) : State :=
  setCh s n { getCh s n with dptr := .of a, fw := emptyFetch, phase := .fetch }

/-- The descriptor is finished: phase Move, alive, no byte left (43_engine.md R186, R187). -/
def finishedAt (n : Chan) (s : State) : Option Stop :=
  both (engineAt n .move s) (requireVal (getCh s n).bcntLeft 0#32 .notEnabled)

/-- `ENG_FETCH n, i` (43_engine.md R178). -/
def execEngFetch (n : Chan) (i : Fin 6) (s : State) : Outcome :=
  guarded (both (engineAt n .fetch s) (require (fwGet (getCh s n).fw i).isNone .notEnabled))
    (match judgeFetch n s with
    | .refuse r => .refused r
    | .misaligned => .next (engineFault n .misalignedDescriptor s)
    | .clear a =>
      match memReadWord s.mem (a + 4 * i.val) with
      | none => .refused .unsetState
      | some w => .next (setCh s n { getCh s n with fw := fwSet (getCh s n).fw i w }))

/-- `ENG_DECODE n` (43_engine.md R179). -/
def execEngDecode (n : Chan) (s : State) : Outcome :=
  guarded (engineAt n .fetch s)
    (match fwDesc (getCh s n).fw with
    | none => .fault .notEnabled
    | some d => latchDesc n d s)

/-- `ENG_MOVE n, k` (43_engine.md R183). -/
def execEngMove (n : Chan) (k : Nat) (s : State) : Outcome :=
  guarded (engineAt n .move s)
    (readVal (getCh s n).bcntLeft
      (fun left => if 1 ≤ k ∧ k ≤ left.toNat then moveBytes n left k s else .fault .notEnabled))

/-- `ENG_LINK n` (43_engine.md R186). -/
def execEngLink (n : Chan) (s : State) : Outcome :=
  guarded (finishedAt n s)
    (readVal (getCh s n).nxt (fun a => if a = linkEnd then .fault .notEnabled else .next (linkEffect n a s)))

/-- `ENG_COMPLETE n` (43_engine.md R187). -/
def execEngComplete (n : Chan) (s : State) : Outcome :=
  guarded (both (finishedAt n s) (requireVal (getCh s n).nxt linkEnd .notEnabled))
    (.next (completeEffect n s))

end Sys2Proof.Machine
end

