-- ==== Sys2Proof/Machine/Descriptor.lean ====
section
/-! DEFINITION. The meanings of the descriptor rows: an engine carrying out a descriptor word by word of its own kind,
the record (43_engine.md R179), the config form (R183), the link form (R186, R187). Each is a composition of the named
steps that the engine may take with nothing between them (log 10). -/

namespace Sys2Proof.Machine

/-- `DESC`: the engine in Fetch reads the descriptor at `dptr` and latches it (43_engine.md R177 to R179). -/
def execDesc (n : Chan) (d : Desc) (s : State) : Outcome :=
  guarded (engineAt n .fetch s)
    (match judgeFetch n s with
    | .refuse r => .refused r
    | .misaligned => .next (engineFault n .misalignedDescriptor s)
    | .clear a =>
      match descAt n a s with
      | none => .refused .unsetState
      | some e => if e = d then latchDesc n d s else .fault .notEnabled)

/-- The latched config word is this form under the layout (30_encoding.md R102). -/
def formStop (l : CfgLayout) (v : Val Word) (i : Instr) : Option Stop :=
  match v with
  | .unset => some (.refuse .unsetState)
  | .of w =>
    match decodeConfig l ((descriptorChan i).getD 0) w with
    | .ok j => require (decide (i = j)) .notEnabled
    | .error _ => some .notEnabled

/-- A config form: the engine in Move whose latched config word is this form moves every byte left (43_engine.md R183;
all 16 forms have this meaning, 30_encoding.md R102). -/
def moveForm (ws wd : Width) (n : Chan) (sb db : BitVec 2) (s : State) : Outcome :=
  guarded (both (engineAt n .move s) (formStop s.config.layout (getCh s n).cfg (m2mInstr n ws wd sb db)))
    (readVal (getCh s n).bcntLeft
      (fun left => if left = 0#32 then .fault .notEnabled else moveBytes n left left.toNat s))

/-- `M2M.B8.B8` (30_encoding.md R102, 43_engine.md R183). -/
def execM2mB8B8 (n : Chan) (sb db : BitVec 2) (s : State) : Outcome := moveForm .b8 .b8 n sb db s
/-- `M2M.B8.B16`. -/
def execM2mB8B16 (n : Chan) (sb db : BitVec 2) (s : State) : Outcome := moveForm .b8 .b16 n sb db s
/-- `M2M.B8.B32`. -/
def execM2mB8B32 (n : Chan) (sb db : BitVec 2) (s : State) : Outcome := moveForm .b8 .b32 n sb db s
/-- `M2M.B8.B64`. -/
def execM2mB8B64 (n : Chan) (sb db : BitVec 2) (s : State) : Outcome := moveForm .b8 .b64 n sb db s
/-- `M2M.B16.B8`. -/
def execM2mB16B8 (n : Chan) (sb db : BitVec 2) (s : State) : Outcome := moveForm .b16 .b8 n sb db s
/-- `M2M.B16.B16`. -/
def execM2mB16B16 (n : Chan) (sb db : BitVec 2) (s : State) : Outcome := moveForm .b16 .b16 n sb db s
/-- `M2M.B16.B32`. -/
def execM2mB16B32 (n : Chan) (sb db : BitVec 2) (s : State) : Outcome := moveForm .b16 .b32 n sb db s
/-- `M2M.B16.B64`. -/
def execM2mB16B64 (n : Chan) (sb db : BitVec 2) (s : State) : Outcome := moveForm .b16 .b64 n sb db s
/-- `M2M.B32.B8`. -/
def execM2mB32B8 (n : Chan) (sb db : BitVec 2) (s : State) : Outcome := moveForm .b32 .b8 n sb db s
/-- `M2M.B32.B16`. -/
def execM2mB32B16 (n : Chan) (sb db : BitVec 2) (s : State) : Outcome := moveForm .b32 .b16 n sb db s
/-- `M2M.B32.B32`. -/
def execM2mB32B32 (n : Chan) (sb db : BitVec 2) (s : State) : Outcome := moveForm .b32 .b32 n sb db s
/-- `M2M.B32.B64`. -/
def execM2mB32B64 (n : Chan) (sb db : BitVec 2) (s : State) : Outcome := moveForm .b32 .b64 n sb db s
/-- `M2M.B64.B8`. -/
def execM2mB64B8 (n : Chan) (sb db : BitVec 2) (s : State) : Outcome := moveForm .b64 .b8 n sb db s
/-- `M2M.B64.B16`. -/
def execM2mB64B16 (n : Chan) (sb db : BitVec 2) (s : State) : Outcome := moveForm .b64 .b16 n sb db s
/-- `M2M.B64.B32`. -/
def execM2mB64B32 (n : Chan) (sb db : BitVec 2) (s : State) : Outcome := moveForm .b64 .b32 n sb db s
/-- `M2M.B64.B64`. -/
def execM2mB64B64 (n : Chan) (sb db : BitVec 2) (s : State) : Outcome := moveForm .b64 .b64 n sb db s

/-- `LINK.END`: the finished descriptor's link word is the sentinel, and the chain ends (43_engine.md R187). -/
def execLinkEnd (n : Chan) (s : State) : Outcome :=
  guarded (both (finishedAt n s) (requireVal (getCh s n).nxt linkEnd .notEnabled))
    (.next (completeEffect n s))

/-- `LINK.NEXT`: the finished descriptor's link word is `a`, not the sentinel, and the engine goes on there (43_engine.md
R186). -/
def execLinkNext (n : Chan) (a : Word) (s : State) : Outcome :=
  guarded (both (finishedAt n s)
      (both (requireVal (getCh s n).nxt a .notEnabled) (require (decide (a ≠ linkEnd)) .notEnabled)))
    (.next (linkEffect n a s))

end Sys2Proof.Machine
end

