-- ==== Sys2Proof/Machine/Lifecycle.lean ====
section
/-! DEFINITION. The meanings of the lifecycle operations (44_transfer_lifecycle.md R200 to R211). The lifecycle check
comes before any host command (60_exceptions.md R234). -/

namespace Sys2Proof.Machine

/-- Go on when the transfer `x` is in the state `found` says, else raise (44_transfer_lifecycle.md R206). -/
def lifecycleChecked (ok : Bool) (op : LifeOp) (n : Chan) (s : State) (k : Outcome) : Outcome :=
  if ok then k else raiseError (.lifecycleViolation op (getLife s n)) s

/-- `x` is `Ready` and channel `n` carries it (44_transfer_lifecycle.md R202). -/
def isReady (x : Transfer) (n : Chan) (s : State) : Bool :=
  decide (x.state = .ready) && decide (getLife s n = .ready x.res)

/-- `x` is `Started` and channel `n` carries it (44_transfer_lifecycle.md R203 to R205). -/
def isStarted (x : Transfer) (n : Chan) (s : State) : Bool :=
  decide (x.state = .started) && decide (getLife s n = .started x.res)

/-- `Transfer::new(res, ch n)` up to its first command, `CH_SET_NONSECURE n`, and then `k` (44_transfer_lifecycle.md R201).
`res` is moved, so it must be in the caller's hands (41_transfer_resources.md R149; log 13). Where it is not and the channel is
not usable or not idle too (42_channel_commands.md R155, R162), no rule orders the refusals: DESIGN CHOICE, ownership is looked
at first (log 13). An engine that works on `res` by hand on another channel is no bar: DESIGN CHOICE, log 38. -/
def transferNewFrom (r : Resources) (n : Chan) (k : State → Outcome) (s : State) : Outcome :=
  lifecycleChecked (decide (getLife s n = .free)) .new n s
    (guarded (require (inCallersHands s r) (.refuse .ownershipViolation)) (andThen (execChSetNonsecure n s) k))

/-- The second command of `Transfer::new`, `CH_SET_DESC_ADDR n, res.desc`, and its return (44_transfer_lifecycle.md R201). -/
def newAddr (r : Resources) (n : Chan) (s : State) : Outcome :=
  andThen (execChSetDescAddr n (BitVec.ofNat 32 r.desc) s)
    (fun t => .next (setRet (setLife t n (.ready r)) (.transfer ⟨r, .ready⟩)))

/-- `Transfer::new(res, ch n)` (44_transfer_lifecycle.md R201). -/
def execTransferNew (r : Resources) (n : Chan) (s : State) : Outcome := transferNewFrom r n (newAddr r n) s

/-- `x.start(ch n)` up to its fence, and then `k` (44_transfer_lifecycle.md R202). -/
def transferStartFrom (x : Transfer) (n : Chan) (k : State → Outcome) (s : State) : Outcome :=
  lifecycleChecked (isReady x n s) .start n s (k (fenceEffect s))

/-- The enable of `start`, and its return (44_transfer_lifecycle.md R202). -/
def startEnable (x : Transfer) (n : Chan) (s : State) : Outcome :=
  andThen (execChEnable n s) (fun t => .next (setRet (setLife t n (.started x.res)) (.transfer ⟨x.res, .started⟩)))

/-- `x.start(ch n)` (44_transfer_lifecycle.md R202): the fence, then the enable. -/
def execTransferStart (x : Transfer) (n : Chan) (s : State) : Outcome := transferStartFrom x n (startEnable x n) s

/-- The end of a wait: the second fence, the channel free, the resources back (44_transfer_lifecycle.md R203). -/
def waitDone (x : Transfer) (n : Chan) (s : State) : State :=
  setRet (setLife (fenceEffect s) n .free) (.resources x.res)

/-- A poll found the channel busy: there is another one to make, without a bound or with one poll less left, or the
transfer comes back with the timeout, still `Started` (44_transfer_lifecycle.md R203, R205). -/
def stillBusy (x : Transfer) (n : Chan) (left : Option Nat) (s : State) : Outcome :=
  match left with
  | none => later [.poll x n none] s
  | some j => if j ≤ 1 then .next (setRet s (.timeout x)) else later [.poll x n (some (j - 1))] s

/-- One poll of a wait, `CH_IS_ACTIVE n`, and `k` when it finds the channel idle (44_transfer_lifecycle.md R203, R205). -/
def pollOnce (x : Transfer) (n : Chan) (left : Option Nat) (k : State → Outcome) (s : State) : Outcome :=
  guarded (usable n s) (readVal (getBusy s n) (fun b => if b then stillBusy x n left s else k s))

/-- The lifecycle check of `wait`, its first poll, and then `k` (44_transfer_lifecycle.md R203). -/
def transferWaitFrom (x : Transfer) (n : Chan) (k : State → Outcome) (s : State) : Outcome :=
  lifecycleChecked (isStarted x n s) .wait n s (pollOnce x n none k s)

/-- The fence after the last poll, and the return (44_transfer_lifecycle.md R203, R205). -/
def waitEnd (x : Transfer) (n : Chan) (s : State) : Outcome := .next (waitDone x n s)

/-- `x.wait(ch n)` (44_transfer_lifecycle.md R203). Busy: the CPU stays at the poll (R211). Not busy: the fence, and the
wait returns. -/
def execTransferWait (x : Transfer) (n : Chan) (s : State) : Outcome := transferWaitFrom x n (waitEnd x n) s

/-- `x.is_active(ch n)` (44_transfer_lifecycle.md R204). -/
def execTransferIsActive (x : Transfer) (n : Chan) (s : State) : Outcome :=
  lifecycleChecked (isStarted x n s) .isActive n s (execChIsActive n s)

/-- `wait_bounded` with the bound `L` exists: `POLL_LIMIT = L`, a positive number (44_transfer_lifecycle.md R205). -/
def boundOffered (c : Config) (L : Nat) : Bool := decide (c.pollLimit = some L) && decide (0 < L)

/-- The checks of `wait_bounded`, its first poll, and then `k` (44_transfer_lifecycle.md R205; log 15). -/
def transferWaitBoundedFrom (x : Transfer) (n : Chan) (L : Nat) (k : State → Outcome) (s : State) : Outcome :=
  guarded (require (boundOffered s.config L) (.refuse .operationAbsent))
    (lifecycleChecked (isStarted x n s) .wait n s (pollOnce x n (some L) k s))

/-- `x.wait_bounded(ch n, L)` (44_transfer_lifecycle.md R205): at most `L` polls. -/
def execTransferWaitBounded (x : Transfer) (n : Chan) (L : Nat) (s : State) : Outcome :=
  transferWaitBoundedFrom x n L (waitEnd x n) s

end Sys2Proof.Machine
end

