-- ==== Sys2Proof/Machine/Memory.lean ====
section
/-! DEFINITION. The meanings of FENCE and DRAIN (20_memory.md R74, R75), and the CPU's operations that are no row of the
opcode table: `CpuLoad`, `CpuStore` (R71, R72), a raw register access (30_encoding.md R103, R104; 42_channel_commands.md
R168, R169) and the drop of a transfer (44_transfer_lifecycle.md R209). -/

namespace Sys2Proof.Machine

/-- `FENCE` (20_memory.md R75). -/
def execFence (s : State) : Outcome := .next (fenceEffect s)

/-- `DRAIN` of the store at position `j` (20_memory.md R74). -/
def execDrain (j : Nat) (s : State) : Outcome :=
  guarded (require (eligible s.cpu.sb j) .notEnabled) (.next (drainEffect j s))

/-- `CpuLoad(a, k)` with its free choices in `pick` (20_memory.md R71; log 12, 16). -/
def cpuLoad (a : Nat) (w : Width) (pick : Nat) (s : State) : Outcome :=
  guarded (accessStop s a w.bytes)
    (match loadBytes s a pick 0 w.bytes with
    | none => .refused .unsetState
    | some bs => .next (setRet s (.loaded (leValue bs))))

/-- `CpuStore(a, k, v)` (20_memory.md R72; log 12). -/
def cpuStore (a : Nat) (w : Width) (v : Nat) (s : State) : Outcome :=
  guarded (accessStop s a w.bytes) (.next (storeEffect a (leBytes w.bytes v) s))

/-- One modify-field access to an auto-gating field, to `AutoGateOn` (45_split.md R223; log 26). -/
def gateAccess (g : GateField) (s : State) : Outcome := guarded (gateStop s) (.next (setGate s g))

/-- A read of a status bit that is no channel's busy flag: it holds any value (10_state.md R35), so the bit is a free choice.
The block must be set up, as for a channel command. DESIGN CHOICE, log 26. -/
def statusAccess (pick : Nat) (s : State) : Outcome :=
  guarded (blockUp s) (.next (setRet s (.statusBit (choose false [true] pick))))

/-- The refusal of an access outside the admitted set (42_channel_commands.md R168, R169). -/
def accessRefusal : AccessMeaning → Refusal
  | .disable => .disableNotModelled
  | .pause => .pauseNotModelled
  | _ => .registerAccessNotModelled

end Sys2Proof.Machine
end

