-- ==== Sys2Proof/Machine/Objects.lean ====
section
/-! DEFINITION. The meanings of the operations on descriptor objects and buffers (40_descriptor_and_buffers.md R120 to
R125). -/

namespace Sys2Proof.Machine

/-- A descriptor placed at `A` has a 32-bit address and room below 2^32 (40_descriptor_and_buffers.md R121). -/
def placeStop (A : Nat) : Option Stop := require (decide (A < 2 ^ 32 - 23)) (.refuse .addressOutOfRange)

/-- `Descriptor::new() @ A` up to its first store, and then `k` (40_descriptor_and_buffers.md R120). Where `A` is at or
above 2^32 - 23 and its bytes are pinned too, R121 gives AddressOutOfRange and R83 OwnershipViolation and no rule orders
them: DESIGN CHOICE, the place is looked at first (log 12). -/
def descriptorNewFrom (A : Nat) (k : State → Outcome) (s : State) : Outcome :=
  guarded (placeStop A) (andThen (storeWord A freshDesc.config s) k)

/-- `Descriptor::new() @ A`: six stores (40_descriptor_and_buffers.md R120), the place looked at before them (DESIGN
CHOICE, log 12). -/
def execDescriptorNew (A : Nat) (s : State) : Outcome :=
  descriptorNewFrom A (fun t => andThen (storeMiddle A freshDesc t) (storeWord (A + 20) freshDesc.nextAddr)) s

/-- `d.as_ptr()` (40_descriptor_and_buffers.md R121). No rule says what a pure operation on a `d`, `s` or `t` that `mem_to_mem`
has moved does (30_encoding.md R107): DESIGN CHOICE, it is carried out like any other (log 34). The same for the three
below. -/
def execDescriptorAsPtr (A : Nat) (s : State) : Outcome :=
  guarded (placeStop A) (.next (setRet s (.address A)))

/-- `s.base_address()` (40_descriptor_and_buffers.md R123; log 34). -/
def execBufferBaseAddress (b : Buffer) (s : State) : Outcome := .next (setRet s (.address b.base))

/-- `s.element_count()` (40_descriptor_and_buffers.md R124; log 34). -/
def execBufferElementCount (b : Buffer) (s : State) : Outcome := .next (setRet s (.count b.count))

/-- `s.size_bytes()` (40_descriptor_and_buffers.md R125; log 34). -/
def execBufferSizeBytes (b : Buffer) (s : State) : Outcome := .next (setRet s (.size (sizeBytes b)))

end Sys2Proof.Machine
end

