-- ==== Sys2Proof/Machine/Dispatch.lean ====
section
/-! DEFINITION. The meaning of every instruction: one arm per constructor. -/

namespace Sys2Proof.Machine

def exec (i : Instr) (s : State) : Host.Outcome State Fault Refusal :=
  match i with
  | .desc n d => Sys2Proof.Machine.execDesc n d s
  | .m2mB8B8 n sb db => Sys2Proof.Machine.execM2mB8B8 n sb db s
  | .m2mB8B16 n sb db => Sys2Proof.Machine.execM2mB8B16 n sb db s
  | .m2mB8B32 n sb db => Sys2Proof.Machine.execM2mB8B32 n sb db s
  | .m2mB8B64 n sb db => Sys2Proof.Machine.execM2mB8B64 n sb db s
  | .m2mB16B8 n sb db => Sys2Proof.Machine.execM2mB16B8 n sb db s
  | .m2mB16B16 n sb db => Sys2Proof.Machine.execM2mB16B16 n sb db s
  | .m2mB16B32 n sb db => Sys2Proof.Machine.execM2mB16B32 n sb db s
  | .m2mB16B64 n sb db => Sys2Proof.Machine.execM2mB16B64 n sb db s
  | .m2mB32B8 n sb db => Sys2Proof.Machine.execM2mB32B8 n sb db s
  | .m2mB32B16 n sb db => Sys2Proof.Machine.execM2mB32B16 n sb db s
  | .m2mB32B32 n sb db => Sys2Proof.Machine.execM2mB32B32 n sb db s
  | .m2mB32B64 n sb db => Sys2Proof.Machine.execM2mB32B64 n sb db s
  | .m2mB64B8 n sb db => Sys2Proof.Machine.execM2mB64B8 n sb db s
  | .m2mB64B16 n sb db => Sys2Proof.Machine.execM2mB64B16 n sb db s
  | .m2mB64B32 n sb db => Sys2Proof.Machine.execM2mB64B32 n sb db s
  | .m2mB64B64 n sb db => Sys2Proof.Machine.execM2mB64B64 n sb db s
  | .linkEnd n => Sys2Proof.Machine.execLinkEnd n s
  | .linkNext n a => Sys2Proof.Machine.execLinkNext n a s
  | .chEnable n => Sys2Proof.Machine.execChEnable n s
  | .chIsActive n => Sys2Proof.Machine.execChIsActive n s
  | .chSetDescAddr n a => Sys2Proof.Machine.execChSetDescAddr n a s
  | .chSetNonsecure n => Sys2Proof.Machine.execChSetNonsecure n s
  | .blkAutogateEnable => Sys2Proof.Machine.execBlkAutogateEnable s
  | .ccuResetAssert => Sys2Proof.Machine.execCcuResetAssert s
  | .ccuResetDeassert => Sys2Proof.Machine.execCcuResetDeassert s
  | .ccuClockEnable => Sys2Proof.Machine.execCcuClockEnable s
  | .fence => Sys2Proof.Machine.execFence s
  | .descriptorNew A => Sys2Proof.Machine.execDescriptorNew A s
  | .descriptorAsPtr A => Sys2Proof.Machine.execDescriptorAsPtr A s
  | .bufferBaseAddress b => Sys2Proof.Machine.execBufferBaseAddress b s
  | .bufferElementCount b => Sys2Proof.Machine.execBufferElementCount b s
  | .bufferSizeBytes b => Sys2Proof.Machine.execBufferSizeBytes b s
  | .memToMem A src dst => Sys2Proof.Machine.execMemToMem A src dst s
  | .resFree r => Sys2Proof.Machine.execResFree r s
  | .transferNew r n => Sys2Proof.Machine.execTransferNew r n s
  | .transferStart x n => Sys2Proof.Machine.execTransferStart x n s
  | .transferWait x n => Sys2Proof.Machine.execTransferWait x n s
  | .transferIsActive x n => Sys2Proof.Machine.execTransferIsActive x n s
  | .transferWaitBounded x n L => Sys2Proof.Machine.execTransferWaitBounded x n L s
  | .split => Sys2Proof.Machine.execSplit s
  | .engFetch n w => Sys2Proof.Machine.execEngFetch n w s
  | .engDecode n => Sys2Proof.Machine.execEngDecode n s
  | .engMove n k => Sys2Proof.Machine.execEngMove n k s
  | .engLink n => Sys2Proof.Machine.execEngLink n s
  | .engComplete n => Sys2Proof.Machine.execEngComplete n s
  | .drain j => Sys2Proof.Machine.execDrain j s

end Sys2Proof.Machine
end

