-- ==== Sys2Proof/Machine/Fetch.lean ====
section
/-! DEFINITION. Who steps next and what an engine does in its turn (43_engine.md R175, 70_reset_and_hazards.md R283): the
named step with its free choice, or the descriptor word it stands at, fetched and decoded. -/

namespace Sys2Proof.Machine

/-- The turn that comes next: the first of `sched`, else the free value (log 7). -/
def turnOf (s : State) : Turn :=
  match s.sched with
  | t :: _ => t
  | [] => freeTurn s.tick

/-- The state when the turn has been taken. -/
def afterTurn (s : State) : State :=
  match s.sched with
  | _ :: rest => { s with sched := rest }
  | [] => { s with tick := s.tick + 1 }

/-- What a fetch gives. -/
inductive Fetched where
  /-- The engine has no enabled step. -/
  | nothing
  /-- The decoder gives an instruction. -/
  | instr (i : Instr)
  /-- The descriptor address is misaligned (43_engine.md R177). -/
  | misaligned
  /-- A rule refuses. -/
  | refuse (r : Refusal)
  deriving DecidableEq, Repr, Inhabited

/-- Run `k` when the engine is alive; an engine that is not alive has no enabled step (43_engine.md R175). -/
def whenLive (n : Chan) (s : State) (k : Fetched) : Fetched :=
  match live n s with
  | none => k
  | some .notEnabled => .nothing
  | some (.refuse r) => .refuse r

/-- Go on with a value a guard reads; reading an `unset` one refuses (00_scope.md R13). -/
def whenSet {α : Type} (v : Val α) (k : α → Fetched) : Fetched :=
  match v with
  | .unset => .refuse .unsetState
  | .of a => k a

/-- A decoded word, or the refusal of a descriptor that has no meaning (43_engine.md R180). -/
def decoded (e : Except DecodeError Instr) : Fetched :=
  match e with
  | .ok i => .instr i
  | .error _ => .refuse .malformedDescriptor

/-- The descriptor word engine `n` stands at, decoded: the record at `dptr` in Fetch, the config word in Move while bytes
are left, then the link word (30_encoding.md R90, R101, R102). -/
def interpret (n : Chan) (s : State) : Fetched :=
  match (getCh s n).phase with
  | .idle => .nothing
  | .fault _ => .nothing
  | .fetch =>
    whenLive n s
      (match judgeFetch n s with
      | .refuse r => .refuse r
      | .misaligned => .misaligned
      | .clear a =>
        match descAt n a s with
        | none => .refuse .unsetState
        | some d => decoded (decode s.config.layout n (descBytes d)))
  | .move =>
    whenLive n s
      (whenSet (getCh s n).bcntLeft (fun left =>
        if left = 0#32 then whenSet (getCh s n).nxt (fun w => decoded (decodeLink n w))
        else whenSet (getCh s n).cfg (fun c => decoded (decodeConfig s.config.layout n c))))

/-- The named step engine `n` takes, its free operand made from `pick`: an unread word, or a chunk of `1 .. bcnt_left`
bytes (43_engine.md R178, R183). The link word is read only when no byte is left (R186, R187). -/
def engineStep (n : Chan) (pick : Nat) (s : State) : Fetched :=
  match (getCh s n).phase with
  | .idle => .nothing
  | .fault _ => .nothing
  | .fetch =>
    whenLive n s
      (match unreadWords (getCh s n).fw with
      | [] => .instr (.engDecode n)
      | i :: rest => .instr (.engFetch n (choose i rest pick)))
  | .move =>
    whenLive n s
      (whenSet (getCh s n).bcntLeft (fun left =>
        if left = 0#32 then
          whenSet (getCh s n).nxt (fun w => if w = linkEnd then .instr (.engComplete n) else .instr (.engLink n))
        else .instr (.engMove n (pick % left.toNat + 1))))

/-- The drain a turn takes: one of the stores that may drain (20_memory.md R74). -/
def drainStep (pick : Nat) (s : State) : Fetched :=
  match (List.range s.cpu.sb.length).filter (fun j => eligible s.cpu.sb j) with
  | [] => .nothing
  | j :: rest => .instr (.drain (choose j rest pick))

end Sys2Proof.Machine
end

