-- ==== Sys2Proof/Machine/CpuTurn.lean ====
section
/-! DEFINITION. The CPU's turn: the next step of the operation under way (30_encoding.md R108), else the next operation of
its program (00_scope.md R3, 30_encoding.md R107), nothing once the CPU is aborted (60_exceptions.md R243) or the program is
done. -/

namespace Sys2Proof.Machine

/-- A raw register access is the command it encodes, or is refused by name (30_encoding.md R103, R104); `pick`
is the free choice of a bit that is not described. -/
def cpuAccess (r : RegAccess) (pick : Nat) (s : State) : Outcome :=
  match decodeAccess s.config.regMap r with
  | .command i => exec i s
  | .gateOn g => gateAccess g s
  | .statusBit => statusAccess pick s
  | m => .refused (accessRefusal m)

/-- The first CPU step of an instruction. An operation that expands to several steps makes its first one and leaves the
rest for the CPU's next turns, so that other agents' steps may fall between them (30_encoding.md R108, 44_transfer_lifecycle.md
R201, R202, R203; log 9). exec is the same operation with nothing between its steps. -/
def cpuInstr (i : Instr) (s : State) : Outcome :=
  match i with
  | .descriptorNew A =>
    descriptorNewFrom A (later (middleRest A freshDesc ++ [.store (A + 20) freshDesc.nextAddr])) s
  | .memToMem A src dst =>
    memToMemFrom A src dst (later (middleRest A (memToMemDesc s.config src dst) ++ [.bind A src dst])) s
  | .transferNew r n => transferNewFrom r n (later [.newAddr r n]) s
  | .transferStart x n => transferStartFrom x n (later [.startEnable x n]) s
  | .transferWait x n => transferWaitFrom x n (later [.waitEnd x n]) s
  | .transferWaitBounded x n L => transferWaitBoundedFrom x n L (later [.waitEnd x n]) s
  | .split => splitFrom (later [.release, .clock, .gates]) s
  | i => exec i s

/-- One CPU step of an operation under way. -/
def runRest (r : Rest) (s : State) : Outcome :=
  match r with
  | .store a v => storeWord a v s
  | .bind A src dst => bindEnd A src dst s
  | .newAddr r n => newAddr r n s
  | .startEnable x n => startEnable x n s
  | .poll x n left => pollOnce x n left (later [.waitEnd x n]) s
  | .waitEnd x n => waitEnd x n s
  | .release => execCcuResetDeassert s
  | .clock => execCcuClockEnable s
  | .gates => splitEnd s

/-- One operation of the CPU's program. -/
def cpuOp (op : CpuOp) (pick : Nat) (s : State) : Outcome :=
  match op with
  | .instr i => cpuInstr i s
  | .load a w => cpuLoad a w pick s
  | .store a w v => cpuStore a w v s
  | .access r => cpuAccess r pick s
  | .dropTransfer _ => .refused .transferDropped

/-- The CPU's turn. A program that is done with a `Transfer` still live on a channel, one it never waits for, has
discarded nothing: the spec refuses the discarding of a `Transfer` and says nothing of a program that ends (44_transfer_lifecycle.md
R209). DESIGN CHOICE, log 31: only the operation `dropTransfer` is a discarding, and the machine goes on without the CPU. -/
def cpuTurn (pick : Nat) (s : State) : Outcome :=
  match s.cpu.run with
  | .aborted _ => .next s
  | .running =>
    match s.cpu.doing with
    | r :: rs => runRest r { s with cpu := { s.cpu with doing := rs } }
    | [] =>
      match s.cpu.prog with
      | [] => .next s
      | op :: rest =>
        if cpuOpWf op then cpuOp op pick { s with cpu := { s.cpu with prog := rest } } else .refused .illFormed

/-- Run what a fetch gave. -/
def runFetched (n : Chan) (f : Fetched) (s : State) : Outcome :=
  match f with
  | .nothing => .next s
  | .instr i => exec i s
  | .misaligned => .next (engineFault n .misalignedDescriptor s)
  | .refuse r => .refused r

/-- The turn of an agent. -/
def takeTurn (t : Turn) (s : State) : Outcome :=
  match t.agent with
  | .cpu => cpuTurn t.pick s
  | .eng n => runFetched n (engineStep n t.pick s) s
  | .interp n => runFetched n (interpret n s) s
  | .drain => runFetched 0 (drainStep t.pick s) s

/-! Placing one instruction as the next thing that runs (log 25). -/

/-- The next turn is the agent's. -/
def withTurn (s : State) (a : Agent) : State := { s with sched := ⟨a, 0⟩ :: s.sched }

/-- The block is alive and channel 0 in the given phase: what a turn of its engine needs to fetch (43_engine.md R175). -/
def withEngine (s : State) (c : Channel) : State :=
  setCh { s with blk := { s.blk with clkOn := .of true, inReset := .of false } } 0 { c with pause := .of false }

/-- A descriptor where channel 0's engine fetches, in phase Fetch. -/
def placeDesc (s : State) (d : Desc) : State :=
  withEngine { s with mem := memWriteBytes s.mem 0x40000000 (descBytes d) }
    { getCh s 0 with dptr := .of 0x40000000#32, phase := .fetch, fw := emptyFetch }

/-- A config word in channel 0's config register, in phase Move with 8 bytes of memory to move. -/
def placeConfig (s : State) (w : Word) : State :=
  withEngine { s with mem := memWriteBytes s.mem 0x40001000 (leBytes 8 0) }
    { getCh s 0 with
      cfg := .of w, curSrc := .of 0x40001000#32, curDst := .of 0x40002000#32, bcntLeft := .of 8#32
      phase := .move }

/-- A link word latched by channel 0's engine, in phase Move with no byte left. -/
def placeLink (s : State) (w : Word) : State :=
  withEngine s { getCh s 0 with bcntLeft := .of 0#32, nxt := .of w, phase := .move }

/-- The instruction as the next operation of the CPU's program, with no other operation under way. -/
def placeCpu (s : State) (i : Instr) : State :=
  withTurn (pushOp { s with cpu := { s.cpu with doing := [] } } (.instr i)) .cpu

/-- Place a decoded instruction where the next step fetches it. A config or link row is placed as the word `w`. -/
def placeInstr (s : State) (w : Word) (i : Instr) : State :=
  match i with
  | .desc _ d => withTurn (placeDesc s d) (.interp 0)
  | .linkEnd _ => withTurn (placeLink s w) (.interp 0)
  | .linkNext _ _ => withTurn (placeLink s w) (.interp 0)
  | i => if (descriptorChan i).isSome then withTurn (placeConfig s w) (.interp 0) else placeCpu s i

end Sys2Proof.Machine
end

