-- ==== Sys2Proof/Machine/Step.lean ====
section
/-! DEFINITION. One step of the machine, and the placing of one instruction where the step fetches it. -/

namespace Sys2Proof.Machine

/-- One step: the agent whose turn it is steps (00_scope.md R3, 70_reset_and_hazards.md R283). -/
def step (s : State) : Host.Outcome State Fault Refusal := takeTurn (turnOf s) (afterTurn s)

/-- The state whose next step fetches and runs the instruction with the bits `w` (log 25). -/
def State.withFetchWord (s : State) (nbits w : Nat) : State :=
  match decodeTableWord nbits w with
  | some i => placeInstr s (BitVec.ofNat 32 w) i
  | none => s

end Sys2Proof.Machine
end

