-- ==== Sys2Proof/Safety.lean ====
section
/-! DEFINITION. The terms claims are stated in: the premises of the rules (42_channel_commands.md R155, 43_engine.md
R175), the invariants of the machine, what a good run is (60_exceptions.md R245) and weak fairness (43_engine.md R189). -/

namespace Sys2Proof.Safety

open Sys2Proof.Machine

/-- `usable(n)` (42_channel_commands.md R155). -/
abbrev Usable (n : Chan) (s : State) : Prop :=
  s.blk.splitDone = true ∧ s.blk.clkOn = .of true ∧ s.blk.inReset = .of false ∧ n.val < s.config.nimpl

/-- `usable(n)` is false with every value it reads written (42_channel_commands.md R155): before `split`, or the clock off,
or the block in reset, or a channel that is not handed out. -/
abbrev Unusable (n : Chan) (s : State) : Prop :=
  s.blk.splitDone = false ∨
    (s.blk.splitDone = true ∧ s.blk.clkOn = .of false) ∨
    (s.blk.splitDone = true ∧ s.blk.clkOn = .of true ∧ s.blk.inReset = .of true) ∨
    (s.blk.splitDone = true ∧ s.blk.clkOn = .of true ∧ s.blk.inReset = .of false ∧ s.config.nimpl ≤ n.val)

/-- `live(n)` (43_engine.md R175). -/
abbrev Live (n : Chan) (s : State) : Prop :=
  s.blk.clkOn = .of true ∧ s.blk.inReset = .of false ∧ (getCh s n).pause = .of false

/-- The engine is in Move, alive, with these addresses and `left` bytes to go (43_engine.md R183). -/
abbrev Moving (n : Chan) (s : State) (src dst left : Word) : Prop :=
  (getCh s n).phase = .move ∧ Live n s ∧
    (getCh s n).curSrc = .of src ∧ (getCh s n).curDst = .of dst ∧ (getCh s n).bcntLeft = .of left

/-- The engine has finished a descriptor whose link word is `a` (43_engine.md R186, R187). -/
abbrev Finished (n : Chan) (s : State) (a : Word) : Prop :=
  (getCh s n).phase = .move ∧ Live n s ∧ (getCh s n).bcntLeft = .of 0#32 ∧ (getCh s n).nxt = .of a

/-- The engine is about to fetch the descriptor at `a`, which is aligned, in memory (43_engine.md R177) and written by no
other running engine (20_memory.md R84; log 30). -/
abbrev Fetching (n : Chan) (s : State) (a : Word) : Prop :=
  (getCh s n).phase = .fetch ∧ Live n s ∧ (getCh s n).dptr = .of a ∧ a.toNat % 4 = 0 ∧
    a.toNat + 24 ≤ 2 ^ 32 ∧ rangeRam s.config a.toNat 24 = true ∧ sharesWritten n [(a.toNat, 24)] [] s = false

/-- The CPU may touch `[a, a + k)`: it is memory and not pinned (20_memory.md R60, R83). -/
abbrev CpuMayAccess (s : State) (a k : Nat) : Prop :=
  touchesPinned s.pinned a k = false ∧ rangeRam s.config a k = true

/-- The byte `x` lies in `[a, a + k)`. -/
abbrev InRange (a k x : Nat) : Prop := a ≤ x ∧ x < a + k

/-- `[a, a + k)` and `[b, b + l)` have no common byte. -/
abbrev NoCommonByte (a k b l : Nat) : Prop := ∀ x, InRange a k x → ¬ InRange b l x

/-- Every byte of `[a, a + k)` is RAM (20_memory.md R60). -/
abbrev AllRam (c : Config) (a k : Nat) : Prop := ∀ x, InRange a k x → isRam c x = true

/-- The addresses of a buffer fit 32 bits and its bytes are RAM (40_descriptor_and_buffers.md R128, 70_reset_and_hazards.md
R281). -/
abbrev BufferInRange (c : Config) (b : Buffer) : Prop :=
  b.base < 2 ^ 32 ∧ b.base + sizeBytes b ≤ 2 ^ 32 ∧ AllRam c b.base (sizeBytes b)

/-- A well-formed buffer (40_descriptor_and_buffers.md R128). -/
abbrev BufferWf (c : Config) (b : Buffer) : Prop := b.base % b.width.bytes = 0 ∧ BufferInRange c b

/-- A descriptor may lie at `A` (41_transfer_resources.md R144). -/
abbrev PlaceWf (c : Config) (A : Nat) : Prop := A + 24 ≤ 2 ^ 32 ∧ AllRam c A 24

/-- The three ranges of resources have no common byte (41_transfer_resources.md R144). -/
abbrev RangesApart (r : Resources) : Prop :=
  NoCommonByte r.desc 24 r.src.base (sizeBytes r.src) ∧ NoCommonByte r.desc 24 r.dst.base (sizeBytes r.dst) ∧
    NoCommonByte r.src.base (sizeBytes r.src) r.dst.base (sizeBytes r.dst)

/-- No byte of `r` is pinned (41_transfer_resources.md R144). -/
abbrev Unpinned (s : State) (r : Resources) : Prop :=
  ∀ q ∈ s.pinned, ∀ x ∈ resourceRanges r, ∀ y ∈ resourceRanges q, NoCommonByte x.1 x.2 y.1 y.2

/-- Engine `m`, in the descriptor under way, reads the byte `x` (log 30). -/
abbrev Reads (m : Chan) (s : State) (x : Nat) : Prop := ∃ p ∈ engineReads (getCh s m), InRange p.1 p.2 x

/-- Engine `m`, in the descriptor under way, writes the byte `x` (log 30). -/
abbrev Writes (m : Chan) (s : State) (x : Nat) : Prop := ∃ p ∈ engineWrites (getCh s m), InRange p.1 p.2 x

/-- Another running engine touches a byte of `d`'s destination, or writes one of its source or of the descriptor at `a`
(20_memory.md R84). -/
abbrev Shares (n : Chan) (d : Desc) (a : Nat) (s : State) : Prop :=
  ∃ m x, m ≠ n ∧
    ((InRange d.dstAddr.toNat d.length.toNat x ∧ (Reads m s x ∨ Writes m s x)) ∨
      ((InRange d.srcAddr.toNat d.length.toNat x ∨ InRange a 24 x) ∧ Writes m s x))

/-- The operations that expand to several CPU steps (30_encoding.md R108). -/
def expands : Instr → Bool
  | .descriptorNew _ => true
  | .memToMem _ _ _ => true
  | .transferNew _ _ => true
  | .transferStart _ _ => true
  | .transferWait _ _ => true
  | .transferWaitBounded _ _ _ => true
  | .split => true
  | _ => false

/-- Up to `k` CPU steps of the operation under way, with nothing between them. -/
def finishDoing : Nat → State → Outcome
  | 0, s => .next s
  | k + 1, s =>
    match s.cpu.doing with
    | [] => .next s
    | r :: rs => andThen (runRest r { s with cpu := { s.cpu with doing := rs } }) (finishDoing k)

/-- What the CPU would load at `x` if nothing were stale: the latest pending store, else memory (20_memory.md R71). -/
def cpuView (s : State) (x : Nat) : Val Byte :=
  match forwarded s.cpu.sb x with
  | some v => .of v
  | none => memRead s.mem x

/-! Invariants. -/

/-- Memory has its canonical form, and every byte of it and of every pending store is RAM (20_memory.md R60). -/
def memoryInv (s : State) : Bool :=
  Memory.wf s.mem && s.mem.all (fun p => isRam s.config p.1)
    && s.cpu.sb.all (fun p => rangeRam s.config p.addr p.bytes.length)

/-- The bytes still to move do not wrap and overlap neither each other's side nor the descriptor (30_encoding.md R101
(f), (g), 43_engine.md R185); the config and link words are admitted (R101 (a) to (c), (h)); the bytes left are no more than
the descriptor's length. -/
def workingInv (l : CfgLayout) (c : Channel) : Bool :=
  match c.dptr, c.curSrc, c.curDst, c.bcntLeft, c.cfg, c.para, c.nxt, c.len with
  | .of a, .of src, .of dst, .of left, .of w, .of _, .of nx, .of k =>
    decide (left.toNat ≤ k.toNat) && decide (src.toNat + left.toNat ≤ 2 ^ 32) && decide (dst.toNat + left.toNat ≤ 2 ^ 32)
      && !overlaps dst.toNat left.toNat src.toNat left.toNat
      && !overlaps dst.toNat left.toNat a.toNat 24
      && configAdmitted l w && linkAdmitted nx
  | _, _, _, _, _, _, _, _ => false

/-- The block reset of `split` is over: what is left of it ends with the set-up done (45_split.md R220). -/
def resetDone (s : State) : Bool := s.blk.splitDone || decide (Rest.gates ∈ s.cpu.doing)

/-- The dependence of a channel's flags and registers on its phase: busy and `en` are 1 exactly outside Idle
(43_engine.md R176, 42_channel_commands.md R156), nothing pauses (10_state.md R22), the block reset of `split` has written the
three flags (R53), a channel outside Idle is alive, set NonSecure and handed to software (R155, R156), Fetch has a descriptor
pointer, Move has its working registers (R179). -/
def channelInv (n : Chan) (s : State) : Bool :=
  let c := getCh s n
  decide (getBusy s n = .of true ↔ c.phase ≠ .idle) && decide (c.en = .of true ↔ c.phase ≠ .idle)
    && decide (c.pause ≠ .of true)
    && (!resetDone s || (decide (getBusy s n ≠ .unset) && decide (c.en ≠ .unset) && decide (c.pause ≠ .unset)))
    && (decide (c.phase = .idle) ||
        (decide (s.blk.clkOn = .of true) && decide (s.blk.inReset = .of false)
          && decide (c.pause = .of false) && decide (getSec s n = .of .nonSecure) && decide (n.val < s.config.nimpl)
          && decide (c.dptr ≠ .unset)))
    && (decide (c.phase ≠ .move) || workingInv s.config.layout c)

/-- Every channel keeps its invariant. -/
abbrev ChannelsInv (s : State) : Prop := ∀ n : Chan, channelInv n s = true

/-- No two engines in Move share memory that one of them writes (20_memory.md R84, 60_exceptions.md R252; log 30). -/
abbrev SharingInv (s : State) : Prop := ∀ n m : Chan, n ≠ m → (getCh s n).phase = .move → (getCh s m).phase = .move →
  rangesMeet (engineWrites (getCh s n)) (engineReads (getCh s m) ++ engineWrites (getCh s m)) = false

/-- A CPU step left of an operation that changes neither `life` nor `pinned`. -/
def restQuiet : Rest → Bool
  | .store _ _ => true
  | .bind _ _ _ => false
  | .newAddr _ _ => false
  | .startEnable _ _ => false
  | .poll _ _ _ => false
  | .waitEnd _ _ => false
  | .release => true
  | .clock => true
  | .gates => false

/-- What the checks of an operation under way found still holds at the step that relies on it (log 9). -/
def RestOk (s : State) : Rest → Prop
  | .bind A src dst => selfOverlap ⟨A, src, dst⟩ = false ∧
      ∀ x ∈ resourceRanges ⟨A, src, dst⟩, touchesPinned s.pinned x.1 x.2 = false
  | .newAddr r n => getLife s n = .free ∧ inCallersHands s r = true
  | .startEnable x n => getLife s n = .ready x.res
  | .poll x n _ => getLife s n = .started x.res
  | .waitEnd x n => getLife s n = .started x.res
  | .store _ _ => True
  | .release => True
  | .clock => True
  | .gates => True

/-- The CPU steps left of an operation: only the last one changes `life` or `pinned`. -/
def DoingOk (s : State) : List Rest → Prop
  | [] => True
  | [r] => RestOk s r
  | r :: rs => restQuiet r = true ∧ DoingOk s rs

/-- Ownership (44_transfer_lifecycle.md R200, R207; 41_transfer_resources.md R144, R146): the resources a `Transfer`
holds exist, no two channels hold the same, the ranges of all existing resources are disjoint, and an operation under way
still has what it checked. -/
structure OwnershipInv (s : State) : Prop where
  heldExist : ∀ (n : Chan) (r : Resources), (getLife s n = .ready r ∨ getLife s n = .started r) → r ∈ s.pinned
  heldOnce : ∀ (n m : Chan) (r : Resources), (getLife s n = .ready r ∨ getLife s n = .started r) →
    (getLife s m = .ready r ∨ getLife s m = .started r) → n = m
  selfDisjoint : ∀ r ∈ s.pinned, selfOverlap r = false
  apart : s.pinned.Pairwise (fun p q => ∀ x ∈ resourceRanges p, touchesResources q x.1 x.2 = false)
  underWay : DoingOk s s.cpu.doing

/-! Runs. -/

/-- A good end: the CPU is running and no engine has faulted (60_exceptions.md R243, R245). A refused run is no run. -/
def GoodEnd (s : State) : Prop :=
  s.cpu.run = .running ∧ ∀ (n : Chan) (r : FaultReason), (getCh s n).phase ≠ .fault r

/-- An infinite run. -/
def IsRun (σ : Nat → State) : Prop := ∀ k, step (σ k) = .next (σ (k + 1))

/-- ENG(n) has an enabled step (43_engine.md R175). -/
def EngineEnabled (n : Chan) (s : State) : Prop := ∃ i, engineStep n 0 s = .instr i

/-- Weak fairness of ENG(n) (43_engine.md R189, 70_reset_and_hazards.md R283): if from some point on it always has an
enabled step, it steps again and again. The engine's steps are the named ones, so DESIGN CHOICE, log 21: only its turns at the
grain of named steps count, and a run in which it takes only turns at the grain of descriptor words is called unfair. -/
def WeaklyFair (n : Chan) (σ : Nat → State) : Prop :=
  ∀ k, (∀ j, k ≤ j → EngineEnabled n (σ j)) → ∃ j, k ≤ j ∧ (turnOf (σ j)).agent = .eng n

end Sys2Proof.Safety
end

