-- ==== Sys2Proof/Certificates/Slice0/Obligations.lean ====
section
/-! DEFINITION. The statements for the provers. Each docstring names the rule of spec/ it formalises, or says that it is
derived. A frame is written as `t = { s with <fields> := t.<fields> }`: every other field of the state is unchanged. -/

open Sys2Proof Sys2Proof.Machine Sys2Proof.Safety

/-! ## Encoding (30_encoding.md) -/

/-- Words written out from the tables of 30_encoding.md R90, R94, R99, R102 (95_test_vectors.md V2, V3, V5, V10) decode to
the instruction they stand for, or are refused by name.
Derived. -/
def Obligations.SpecWordsDecodeToTheirInstructions : Prop :=
  decode {} 0 [0x81, 0x04, 0x81, 0x04] = .ok (.m2mB32B32 0 2 2) ∧
  decode {} 3 [0x81, 0x00, 0x81, 0x06] = .ok (.m2mB8B64 3 2 2) ∧
  decode {} 0 [0x41, 0x02, 0xC1, 0x00] = .ok (.m2mB16B8 0 1 3) ∧
  decode {} 0 [0x00, 0xF8, 0xFF, 0xFF] = .ok (.linkEnd 0) ∧
  decode {} 0 [0x20, 0x00, 0x00, 0x40] = .ok (.linkNext 0 0x40000020) ∧
  decode {} 0 [0x81, 0x04, 0x81, 0x04, 0x00, 0x10, 0x00, 0x40, 0x00, 0x20, 0x00, 0x40,
            0x20, 0x00, 0x00, 0x00, 0x08, 0x00, 0x00, 0x00, 0x00, 0xF8, 0xFF, 0xFF]
    = .ok (.desc 0 ⟨0x04810481, 0x40001000, 0x40002000, 0x20, 8, 0xFFFFF800⟩) ∧
  decodeConfig {} 0 0x04810480 = .error .srcDrq ∧ decodeConfig {} 0 0x04800481 = .error .dstDrq ∧
  decodeConfig {} 0 0x048104A1 = .error .srcMode ∧ decodeConfig {} 0 0x04A10481 = .error .dstMode ∧
  decodeConfig {} 0 0x04810581 = .error .reserved ∧ decodeConfig {} 0 0x84810481 = .error .reserved ∧
  decodeLink 0 0xFFFFF801 = .error .linkMisaligned ∧ decodeLink 0 0xFFFFFFEC = .error .linkOutOfRange

/-- Decode and encode agree on every descriptor row with every operand at every value the encoding admits
(30_encoding.md R90, R99, R101, R102), under the default CfgLayout; and for the sixteen config forms under every layout that
describes a config word (R94). Derived: what a layout other than the default may be is log 32, its reserved bits log 33 (each
DESIGN CHOICE). -/
def Obligations.DescriptorRowsRoundTrip : Prop :=
  (∀ (m : RegMap) (i : Instr) (n : Chan) (bs : List Byte),
    instrWf i = true → descriptorChan i = some n → encode {} m i = .bytes bs → decode {} n bs = .ok i) ∧
  (∀ (l : CfgLayout) (m : RegMap) (n : Chan) (ws wd : Width) (sb db : BitVec 2), cfgLayoutWf l = true →
    ∃ w, encode l m (m2mInstr n ws wd sb db) = .bytes (wordBytes w) ∧ leWord (wordBytes w) = w ∧
      decodeConfig l n w = .ok (m2mInstr n ws wd sb db))

/-- No bit of an encoding is dropped: bytes that decode to an instruction are its encoding, and the instruction is a
well-formed descriptor row of that channel, under the default CfgLayout; and a config word that decodes to a form is the
word of that form under every layout that describes a config word. Derived: what a layout other than the default may be is
log 32, its reserved bits log 33 (each DESIGN CHOICE). -/
def Obligations.DecodeReadsEveryBit : Prop :=
  (∀ (m : RegMap) (n : Chan) (bs : List Byte) (i : Instr), decode {} n bs = .ok i →
    encode {} m i = .bytes bs ∧ instrWf i = true ∧ descriptorChan i = some n) ∧
  (∀ (l : CfgLayout) (m : RegMap) (n : Chan) (w : Word) (i : Instr), cfgLayoutWf l = true →
    decodeConfig l n w = .ok i →
    (∃ ws wd sb db, i = m2mInstr n ws wd sb db) ∧ encode l m i = .bytes (wordBytes w))

/-- The config words that decode to the form of a pair of width codes are exactly those of its row of the opcode table:
mask 0xFF3F_FF3F, match 0x0001_0001 | ws<<9 | wd<<25, the burst codes being bits 7:6 and 23:22 (30_encoding.md R102).
Derived. -/
def Obligations.ConfigFormsAreTheMaskTable : Prop :=
  ∀ (n : Chan) (w : Word) (ws wd : Width) (sb db : BitVec 2),
    decodeConfig {} n w = .ok (m2mInstr n ws wd sb db) ↔
      w &&& 0xFF3FFF3F#32 =
        (0x00010001#32 ||| ((widthCode {} ws).setWidth 32 <<< 9) ||| ((widthCode {} wd).setWidth 32 <<< 25)) ∧
        w.extractLsb' 6 2 = sb ∧ w.extractLsb' 22 2 = db

/-- 30_encoding.md R101: under any CfgLayout a descriptor at `a` is admitted exactly when (a) to (h) hold, `sw` and `dw`
being the access widths of its width codes. Under the default layout these conditions imply that the config word reads
0x0001_0001 under the mask 0xF93F_F93F of the DRQ, mode and reserved bits, and the widths are `1 << code` (R95). Derived: that
another layout keeps the widths 5, 1, 2, 2 of the fields is log 32, that a bit in no field of it is reserved log 33 (each
DESIGN CHOICE). -/
def Obligations.AdmittedIsConditionsAToH : Prop :=
  ∀ (l : CfgLayout) (d : Desc) (a sw dw : Nat),
    sw = (widthOfCode l (d.config.extractLsb' l.srcWidthAt 2)).bytes →
    dw = (widthOfCode l (d.config.extractLsb' l.dstWidthAt 2)).bytes →
    (admitted l d a = true ↔
      (d.config.extractLsb' l.srcDrqAt 5 = l.drqMemory ∧ d.config.extractLsb' l.dstDrqAt 5 = l.drqMemory) ∧
      (d.config.extractLsb' l.srcModeAt 1 = l.linear ∧ d.config.extractLsb' l.dstModeAt 1 = l.linear) ∧
      (∀ i, i < 32 → d.config.getLsbD i = true → ∃ f ∈ cfgFields l, f.1 ≤ i ∧ i < f.1 + f.2) ∧
      1 ≤ d.length.toNat ∧ d.length.toNat % sw = 0 ∧ d.length.toNat % dw = 0 ∧
      d.srcAddr.toNat % sw = 0 ∧ d.dstAddr.toNat % dw = 0 ∧
      d.srcAddr.toNat + d.length.toNat ≤ 2 ^ 32 ∧ d.dstAddr.toNat + d.length.toNat ≤ 2 ^ 32 ∧
      (∀ x, InRange d.dstAddr.toNat d.length.toNat x →
        ¬ InRange d.srcAddr.toNat d.length.toNat x ∧ ¬ InRange a 24 x) ∧
      (d.nextAddr = 0xFFFFF800#32 ∨ (d.nextAddr.toNat % 4 = 0 ∧ d.nextAddr.toNat + 24 ≤ 2 ^ 32))) ∧
    (l = {} → admitted l d a = true → d.config &&& 0xF93FF93F#32 = 0x00010001#32) ∧
    (l = {} → sw = 2 ^ (d.config.extractLsb' 9 2).toNat ∧ dw = 2 ^ (d.config.extractLsb' 25 2).toNat)

/-- The raw accesses a host command is (30_encoding.md R103) are read back as that command, at the addresses of R105 and with
the bit positions and polarities anywhere in the registers (10_state.md R37, 00_scope.md R7). The auto-gating command is
three modify-field accesses (45_split.md R223), which together do what it does. Derived: the addresses are PRESUMED by the
spec, log 3. -/
def Obligations.HostCommandsRoundTrip : Prop :=
  ∀ (e z mclk chan common : Nat) (sec busy : PerChannel Nat) (ns gm gc gb : Bool) (m : RegMap) (n : Chan) (a : Word)
    (pick : Nat) (s : State),
    m = { ({} : RegMap) with
      enBit := e, pauseBit := z, secBit := sec, busyBit := busy, agMclkBit := mclk, agChanBit := chan, agCommonBit := common
      nonSecureIs := ns, agMclkOnIs := gm, agChanOnIs := gc, agCommonOnIs := gb } →
    s.config.regMap = m → (∀ j k, bankGet sec j = bankGet sec k → j = k) → (∀ j k, bankGet busy j = bankGet busy k → j = k) →
    mclk ≠ chan → mclk ≠ common → chan ≠ common →
    (∀ i ∈ [Instr.chEnable n, .chIsActive n, .chSetDescAddr n a, .chSetNonsecure n],
      ∃ r, encode s.config.layout m i = .accesses [r] ∧ cpuAccess r pick s = exec i s) ∧
    ∃ r1 r2 r3, encode s.config.layout m .blkAutogateEnable = .accesses [r1, r2, r3] ∧
      andThen (andThen (cpuAccess r1 pick s) (cpuAccess r2 pick)) (cpuAccess r3 pick) = exec .blkAutogateEnable s

/-- 42_channel_commands.md R168 and R169, as raw accesses under the default RegMap of 30_encoding.md R105. R168: a write
of 0 to the enable bit and any write to the pause register are refused by name. R169: so are a read of any register of the
channel block, of the security or of the auto-gating register; a write to the registers from `cfg` to `pkg_num` or to the
status register; a security bit set to Secure; an auto-gating bit set to AutoGateOff. A bit of the status register that is no
channel's busy flag holds any value (10_state.md R35): with the block set up a read of it gives one of the two values, each of
them for some choice, and changes nothing else. Derived: the RegMap is PRESUMED by the spec, log 3; that such a read is carried
out, and its guard, are log 26 (DESIGN CHOICE). -/
def Obligations.AccessesOutsideTheSetAreRefused : Prop :=
  ∀ (n : Chan) (s : State) (v : Word) (bit p : Nat) (b : Bool), s.config.regMap = {} →
    cpuAccess (.modify (chanReg {} n 0x00) 0 false) p s = .refused .disableNotModelled ∧
    cpuAccess (.write (chanReg {} n 0x00) 0) p s = .refused .disableNotModelled ∧
    cpuAccess (.write (chanReg {} n 0x04) v) p s = .refused .pauseNotModelled ∧
    cpuAccess (.modify (chanReg {} n 0x04) bit b) p s = .refused .pauseNotModelled ∧
    (∀ off ∈ [0x00, 0x04, 0x08, 0x0C, 0x10, 0x14, 0x18, 0x1C, 0x28, 0x2C, 0x30],
      cpuAccess (.read (chanReg {} n off) bit) p s = .refused .registerAccessNotModelled) ∧
    (∀ a ∈ [0x01C02020, 0x01C02028], cpuAccess (.read a bit) p s = .refused .registerAccessNotModelled) ∧
    (∀ off ∈ [0x0C, 0x10, 0x14, 0x18, 0x1C, 0x28, 0x2C, 0x30],
      cpuAccess (.write (chanReg {} n off) v) p s = .refused .registerAccessNotModelled ∧
      cpuAccess (.modify (chanReg {} n off) bit b) p s = .refused .registerAccessNotModelled) ∧
    cpuAccess (.write 0x01C02030 v) p s = .refused .registerAccessNotModelled ∧
    cpuAccess (.modify 0x01C02030 bit b) p s = .refused .registerAccessNotModelled ∧
    cpuAccess (.modify 0x01C02020 n.val false) p s = .refused .registerAccessNotModelled ∧
    cpuAccess (.modify 0x01C02028 bit true) p s = .refused .registerAccessNotModelled ∧
    (8 ≤ bit → bit < 32 → s.blk.splitDone = true → s.blk.clkOn = .of true → s.blk.inReset = .of false →
      (∃ q, cpuAccess (.read 0x01C02030 bit) q s = .next (setRet s (.statusBit b))) ∧
      ∃ c, cpuAccess (.read 0x01C02030 bit) p s = .next (setRet s (.statusBit c))) ∧
    (8 ≤ bit → bit < 32 → s.blk.splitDone = false → cpuAccess (.read 0x01C02030 bit) p s = .refused .channelNotUsable) ∧
    (32 ≤ bit → cpuAccess (.read 0x01C02030 bit) p s = .refused .registerAccessNotModelled)

/-! ## Memory and ordering (20_memory.md) -/

/-- 20_memory.md R62: the word `w` stored at `a` has `w[7:0]` at `a`, `w[15:8]` at `a+1`, `w[23:16]` at `a+2`, `w[31:24]`
at `a+3`, and the engine's word read gives `w` back.
Derived. -/
def Obligations.WordsAreLittleEndian : Prop :=
  ∀ (m : Memory) (a : Nat) (w : Word),
    memRead (memWriteBytes m a (wordBytes w)) a = .of (w.extractLsb' 0 8) ∧
    memRead (memWriteBytes m a (wordBytes w)) (a + 1) = .of (w.extractLsb' 8 8) ∧
    memRead (memWriteBytes m a (wordBytes w)) (a + 2) = .of (w.extractLsb' 16 8) ∧
    memRead (memWriteBytes m a (wordBytes w)) (a + 3) = .of (w.extractLsb' 24 8) ∧
    memReadWord (memWriteBytes m a (wordBytes w)) a = some w

/-- 20_memory.md R72: a CPU store is appended to `cpu.sb` and empties the stale sets of its bytes; `mem` and everything
else is unchanged. -/
def Obligations.CpuStoreIsPending : Prop :=
  ∀ (s : State) (a v : Nat) (w : Width), CpuMayAccess s a w.bytes →
    ∃ t, cpuStore a w v s = .next t ∧
      t.cpu.sb = s.cpu.sb ++ [⟨a, leBytes w.bytes v⟩] ∧
      (∀ x b, (x, b) ∈ t.cpu.stale ↔ (x, b) ∈ s.cpu.stale ∧ ¬ (a ≤ x ∧ x < a + w.bytes)) ∧
      t = { s with cpu := { s.cpu with sb := t.cpu.sb, stale := t.cpu.stale } }

/-- The CPU always sees its own latest store (20_memory.md R71, R72, vector V70): a load of what was just stored returns
the stored value whatever the free choice, and changes nothing but the returned value. Derived. -/
def Obligations.CpuLoadSeesOwnStore : Prop :=
  ∀ (s t : State) (a v pick : Nat) (w : Width), storeFits w v = true → cpuStore a w v s = .next t →
    cpuLoad a w pick t = .next (setRet t (.loaded v))

/-- 20_memory.md R71 for one byte with no pending store over it: the byte is `mem[b]` or one of `cpu.stale[b]`, and each
of them is a possible result. (The free choice of one byte reaches 512 candidates; a stale set without repeats has at most
257 values, log 16.) Derived: R71 is stated for every width. -/
def Obligations.CpuLoadChoosesMemoryOrStale : Prop :=
  ∀ (s : State) (a : Nat), CpuMayAccess s a 1 → forwarded s.cpu.sb a = none →
    (staleAt s.cpu.stale a).length < 512 →
    ∀ b : Byte, (∃ pick, cpuLoad a .b8 pick s = .next (setRet s (.loaded b.toNat))) ↔
      (memRead s.mem a = .of b ∨ (a, Val.of b) ∈ s.cpu.stale)

/-- 20_memory.md R75: the fence puts the latest pending store of each byte in `mem`, leaves the other bytes, and empties
`cpu.sb` and `cpu.stale`; nothing else changes.
Derived. -/
def Obligations.FenceDrainsAndForgets : Prop :=
  ∀ s : State, ∃ t, exec .fence s = .next t ∧
    t.cpu.sb = [] ∧ t.cpu.stale = [] ∧ (∀ x, memRead t.mem x = cpuView s x) ∧
    t = { s with mem := t.mem, cpu := { s.cpu with sb := [], stale := [] } }

/-- 20_memory.md R74: a pending store that no earlier one overlaps may drain: its bytes reach `mem`, it leaves `cpu.sb`,
nothing else changes. A store that an earlier one overlaps may not: such a drain is no transition, for which exec answers
`notEnabled` (DEDUCED, log 11).
Derived. -/
def Obligations.DrainMovesOneStore : Prop :=
  ∀ (s : State) (j : Nat) (p : PendingStore), s.cpu.sb[j]? = some p →
    ((∀ i q, i < j → s.cpu.sb[i]? = some q → storesOverlap q p = false) →
      ∃ t, exec (.drain j) s = .next t ∧
        (∀ i (h : i < p.bytes.length), memRead t.mem (p.addr + i) = .of p.bytes[i]) ∧
        (∀ x, ¬ (p.addr ≤ x ∧ x < p.addr + p.bytes.length) → memRead t.mem x = memRead s.mem x) ∧
        t.cpu.sb = s.cpu.sb.eraseIdx j ∧
        t = { s with mem := t.mem, cpu := { s.cpu with sb := t.cpu.sb } }) ∧
    ((∃ i q, i < j ∧ s.cpu.sb[i]? = some q ∧ storesOverlap q p = true) →
      exec (.drain j) s = .fault .notEnabled)

/-- Any drain order gives the memory of program order (20_memory.md R74, R75): a drain before a fence leaves what the
fence alone leaves. Derived. -/
def Obligations.DrainBeforeFenceIsInvisible : Prop :=
  ∀ (s t : State) (j : Nat), memoryInv s = true → exec (.drain j) s = .next t →
    ∃ u, exec .fence t = .next u ∧ exec .fence s = .next u

/-- 20_memory.md R83 and R60: a CPU access that touches a pinned byte is refused whatever else holds, and one outside RAM
is refused too. Derived (the order of the two checks is log 12). -/
def Obligations.CpuAccessRefusals : Prop :=
  ∀ (s : State) (a v pick : Nat) (w : Width),
    (touchesPinned s.pinned a w.bytes = true →
      cpuLoad a w pick s = .refused .ownershipViolation ∧ cpuStore a w v s = .refused .ownershipViolation) ∧
    (touchesPinned s.pinned a w.bytes = false → rangeRam s.config a w.bytes = false →
      cpuLoad a w pick s = .refused .unmappedAccess ∧ cpuStore a w v s = .refused .unmappedAccess)

/-! ## Channel commands (42_channel_commands.md) -/

/-- 42_channel_commands.md R156: on a usable idle channel with a descriptor address and the NonSecure domain, the enable
sets `en` and `busy[n]`, loads `dptr` and enters Fetch, in one step, and changes nothing else; else it is refused by the
reason of the first requirement that fails (R155, R160, R161, R159). Derived: that the command is carried out also
on a channel that a `Transfer` holds (44_transfer_lifecycle.md R200) is log 36 (DESIGN CHOICE, the model's). -/
def Obligations.EnableStartsTheEngine : Prop :=
  ∀ (s : State) (n : Chan),
    (∀ a, Usable n s → (getCh s n).phase = .idle → (getCh s n).descAddr = .of a → getSec s n = .of .nonSecure →
      ∃ t, exec (.chEnable n) s = .next t ∧
        getCh t n = { getCh s n with en := .of true, dptr := .of a, phase := .fetch } ∧ getBusy t n = .of true ∧
        (∀ m, m ≠ n → getCh t m = getCh s m ∧ getBusy t m = getBusy s m) ∧
        t = { s with ch := t.ch, blk := { s.blk with busy := t.blk.busy } }) ∧
    (Unusable n s → exec (.chEnable n) s = .refused .channelNotUsable) ∧
    (Usable n s → (getCh s n).phase ≠ .idle → exec (.chEnable n) s = .refused .enableWhileBusy) ∧
    (Usable n s → (getCh s n).phase = .idle → (getCh s n).descAddr = .unset →
      exec (.chEnable n) s = .refused .unsetState) ∧
    (Usable n s → (getCh s n).phase = .idle → (getCh s n).descAddr ≠ .unset → getSec s n ≠ .of .nonSecure →
      exec (.chEnable n) s = .refused .secureChannel)

/-- 42_channel_commands.md R157: on a usable channel `CH_IS_ACTIVE` returns the busy flag and nothing else changes; on one
that is not usable it is refused. `is_active` of the Started transfer (44_transfer_lifecycle.md R204) does the same,
releasing nothing and issuing no fence. A flag nothing has written refuses (00_scope.md R13); after `split` every flag is
written (10_state.md R53).
Derived. -/
def Obligations.IsActiveReturnsBusy : Prop :=
  ∀ (s : State) (n : Chan),
    (∀ b, Usable n s → getBusy s n = .of b →
      exec (.chIsActive n) s = .next { s with cpu := { s.cpu with ret := .active b } }) ∧
    (Usable n s → getBusy s n = .unset → exec (.chIsActive n) s = .refused .unsetState) ∧
    (Unusable n s → exec (.chIsActive n) s = .refused .channelNotUsable) ∧
    (∀ x : Transfer, Usable n s → x.state = .started → getLife s n = .started x.res →
      (∀ b, getBusy s n = .of b →
        exec (.transferIsActive x n) s = .next { s with cpu := { s.cpu with ret := .active b } }) ∧
      (getBusy s n = .unset → exec (.transferIsActive x n) s = .refused .unsetState))

/-- 42_channel_commands.md R158: on a usable idle channel the descriptor address is written, whatever its value, and nothing
else changes; on a channel that is not usable (R155) or not idle (R162) the write is refused. Derived: that the command is carried out also
on a channel that a `Transfer` holds (44_transfer_lifecycle.md R200) is log 36 (DESIGN CHOICE, the model's). -/
def Obligations.SetDescAddrWritesTheAddress : Prop :=
  ∀ (s : State) (n : Chan) (a : Word),
    (Usable n s → (getCh s n).phase = .idle →
      ∃ t, exec (.chSetDescAddr n a) s = .next t ∧
        getCh t n = { getCh s n with descAddr := .of a } ∧ (∀ m, m ≠ n → getCh t m = getCh s m) ∧
        t = { s with ch := t.ch }) ∧
    (Unusable n s → exec (.chSetDescAddr n a) s = .refused .channelNotUsable) ∧
    (Usable n s → (getCh s n).phase ≠ .idle → exec (.chSetDescAddr n a) s = .refused .writeWhileBusy)

/-- 42_channel_commands.md R159: on a usable idle channel the domain becomes NonSecure, the other channels' bits stay, and
nothing else changes; on a channel that is not usable (R155) or not idle (R162) the write is refused. An enable of a channel
whose domain is not NonSecure is refused. Derived: that the command is carried out also
on a channel that a `Transfer` holds (44_transfer_lifecycle.md R200) is log 36 (DESIGN CHOICE, the model's). -/
def Obligations.SetNonsecureSetsOneBit : Prop :=
  ∀ (s : State) (n : Chan),
    (Usable n s → (getCh s n).phase = .idle →
      ∃ t, exec (.chSetNonsecure n) s = .next t ∧
        getSec t n = .of .nonSecure ∧ (∀ m, m ≠ n → getSec t m = getSec s m) ∧
        t = { s with blk := { s.blk with sec := t.blk.sec } }) ∧
    (Unusable n s → exec (.chSetNonsecure n) s = .refused .channelNotUsable) ∧
    (Usable n s → (getCh s n).phase ≠ .idle → exec (.chSetNonsecure n) s = .refused .writeWhileBusy) ∧
    (Usable n s → (getCh s n).phase = .idle → (getCh s n).descAddr ≠ .unset → getSec s n ≠ .of .nonSecure →
      exec (.chEnable n) s = .refused .secureChannel)

/-! ## Bring-up (45_split.md) -/

/-- 45_split.md R221: with every engine idle, the reset leaves the table of 10_state.md R53, and memory, the CPU, `life`,
`pinned`, the clock and `split_done` as they are; while the block is in reset no engine is alive and no channel usable. With
an engine that is not idle it is refused. The release only ends the reset. (The last field of a channel's record is the
model's own `len`, of which nothing is said.) Derived: that the reset leaves `split_done` and the release changes nothing else,
so that after `split` auto-gating can be unset with `split_done` true, is R221 taken against R225, log 35 (DESIGN CHOICE, the
model's). -/
def Obligations.ResetLeavesTheTable : Prop :=
  ∀ s : State,
    ((∀ n, (getCh s n).phase = .idle) →
      ∃ t, exec .ccuResetAssert s = .next t ∧ t.blk.inReset = .of true ∧
        (∀ n, getCh t n = ⟨.of false, .of false, .unset, .unset, .unset, .unset, .unset, .unset, .unset, .unset, .unset, .unset,
            .idle, ⟨none, none, none, none, none, none⟩, .unset, (getCh t n).len⟩ ∧
          getBusy t n = .of false ∧ getSec t n = .unset) ∧
        t.blk.agMclk = .unset ∧ t.blk.agChan = .unset ∧ t.blk.agCommon = .unset ∧
        (∀ n, ¬ Live n t ∧ ¬ Usable n t) ∧
        t = { s with ch := t.ch, blk := { t.blk with clkOn := s.blk.clkOn, splitDone := s.blk.splitDone } }) ∧
    ((∃ n, (getCh s n).phase ≠ .idle) → exec .ccuResetAssert s = .refused .resetWhileBusy) ∧
    exec .ccuResetDeassert s = .next { s with blk := { s.blk with inReset := .of false } }

/-- 45_split.md R222 and R223: the clock command sets `clk_on`; with the clock on and the reset released the auto-gating
command sets the three fields and nothing else; with the clock off or the block in reset it is refused, and so it is while
the field its guard reads is `unset` (00_scope.md R13; 95_test_vectors.md V61). Derived: that the guard is read from
left to right, so that a clock that is off decides before the reset is looked at, is log 18 (DEDUCED). -/
def Obligations.ClockAndAutogate : Prop :=
  ∀ s : State,
    exec .ccuClockEnable s = .next { s with blk := { s.blk with clkOn := .of true } } ∧
    (s.blk.clkOn = .of true → s.blk.inReset = .of false →
      exec .blkAutogateEnable s =
        .next { s with blk := { s.blk with agMclk := .of .on, agChan := .of .on, agCommon := .of .on } }) ∧
    (s.blk.clkOn = .of false → exec .blkAutogateEnable s = .refused .channelNotUsable) ∧
    (s.blk.clkOn = .of true → s.blk.inReset = .of true → exec .blkAutogateEnable s = .refused .channelNotUsable) ∧
    (s.blk.clkOn = .unset → exec .blkAutogateEnable s = .refused .unsetState) ∧
    (s.blk.clkOn = .of true → s.blk.inReset = .unset → exec .blkAutogateEnable s = .refused .unsetState)

/-- 45_split.md R220 and R226: the first `split`, with every engine idle, leaves every channel as the table of 10_state.md R53
has it, releases the reset, turns the clock and auto-gating on and hands out the implemented channels; memory, the CPU's
buffers, `life` and `pinned` are unchanged. A `split` with an engine that is not idle, and a second `split`, are refused.
(The last field of a channel's record is the model's own `len`, of which nothing is said.) -/
def Obligations.SplitBringsTheBlockUp : Prop :=
  ∀ s : State,
    (s.blk.splitDone = false → (∀ n, (getCh s n).phase = .idle) →
      ∃ t, exec .split s = .next t ∧
        t.blk.inReset = .of false ∧ t.blk.clkOn = .of true ∧ t.blk.splitDone = true ∧
        t.blk.agMclk = .of .on ∧ t.blk.agChan = .of .on ∧ t.blk.agCommon = .of .on ∧
        (∀ n, getCh t n = ⟨.of false, .of false, .unset, .unset, .unset, .unset, .unset, .unset, .unset, .unset, .unset, .unset,
            .idle, ⟨none, none, none, none, none, none⟩, .unset, (getCh t n).len⟩ ∧
          getBusy t n = .of false ∧ getSec t n = .unset) ∧
        (∀ n : Chan, n.val < s.config.nimpl → Usable n t) ∧
        t = { s with ch := t.ch, blk := t.blk, cpu := { s.cpu with ret := .dma s.config.nimpl } }) ∧
    (s.blk.splitDone = false → (∃ n, (getCh s n).phase ≠ .idle) → exec .split s = .refused .resetWhileBusy) ∧
    (s.blk.splitDone = true → exec .split s = .refused .secondSplit)

/-! ## Descriptor objects and buffers (40_descriptor_and_buffers.md) -/

/-- 40_descriptor_and_buffers.md R121, R123, R124, R125: the pure operations return their value and change nothing else; a
descriptor at or above 2^32 - 23 is refused. Derived: that they are carried out too on an object `mem_to_mem` has moved, of
which 30_encoding.md R107 gives no outcome, is log 34 (DESIGN CHOICE, the model's). -/
def Obligations.PureOperationsReturnTheirValue : Prop :=
  ∀ (s : State) (A : Nat) (b : Buffer),
    (A < 2 ^ 32 - 23 → exec (.descriptorAsPtr A) s = .next { s with cpu := { s.cpu with ret := .address A } }) ∧
    (2 ^ 32 - 23 ≤ A → exec (.descriptorAsPtr A) s = .refused .addressOutOfRange) ∧
    exec (.bufferBaseAddress b) s = .next { s with cpu := { s.cpu with ret := .address b.base } } ∧
    exec (.bufferElementCount b) s = .next { s with cpu := { s.cpu with ret := .count b.count } } ∧
    exec (.bufferSizeBytes b) s = .next { s with cpu := { s.cpu with
      ret := .size (b.count * match b.width with
        | .b8 => 1
        | .b16 => 2
        | .b32 => 4
        | .b64 => 8) } }

/-- 40_descriptor_and_buffers.md R120: a fresh descriptor is six pending stores, the words 0, 0, 0, 0, 0, 0xFFFF_F800, so
that the CPU sees these 24 bytes and memory is not changed yet, and nothing is returned (log 28, DESIGN CHOICE). A place at or
above 2^32 - 23 is refused (R121), and so is one that overlaps `pinned` (20_memory.md R83) or leaves RAM (R60). Derived: the
order of these checks is log 12. -/
def Obligations.FreshDescriptorIsSixStores : Prop :=
  ∀ (s : State) (A : Nat),
    (A < 2 ^ 32 - 23 → CpuMayAccess s A 24 →
      ∃ t, exec (.descriptorNew A) s = .next t ∧
        t.cpu.sb = s.cpu.sb ++ [⟨A, [0, 0, 0, 0]⟩, ⟨A + 4, [0, 0, 0, 0]⟩, ⟨A + 8, [0, 0, 0, 0]⟩, ⟨A + 12, [0, 0, 0, 0]⟩,
          ⟨A + 16, [0, 0, 0, 0]⟩, ⟨A + 20, [0x00, 0xF8, 0xFF, 0xFF]⟩] ∧
        (∀ x b, (x, b) ∈ t.cpu.stale ↔ (x, b) ∈ s.cpu.stale ∧ ¬ (A ≤ x ∧ x < A + 24)) ∧
        t = { s with cpu := { s.cpu with sb := t.cpu.sb, stale := t.cpu.stale } }) ∧
    (2 ^ 32 - 23 ≤ A → exec (.descriptorNew A) s = .refused .addressOutOfRange) ∧
    (A < 2 ^ 32 - 23 → touchesPinned s.pinned A 24 = true → rangeRam s.config A 24 = true →
      exec (.descriptorNew A) s = .refused .ownershipViolation) ∧
    (A < 2 ^ 32 - 23 → touchesPinned s.pinned A 24 = false → rangeRam s.config A 24 = false →
      exec (.descriptorNew A) s = .refused .unmappedAccess) ∧
    (A < 2 ^ 32 - 23 → touchesPinned s.pinned A 24 = true → rangeRam s.config A 24 = false →
      exec (.descriptorNew A) s = .refused .ownershipViolation ∨ exec (.descriptorNew A) s = .refused .unmappedAccess)

/-! ## Transfer resources (41_transfer_resources.md) -/

/-- 41_transfer_resources.md R140 and R145: when no check fails, `mem_to_mem` makes the six stores of the descriptor of
R145, its config word the fields of R99 at their places in the CfgLayout, pins the three ranges and returns the resources; no
register and no byte of memory changes. Under the default layout the config word is the number of R99. (When no check of R144
fails is the first clause of MemToMemRefusals.) Derived: R99 gives the places and codes of the default layout, which are log 2
(PRESUMED); what a layout other than the default may be is log 32 (DESIGN CHOICE). -/
def Obligations.MemToMemWritesTheDescriptor : Prop :=
  ∀ (s : State) (A : Nat) (src dst : Buffer) (l : CfgLayout) (b : BitVec 2) (w : Word),
    l = s.config.layout → b = s.config.burstDefault →
    w = (l.drqMemory.setWidth 32 <<< l.srcDrqAt) ||| (l.linear.setWidth 32 <<< l.srcModeAt) |||
      (b.setWidth 32 <<< l.srcBurstAt) ||| ((widthCode l src.width).setWidth 32 <<< l.srcWidthAt) |||
      (l.drqMemory.setWidth 32 <<< l.dstDrqAt) ||| (l.linear.setWidth 32 <<< l.dstModeAt) |||
      (b.setWidth 32 <<< l.dstBurstAt) ||| ((widthCode l dst.width).setWidth 32 <<< l.dstWidthAt) →
    memToMemError A src dst = none → memToMemStop A src dst s = none →
    (∃ t, exec (.memToMem A src dst) s = .next t ∧
      t.cpu.sb = s.cpu.sb ++
        [⟨A, wordBytes w⟩, ⟨A + 4, leBytes 4 src.base⟩, ⟨A + 8, leBytes 4 dst.base⟩, ⟨A + 12, leBytes 4 (sizeBytes src)⟩,
         ⟨A + 16, wordBytes s.config.paramNormalWait⟩, ⟨A + 20, [0x00, 0xF8, 0xFF, 0xFF]⟩] ∧
      t.pinned = ⟨A, src, dst⟩ :: s.pinned ∧ t.cpu.ret = .resources ⟨A, src, dst⟩ ∧
      (∀ x b, (x, b) ∈ t.cpu.stale ↔ (x, b) ∈ s.cpu.stale ∧ ¬ (A ≤ x ∧ x < A + 24)) ∧
      t = { s with cpu := { s.cpu with sb := t.cpu.sb, stale := t.cpu.stale, ret := t.cpu.ret }, pinned := t.pinned }) ∧
    (l = {} → w = 0x00010001#32 ||| (b.setWidth 32 <<< 6) ||| ((widthCode {} src.width).setWidth 32 <<< 9) |||
      (b.setWidth 32 <<< 22) ||| ((widthCode {} dst.width).setWidth 32 <<< 25))

/-- 41_transfer_resources.md R141 to R143 in the order of 60_exceptions.md R234: the first check that fails decides the
error, and the raise changes nothing but `cpu.run` (60_exceptions.md R236, R237; property P2, R147). -/
def Obligations.MemToMemRaisesInOrder : Prop :=
  ∀ (s : State) (A : Nat) (src dst : Buffer) (zs zt : Nat), zs = sizeBytes src → zt = sizeBytes dst →
    (4294967295 < zs →
      exec (.memToMem A src dst) s = .next { s with cpu := { s.cpu with run := .aborted (.sizeOverflow .src zs) } }) ∧
    (zs ≤ 4294967295 → 4294967295 < zt →
      exec (.memToMem A src dst) s = .next { s with cpu := { s.cpu with run := .aborted (.sizeOverflow .dst zt) } }) ∧
    (zs ≤ 4294967295 → zt ≤ 4294967295 → zs ≠ zt →
      exec (.memToMem A src dst) s = .next { s with cpu := { s.cpu with run := .aborted (.sizeMismatch zs zt) } }) ∧
    (zs ≤ 4294967295 → zs = zt → A % 2 = 1 →
      exec (.memToMem A src dst) s = .next { s with cpu := { s.cpu with run := .aborted (.alignmentViolation A) } })

/-- The model-side refusals of `mem_to_mem` (41_transfer_resources.md R144, 40_descriptor_and_buffers.md R128,
70_reset_and_hazards.md R281), after the software checks. The guard of the completion statement lets the operation go on
exactly when every condition of R144 and R128 holds; else the first condition that fails, in the order of the text, gives the
reason. Derived: that order is log 14. -/
def Obligations.MemToMemRefusals : Prop :=
  ∀ (s : State) (A : Nat) (src dst : Buffer),
    (memToMemStop A src dst s = none ↔
      BufferWf s.config src ∧ BufferWf s.config dst ∧ PlaceWf s.config A ∧ RangesApart ⟨A, src, dst⟩ ∧
        Unpinned s ⟨A, src, dst⟩) ∧
    (memToMemError A src dst = none →
      (src.base % src.width.bytes ≠ 0 → exec (.memToMem A src dst) s = .refused .misalignedBuffer) ∧
      (src.base % src.width.bytes = 0 → ¬ BufferInRange s.config src →
        exec (.memToMem A src dst) s = .refused .addressOutOfRange) ∧
      (BufferWf s.config src → dst.base % dst.width.bytes ≠ 0 →
        exec (.memToMem A src dst) s = .refused .misalignedBuffer) ∧
      (BufferWf s.config src → dst.base % dst.width.bytes = 0 → ¬ BufferInRange s.config dst →
        exec (.memToMem A src dst) s = .refused .addressOutOfRange) ∧
      (BufferWf s.config src → BufferWf s.config dst → ¬ PlaceWf s.config A →
        exec (.memToMem A src dst) s = .refused .addressOutOfRange) ∧
      (BufferWf s.config src → BufferWf s.config dst → PlaceWf s.config A → ¬ RangesApart ⟨A, src, dst⟩ →
        exec (.memToMem A src dst) s = .refused .overlappingResources) ∧
      (BufferWf s.config src → BufferWf s.config dst → PlaceWf s.config A → RangesApart ⟨A, src, dst⟩ →
        ¬ Unpinned s ⟨A, src, dst⟩ → exec (.memToMem A src dst) s = .refused .ownershipViolation))

/-- What the API builds the engine admits (20_memory.md R65, 30_encoding.md R101): the descriptor `mem_to_mem` writes for
non-empty buffers is admitted at its own address, under every CfgLayout that describes a config word. Derived: what a layout
other than the default may be is log 32, its reserved bits log 33 (each DESIGN CHOICE). -/
def Obligations.ApiDescriptorsAreAdmitted : Prop :=
  ∀ (s : State) (A : Nat) (src dst : Buffer), memToMemError A src dst = none → memToMemStop A src dst s = none →
    0 < src.count → cfgLayoutWf s.config.layout = true →
    admitted s.config.layout (memToMemDesc s.config src dst) A = true

/-- 41_transfer_resources.md R148 and R149: `free` of resources in the caller's hands gives the three back, unpins them
and changes nothing else; resources a `Transfer` holds cannot be freed. Derived: the refusal of R149's inexpressible case
is log 13; that `free` is carried out also while an engine driven by hand works on the resources, for which R149 gives no
outcome, is the model's choice (DESIGN CHOICE, log 38). -/
def Obligations.FreeReturnsTheResources : Prop :=
  ∀ (s : State) (r : Resources),
    (r ∈ s.pinned → (∀ n, getLife s n ≠ .ready r ∧ getLife s n ≠ .started r) →
      ∃ t, exec (.resFree r) s = .next t ∧ t.cpu.ret = .parts r.desc r.src r.dst ∧
        (∀ q, q ∈ t.pinned ↔ q ∈ s.pinned ∧ q ≠ r) ∧
        t = { s with cpu := { s.cpu with ret := t.cpu.ret }, pinned := t.pinned }) ∧
    ((∃ n, getLife s n = .ready r ∨ getLife s n = .started r) → exec (.resFree r) s = .refused .ownershipViolation)

/-! ## Lifecycle (44_transfer_lifecycle.md) -/

/-- 44_transfer_lifecycle.md R201: on a free, usable, idle channel `Transfer::new` sets the domain NonSecure, programs the
descriptor address and makes the channel Ready; nothing else changes. The resources are in the caller's hands
(41_transfer_resources.md R149; log 13). Derived for that premise; that an engine which works on them by hand on another
channel is no bar is log 38 (DESIGN CHOICE). -/
def Obligations.TransferNewBindsTheChannel : Prop :=
  ∀ (s : State) (n : Chan) (r : Resources), getLife s n = .free → Usable n s → (getCh s n).phase = .idle →
    r ∈ s.pinned → (∀ m, getLife s m ≠ .ready r ∧ getLife s m ≠ .started r) →
    ∃ t, exec (.transferNew r n) s = .next t ∧
      getSec t n = .of .nonSecure ∧ getCh t n = { getCh s n with descAddr := .of (BitVec.ofNat 32 r.desc) } ∧
      getLife t n = .ready r ∧ t.cpu.ret = .transfer ⟨r, .ready⟩ ∧
      (∀ m, m ≠ n → getSec t m = getSec s m ∧ getCh t m = getCh s m ∧ getLife t m = getLife s m) ∧
      t = { s with ch := t.ch, blk := { s.blk with sec := t.blk.sec }, cpu := { s.cpu with ret := t.cpu.ret },
                   life := t.life }

/-- 44_transfer_lifecycle.md R202 and guarantee 1 of 20_memory.md R77: `start` of the Ready transfer fences, so that every
store the CPU made is in memory, and starts the engine on the programmed descriptor.
Derived. -/
def Obligations.StartPublishesAndEnables : Prop :=
  ∀ (s : State) (n : Chan) (x : Transfer) (a : Word), x.state = .ready → getLife s n = .ready x.res → Usable n s →
    (getCh s n).phase = .idle → (getCh s n).descAddr = .of a → getSec s n = .of .nonSecure →
    ∃ t, exec (.transferStart x n) s = .next t ∧
      t.cpu.sb = [] ∧ t.cpu.stale = [] ∧ (∀ y, memRead t.mem y = cpuView s y) ∧
      getCh t n = { getCh s n with en := .of true, dptr := .of a, phase := .fetch } ∧ getBusy t n = .of true ∧
      getLife t n = .started x.res ∧ t.cpu.ret = .transfer ⟨x.res, .started⟩ ∧
      (∀ m, m ≠ n → getCh t m = getCh s m ∧ getBusy t m = getBusy s m ∧ getLife t m = getLife s m) ∧
      t = { s with ch := t.ch, blk := { s.blk with busy := t.blk.busy }, mem := t.mem,
                   cpu := { s.cpu with sb := [], stale := [], ret := t.cpu.ret }, life := t.life }

/-- 44_transfer_lifecycle.md R203: `wait` on the Started transfer. While a poll finds the channel busy, there is another poll
for the CPU to make and nothing else changes; when a poll finds it idle, the second fence, the channel is free and the
resources come back, still pinned. A later poll, and the fence after the last one, do the same as CPU steps of their own. A
poll of a flag nothing has written refuses (00_scope.md R13).
Derived. -/
def Obligations.WaitPollsThenFences : Prop :=
  ∀ (s : State) (n : Chan) (x : Transfer), Usable n s →
    (x.state = .started → getLife s n = .started x.res →
      (getBusy s n = .of true → exec (.transferWait x n) s =
        .next { s with cpu := { s.cpu with doing := .poll x n none :: s.cpu.doing } }) ∧
      (getBusy s n = .of false → ∃ t, exec (.transferWait x n) s = .next t ∧
        t.cpu.sb = [] ∧ t.cpu.stale = [] ∧ (∀ y, memRead t.mem y = cpuView s y) ∧ getLife t n = .free ∧
        (∀ m, m ≠ n → getLife t m = getLife s m) ∧
        t = { s with mem := t.mem, cpu := { s.cpu with sb := [], stale := [], ret := .resources x.res },
                     life := t.life } ∧
        runRest (.waitEnd x n) s = .next t) ∧
      (getBusy s n = .unset → exec (.transferWait x n) s = .refused .unsetState)) ∧
    (getBusy s n = .of true → runRest (.poll x n none) s =
      .next { s with cpu := { s.cpu with doing := .poll x n none :: s.cpu.doing } }) ∧
    (getBusy s n = .of false → runRest (.poll x n none) s =
      .next { s with cpu := { s.cpu with doing := .waitEnd x n :: s.cpu.doing } }) ∧
    (getBusy s n = .unset → runRest (.poll x n none) s = .refused .unsetState)

/-- Guarantee 2 (20_memory.md R78). The resources of a finished transfer come back from `wait`, `free` unpins them (the
destination may be read only then, 44_transfer_lifecycle.md R203), and from then on a CPU load of any bytes the CPU may touch
returns the bytes of memory, whatever the free choice; the destination is among these bytes when ownership is kept. The same
after a FENCE in a program that drives the channel by hand. Derived: that `free` needs the resources in the caller's hands is
log 13. -/
def Obligations.LoadsAfterWaitReadMemory : Prop :=
  ∀ (s : State) (n : Chan) (x : Transfer) (a pick : Nat) (w : Width) (bs : List Byte),
    (x.state = .started → getLife s n = .started x.res → Usable n s → getBusy s n = .of false → x.res ∈ s.pinned →
      (∀ m, m ≠ n → getLife s m ≠ .ready x.res ∧ getLife s m ≠ .started x.res) →
      ∃ t u, exec (.transferWait x n) s = .next t ∧ exec (.resFree x.res) t = .next u ∧ u.mem = t.mem ∧
        (CpuMayAccess u a w.bytes → memReadBytes u.mem a w.bytes = some bs →
          cpuLoad a w pick u = .next (setRet u (.loaded (leValue bs)))) ∧
        (OwnershipInv s → rangeRam s.config x.res.dst.base (sizeBytes x.res.dst) = true →
          CpuMayAccess u x.res.dst.base (sizeBytes x.res.dst))) ∧
    (∃ u, exec .fence s = .next u ∧
      (CpuMayAccess u a w.bytes → memReadBytes u.mem a w.bytes = some bs →
        cpuLoad a w pick u = .next (setRet u (.loaded (leValue bs)))))

/-- 44_transfer_lifecycle.md R205: with `POLL_LIMIT = L`, a positive number, `wait_bounded` makes at most `L` polls. It ends
like `wait` when a poll finds the channel idle; a busy poll that is not the last leaves one poll less to make; the last one
returns the timeout with the transfer, and nothing else changes. A poll of a flag nothing has written refuses
(00_scope.md R13). With any other bound the operation does not exist.
Derived: the refusal that stands for "does not exist" is log 15. -/
def Obligations.WaitBoundedCountsPolls : Prop :=
  ∀ (s : State) (n : Chan) (x : Transfer) (L k : Nat),
    (s.config.pollLimit = some L → 0 < L → x.state = .started → getLife s n = .started x.res → Usable n s →
      (getBusy s n = .of true → 2 ≤ L → exec (.transferWaitBounded x n L) s =
        .next { s with cpu := { s.cpu with doing := .poll x n (some (L - 1)) :: s.cpu.doing } }) ∧
      (getBusy s n = .of true → L = 1 → exec (.transferWaitBounded x n L) s =
        .next { s with cpu := { s.cpu with ret := .timeout x } }) ∧
      (getBusy s n = .of false → ∃ t, exec (.transferWaitBounded x n L) s = .next t ∧
        exec (.transferWait x n) s = .next t ∧ t.cpu.ret = .resources x.res) ∧
      (getBusy s n = .unset → exec (.transferWaitBounded x n L) s = .refused .unsetState)) ∧
    ((s.config.pollLimit ≠ some L ∨ L = 0) → exec (.transferWaitBounded x n L) s = .refused .operationAbsent) ∧
    (Usable n s →
      (getBusy s n = .of true → runRest (.poll x n (some (k + 2))) s =
        .next { s with cpu := { s.cpu with doing := .poll x n (some (k + 1)) :: s.cpu.doing } }) ∧
      (getBusy s n = .of true → runRest (.poll x n (some 1)) s = .next { s with cpu := { s.cpu with ret := .timeout x } }) ∧
      (getBusy s n = .of false → runRest (.poll x n (some (k + 1))) s =
        .next { s with cpu := { s.cpu with doing := .waitEnd x n :: s.cpu.doing } }) ∧
      (getBusy s n = .unset → runRest (.poll x n (some (k + 1))) s = .refused .unsetState))

/-- 44_transfer_lifecycle.md R206 with 60_exceptions.md R236 and R237: an operation in the wrong lifecycle state, or on a
channel other than the one given to `new`, raises `LifecycleViolation` with the state found, before any host command:
nothing changes but `cpu.run`. -/
def Obligations.WrongStateRaisesLifecycleViolation : Prop :=
  ∀ (s : State) (n : Chan) (x : Transfer) (r : Resources) (k : Nat),
    (getLife s n ≠ .free → exec (.transferNew r n) s =
      .next { s with cpu := { s.cpu with run := .aborted (.lifecycleViolation .new (getLife s n)) } }) ∧
    ((x.state ≠ .ready ∨ getLife s n ≠ .ready x.res) → exec (.transferStart x n) s =
      .next { s with cpu := { s.cpu with run := .aborted (.lifecycleViolation .start (getLife s n)) } }) ∧
    ((x.state ≠ .started ∨ getLife s n ≠ .started x.res) →
      exec (.transferWait x n) s =
        .next { s with cpu := { s.cpu with run := .aborted (.lifecycleViolation .wait (getLife s n)) } } ∧
      exec (.transferIsActive x n) s =
        .next { s with cpu := { s.cpu with run := .aborted (.lifecycleViolation .isActive (getLife s n)) } } ∧
      (s.config.pollLimit = some k → 0 < k → exec (.transferWaitBounded x n k) s =
        .next { s with cpu := { s.cpu with run := .aborted (.lifecycleViolation .wait (getLife s n)) } }))

/-- Property P4, 44_transfer_lifecycle.md R207: between a `start` and the return of its `wait`, a channel's `life` stays
`Started` with the same resources, whatever instruction runs; and, where ownership is kept, whatever step is taken: only the
CPU's last step of a wait for these resources on this channel ends it.
Derived. -/
def Obligations.StartedEndsOnlyByWait : Prop :=
  (∀ (i : Instr) (s t : State) (n : Chan) (r : Resources), getLife s n = .started r → exec i s = .next t →
    getLife t n = .started r ∨
      (getBusy s n = .of false ∧
        (i = .transferWait ⟨r, .started⟩ n ∨ ∃ k, i = .transferWaitBounded ⟨r, .started⟩ n k))) ∧
  (∀ (s t : State) (n : Chan) (r : Resources), OwnershipInv s → getLife s n = .started r → step s = .next t →
    getLife t n = .started r ∨
      ((turnOf s).agent = .cpu ∧ ∃ x rest, x.res = r ∧ s.cpu.doing = .waitEnd x n :: rest))

/-! ## The engine (43_engine.md) -/

/-- 43_engine.md R178: an engine that fetches from a good place latches word `i` of the descriptor as memory holds it, not
looking at `cpu.sb`; nothing else changes. A descriptor that another running engine writes is refused (20_memory.md R84).
Derived: the reason of that refusal is log 30. -/
def Obligations.FetchLatchesOneWord : Prop :=
  ∀ (s : State) (n : Chan) (i : Fin 6) (a : Word), fwGet (getCh s n).fw i = none →
    (∀ b0 b1 b2 b3 : Byte, Fetching n s a →
      memRead s.mem (a.toNat + 4 * i.val) = .of b0 → memRead s.mem (a.toNat + 4 * i.val + 1) = .of b1 →
      memRead s.mem (a.toNat + 4 * i.val + 2) = .of b2 → memRead s.mem (a.toNat + 4 * i.val + 3) = .of b3 →
      ∃ t, exec (.engFetch n i) s = .next t ∧
        fwGet (getCh t n).fw i = some (b3 ++ b2 ++ b1 ++ b0) ∧
        (∀ j, j ≠ i → fwGet (getCh t n).fw j = fwGet (getCh s n).fw j) ∧
        getCh t n = { getCh s n with fw := (getCh t n).fw } ∧ (∀ m, m ≠ n → getCh t m = getCh s m) ∧
        t = { s with ch := t.ch }) ∧
    ((getCh s n).phase = .fetch → Live n s → (getCh s n).dptr = .of a → a.toNat % 4 = 0 → a.toNat + 24 ≤ 2 ^ 32 →
      rangeRam s.config a.toNat 24 = true → (∃ m x, m ≠ n ∧ InRange a.toNat 24 x ∧ Writes m s x) →
      exec (.engFetch n i) s = .refused .ownershipViolation)

/-- 43_engine.md R177 and R190: a fetch from an address whose bits [1:0] are not 0 faults the engine: the phase becomes
Fault with the reason, `busy[n]`, `en`, memory and everything else stay as they are; a fetch from an aligned address
outside memory is refused. -/
def Obligations.MisalignedFetchFaults : Prop :=
  ∀ (s : State) (n : Chan) (i : Fin 6) (a : Word), (getCh s n).phase = .fetch → Live n s →
    fwGet (getCh s n).fw i = none → (getCh s n).dptr = .of a →
    (a.toNat % 4 ≠ 0 → ∃ t, exec (.engFetch n i) s = .next t ∧
      getCh t n = { getCh s n with phase := .fault .misalignedDescriptor } ∧ (∀ m, m ≠ n → getCh t m = getCh s m) ∧
      t = { s with ch := t.ch }) ∧
    (a.toNat % 4 = 0 → (2 ^ 32 < a.toNat + 24 ∨ rangeRam s.config a.toNat 24 = false) →
      exec (.engFetch n i) s = .refused .unmappedAccess)

/-- 43_engine.md R179 and R180: with all six words read, the decode latches them into the working registers and enters Move
when the descriptor is admitted, and is refused when it is not; nothing else changes. A descriptor whose destination another
running engine touches, or whose source or own bytes one writes, is refused (20_memory.md R84, 60_exceptions.md R252; the
reason, and `len`, are log 30, DESIGN CHOICE). Before all six words are read the decode is no transition, for which exec
answers `notEnabled` (DEDUCED, log 11).
Derived. -/
def Obligations.DecodeLatchesAdmittedDescriptors : Prop :=
  ∀ (s : State) (n : Chan) (a : Word) (d : Desc), (getCh s n).phase = .fetch → Live n s → (getCh s n).dptr = .of a →
    ((getCh s n).fw = ⟨some d.config, some d.srcAddr, some d.dstAddr, some d.length, some d.param, some d.nextAddr⟩ →
      (admitted s.config.layout d a.toNat = true → ¬ Shares n d a.toNat s → ∃ t, exec (.engDecode n) s = .next t ∧
        getCh t n = { getCh s n with
          cfg := .of d.config, curSrc := .of d.srcAddr, curDst := .of d.dstAddr, bcntLeft := .of d.length
          para := .of d.param, nxt := .of d.nextAddr, len := .of d.length
          fw := ⟨none, none, none, none, none, none⟩, phase := .move } ∧
        (∀ m, m ≠ n → getCh t m = getCh s m) ∧ t = { s with ch := t.ch }) ∧
      (admitted s.config.layout d a.toNat = false → exec (.engDecode n) s = .refused .malformedDescriptor) ∧
      (admitted s.config.layout d a.toNat = true → Shares n d a.toNat s →
        exec (.engDecode n) s = .refused .ownershipViolation)) ∧
    ((∃ i, fwGet (getCh s n).fw i = none) → exec (.engDecode n) s = .fault .notEnabled)

/-- 43_engine.md R183: a move of `k` bytes inside RAM copies the source bytes, as they are at this step, to the destination,
keeps every other byte, puts each overwritten byte into its stale set (20_memory.md R73) and advances the three working
registers; nothing else changes. The address stored to is `cur_dst`. A move that leaves RAM is refused, and so is one over a
source byte nothing has written (00_scope.md R13). A chunk of 0 bytes or of more than are left is no step, for which exec
answers `notEnabled`. Derived: `notEnabled` is log 11 (DEDUCED); that the move is made also where the destination of a
descriptor driven by hand covers pinned bytes or another descriptor, against 41_transfer_resources.md R146 and R192, is the
model's choice (DESIGN CHOICE, log 37). -/
def Obligations.MoveCopiesTheChunk : Prop :=
  ∀ (s : State) (n : Chan) (src dst left : Word) (k : Nat), Moving n s src dst left →
    (1 ≤ k → k ≤ left.toNat → rangeRam s.config src.toNat k = true → rangeRam s.config dst.toNat k = true →
      (∀ i, i < k → memRead s.mem (src.toNat + i) ≠ .unset) →
      ∃ t, exec (.engMove n k) s = .next t ∧
        (∀ i, i < k → memRead t.mem (dst.toNat + i) = memRead s.mem (src.toNat + i)) ∧
        (∀ x, ¬ (dst.toNat ≤ x ∧ x < dst.toNat + k) → memRead t.mem x = memRead s.mem x) ∧
        (∀ x b, (x, b) ∈ t.cpu.stale ↔
          (x, b) ∈ s.cpu.stale ∨ (dst.toNat ≤ x ∧ x < dst.toNat + k ∧ b = memRead s.mem x)) ∧
        getCh t n = { getCh s n with
          curSrc := .of (BitVec.ofNat 32 (src.toNat + k)), curDst := .of (BitVec.ofNat 32 (dst.toNat + k))
          bcntLeft := .of (BitVec.ofNat 32 (left.toNat - k)) } ∧
        (∀ m, m ≠ n → getCh t m = getCh s m) ∧
        t = { s with ch := t.ch, mem := t.mem, cpu := { s.cpu with stale := t.cpu.stale } }) ∧
    (1 ≤ k → k ≤ left.toNat → (rangeRam s.config src.toNat k = false ∨ rangeRam s.config dst.toNat k = false) →
      exec (.engMove n k) s = .refused .unmappedAccess) ∧
    (1 ≤ k → k ≤ left.toNat → rangeRam s.config src.toNat k = true → rangeRam s.config dst.toNat k = true →
      (∃ i, i < k ∧ memRead s.mem (src.toNat + i) = .unset) → exec (.engMove n k) s = .refused .unsetState) ∧
    ((k = 0 ∨ left.toNat < k) → exec (.engMove n k) s = .fault .notEnabled)

/-- 43_engine.md R186 and the row LINK.NEXT: with no byte left and a link word that is not the sentinel, the engine goes on
at it: `dptr` is loaded, the fetch buffer emptied, phase Fetch; `busy[n]`, `en` and everything else stay as they are. With
the sentinel there is no link step, for which exec answers `notEnabled`. Derived: the row as one step is log 10 (DESIGN
CHOICE), `notEnabled` is log 11 (DEDUCED). -/
def Obligations.LinkGoesOnAtTheNextDescriptor : Prop :=
  ∀ (s : State) (n : Chan) (a : Word), Finished n s a →
    (a ≠ 0xFFFFF800#32 → ∃ t, exec (.engLink n) s = .next t ∧ exec (.linkNext n a) s = .next t ∧
      getCh t n = { getCh s n with dptr := .of a, fw := ⟨none, none, none, none, none, none⟩, phase := .fetch } ∧
      (∀ m, m ≠ n → getCh t m = getCh s m) ∧ t = { s with ch := t.ch }) ∧
    (a = 0xFFFFF800#32 → exec (.engLink n) s = .fault .notEnabled)

/-- 43_engine.md R187 and the row LINK.END: with no byte left and the sentinel as link word, the chain ends: `en` and
`busy[n]` are cleared, phase Idle; the working registers, `desc_addr` and everything else keep their values. With another
link word there is no completion, for which exec answers `notEnabled`. Derived: the row as one step is log 10 (DESIGN CHOICE),
`notEnabled` is log 11 (DEDUCED). -/
def Obligations.SentinelEndsTheChain : Prop :=
  ∀ (s : State) (n : Chan) (a : Word), Finished n s a →
    (a = 0xFFFFF800#32 → ∃ t, exec (.engComplete n) s = .next t ∧ exec (.linkEnd n) s = .next t ∧
      getCh t n = { getCh s n with en := .of false, phase := .idle } ∧ getBusy t n = .of false ∧
      (∀ m, m ≠ n → getCh t m = getCh s m ∧ getBusy t m = getBusy s m) ∧
      t = { s with ch := t.ch, blk := { s.blk with busy := t.blk.busy } }) ∧
    (a ≠ 0xFFFFF800#32 → exec (.engComplete n) s = .fault .notEnabled)

/-- The row DESC: reading the whole descriptor at `dptr` and latching it is the six fetches followed by the decode
(43_engine.md R178, R179). It answers a next state exactly with the effect of the decode. Derived: the row as one step is
log 10. -/
def Obligations.DescRowIsFetchesThenDecode : Prop :=
  ∀ (s : State) (n : Chan) (a : Word) (d : Desc), Fetching n s a → (getCh s n).fw = emptyFetch →
    memReadBytes s.mem a.toNat 24 = some (descBytes d) → admitted s.config.layout d a.toNat = true →
    ¬ Shares n d a.toNat s →
    ∃ t f0 f1 f2 f3 f4 f5, exec (.desc n d) s = .next t ∧
      exec (.engFetch n 0) s = .next f0 ∧ exec (.engFetch n 1) f0 = .next f1 ∧ exec (.engFetch n 2) f1 = .next f2 ∧
      exec (.engFetch n 3) f2 = .next f3 ∧ exec (.engFetch n 4) f3 = .next f4 ∧ exec (.engFetch n 5) f4 = .next f5 ∧
      exec (.engDecode n) f5 = .next t

/-- The sixteen rows M2M.<S>.<D>: an engine in Move whose config register holds the form moves every byte left, for every
pair of widths and every burst code (43_engine.md R183, 70_reset_and_hazards.md R284). The address stored to is `cur_dst`.
Derived: the row as one step is log 10; a destination over pinned bytes or another descriptor is log 37 (each DESIGN
CHOICE). -/
def Obligations.EveryFormMovesTheBytesLeft : Prop :=
  ∀ (s : State) (n : Chan) (ws wd : Width) (sb db : BitVec 2) (c src dst left : Word) (v : List Byte),
    Moving n s src dst left → (getCh s n).cfg = .of c →
    decodeConfig s.config.layout n c = .ok (m2mInstr n ws wd sb db) → left ≠ 0 →
    rangeRam s.config src.toNat left.toNat = true → rangeRam s.config dst.toNat left.toNat = true →
    memReadBytes s.mem src.toNat left.toNat = some v →
    ∃ t, exec (m2mInstr n ws wd sb db) s = .next t ∧
      (∀ i, i < left.toNat → memRead t.mem (dst.toNat + i) = memRead s.mem (src.toNat + i)) ∧
      (∀ x, ¬ (dst.toNat ≤ x ∧ x < dst.toNat + left.toNat) → memRead t.mem x = memRead s.mem x) ∧
      (getCh t n).bcntLeft = .of 0 ∧
      getCh t n = { getCh s n with
        curSrc := (getCh t n).curSrc, curDst := (getCh t n).curDst, bcntLeft := (getCh t n).bcntLeft } ∧
      (∀ m, m ≠ n → getCh t m = getCh s m) ∧
      t = { s with ch := t.ch, mem := t.mem, cpu := { s.cpu with stale := t.cpu.stale } } ∧
      exec (.engMove n left.toNat) s = .next t

/-- The chunk sizes do not matter (43_engine.md R183, 70_reset_and_hazards.md R284): two moves of `j` and `k` bytes leave
exactly the state one move of `j + k` bytes leaves. The premise is the invariant of a running channel. Derived. -/
def Obligations.ChunkSizesDoNotMatter : Prop :=
  ∀ (s t u : State) (n : Chan) (j k : Nat), channelInv n s = true →
    exec (.engMove n j) s = .next t → exec (.engMove n k) t = .next u → exec (.engMove n (j + k)) s = .next u

/-- Property P1 (43_engine.md R193) with the step bound of R189: an engine about to fetch an admitted descriptor whose link
is the sentinel, over written memory, with only its own turns coming, has after `8 + length` steps completed, whatever the
free choices: destination byte `i` is source byte `i`, no other byte changed, `busy[n]` and `en` are 0. The premise on the
coming turns is the model's schedule (log 7, log 21); that no other running engine shares what is written is log 30;
that a descriptor driven by hand is carried out also over pinned bytes is log 37 (DESIGN CHOICE).
Derived. -/
def Obligations.EngineCopiesEndToEnd : Prop :=
  ∀ (s : State) (n : Chan) (a : Word) (d : Desc) (v : List Byte), Fetching n s a → (getCh s n).fw = emptyFetch →
    memReadBytes s.mem a.toNat 24 = some (descBytes d) → admitted s.config.layout d a.toNat = true →
    ¬ Shares n d a.toNat s → d.nextAddr = 0xFFFFF800#32 →
    rangeRam s.config d.srcAddr.toNat d.length.toNat = true →
    rangeRam s.config d.dstAddr.toNat d.length.toNat = true →
    memReadBytes s.mem d.srcAddr.toNat d.length.toNat = some v →
    8 + d.length.toNat ≤ s.sched.length → (∀ t ∈ s.sched, t.agent = .eng n) →
    ∃ t : State, Host.Core.run core (8 + d.length.toNat) s = .next t ∧
      (getCh t n).phase = .idle ∧ (getCh t n).en = .of false ∧ getBusy t n = .of false ∧
      (∀ i, i < d.length.toNat → memRead t.mem (d.dstAddr.toNat + i) = memRead s.mem (d.srcAddr.toNat + i)) ∧
      (∀ x, ¬ (d.dstAddr.toNat ≤ x ∧ x < d.dstAddr.toNat + d.length.toNat) → memRead t.mem x = memRead s.mem x)

/-! ## Steps -/

/-- A turn of an engine at the grain of descriptor words runs the decoded instruction: the 24 bytes at the program counter
`dptr` in Fetch, the config word in Move while bytes are left, the link word after that (00_scope.md R2, 43_engine.md
R175). The step around it only takes the turn off the schedule. Derived: that an engine's turn may carry out a whole
descriptor word is log 10 (DESIGN CHOICE), the schedule is log 7 (DESIGN CHOICE). -/
def Obligations.StepRunsTheDecodedWord : Prop :=
  ∀ (s : State) (n : Chan) (p : Nat) (rest : List Turn) (i : Instr), s.sched = ⟨.interp n, p⟩ :: rest →
    (∀ a bs, Fetching n s a → (getCh s n).fw = emptyFetch → memReadBytes s.mem a.toNat 24 = some bs →
      decode s.config.layout n bs = .ok i → step s = exec i { s with sched := rest }) ∧
    (∀ src dst left c, Moving n s src dst left → left ≠ 0 → (getCh s n).cfg = .of c →
      decodeConfig s.config.layout n c = .ok i → step s = exec i { s with sched := rest }) ∧
    (∀ nx, Finished n s nx →
      decodeLink n nx = .ok i → step s = exec i { s with sched := rest })

/-- A turn of an engine at the grain of named steps runs its enabled step (43_engine.md R175): an unread word, each of them
for some pick (R178), the decode when all are read, a chunk of 1 to `bcnt_left` bytes as the pick says (R183), the link or
the completion. At either grain an idle or faulted engine has no step, nor has one that is not alive: clock off, block in
reset, or paused; its turn only takes the turn off the schedule. A value a guard reads that nothing has written refuses
(00_scope.md R13); the link word is read only when no byte is left (R186, R187). Derived: the schedule is log 7 (DESIGN
CHOICE), the second grain log 10 (DESIGN CHOICE), the reading of the guard from left to right log 18 (DEDUCED). -/
def Obligations.StepRunsTheNamedStep : Prop :=
  ∀ (s : State) (n : Chan) (p : Nat) (rest : List Turn),
    (s.sched = ⟨.eng n, p⟩ :: rest → Live n s →
      ((getCh s n).phase = .fetch → (∀ i, fwGet (getCh s n).fw i ≠ none) →
        step s = exec (.engDecode n) { s with sched := rest }) ∧
      ((getCh s n).phase = .fetch → (∃ i, fwGet (getCh s n).fw i = none) →
        ∃ i, fwGet (getCh s n).fw i = none ∧ step s = exec (.engFetch n i) { s with sched := rest }) ∧
      (∀ i, (getCh s n).phase = .fetch → fwGet (getCh s n).fw i = none →
        ∃ q, step { s with sched := ⟨.eng n, q⟩ :: rest } = exec (.engFetch n i) { s with sched := rest }) ∧
      (∀ src dst left, Moving n s src dst left → left ≠ 0 →
        step s = exec (.engMove n (p % left.toNat + 1)) { s with sched := rest }) ∧
      (∀ nx, Finished n s nx → nx ≠ 0xFFFFF800#32 → step s = exec (.engLink n) { s with sched := rest }) ∧
      (∀ nx, Finished n s nx → nx = 0xFFFFF800#32 → step s = exec (.engComplete n) { s with sched := rest }) ∧
      ((getCh s n).phase = .move →
        ((getCh s n).bcntLeft = .unset ∨ ((getCh s n).bcntLeft = .of 0 ∧ (getCh s n).nxt = .unset)) →
        step s = .refused .unsetState)) ∧
    (∀ ag, (ag = .eng n ∨ ag = .interp n) → s.sched = ⟨ag, p⟩ :: rest →
      ((getCh s n).phase = .idle → step s = .next { s with sched := rest }) ∧
      (∀ r, (getCh s n).phase = .fault r → step s = .next { s with sched := rest }) ∧
      (((getCh s n).phase = .fetch ∨ (getCh s n).phase = .move) →
        (s.blk.clkOn = .of false → step s = .next { s with sched := rest }) ∧
        (s.blk.clkOn = .of true → s.blk.inReset = .of true → step s = .next { s with sched := rest }) ∧
        (s.blk.clkOn = .of true → s.blk.inReset = .of false → (getCh s n).pause = .of true →
          step s = .next { s with sched := rest }) ∧
        (s.blk.clkOn = .of true → s.blk.inReset = .of false → (getCh s n).pause = .unset →
          step s = .refused .unsetState) ∧
        (s.blk.clkOn = .unset → step s = .refused .unsetState) ∧
        (s.blk.clkOn = .of true → s.blk.inReset = .unset → step s = .refused .unsetState)))

/-- The CPU's turn makes the next step of the operation under way, else runs the next operation of its program (00_scope.md
R3, 30_encoding.md R107): a well-formed software instruction, a load, a store, a raw register access; the drop of a transfer
is refused (44_transfer_lifecycle.md R209). An operation that expands to several CPU steps (30_encoding.md R108) makes its
first one and leaves the others, so that other agents may step between them (R201, R202, R203); made with nothing between
them, the steps leave what exec of the operation leaves. Once the CPU is aborted (60_exceptions.md R243), or its program is
done, its turn does nothing. Derived: the program is log 8, the steps left log 9, that a program that is done with a live
`Transfer` has not discarded it is log 31 (each DESIGN CHOICE). -/
def Obligations.StepRunsTheNextCpuOperation : Prop :=
  (∀ (s : State) (p : Nat) (rest : List Turn) (ops : List CpuOp) (u : State), s.sched = ⟨.cpu, p⟩ :: rest →
    u = { s with sched := rest, cpu := { s.cpu with prog := ops } } →
    (∀ q qs, s.cpu.run = .running → s.cpu.doing = q :: qs →
      step s = runRest q { s with sched := rest, cpu := { s.cpu with doing := qs } }) ∧
    (s.cpu.run = .running → s.cpu.doing = [] →
      (∀ i, s.cpu.prog = .instr i :: ops → instrIsSoftware i = true → instrWf i = true →
        step s = if expands i then cpuInstr i u else exec i u) ∧
      (∀ a w, s.cpu.prog = .load a w :: ops → a < 2 ^ 64 → step s = cpuLoad a w p u) ∧
      (∀ a w v, s.cpu.prog = .store a w v :: ops → a < 2 ^ 64 → storeFits w v = true → step s = cpuStore a w v u) ∧
      (∀ r, s.cpu.prog = .access r :: ops → step s = cpuAccess r p u) ∧
      (∀ x, s.cpu.prog = .dropTransfer x :: ops → resourcesWf x.res = true → step s = .refused .transferDropped) ∧
      (s.cpu.prog = [] → step s = .next { s with sched := rest })) ∧
    (s.cpu.run ≠ .running → step s = .next { s with sched := rest })) ∧
  (∀ (s : State) (r : Resources) (x : Transfer) (n : Chan), s.cpu.doing = [] → Usable n s →
    (getLife s n = .free → inCallersHands s r = true → (getCh s n).phase = .idle →
      cpuInstr (.transferNew r n) s = .next (pushRest (setSec s n .nonSecure) [.newAddr r n])) ∧
    (x.state = .ready → getLife s n = .ready x.res →
      cpuInstr (.transferStart x n) s = .next (pushRest (fenceEffect s) [.startEnable x n])) ∧
    (x.state = .started → getLife s n = .started x.res → getBusy s n = .of false →
      cpuInstr (.transferWait x n) s = .next (pushRest s [.waitEnd x n]))) ∧
  (∀ (i : Instr) (s : State), s.cpu.doing = [] → expands i = true →
    (∀ x n L, i = .transferWaitBounded x n L → getBusy s n = .of true → L ≤ 1) →
    andThen (cpuInstr i s) (finishDoing 5) = exec i s)

/-! ## Invariants and whole-machine rules -/

/-- The machine at power-on (10_state.md R53, 70_reset_and_hazards.md R260): idle engines, every register and
flag `unset` but `split_done`, nothing in memory, nothing pinned, a running CPU. Derived: the values of the model's own fields
are DESIGN CHOICES, the empty `prog` log 8, the empty `doing` log 9, the `unset` `len` log 30. -/
def Obligations.PowerOnState : Prop :=
  (∀ n, getCh State.reset n = ⟨.unset, .unset, .unset, .unset, .unset, .unset, .unset, .unset, .unset, .unset, .unset, .unset,
      .idle, ⟨none, none, none, none, none, none⟩, .unset, .unset⟩ ∧
    getBusy State.reset n = .unset ∧ getSec State.reset n = .unset ∧ getLife State.reset n = .free) ∧
  State.reset.blk.clkOn = .unset ∧ State.reset.blk.inReset = .unset ∧ State.reset.blk.splitDone = false ∧
  State.reset.blk.agMclk = .unset ∧ State.reset.blk.agChan = .unset ∧ State.reset.blk.agCommon = .unset ∧
  (∀ x, memRead State.reset.mem x = .unset) ∧ State.reset.cpu.sb = [] ∧ State.reset.cpu.stale = [] ∧
  State.reset.cpu.run = .running ∧ State.reset.cpu.prog = [] ∧ State.reset.cpu.doing = [] ∧ State.reset.pinned = []

/-- The four invariants hold at power-on. Derived. -/
def Obligations.PowerOnMeetsTheInvariants : Prop :=
  memoryInv State.reset = true ∧ ChannelsInv State.reset ∧ SharingInv State.reset ∧ OwnershipInv State.reset

/-- Every step keeps the canonical form of memory and keeps memory and pending stores inside RAM (20_memory.md R60).
Derived. -/
def Obligations.StepKeepsMemoryCanonical : Prop :=
  ∀ s t : State, memoryInv s = true → step s = .next t → memoryInv t = true

/-- Every step keeps the channel invariant: `busy[n]` and `en` are 1 exactly outside Idle (43_engine.md R176), nothing
pauses, from the block reset of `split` on the three flags have values (10_state.md R53), a channel outside Idle is alive,
NonSecure and handed to software (45_split.md R224), and a channel in Move has working registers whose additions never pass
2^32 (43_engine.md R185) and whose destination overlaps neither the bytes still to read nor the descriptor. And every step keeps running engines apart: in the descriptors under way, no two in Move
share memory that one of them writes (20_memory.md R84, 60_exceptions.md R252). Derived: that only the descriptor under way
counts is log 30 (DESIGN CHOICE). -/
def Obligations.StepKeepsTheChannelInvariant : Prop :=
  ∀ s t : State, step s = .next t → (ChannelsInv s → ChannelsInv t) ∧ (SharingInv s → SharingInv t)

/-- Every step keeps ownership: what a `Transfer` holds exists and is held once, all existing resources are disjoint, and
an operation under way still has what it checked, whatever steps fall between (44_transfer_lifecycle.md R201, R202, R207,
41_transfer_resources.md R144, R146, R149; log 9). Derived. -/
def Obligations.StepKeepsOwnership : Prop :=
  ∀ s t : State, OwnershipInv s → step s = .next t → OwnershipInv t

/-- 43_engine.md R176 and R192: an engine does not start by itself: only `CH_ENABLE`, or the `start` that contains it, takes
a channel out of Idle; of the CPU steps of an operation under way only the enable of `start` does. The busy flag stays 1
across every link and is cleared only by the completion step, whose row at the grain of descriptor words is LINK.END.
Derived. -/
def Obligations.BusyChangesOnlyByEnableAndCompletion : Prop :=
  (∀ (i : Instr) (s t : State) (n : Chan), ChannelsInv s → exec i s = .next t →
    ((getCh s n).phase = .idle → (getCh t n).phase ≠ .idle → i = .chEnable n ∨ ∃ x, i = .transferStart x n) ∧
    (getBusy s n ≠ .of true → getBusy t n = .of true → i = .chEnable n ∨ ∃ x, i = .transferStart x n) ∧
    (getBusy s n = .of true → getBusy t n ≠ .of true → i = .engComplete n ∨ i = .linkEnd n)) ∧
  (∀ (q : Rest) (s t : State) (n : Chan), ChannelsInv s → runRest q s = .next t →
    ((getCh s n).phase = .idle → (getCh t n).phase ≠ .idle → ∃ x, q = .startEnable x n) ∧
    (getBusy s n ≠ .of true → getBusy t n = .of true → ∃ x, q = .startEnable x n) ∧
    (getBusy s n = .of true → getBusy t n = .of true))

/-- 43_engine.md R190: Fault is absorbing. Whatever step is taken, a faulted channel stays faulted with its reason, and
`busy[n]` and `en` stay as they are. Derived. -/
def Obligations.FaultIsAbsorbing : Prop :=
  ∀ (s t : State) (n : Chan) (r : FaultReason), (getCh s n).phase = .fault r → step s = .next t →
    (getCh t n).phase = .fault r ∧ (getCh t n).en = (getCh s n).en ∧ getBusy t n = getBusy s n

/-- 60_exceptions.md R243: an aborted CPU takes no further step. Whatever agent's turn it is, the CPU stays aborted with its
error and its program, the steps left of its operation, its last value, the records of the lifecycle arbiter and what is
pinned stay as they are; its own turn changes nothing at all but the schedule. Derived. -/
def Obligations.AbortIsFinalForTheCpu : Prop :=
  ∀ (s t : State) (e : CpuError), s.cpu.run = .aborted e → step s = .next t →
    t.cpu.run = .aborted e ∧ t.cpu.prog = s.cpu.prog ∧ t.cpu.doing = s.cpu.doing ∧ t.cpu.ret = s.cpu.ret ∧
      t.life = s.life ∧ t.pinned = s.pinned ∧
      ((turnOf s).agent = .cpu → t = afterTurn s)

/-- 43_engine.md R192 and 20_memory.md R72 to R75: a byte of memory changes only by an engine's move, a named step or a
config form of that channel, inside the destination `cur_dst .. cur_dst + bcnt_left - 1` of a channel in Move; or because a
pending CPU store over it drains, by a drain, a FENCE, or the fence of `start`, `wait` or `wait_bounded`. Of the CPU steps of
an operation under way only the fence at the end of a wait changes memory.
Derived: that the destination of a descriptor driven by hand may cover a descriptor, against R192, is log 37 (DESIGN CHOICE). -/
def Obligations.MemoryChangesOnlyByMoveOrDrain : Prop :=
  (∀ (i : Instr) (s t : State) (x : Nat), exec i s = .next t → memRead t.mem x ≠ memRead s.mem x →
    (∃ n src dst left, Moving n s src dst left ∧ dst.toNat ≤ x ∧ x < dst.toNat + left.toNat ∧
      ((∃ k, i = .engMove n k) ∨ ∃ ws wd sb db, i = m2mInstr n ws wd sb db)) ∨
    ((∃ p ∈ s.cpu.sb, p.addr ≤ x ∧ x < p.addr + p.bytes.length) ∧
      ((∃ j, i = .drain j) ∨ i = .fence ∨ (∃ y n, i = .transferStart y n) ∨ (∃ y n, i = .transferWait y n) ∨
        ∃ y n k, i = .transferWaitBounded y n k))) ∧
  (∀ (q : Rest) (s t : State) (x : Nat), runRest q s = .next t → memRead t.mem x ≠ memRead s.mem x →
    (∃ p ∈ s.cpu.sb, p.addr ≤ x ∧ x < p.addr + p.bytes.length) ∧ ∃ y n, q = .waitEnd y n)

/-- 43_engine.md R192 and 20_memory.md R73: an engine never reads `cpu.sb`, nor anything else of the CPU. Whatever the CPU's
buffers, run state and program are, a step of an engine that is possible stays possible and leaves the same registers, flags
and memory. Derived. -/
def Obligations.EnginesDoNotSeeTheCpu : Prop :=
  ∀ (i : Instr) (s t : State) (c : Cpu), instrIsSoftware i = false → (∀ j, i ≠ .drain j) → exec i s = .next t →
    ∃ u, exec i { s with cpu := c } = .next u ∧ u.ch = t.ch ∧ u.blk = t.blk ∧ u.mem = t.mem

/-- Nothing in scope sets a channel Secure (10_state.md R36), pauses one (R22) or writes `mode`, `fdesc_addr` or `pkg_num`
but the block reset (R29 to R31); the configuration is fixed, whatever step is taken (R51); and `desc_addr` is never written
by an engine (R23).
Derived. -/
def Obligations.WhatNoInstructionWrites : Prop :=
  (∀ s t : State, step s = .next t → t.config = s.config) ∧
  ∀ (i : Instr) (s t : State) (n : Chan), exec i s = .next t →
    t.config = s.config ∧
    (getSec t n = .of .secure → getSec s n = .of .secure) ∧
    ((getCh t n).pause = .of true → (getCh s n).pause = .of true) ∧
    (∀ v, (getCh t n).mode = .of v → (getCh s n).mode = .of v) ∧
    (∀ v, (getCh t n).fdescAddr = .of v → (getCh s n).fdescAddr = .of v) ∧
    (∀ v, (getCh t n).pkgNum = .of v → (getCh s n).pkgNum = .of v) ∧
    (instrIsSoftware i = false → (getCh t n).descAddr = (getCh s n).descAddr)
end

