-- ==== Sys2Proof/Laws/State.lean ====
section
/-! SUPPORT. One lemma per field per update: what each update of State leaves as it was, and what it writes. -/

namespace Sys2Proof.Machine

theorem bankGet_bankSet {α : Type} (b : PerChannel α) (n m : Chan) (v : α) :
    bankGet (bankSet b n v) m = if m = n then v else bankGet b m := by
  fin_cases n <;> fin_cases m <;> rfl

@[simp] theorem bankGet_bankSet_same {α : Type} (b : PerChannel α) (n : Chan) (v : α) :
    bankGet (bankSet b n v) n = v := by simp [bankGet_bankSet]

@[simp] theorem bankGet_bankSet_ne {α : Type} (b : PerChannel α) {n m : Chan} (v : α) (h : m ≠ n) :
    bankGet (bankSet b n v) m = bankGet b m := by simp [bankGet_bankSet, h]

@[simp] theorem bankGet_everyChannel {α : Type} (v : α) (n : Chan) : bankGet (everyChannel v) n = v := by
  fin_cases n <;> rfl

@[simp] theorem bankSet_bankSet {α : Type} (b : PerChannel α) (n : Chan) (v w : α) :
    bankSet (bankSet b n v) n w = bankSet b n w := by fin_cases n <;> rfl

@[simp] theorem bankSet_bankGet {α : Type} (b : PerChannel α) (n : Chan) : bankSet b n (bankGet b n) = b := by
  fin_cases n <;> rfl

/-- Two banks with the same value at every channel are the same. -/
theorem bank_ext {α : Type} {b c : PerChannel α} (h : ∀ n, bankGet b n = bankGet c n) : b = c := by
  cases b
  cases c
  have h0 := h 0
  have h1 := h 1
  have h2 := h 2
  have h3 := h 3
  have h4 := h 4
  have h5 := h 5
  have h6 := h 6
  have h7 := h 7
  simp only [bankGet] at h0 h1 h2 h3 h4 h5 h6 h7
  simp [h0, h1, h2, h3, h4, h5, h6, h7]

@[simp] theorem setCh_config (s : State) (n : Chan) (c : Channel) : (setCh s n c).config = s.config := rfl
@[simp] theorem setCh_blk (s : State) (n : Chan) (c : Channel) : (setCh s n c).blk = s.blk := rfl
@[simp] theorem setCh_mem (s : State) (n : Chan) (c : Channel) : (setCh s n c).mem = s.mem := rfl
@[simp] theorem setCh_cpu (s : State) (n : Chan) (c : Channel) : (setCh s n c).cpu = s.cpu := rfl
@[simp] theorem setCh_life (s : State) (n : Chan) (c : Channel) : (setCh s n c).life = s.life := rfl
@[simp] theorem setCh_pinned (s : State) (n : Chan) (c : Channel) : (setCh s n c).pinned = s.pinned := rfl
@[simp] theorem setCh_sched (s : State) (n : Chan) (c : Channel) : (setCh s n c).sched = s.sched := rfl
@[simp] theorem setCh_tick (s : State) (n : Chan) (c : Channel) : (setCh s n c).tick = s.tick := rfl

@[simp] theorem setLife_config (s : State) (n : Chan) (l : Life) : (setLife s n l).config = s.config := rfl
@[simp] theorem setLife_ch (s : State) (n : Chan) (l : Life) : (setLife s n l).ch = s.ch := rfl
@[simp] theorem setLife_blk (s : State) (n : Chan) (l : Life) : (setLife s n l).blk = s.blk := rfl
@[simp] theorem setLife_mem (s : State) (n : Chan) (l : Life) : (setLife s n l).mem = s.mem := rfl
@[simp] theorem setLife_cpu (s : State) (n : Chan) (l : Life) : (setLife s n l).cpu = s.cpu := rfl
@[simp] theorem setLife_pinned (s : State) (n : Chan) (l : Life) : (setLife s n l).pinned = s.pinned := rfl
@[simp] theorem setLife_sched (s : State) (n : Chan) (l : Life) : (setLife s n l).sched = s.sched := rfl
@[simp] theorem setLife_tick (s : State) (n : Chan) (l : Life) : (setLife s n l).tick = s.tick := rfl

@[simp] theorem setRet_config (s : State) (v : Ret) : (setRet s v).config = s.config := rfl
@[simp] theorem setRet_ch (s : State) (v : Ret) : (setRet s v).ch = s.ch := rfl
@[simp] theorem setRet_blk (s : State) (v : Ret) : (setRet s v).blk = s.blk := rfl
@[simp] theorem setRet_mem (s : State) (v : Ret) : (setRet s v).mem = s.mem := rfl
@[simp] theorem setRet_life (s : State) (v : Ret) : (setRet s v).life = s.life := rfl
@[simp] theorem setRet_pinned (s : State) (v : Ret) : (setRet s v).pinned = s.pinned := rfl
@[simp] theorem setRet_sched (s : State) (v : Ret) : (setRet s v).sched = s.sched := rfl
@[simp] theorem setRet_tick (s : State) (v : Ret) : (setRet s v).tick = s.tick := rfl
@[simp] theorem setRet_cpu_sb (s : State) (v : Ret) : (setRet s v).cpu.sb = s.cpu.sb := rfl
@[simp] theorem setRet_cpu_stale (s : State) (v : Ret) : (setRet s v).cpu.stale = s.cpu.stale := rfl
@[simp] theorem setRet_cpu_run (s : State) (v : Ret) : (setRet s v).cpu.run = s.cpu.run := rfl
@[simp] theorem setRet_cpu_prog (s : State) (v : Ret) : (setRet s v).cpu.prog = s.cpu.prog := rfl
@[simp] theorem setRet_cpu_doing (s : State) (v : Ret) : (setRet s v).cpu.doing = s.cpu.doing := rfl

@[simp] theorem pushOp_config (s : State) (op : CpuOp) : (pushOp s op).config = s.config := rfl
@[simp] theorem pushOp_ch (s : State) (op : CpuOp) : (pushOp s op).ch = s.ch := rfl
@[simp] theorem pushOp_blk (s : State) (op : CpuOp) : (pushOp s op).blk = s.blk := rfl
@[simp] theorem pushOp_mem (s : State) (op : CpuOp) : (pushOp s op).mem = s.mem := rfl
@[simp] theorem pushOp_life (s : State) (op : CpuOp) : (pushOp s op).life = s.life := rfl
@[simp] theorem pushOp_pinned (s : State) (op : CpuOp) : (pushOp s op).pinned = s.pinned := rfl
@[simp] theorem pushOp_sched (s : State) (op : CpuOp) : (pushOp s op).sched = s.sched := rfl
@[simp] theorem pushOp_tick (s : State) (op : CpuOp) : (pushOp s op).tick = s.tick := rfl
@[simp] theorem pushOp_cpu_sb (s : State) (op : CpuOp) : (pushOp s op).cpu.sb = s.cpu.sb := rfl
@[simp] theorem pushOp_cpu_stale (s : State) (op : CpuOp) : (pushOp s op).cpu.stale = s.cpu.stale := rfl
@[simp] theorem pushOp_cpu_run (s : State) (op : CpuOp) : (pushOp s op).cpu.run = s.cpu.run := rfl
@[simp] theorem pushOp_cpu_doing (s : State) (op : CpuOp) : (pushOp s op).cpu.doing = s.cpu.doing := rfl
@[simp] theorem pushOp_cpu_ret (s : State) (op : CpuOp) : (pushOp s op).cpu.ret = s.cpu.ret := rfl

@[simp] theorem pushRest_config (s : State) (rs : List Rest) : (pushRest s rs).config = s.config := rfl
@[simp] theorem pushRest_ch (s : State) (rs : List Rest) : (pushRest s rs).ch = s.ch := rfl
@[simp] theorem pushRest_blk (s : State) (rs : List Rest) : (pushRest s rs).blk = s.blk := rfl
@[simp] theorem pushRest_mem (s : State) (rs : List Rest) : (pushRest s rs).mem = s.mem := rfl
@[simp] theorem pushRest_life (s : State) (rs : List Rest) : (pushRest s rs).life = s.life := rfl
@[simp] theorem pushRest_pinned (s : State) (rs : List Rest) : (pushRest s rs).pinned = s.pinned := rfl
@[simp] theorem pushRest_sched (s : State) (rs : List Rest) : (pushRest s rs).sched = s.sched := rfl
@[simp] theorem pushRest_tick (s : State) (rs : List Rest) : (pushRest s rs).tick = s.tick := rfl
@[simp] theorem pushRest_cpu_sb (s : State) (rs : List Rest) : (pushRest s rs).cpu.sb = s.cpu.sb := rfl
@[simp] theorem pushRest_cpu_stale (s : State) (rs : List Rest) : (pushRest s rs).cpu.stale = s.cpu.stale := rfl
@[simp] theorem pushRest_cpu_run (s : State) (rs : List Rest) : (pushRest s rs).cpu.run = s.cpu.run := rfl
@[simp] theorem pushRest_cpu_prog (s : State) (rs : List Rest) : (pushRest s rs).cpu.prog = s.cpu.prog := rfl
@[simp] theorem pushRest_cpu_ret (s : State) (rs : List Rest) : (pushRest s rs).cpu.ret = s.cpu.ret := rfl
@[simp] theorem pushRest_cpu_doing (s : State) (rs : List Rest) : (pushRest s rs).cpu.doing = rs ++ s.cpu.doing := rfl

@[simp] theorem latchEffect_config (s : State) (n : Chan) (d : Desc) : (latchEffect n d s).config = s.config := rfl
@[simp] theorem latchEffect_blk (s : State) (n : Chan) (d : Desc) : (latchEffect n d s).blk = s.blk := rfl
@[simp] theorem latchEffect_mem (s : State) (n : Chan) (d : Desc) : (latchEffect n d s).mem = s.mem := rfl
@[simp] theorem latchEffect_cpu (s : State) (n : Chan) (d : Desc) : (latchEffect n d s).cpu = s.cpu := rfl
@[simp] theorem latchEffect_life (s : State) (n : Chan) (d : Desc) : (latchEffect n d s).life = s.life := rfl
@[simp] theorem latchEffect_pinned (s : State) (n : Chan) (d : Desc) : (latchEffect n d s).pinned = s.pinned := rfl
@[simp] theorem latchEffect_sched (s : State) (n : Chan) (d : Desc) : (latchEffect n d s).sched = s.sched := rfl
@[simp] theorem latchEffect_tick (s : State) (n : Chan) (d : Desc) : (latchEffect n d s).tick = s.tick := rfl

@[simp] theorem setBusy_config (s : State) (n : Chan) (b : Bool) : (setBusy s n b).config = s.config := rfl
@[simp] theorem setBusy_ch (s : State) (n : Chan) (b : Bool) : (setBusy s n b).ch = s.ch := rfl
@[simp] theorem setBusy_mem (s : State) (n : Chan) (b : Bool) : (setBusy s n b).mem = s.mem := rfl
@[simp] theorem setBusy_cpu (s : State) (n : Chan) (b : Bool) : (setBusy s n b).cpu = s.cpu := rfl
@[simp] theorem setBusy_life (s : State) (n : Chan) (b : Bool) : (setBusy s n b).life = s.life := rfl
@[simp] theorem setBusy_pinned (s : State) (n : Chan) (b : Bool) : (setBusy s n b).pinned = s.pinned := rfl
@[simp] theorem setBusy_sched (s : State) (n : Chan) (b : Bool) : (setBusy s n b).sched = s.sched := rfl
@[simp] theorem setBusy_tick (s : State) (n : Chan) (b : Bool) : (setBusy s n b).tick = s.tick := rfl
@[simp] theorem setBusy_blk_sec (s : State) (n : Chan) (b : Bool) : (setBusy s n b).blk.sec = s.blk.sec := rfl
@[simp] theorem setBusy_blk_agMclk (s : State) (n : Chan) (b : Bool) : (setBusy s n b).blk.agMclk = s.blk.agMclk := rfl
@[simp] theorem setBusy_blk_agChan (s : State) (n : Chan) (b : Bool) : (setBusy s n b).blk.agChan = s.blk.agChan := rfl
@[simp] theorem setBusy_blk_agCommon (s : State) (n : Chan) (b : Bool) : (setBusy s n b).blk.agCommon = s.blk.agCommon := rfl
@[simp] theorem setBusy_blk_clkOn (s : State) (n : Chan) (b : Bool) : (setBusy s n b).blk.clkOn = s.blk.clkOn := rfl
@[simp] theorem setBusy_blk_inReset (s : State) (n : Chan) (b : Bool) : (setBusy s n b).blk.inReset = s.blk.inReset := rfl
@[simp] theorem setBusy_blk_splitDone (s : State) (n : Chan) (b : Bool) : (setBusy s n b).blk.splitDone = s.blk.splitDone := rfl

@[simp] theorem setSec_config (s : State) (n : Chan) (d : Domain) : (setSec s n d).config = s.config := rfl
@[simp] theorem setSec_ch (s : State) (n : Chan) (d : Domain) : (setSec s n d).ch = s.ch := rfl
@[simp] theorem setSec_mem (s : State) (n : Chan) (d : Domain) : (setSec s n d).mem = s.mem := rfl
@[simp] theorem setSec_cpu (s : State) (n : Chan) (d : Domain) : (setSec s n d).cpu = s.cpu := rfl
@[simp] theorem setSec_life (s : State) (n : Chan) (d : Domain) : (setSec s n d).life = s.life := rfl
@[simp] theorem setSec_pinned (s : State) (n : Chan) (d : Domain) : (setSec s n d).pinned = s.pinned := rfl
@[simp] theorem setSec_sched (s : State) (n : Chan) (d : Domain) : (setSec s n d).sched = s.sched := rfl
@[simp] theorem setSec_tick (s : State) (n : Chan) (d : Domain) : (setSec s n d).tick = s.tick := rfl
@[simp] theorem setSec_blk_busy (s : State) (n : Chan) (d : Domain) : (setSec s n d).blk.busy = s.blk.busy := rfl
@[simp] theorem setSec_blk_agMclk (s : State) (n : Chan) (d : Domain) : (setSec s n d).blk.agMclk = s.blk.agMclk := rfl
@[simp] theorem setSec_blk_agChan (s : State) (n : Chan) (d : Domain) : (setSec s n d).blk.agChan = s.blk.agChan := rfl
@[simp] theorem setSec_blk_agCommon (s : State) (n : Chan) (d : Domain) : (setSec s n d).blk.agCommon = s.blk.agCommon := rfl
@[simp] theorem setSec_blk_clkOn (s : State) (n : Chan) (d : Domain) : (setSec s n d).blk.clkOn = s.blk.clkOn := rfl
@[simp] theorem setSec_blk_inReset (s : State) (n : Chan) (d : Domain) : (setSec s n d).blk.inReset = s.blk.inReset := rfl
@[simp] theorem setSec_blk_splitDone (s : State) (n : Chan) (d : Domain) : (setSec s n d).blk.splitDone = s.blk.splitDone := rfl

@[simp] theorem engineFault_config (s : State) (n : Chan) (r : FaultReason) : (engineFault n r s).config = s.config := rfl
@[simp] theorem engineFault_blk (s : State) (n : Chan) (r : FaultReason) : (engineFault n r s).blk = s.blk := rfl
@[simp] theorem engineFault_mem (s : State) (n : Chan) (r : FaultReason) : (engineFault n r s).mem = s.mem := rfl
@[simp] theorem engineFault_cpu (s : State) (n : Chan) (r : FaultReason) : (engineFault n r s).cpu = s.cpu := rfl
@[simp] theorem engineFault_life (s : State) (n : Chan) (r : FaultReason) : (engineFault n r s).life = s.life := rfl
@[simp] theorem engineFault_pinned (s : State) (n : Chan) (r : FaultReason) : (engineFault n r s).pinned = s.pinned := rfl
@[simp] theorem engineFault_sched (s : State) (n : Chan) (r : FaultReason) : (engineFault n r s).sched = s.sched := rfl
@[simp] theorem engineFault_tick (s : State) (n : Chan) (r : FaultReason) : (engineFault n r s).tick = s.tick := rfl

@[simp] theorem storeEffect_config (s : State) (a : Nat) (bs : List Byte) : (storeEffect a bs s).config = s.config := rfl
@[simp] theorem storeEffect_ch (s : State) (a : Nat) (bs : List Byte) : (storeEffect a bs s).ch = s.ch := rfl
@[simp] theorem storeEffect_blk (s : State) (a : Nat) (bs : List Byte) : (storeEffect a bs s).blk = s.blk := rfl
@[simp] theorem storeEffect_mem (s : State) (a : Nat) (bs : List Byte) : (storeEffect a bs s).mem = s.mem := rfl
@[simp] theorem storeEffect_life (s : State) (a : Nat) (bs : List Byte) : (storeEffect a bs s).life = s.life := rfl
@[simp] theorem storeEffect_pinned (s : State) (a : Nat) (bs : List Byte) : (storeEffect a bs s).pinned = s.pinned := rfl
@[simp] theorem storeEffect_sched (s : State) (a : Nat) (bs : List Byte) : (storeEffect a bs s).sched = s.sched := rfl
@[simp] theorem storeEffect_tick (s : State) (a : Nat) (bs : List Byte) : (storeEffect a bs s).tick = s.tick := rfl
@[simp] theorem storeEffect_cpu_run (s : State) (a : Nat) (bs : List Byte) : (storeEffect a bs s).cpu.run = s.cpu.run := rfl
@[simp] theorem storeEffect_cpu_prog (s : State) (a : Nat) (bs : List Byte) : (storeEffect a bs s).cpu.prog = s.cpu.prog := rfl
@[simp] theorem storeEffect_cpu_doing (s : State) (a : Nat) (bs : List Byte) : (storeEffect a bs s).cpu.doing = s.cpu.doing := rfl
@[simp] theorem storeEffect_cpu_ret (s : State) (a : Nat) (bs : List Byte) : (storeEffect a bs s).cpu.ret = s.cpu.ret := rfl

@[simp] theorem storeDesc_config (s : State) (A : Nat) (d : Desc) : (storeDesc A d s).config = s.config := rfl
@[simp] theorem storeDesc_ch (s : State) (A : Nat) (d : Desc) : (storeDesc A d s).ch = s.ch := rfl
@[simp] theorem storeDesc_blk (s : State) (A : Nat) (d : Desc) : (storeDesc A d s).blk = s.blk := rfl
@[simp] theorem storeDesc_mem (s : State) (A : Nat) (d : Desc) : (storeDesc A d s).mem = s.mem := rfl
@[simp] theorem storeDesc_life (s : State) (A : Nat) (d : Desc) : (storeDesc A d s).life = s.life := rfl
@[simp] theorem storeDesc_pinned (s : State) (A : Nat) (d : Desc) : (storeDesc A d s).pinned = s.pinned := rfl
@[simp] theorem storeDesc_sched (s : State) (A : Nat) (d : Desc) : (storeDesc A d s).sched = s.sched := rfl
@[simp] theorem storeDesc_tick (s : State) (A : Nat) (d : Desc) : (storeDesc A d s).tick = s.tick := rfl
@[simp] theorem storeDesc_cpu_run (s : State) (A : Nat) (d : Desc) : (storeDesc A d s).cpu.run = s.cpu.run := rfl
@[simp] theorem storeDesc_cpu_prog (s : State) (A : Nat) (d : Desc) : (storeDesc A d s).cpu.prog = s.cpu.prog := rfl
@[simp] theorem storeDesc_cpu_doing (s : State) (A : Nat) (d : Desc) : (storeDesc A d s).cpu.doing = s.cpu.doing := rfl
@[simp] theorem storeDesc_cpu_ret (s : State) (A : Nat) (d : Desc) : (storeDesc A d s).cpu.ret = s.cpu.ret := rfl

@[simp] theorem fenceEffect_config (s : State) : (fenceEffect s).config = s.config := rfl
@[simp] theorem fenceEffect_ch (s : State) : (fenceEffect s).ch = s.ch := rfl
@[simp] theorem fenceEffect_blk (s : State) : (fenceEffect s).blk = s.blk := rfl
@[simp] theorem fenceEffect_life (s : State) : (fenceEffect s).life = s.life := rfl
@[simp] theorem fenceEffect_pinned (s : State) : (fenceEffect s).pinned = s.pinned := rfl
@[simp] theorem fenceEffect_sched (s : State) : (fenceEffect s).sched = s.sched := rfl
@[simp] theorem fenceEffect_tick (s : State) : (fenceEffect s).tick = s.tick := rfl
@[simp] theorem fenceEffect_cpu_run (s : State) : (fenceEffect s).cpu.run = s.cpu.run := rfl
@[simp] theorem fenceEffect_cpu_prog (s : State) : (fenceEffect s).cpu.prog = s.cpu.prog := rfl
@[simp] theorem fenceEffect_cpu_doing (s : State) : (fenceEffect s).cpu.doing = s.cpu.doing := rfl
@[simp] theorem fenceEffect_cpu_ret (s : State) : (fenceEffect s).cpu.ret = s.cpu.ret := rfl

@[simp] theorem enableEffect_config (s : State) (n : Chan) : (enableEffect n s).config = s.config := rfl
@[simp] theorem enableEffect_mem (s : State) (n : Chan) : (enableEffect n s).mem = s.mem := rfl
@[simp] theorem enableEffect_cpu (s : State) (n : Chan) : (enableEffect n s).cpu = s.cpu := rfl
@[simp] theorem enableEffect_life (s : State) (n : Chan) : (enableEffect n s).life = s.life := rfl
@[simp] theorem enableEffect_pinned (s : State) (n : Chan) : (enableEffect n s).pinned = s.pinned := rfl
@[simp] theorem enableEffect_sched (s : State) (n : Chan) : (enableEffect n s).sched = s.sched := rfl
@[simp] theorem enableEffect_tick (s : State) (n : Chan) : (enableEffect n s).tick = s.tick := rfl
@[simp] theorem enableEffect_blk_sec (s : State) (n : Chan) : (enableEffect n s).blk.sec = s.blk.sec := rfl
@[simp] theorem enableEffect_blk_agMclk (s : State) (n : Chan) : (enableEffect n s).blk.agMclk = s.blk.agMclk := rfl
@[simp] theorem enableEffect_blk_agChan (s : State) (n : Chan) : (enableEffect n s).blk.agChan = s.blk.agChan := rfl
@[simp] theorem enableEffect_blk_agCommon (s : State) (n : Chan) : (enableEffect n s).blk.agCommon = s.blk.agCommon := rfl
@[simp] theorem enableEffect_blk_clkOn (s : State) (n : Chan) : (enableEffect n s).blk.clkOn = s.blk.clkOn := rfl
@[simp] theorem enableEffect_blk_inReset (s : State) (n : Chan) : (enableEffect n s).blk.inReset = s.blk.inReset := rfl
@[simp] theorem enableEffect_blk_splitDone (s : State) (n : Chan) : (enableEffect n s).blk.splitDone = s.blk.splitDone := rfl

@[simp] theorem completeEffect_config (s : State) (n : Chan) : (completeEffect n s).config = s.config := rfl
@[simp] theorem completeEffect_mem (s : State) (n : Chan) : (completeEffect n s).mem = s.mem := rfl
@[simp] theorem completeEffect_cpu (s : State) (n : Chan) : (completeEffect n s).cpu = s.cpu := rfl
@[simp] theorem completeEffect_life (s : State) (n : Chan) : (completeEffect n s).life = s.life := rfl
@[simp] theorem completeEffect_pinned (s : State) (n : Chan) : (completeEffect n s).pinned = s.pinned := rfl
@[simp] theorem completeEffect_sched (s : State) (n : Chan) : (completeEffect n s).sched = s.sched := rfl
@[simp] theorem completeEffect_tick (s : State) (n : Chan) : (completeEffect n s).tick = s.tick := rfl
@[simp] theorem completeEffect_blk_sec (s : State) (n : Chan) : (completeEffect n s).blk.sec = s.blk.sec := rfl
@[simp] theorem completeEffect_blk_agMclk (s : State) (n : Chan) : (completeEffect n s).blk.agMclk = s.blk.agMclk := rfl
@[simp] theorem completeEffect_blk_agChan (s : State) (n : Chan) : (completeEffect n s).blk.agChan = s.blk.agChan := rfl
@[simp] theorem completeEffect_blk_agCommon (s : State) (n : Chan) : (completeEffect n s).blk.agCommon = s.blk.agCommon := rfl
@[simp] theorem completeEffect_blk_clkOn (s : State) (n : Chan) : (completeEffect n s).blk.clkOn = s.blk.clkOn := rfl
@[simp] theorem completeEffect_blk_inReset (s : State) (n : Chan) : (completeEffect n s).blk.inReset = s.blk.inReset := rfl
@[simp] theorem completeEffect_blk_splitDone (s : State) (n : Chan) : (completeEffect n s).blk.splitDone = s.blk.splitDone := rfl

@[simp] theorem linkEffect_config (s : State) (n : Chan) (a : Word) : (linkEffect n a s).config = s.config := rfl
@[simp] theorem linkEffect_blk (s : State) (n : Chan) (a : Word) : (linkEffect n a s).blk = s.blk := rfl
@[simp] theorem linkEffect_mem (s : State) (n : Chan) (a : Word) : (linkEffect n a s).mem = s.mem := rfl
@[simp] theorem linkEffect_cpu (s : State) (n : Chan) (a : Word) : (linkEffect n a s).cpu = s.cpu := rfl
@[simp] theorem linkEffect_life (s : State) (n : Chan) (a : Word) : (linkEffect n a s).life = s.life := rfl
@[simp] theorem linkEffect_pinned (s : State) (n : Chan) (a : Word) : (linkEffect n a s).pinned = s.pinned := rfl
@[simp] theorem linkEffect_sched (s : State) (n : Chan) (a : Word) : (linkEffect n a s).sched = s.sched := rfl
@[simp] theorem linkEffect_tick (s : State) (n : Chan) (a : Word) : (linkEffect n a s).tick = s.tick := rfl

@[simp] theorem advance_config (s : State) (n : Chan) (src dst left : Word) (k : Nat) : (advance n src dst left k s).config = s.config := rfl
@[simp] theorem advance_blk (s : State) (n : Chan) (src dst left : Word) (k : Nat) : (advance n src dst left k s).blk = s.blk := rfl
@[simp] theorem advance_mem (s : State) (n : Chan) (src dst left : Word) (k : Nat) : (advance n src dst left k s).mem = s.mem := rfl
@[simp] theorem advance_cpu (s : State) (n : Chan) (src dst left : Word) (k : Nat) : (advance n src dst left k s).cpu = s.cpu := rfl
@[simp] theorem advance_life (s : State) (n : Chan) (src dst left : Word) (k : Nat) : (advance n src dst left k s).life = s.life := rfl
@[simp] theorem advance_pinned (s : State) (n : Chan) (src dst left : Word) (k : Nat) : (advance n src dst left k s).pinned = s.pinned := rfl
@[simp] theorem advance_sched (s : State) (n : Chan) (src dst left : Word) (k : Nat) : (advance n src dst left k s).sched = s.sched := rfl
@[simp] theorem advance_tick (s : State) (n : Chan) (src dst left : Word) (k : Nat) : (advance n src dst left k s).tick = s.tick := rfl

@[simp] theorem resetEffect_config (s : State) : (resetEffect s).config = s.config := rfl
@[simp] theorem resetEffect_mem (s : State) : (resetEffect s).mem = s.mem := rfl
@[simp] theorem resetEffect_cpu (s : State) : (resetEffect s).cpu = s.cpu := rfl
@[simp] theorem resetEffect_life (s : State) : (resetEffect s).life = s.life := rfl
@[simp] theorem resetEffect_pinned (s : State) : (resetEffect s).pinned = s.pinned := rfl
@[simp] theorem resetEffect_sched (s : State) : (resetEffect s).sched = s.sched := rfl
@[simp] theorem resetEffect_tick (s : State) : (resetEffect s).tick = s.tick := rfl
@[simp] theorem resetEffect_blk_clkOn (s : State) : (resetEffect s).blk.clkOn = s.blk.clkOn := rfl
@[simp] theorem resetEffect_blk_splitDone (s : State) : (resetEffect s).blk.splitDone = s.blk.splitDone := rfl

@[simp] theorem waitDone_config (s : State) (x : Transfer) (n : Chan) : (waitDone x n s).config = s.config := rfl
@[simp] theorem waitDone_ch (s : State) (x : Transfer) (n : Chan) : (waitDone x n s).ch = s.ch := rfl
@[simp] theorem waitDone_blk (s : State) (x : Transfer) (n : Chan) : (waitDone x n s).blk = s.blk := rfl
@[simp] theorem waitDone_pinned (s : State) (x : Transfer) (n : Chan) : (waitDone x n s).pinned = s.pinned := rfl
@[simp] theorem waitDone_sched (s : State) (x : Transfer) (n : Chan) : (waitDone x n s).sched = s.sched := rfl
@[simp] theorem waitDone_tick (s : State) (x : Transfer) (n : Chan) : (waitDone x n s).tick = s.tick := rfl
@[simp] theorem waitDone_cpu_run (s : State) (x : Transfer) (n : Chan) : (waitDone x n s).cpu.run = s.cpu.run := rfl
@[simp] theorem waitDone_cpu_prog (s : State) (x : Transfer) (n : Chan) : (waitDone x n s).cpu.prog = s.cpu.prog := rfl
@[simp] theorem waitDone_cpu_doing (s : State) (x : Transfer) (n : Chan) : (waitDone x n s).cpu.doing = s.cpu.doing := rfl

/-! What the updates write. -/

@[simp] theorem getCh_setCh_same (s : State) (n : Chan) (c : Channel) : getCh (setCh s n c) n = c := by simp [getCh, setCh]
@[simp] theorem getCh_setCh_ne (s : State) {n m : Chan} (c : Channel) (h : m ≠ n) : getCh (setCh s n c) m = getCh s m := by
  simp [getCh, setCh, h]
theorem getCh_setCh (s : State) (n m : Chan) (c : Channel) : getCh (setCh s n c) m = if m = n then c else getCh s m := by
  simp [getCh, setCh, bankGet_bankSet]
@[simp] theorem setCh_setCh (s : State) (n : Chan) (c d : Channel) : setCh (setCh s n c) n d = setCh s n d := by
  simp [setCh]
@[simp] theorem setCh_getCh (s : State) (n : Chan) : setCh s n (getCh s n) = s := by simp [setCh, getCh]
@[simp] theorem getLife_setLife_same (s : State) (n : Chan) (l : Life) : getLife (setLife s n l) n = l := by
  simp [getLife, setLife]
@[simp] theorem getLife_setLife_ne (s : State) {n m : Chan} (l : Life) (h : m ≠ n) :
    getLife (setLife s n l) m = getLife s m := by simp [getLife, setLife, h]
theorem getLife_setLife (s : State) (n m : Chan) (l : Life) :
    getLife (setLife s n l) m = if m = n then l else getLife s m := by simp [getLife, setLife, bankGet_bankSet]
@[simp] theorem getBusy_setBusy_same (s : State) (n : Chan) (b : Bool) : getBusy (setBusy s n b) n = .of b := by
  simp [getBusy, setBusy]
@[simp] theorem getBusy_setBusy_ne (s : State) {n m : Chan} (b : Bool) (h : m ≠ n) :
    getBusy (setBusy s n b) m = getBusy s m := by simp [getBusy, setBusy, h]
theorem getBusy_setBusy (s : State) (n m : Chan) (b : Bool) :
    getBusy (setBusy s n b) m = if m = n then .of b else getBusy s m := by simp [getBusy, setBusy, bankGet_bankSet]
@[simp] theorem getSec_setSec_same (s : State) (n : Chan) (d : Domain) : getSec (setSec s n d) n = .of d := by
  simp [getSec, setSec]
@[simp] theorem getSec_setSec_ne (s : State) {n m : Chan} (d : Domain) (h : m ≠ n) :
    getSec (setSec s n d) m = getSec s m := by simp [getSec, setSec, h]
theorem getSec_setSec (s : State) (n m : Chan) (d : Domain) :
    getSec (setSec s n d) m = if m = n then .of d else getSec s m := by simp [getSec, setSec, bankGet_bankSet]
@[simp] theorem setRet_cpu_ret (s : State) (v : Ret) : (setRet s v).cpu.ret = v := rfl
@[simp] theorem pushOp_cpu_prog (s : State) (op : CpuOp) : (pushOp s op).cpu.prog = op :: s.cpu.prog := rfl
@[simp] theorem storeEffect_cpu_sb (s : State) (a : Nat) (bs : List Byte) :
    (storeEffect a bs s).cpu.sb = s.cpu.sb ++ [⟨a, bs⟩] := rfl
@[simp] theorem storeEffect_cpu_stale (s : State) (a : Nat) (bs : List Byte) :
    (storeEffect a bs s).cpu.stale = staleClear s.cpu.stale a bs.length := rfl
@[simp] theorem fenceEffect_cpu_sb (s : State) : (fenceEffect s).cpu.sb = [] := rfl
@[simp] theorem fenceEffect_cpu_stale (s : State) : (fenceEffect s).cpu.stale = [] := rfl
@[simp] theorem fenceEffect_mem (s : State) : (fenceEffect s).mem = drainAll s.mem s.cpu.sb := rfl

/-! What the accessors read of a state whose other fields changed. -/

theorem getCh_congr {s t : State} (h : t.ch = s.ch) (n : Chan) : getCh t n = getCh s n := by simp [getCh, h]
theorem getBusy_congr {s t : State} (h : t.blk = s.blk) (n : Chan) : getBusy t n = getBusy s n := by simp [getBusy, h]
theorem getSec_congr {s t : State} (h : t.blk = s.blk) (n : Chan) : getSec t n = getSec s n := by simp [getSec, h]
theorem getLife_congr {s t : State} (h : t.life = s.life) (n : Chan) : getLife t n = getLife s n := by simp [getLife, h]

@[simp] theorem getCh_withCpu (s : State) (c : Cpu) (n : Chan) : getCh { s with cpu := c } n = getCh s n := rfl
@[simp] theorem getBusy_withCpu (s : State) (c : Cpu) (n : Chan) : getBusy { s with cpu := c } n = getBusy s n := rfl
@[simp] theorem getSec_withCpu (s : State) (c : Cpu) (n : Chan) : getSec { s with cpu := c } n = getSec s n := rfl
@[simp] theorem getLife_withCpu (s : State) (c : Cpu) (n : Chan) : getLife { s with cpu := c } n = getLife s n := rfl
@[simp] theorem getBusy_setCh (s : State) (n : Chan) (c : Channel) (m : Chan) : getBusy (setCh s n c) m = getBusy s m := rfl
@[simp] theorem getSec_setCh (s : State) (n : Chan) (c : Channel) (m : Chan) : getSec (setCh s n c) m = getSec s m := rfl
@[simp] theorem getLife_setCh (s : State) (n : Chan) (c : Channel) (m : Chan) : getLife (setCh s n c) m = getLife s m := rfl
@[simp] theorem getCh_setLife (s : State) (n : Chan) (l : Life) (m : Chan) : getCh (setLife s n l) m = getCh s m := rfl
@[simp] theorem getBusy_setLife (s : State) (n : Chan) (l : Life) (m : Chan) : getBusy (setLife s n l) m = getBusy s m := rfl
@[simp] theorem getSec_setLife (s : State) (n : Chan) (l : Life) (m : Chan) : getSec (setLife s n l) m = getSec s m := rfl
@[simp] theorem getCh_setRet (s : State) (v : Ret) (m : Chan) : getCh (setRet s v) m = getCh s m := rfl
@[simp] theorem getBusy_setRet (s : State) (v : Ret) (m : Chan) : getBusy (setRet s v) m = getBusy s m := rfl
@[simp] theorem getSec_setRet (s : State) (v : Ret) (m : Chan) : getSec (setRet s v) m = getSec s m := rfl
@[simp] theorem getLife_setRet (s : State) (v : Ret) (m : Chan) : getLife (setRet s v) m = getLife s m := rfl
@[simp] theorem getCh_pushOp (s : State) (op : CpuOp) (m : Chan) : getCh (pushOp s op) m = getCh s m := rfl
@[simp] theorem getBusy_pushOp (s : State) (op : CpuOp) (m : Chan) : getBusy (pushOp s op) m = getBusy s m := rfl
@[simp] theorem getSec_pushOp (s : State) (op : CpuOp) (m : Chan) : getSec (pushOp s op) m = getSec s m := rfl
@[simp] theorem getLife_pushOp (s : State) (op : CpuOp) (m : Chan) : getLife (pushOp s op) m = getLife s m := rfl
@[simp] theorem getCh_pushRest (s : State) (rs : List Rest) (m : Chan) : getCh (pushRest s rs) m = getCh s m := rfl
@[simp] theorem getBusy_pushRest (s : State) (rs : List Rest) (m : Chan) : getBusy (pushRest s rs) m = getBusy s m := rfl
@[simp] theorem getSec_pushRest (s : State) (rs : List Rest) (m : Chan) : getSec (pushRest s rs) m = getSec s m := rfl
@[simp] theorem getLife_pushRest (s : State) (rs : List Rest) (m : Chan) : getLife (pushRest s rs) m = getLife s m := rfl
@[simp] theorem getBusy_latchEffect (s : State) (n : Chan) (d : Desc) (m : Chan) : getBusy (latchEffect n d s) m = getBusy s m := rfl
@[simp] theorem getSec_latchEffect (s : State) (n : Chan) (d : Desc) (m : Chan) : getSec (latchEffect n d s) m = getSec s m := rfl
@[simp] theorem getLife_latchEffect (s : State) (n : Chan) (d : Desc) (m : Chan) : getLife (latchEffect n d s) m = getLife s m := rfl
@[simp] theorem getCh_setBusy (s : State) (n : Chan) (b : Bool) (m : Chan) : getCh (setBusy s n b) m = getCh s m := rfl
@[simp] theorem getSec_setBusy (s : State) (n : Chan) (b : Bool) (m : Chan) : getSec (setBusy s n b) m = getSec s m := rfl
@[simp] theorem getLife_setBusy (s : State) (n : Chan) (b : Bool) (m : Chan) : getLife (setBusy s n b) m = getLife s m := rfl
@[simp] theorem getCh_setSec (s : State) (n : Chan) (d : Domain) (m : Chan) : getCh (setSec s n d) m = getCh s m := rfl
@[simp] theorem getBusy_setSec (s : State) (n : Chan) (d : Domain) (m : Chan) : getBusy (setSec s n d) m = getBusy s m := rfl
@[simp] theorem getLife_setSec (s : State) (n : Chan) (d : Domain) (m : Chan) : getLife (setSec s n d) m = getLife s m := rfl
@[simp] theorem getCh_storeEffect (s : State) (a : Nat) (bs : List Byte) (m : Chan) : getCh (storeEffect a bs s) m = getCh s m := rfl
@[simp] theorem getBusy_storeEffect (s : State) (a : Nat) (bs : List Byte) (m : Chan) : getBusy (storeEffect a bs s) m = getBusy s m := rfl
@[simp] theorem getSec_storeEffect (s : State) (a : Nat) (bs : List Byte) (m : Chan) : getSec (storeEffect a bs s) m = getSec s m := rfl
@[simp] theorem getLife_storeEffect (s : State) (a : Nat) (bs : List Byte) (m : Chan) : getLife (storeEffect a bs s) m = getLife s m := rfl
@[simp] theorem getCh_storeDesc (s : State) (A : Nat) (d : Desc) (m : Chan) : getCh (storeDesc A d s) m = getCh s m := rfl
@[simp] theorem getBusy_storeDesc (s : State) (A : Nat) (d : Desc) (m : Chan) : getBusy (storeDesc A d s) m = getBusy s m := rfl
@[simp] theorem getSec_storeDesc (s : State) (A : Nat) (d : Desc) (m : Chan) : getSec (storeDesc A d s) m = getSec s m := rfl
@[simp] theorem getLife_storeDesc (s : State) (A : Nat) (d : Desc) (m : Chan) : getLife (storeDesc A d s) m = getLife s m := rfl
@[simp] theorem getCh_fenceEffect (s : State) (m : Chan) : getCh (fenceEffect s) m = getCh s m := rfl
@[simp] theorem getBusy_fenceEffect (s : State) (m : Chan) : getBusy (fenceEffect s) m = getBusy s m := rfl
@[simp] theorem getSec_fenceEffect (s : State) (m : Chan) : getSec (fenceEffect s) m = getSec s m := rfl
@[simp] theorem getLife_fenceEffect (s : State) (m : Chan) : getLife (fenceEffect s) m = getLife s m := rfl
@[simp] theorem getBusy_engineFault (s : State) (n : Chan) (r : FaultReason) (m : Chan) : getBusy (engineFault n r s) m = getBusy s m := rfl
@[simp] theorem getSec_engineFault (s : State) (n : Chan) (r : FaultReason) (m : Chan) : getSec (engineFault n r s) m = getSec s m := rfl
@[simp] theorem getLife_engineFault (s : State) (n : Chan) (r : FaultReason) (m : Chan) : getLife (engineFault n r s) m = getLife s m := rfl
@[simp] theorem getBusy_advance (s : State) (n : Chan) (src dst left : Word) (k : Nat) (m : Chan) : getBusy (advance n src dst left k s) m = getBusy s m := rfl
@[simp] theorem getSec_advance (s : State) (n : Chan) (src dst left : Word) (k : Nat) (m : Chan) : getSec (advance n src dst left k s) m = getSec s m := rfl
@[simp] theorem getLife_advance (s : State) (n : Chan) (src dst left : Word) (k : Nat) (m : Chan) : getLife (advance n src dst left k s) m = getLife s m := rfl
@[simp] theorem getBusy_linkEffect (s : State) (n : Chan) (a : Word) (m : Chan) : getBusy (linkEffect n a s) m = getBusy s m := rfl
@[simp] theorem getSec_linkEffect (s : State) (n : Chan) (a : Word) (m : Chan) : getSec (linkEffect n a s) m = getSec s m := rfl
@[simp] theorem getLife_linkEffect (s : State) (n : Chan) (a : Word) (m : Chan) : getLife (linkEffect n a s) m = getLife s m := rfl
@[simp] theorem getSec_enableEffect (s : State) (n : Chan) (m : Chan) : getSec (enableEffect n s) m = getSec s m := rfl
@[simp] theorem getLife_enableEffect (s : State) (n : Chan) (m : Chan) : getLife (enableEffect n s) m = getLife s m := rfl
@[simp] theorem getSec_completeEffect (s : State) (n : Chan) (m : Chan) : getSec (completeEffect n s) m = getSec s m := rfl
@[simp] theorem getLife_completeEffect (s : State) (n : Chan) (m : Chan) : getLife (completeEffect n s) m = getLife s m := rfl

end Sys2Proof.Machine
end

