-- ==== Sys2Proof/Laws/Memory.lean ====
section
/-! SUPPORT. The laws of memory, of byte order and of ranges: read after write, the canonical form, what draining and an
engine's write do to each byte. -/

namespace Sys2Proof

@[simp] theorem leBytes_length (k v : Nat) : (leBytes k v).length = k := by
  induction k generalizing v with
  | zero => rfl
  | succ k ih => simp [leBytes, ih]

@[simp] theorem wordBytes_length (w : Word) : (wordBytes w).length = 4 := by simp [wordBytes]

theorem leValue_leBytes (k v : Nat) : leValue (leBytes k v) = v % 256 ^ k := by
  induction k generalizing v with
  | zero => simp [leBytes, leValue, Nat.mod_one]
  | succ k ih =>
    have h8 : (2 : Nat) ^ 8 = 256 := rfl
    simp only [leBytes, leValue, ih, BitVec.toNat_ofNat, h8]
    rw [Nat.pow_succ, Nat.mul_comm (256 ^ k) 256, Nat.mod_mul]

theorem leValue_lt (bs : List Byte) : leValue bs < 256 ^ bs.length := by
  induction bs with
  | nil => simp [leValue]
  | cons b bs ih =>
    have hb := b.isLt
    simp only [leValue, List.length_cons, Nat.pow_succ]
    omega

theorem leBytes_leValue (bs : List Byte) : leBytes bs.length (leValue bs) = bs := by
  induction bs with
  | nil => rfl
  | cons b bs ih =>
    have hb := b.isLt
    have h1 : (b.toNat + 256 * leValue bs) / 256 = leValue bs := by omega
    have h2 : BitVec.ofNat 8 (b.toNat + 256 * leValue bs) = b := by
      apply BitVec.eq_of_toNat_eq
      simp only [BitVec.toNat_ofNat]
      omega
    simp only [List.length_cons, leBytes, leValue, h1, h2, ih]

@[simp] theorem leWord_wordBytes (w : Word) : leWord (wordBytes w) = w := by
  apply BitVec.eq_of_toNat_eq
  have := w.isLt
  simp only [leWord, wordBytes, leValue_leBytes, BitVec.toNat_ofNat]
  omega

theorem wordBytes_leWord {bs : List Byte} (h : bs.length = 4) : wordBytes (leWord bs) = bs := by
  have h1 := leValue_lt bs
  have h2 : (leWord bs).toNat = leValue bs := by
    simp only [leWord, BitVec.toNat_ofNat]
    rw [h] at h1
    omega
  have h3 := leBytes_leValue bs
  rw [h] at h3
  simp only [wordBytes, h2, h3]

@[simp] theorem descBytes_length (d : Desc) : (descBytes d).length = 24 := by simp [descBytes]

end Sys2Proof

namespace Sys2Proof.Machine

/-! Memory. -/

theorem memRead_memWrite (m : Memory) (a : Nat) (b : Byte) (x : Nat) :
    memRead (memWrite m a b) x = if x = a then .of b else memRead m x := by
  induction m with
  | nil =>
    by_cases h : x = a
    · simp [memWrite, memRead, h]
    · simp [memWrite, memRead, h, Ne.symm h]
  | cons p rest ih =>
    obtain ⟨y, c⟩ := p
    simp only [memWrite]
    split
    · by_cases h : x = a
      · simp [memRead, h]
      · simp [memRead, h, Ne.symm h]
    · split
      · rename_i h1 h2
        subst h2
        by_cases h : x = a
        · simp [memRead, h]
        · simp [memRead, h, Ne.symm h]
      · rename_i h1 h2
        simp only [memRead, ih]
        split
        · rename_i h3
          subst h3
          simp [Ne.symm h2]
        · rfl

theorem Memory.wf_tail {p : Host.Cell} {rest : Memory} (h : Memory.wf (p :: rest) = true) : Memory.wf rest = true := by
  obtain ⟨x, b⟩ := p
  cases rest with
  | nil => rfl
  | cons q rest =>
    obtain ⟨y, c⟩ := q
    simp only [Memory.wf, Bool.and_eq_true] at h
    exact h.2

theorem Memory.wf_cons_iff (x : Nat) (b : Byte) (rest : Memory) :
    Memory.wf ((x, b) :: rest) = true ↔
      x < 2 ^ 32 ∧ Memory.wf rest = true ∧ ∀ p ∈ rest, x < p.1 := by
  induction rest generalizing x b with
  | nil => simp [Memory.wf]
  | cons q rest ih =>
    obtain ⟨y, c⟩ := q
    simp only [Memory.wf, Bool.and_eq_true, decide_eq_true_eq, List.mem_cons, forall_eq_or_imp]
    constructor
    · rintro ⟨h1, h2⟩
      have h3 := (ih y c).1 h2
      exact ⟨by omega, h2, h1, fun p hp => by have := h3.2.2 p hp; omega⟩
    · rintro ⟨_, h2, h3, _⟩
      exact ⟨h3, h2⟩

theorem mem_memWrite {m : Memory} {a : Nat} {b : Byte} {p : Host.Cell} (h : p ∈ memWrite m a b) : p = (a, b) ∨ p ∈ m := by
  induction m with
  | nil => simpa [memWrite] using h
  | cons q rest ih =>
    obtain ⟨y, c⟩ := q
    simp only [memWrite] at h
    split at h
    · simpa using h
    · split at h
      · rcases List.mem_cons.1 h with h | h
        · exact .inl h
        · exact .inr (List.mem_cons_of_mem _ h)
      · rcases List.mem_cons.1 h with h | h
        · exact .inr (h ▸ List.mem_cons_self)
        · rcases ih h with h | h
          · exact .inl h
          · exact .inr (List.mem_cons_of_mem _ h)

/-- A write keeps the canonical form. -/
theorem Memory.wf_memWrite {m : Memory} (h : Memory.wf m = true) {a : Nat} (ha : a < 2 ^ 32) (b : Byte) :
    Memory.wf (memWrite m a b) = true := by
  induction m with
  | nil => simpa [memWrite, Memory.wf] using ha
  | cons q rest ih =>
    obtain ⟨y, c⟩ := q
    have hq := (Memory.wf_cons_iff y c rest).1 h
    simp only [memWrite]
    split
    · rename_i h1
      simp only [Memory.wf, Bool.and_eq_true, decide_eq_true_eq]
      exact ⟨h1, h⟩
    · split
      · rename_i h1 h2
        subst h2
        exact (Memory.wf_cons_iff a b rest).2 hq
      · rename_i h1 h2
        refine (Memory.wf_cons_iff y c _).2 ⟨hq.1, ih hq.2.1, fun p hp => ?_⟩
        rcases mem_memWrite hp with rfl | hp
        · simp only
          omega
        · exact hq.2.2 p hp

theorem memRead_eq_unset {m : Memory} {x : Nat} (h : ∀ p ∈ m, x < p.1) : memRead m x = .unset := by
  induction m with
  | nil => rfl
  | cons q rest ih =>
    obtain ⟨y, c⟩ := q
    have hy := h (y, c) List.mem_cons_self
    have hne : y ≠ x := by
      simp only at hy
      omega
    simp only [memRead, hne, if_false]
    exact ih (fun p hp => h p (List.mem_cons_of_mem _ hp))

/-- Equal memories are equal data: the canonical form is determined by what each address reads as. -/
theorem memory_ext {m m' : Memory} (h : Memory.wf m = true) (h' : Memory.wf m' = true)
    (hr : ∀ x, memRead m x = memRead m' x) : m = m' := by
  induction m generalizing m' with
  | nil =>
    cases m' with
    | nil => rfl
    | cons q rest => simpa [memRead] using hr q.1
  | cons p rest ih =>
    obtain ⟨x, b⟩ := p
    have hp := (Memory.wf_cons_iff x b rest).1 h
    cases m' with
    | nil => simpa [memRead] using hr x
    | cons q rest' =>
      obtain ⟨y, c⟩ := q
      have hq := (Memory.wf_cons_iff y c rest').1 h'
      have hxy : x = y := by
        rcases Nat.lt_trichotomy x y with hlt | heq | hgt
        · have h1 := hr x
          have h2 : memRead ((y, c) :: rest') x = .unset :=
            memRead_eq_unset (fun p hp => by
              rcases List.mem_cons.1 hp with rfl | hp
              · exact hlt
              · have := hq.2.2 p hp
                omega)
          rw [h2] at h1
          simp [memRead] at h1
        · exact heq
        · have h1 := hr y
          have h2 : memRead ((x, b) :: rest) y = .unset :=
            memRead_eq_unset (fun p hp' => by
              rcases List.mem_cons.1 hp' with rfl | hp'
              · exact hgt
              · have := hp.2.2 p hp'
                omega)
          rw [h2] at h1
          simp [memRead] at h1
      subst hxy
      have hbc : b = c := by simpa [memRead] using hr x
      subst hbc
      have hrest : rest = rest' := by
        apply ih hp.2.1 hq.2.1
        intro z
        by_cases hz : x = z
        · subst hz
          rw [memRead_eq_unset hp.2.2, memRead_eq_unset hq.2.2]
        · simpa [memRead, hz] using hr z
      rw [hrest]

theorem memRead_memWriteBytes (m : Memory) (a : Nat) (bs : List Byte) (x : Nat) :
    memRead (memWriteBytes m a bs) x =
      if h : a ≤ x ∧ x < a + bs.length then .of (bs[x - a]'(by omega)) else memRead m x := by
  induction bs generalizing m a with
  | nil =>
    simp [memWriteBytes]
  | cons b bs ih =>
    simp only [memWriteBytes, ih, memRead_memWrite, List.length_cons]
    by_cases h1 : x = a
    · subst h1
      simp
    · by_cases h2 : a + 1 ≤ x ∧ x < a + 1 + bs.length
      · have h3 : a ≤ x ∧ x < a + (bs.length + 1) := by omega
        rw [dif_pos h2, dif_pos h3]
        have h4 : x - a = (x - (a + 1)) + 1 := by omega
        simp [h4]
      · have h3 : ¬ (a ≤ x ∧ x < a + (bs.length + 1)) := by omega
        rw [dif_neg h2, dif_neg h3]
        simp [h1]

/-- Writing bytes keeps the canonical form. -/
theorem Memory.wf_memWriteBytes {m : Memory} (h : Memory.wf m = true) {a : Nat} {bs : List Byte}
    (ha : a + bs.length ≤ 2 ^ 32) : Memory.wf (memWriteBytes m a bs) = true := by
  induction bs generalizing m a with
  | nil => exact h
  | cons b bs ih =>
    simp only [List.length_cons] at ha
    exact ih (Memory.wf_memWrite h (by omega) b) (by omega)

theorem mem_memWriteBytes {m : Memory} {a : Nat} {bs : List Byte} {p : Host.Cell} (h : p ∈ memWriteBytes m a bs) :
    (a ≤ p.1 ∧ p.1 < a + bs.length) ∨ p ∈ m := by
  induction bs generalizing m a with
  | nil => exact .inr h
  | cons b bs ih =>
    simp only [List.length_cons]
    rcases ih h with h | h
    · left
      omega
    · rcases mem_memWrite h with rfl | h
      · left
        simp only
        omega
      · exact .inr h

theorem memWriteBytes_append (m : Memory) (a : Nat) (bs cs : List Byte) :
    memWriteBytes m a (bs ++ cs) = memWriteBytes (memWriteBytes m a bs) (a + bs.length) cs := by
  induction bs generalizing m a with
  | nil => simp [memWriteBytes]
  | cons b bs ih =>
    simp only [List.cons_append, memWriteBytes, ih, List.length_cons]
    congr 1
    omega

/-- What a read of `k` bytes gives. -/
theorem memReadBytes_eq_some {m : Memory} {a k : Nat} {bs : List Byte} :
    memReadBytes m a k = some bs ↔
      bs.length = k ∧ ∀ i (h : i < bs.length), memRead m (a + i) = .of bs[i] := by
  induction k generalizing a bs with
  | zero =>
    simp only [memReadBytes, Option.some.injEq]
    constructor
    · rintro rfl
      simp
    · rintro ⟨h, _⟩
      exact (List.eq_nil_of_length_eq_zero h).symm
  | succ k ih =>
    simp only [memReadBytes]
    cases hm : memRead m a with
    | unset =>
      constructor
      · intro h
        simp at h
      · rintro ⟨h1, h2⟩
        have h3 := h2 0 (by omega)
        simp [hm] at h3
    | of b =>
      simp only [Option.map_eq_some_iff]
      constructor
      · rintro ⟨cs, h1, rfl⟩
        have h2 := ih.1 h1
        refine ⟨by simp [h2.1], fun i hi => ?_⟩
        cases i with
        | zero => simpa using hm
        | succ i =>
          have h3 := h2.2 i (by simpa using hi)
          simp only [List.getElem_cons_succ]
          rw [← h3]
          congr 1
          omega
      · rintro ⟨h1, h2⟩
        cases bs with
        | nil => simp at h1
        | cons c cs =>
          have h3 := h2 0 (by simp)
          simp only [Nat.add_zero, hm, List.getElem_cons_zero, Val.of.injEq] at h3
          subst h3
          refine ⟨cs, ih.2 ⟨by simpa using h1, fun i hi => ?_⟩, rfl⟩
          have h4 := h2 (i + 1) (by simpa using hi)
          simp only [List.getElem_cons_succ] at h4
          rw [← h4]
          congr 1
          omega

/-! Ranges. -/

theorem rangeRam_iff (c : Config) (a k : Nat) : rangeRam c a k = true ↔ ∀ i < k, isRam c (a + i) = true := by
  induction k with
  | zero => simp [rangeRam]
  | succ k ih =>
    simp only [rangeRam, Bool.and_eq_true, ih]
    constructor
    · rintro ⟨h1, h2⟩ i hi
      rcases Nat.lt_succ_iff_lt_or_eq.1 hi with h | h
      · exact h2 i h
      · rw [h]
        exact h1
    · exact fun h => ⟨h k (by omega), fun i hi => h i (by omega)⟩

theorem isRam_lt {c : Config} {a : Nat} (h : isRam c a = true) : a < 2 ^ 32 := by
  simp only [isRam, Bool.and_eq_true, decide_eq_true_eq] at h
  exact h.1

theorem rangeRam_le {c : Config} {a k : Nat} (h : rangeRam c a k = true) (hk : 0 < k) : a + k ≤ 2 ^ 32 := by
  have h1 := isRam_lt ((rangeRam_iff c a k).1 h (k - 1) (by omega))
  omega

/-- A part of a range of RAM is RAM. -/
theorem rangeRam_part {c : Config} {a k b l : Nat} (h : rangeRam c a k = true) (h1 : a ≤ b) (h2 : b + l ≤ a + k) :
    rangeRam c b l = true := by
  rw [rangeRam_iff] at h ⊢
  intro i hi
  have h3 := h (b - a + i) (by omega)
  have h4 : a + (b - a + i) = b + i := by omega
  rwa [h4] at h3

theorem overlaps_eq_true (a k b l : Nat) : overlaps a k b l = true ↔ ∃ x, a ≤ x ∧ x < a + k ∧ b ≤ x ∧ x < b + l := by
  simp only [overlaps, Bool.and_eq_true, decide_eq_true_eq]
  constructor
  · rintro ⟨⟨⟨h1, h2⟩, h3⟩, h4⟩
    exact ⟨max a b, by omega, by omega, by omega, by omega⟩
  · rintro ⟨x, h1, h2, h3, h4⟩
    omega

theorem overlaps_eq_false (a k b l : Nat) :
    overlaps a k b l = false ↔ ∀ x, a ≤ x → x < a + k → b ≤ x → ¬ x < b + l := by
  rw [← Bool.not_eq_true, overlaps_eq_true]
  constructor
  · intro h x h1 h2 h3 h4
    exact h ⟨x, h1, h2, h3, h4⟩
  · rintro h ⟨x, h1, h2, h3, h4⟩
    exact h x h1 h2 h3 h4

theorem overlaps_comm (a k b l : Nat) : overlaps a k b l = overlaps b l a k := by
  rw [Bool.eq_iff_iff, overlaps_eq_true, overlaps_eq_true]
  constructor <;> rintro ⟨x, h1, h2, h3, h4⟩ <;> exact ⟨x, h3, h4, h1, h2⟩

/-! Pending stores. -/

theorem forwarded_append (sb : List PendingStore) (p : PendingStore) (x : Nat) :
    forwarded (sb ++ [p]) x = if storeCovers p x then some (storeByte p x) else forwarded sb x := by
  simp only [forwarded, List.reverse_append, List.reverse_cons, List.reverse_nil, List.nil_append, List.cons_append,
    List.find?_cons]
  cases storeCovers p x <;> simp

theorem memRead_storeBytes (m : Memory) (p : PendingStore) (x : Nat) :
    memRead (memWriteBytes m p.addr p.bytes) x = if storeCovers p x then .of (storeByte p x) else memRead m x := by
  rw [memRead_memWriteBytes]
  simp only [storeCovers, Bool.and_eq_true, decide_eq_true_eq]
  split
  · rename_i h
    have h1 : x - p.addr < p.bytes.length := by omega
    simp [storeByte, List.getElem?_eq_getElem h1]
  · rfl

theorem drainAll_append (m : Memory) (sb tb : List PendingStore) : drainAll m (sb ++ tb) = drainAll (drainAll m sb) tb := by
  induction sb generalizing m with
  | nil => rfl
  | cons p sb ih => simp [drainAll, ih]

/-- Draining everything leaves at each address the byte of the latest pending store, else what memory held. -/
theorem memRead_drainAll (m : Memory) (sb : List PendingStore) (x : Nat) :
    memRead (drainAll m sb) x = match forwarded sb x with
      | some v => .of v
      | none => memRead m x := by
  induction sb using List.reverseRecOn with
  | nil => rfl
  | append_singleton sb p ih =>
    rw [drainAll_append, forwarded_append]
    simp only [drainAll, memRead_storeBytes]
    split <;> simp_all

theorem Memory.wf_drainAll {m : Memory} (h : Memory.wf m = true) {sb : List PendingStore}
    (hs : ∀ p ∈ sb, p.addr + p.bytes.length ≤ 2 ^ 32) : Memory.wf (drainAll m sb) = true := by
  induction sb generalizing m with
  | nil => exact h
  | cons p sb ih =>
    exact ih (Memory.wf_memWriteBytes h (hs p List.mem_cons_self)) (fun q hq => hs q (List.mem_cons_of_mem _ hq))

theorem mem_drainAll {m : Memory} {sb : List PendingStore} {q : Host.Cell} (h : q ∈ drainAll m sb) :
    (∃ p ∈ sb, p.addr ≤ q.1 ∧ q.1 < p.addr + p.bytes.length) ∨ q ∈ m := by
  induction sb generalizing m with
  | nil => exact .inr h
  | cons p sb ih =>
    rcases ih h with ⟨r, hr, h⟩ | h
    · exact .inl ⟨r, List.mem_cons_of_mem _ hr, h⟩
    · rcases mem_memWriteBytes h with h | h
      · exact .inl ⟨p, List.mem_cons_self, h⟩
      · exact .inr h

/-! The stale sets and an engine's write. -/

theorem mem_staleAdd (st : List (Nat × Val Byte)) (a : Nat) (v : Val Byte) (p : Nat × Val Byte) :
    p ∈ staleAdd st a v ↔ p = (a, v) ∨ p ∈ st := by
  unfold staleAdd
  split
  · rename_i h
    constructor
    · exact .inr
    · rintro (rfl | h')
      · exact h
      · exact h'
  · simp

theorem mem_staleAt (st : List (Nat × Val Byte)) (a : Nat) (v : Val Byte) : v ∈ staleAt st a ↔ (a, v) ∈ st := by
  simp only [staleAt, List.mem_map, List.mem_filter, beq_iff_eq]
  constructor
  · rintro ⟨⟨b, w⟩, ⟨h1, h2⟩, h3⟩
    simp only at h2 h3
    subst h2
    subst h3
    exact h1
  · exact fun h => ⟨(a, v), ⟨h, rfl⟩, rfl⟩

theorem mem_staleClear (st : List (Nat × Val Byte)) (a k : Nat) (p : Nat × Val Byte) :
    p ∈ staleClear st a k ↔ p ∈ st ∧ ¬ (a ≤ p.1 ∧ p.1 < a + k) := by
  simp only [staleClear, List.mem_filter, Bool.not_eq_true', Bool.and_eq_false_iff, decide_eq_false_iff_not,
    not_and_or]

/-- An engine's write puts the bytes in memory, and changes nothing else but the stale sets. -/
theorem engineWrite_eq (s : State) (a : Nat) (bs : List Byte) :
    engineWrite s a bs =
      { s with
        mem := memWriteBytes s.mem a bs
        cpu := { s.cpu with stale := (engineWrite s a bs).cpu.stale } } := by
  induction bs generalizing s a with
  | nil => rfl
  | cons b bs ih =>
    simp only [engineWrite, memWriteBytes]
    rw [ih]

@[simp] theorem engineWrite_mem (s : State) (a : Nat) (bs : List Byte) :
    (engineWrite s a bs).mem = memWriteBytes s.mem a bs := by rw [engineWrite_eq]
@[simp] theorem engineWrite_config (s : State) (a : Nat) (bs : List Byte) : (engineWrite s a bs).config = s.config := by
  rw [engineWrite_eq]
@[simp] theorem engineWrite_ch (s : State) (a : Nat) (bs : List Byte) : (engineWrite s a bs).ch = s.ch := by
  rw [engineWrite_eq]
@[simp] theorem engineWrite_blk (s : State) (a : Nat) (bs : List Byte) : (engineWrite s a bs).blk = s.blk := by
  rw [engineWrite_eq]
@[simp] theorem engineWrite_life (s : State) (a : Nat) (bs : List Byte) : (engineWrite s a bs).life = s.life := by
  rw [engineWrite_eq]
@[simp] theorem engineWrite_pinned (s : State) (a : Nat) (bs : List Byte) : (engineWrite s a bs).pinned = s.pinned := by
  rw [engineWrite_eq]
@[simp] theorem engineWrite_sched (s : State) (a : Nat) (bs : List Byte) : (engineWrite s a bs).sched = s.sched := by
  rw [engineWrite_eq]
@[simp] theorem engineWrite_tick (s : State) (a : Nat) (bs : List Byte) : (engineWrite s a bs).tick = s.tick := by
  rw [engineWrite_eq]
@[simp] theorem engineWrite_sb (s : State) (a : Nat) (bs : List Byte) : (engineWrite s a bs).cpu.sb = s.cpu.sb := by
  rw [engineWrite_eq]
@[simp] theorem engineWrite_run (s : State) (a : Nat) (bs : List Byte) : (engineWrite s a bs).cpu.run = s.cpu.run := by
  rw [engineWrite_eq]
@[simp] theorem engineWrite_prog (s : State) (a : Nat) (bs : List Byte) : (engineWrite s a bs).cpu.prog = s.cpu.prog := by
  rw [engineWrite_eq]
@[simp] theorem engineWrite_doing (s : State) (a : Nat) (bs : List Byte) : (engineWrite s a bs).cpu.doing = s.cpu.doing := by
  rw [engineWrite_eq]
@[simp] theorem engineWrite_ret (s : State) (a : Nat) (bs : List Byte) : (engineWrite s a bs).cpu.ret = s.cpu.ret := by
  rw [engineWrite_eq]
@[simp] theorem getCh_engineWrite (s : State) (a : Nat) (bs : List Byte) (n : Chan) :
    getCh (engineWrite s a bs) n = getCh s n := getCh_congr (by simp) n
@[simp] theorem getBusy_engineWrite (s : State) (a : Nat) (bs : List Byte) (n : Chan) :
    getBusy (engineWrite s a bs) n = getBusy s n := getBusy_congr (by simp) n
@[simp] theorem getSec_engineWrite (s : State) (a : Nat) (bs : List Byte) (n : Chan) :
    getSec (engineWrite s a bs) n = getSec s n := getSec_congr (by simp) n
@[simp] theorem getLife_engineWrite (s : State) (a : Nat) (bs : List Byte) (n : Chan) :
    getLife (engineWrite s a bs) n = getLife s n := getLife_congr (by simp) n

/-- The old byte of every address written goes to its stale set, and no other set changes. -/
theorem mem_engineWrite_stale (s : State) (a : Nat) (bs : List Byte) (x : Nat) (v : Val Byte) :
    (x, v) ∈ (engineWrite s a bs).cpu.stale ↔
      (x, v) ∈ s.cpu.stale ∨ (a ≤ x ∧ x < a + bs.length ∧ v = memRead s.mem x) := by
  induction bs generalizing s a with
  | nil =>
    simp only [engineWrite, List.length_nil]
    constructor
    · exact .inl
    · rintro (h | h)
      · exact h
      · omega
  | cons b bs ih =>
    simp only [engineWrite, ih, mem_staleAdd, memRead_memWrite, List.length_cons, Prod.mk.injEq]
    constructor
    · rintro ((⟨rfl, rfl⟩ | h) | ⟨h1, h2, h3⟩)
      · exact .inr ⟨by omega, by omega, rfl⟩
      · exact .inl h
      · have : x ≠ a := by omega
        simp only [this, if_false] at h3
        exact .inr ⟨by omega, by omega, h3⟩
    · rintro (h | ⟨h1, h2, h3⟩)
      · exact .inl (.inr h)
      · by_cases hx : x = a
        · exact .inl (.inl ⟨hx, hx ▸ h3⟩)
        · refine .inr ⟨by omega, by omega, ?_⟩
          simp [hx, h3]

theorem engineWrite_append (s : State) (a : Nat) (bs cs : List Byte) :
    engineWrite s a (bs ++ cs) = engineWrite (engineWrite s a bs) (a + bs.length) cs := by
  induction bs generalizing s a with
  | nil => simp [engineWrite]
  | cons b bs ih =>
    simp only [List.cons_append, engineWrite, ih, List.length_cons]
    congr 1
    omega

end Sys2Proof.Machine
end

