-- ==== Sys2Proof/Laws/Decode.lean ====
section
/-! SUPPORT. The laws of the decoder and the encoder: width codes, the config word, and a descriptor's 24 bytes. -/

namespace Sys2Proof

theorem Width.bytes_pos (w : Width) : 0 < w.bytes := by cases w <;> decide

/-! A layout that describes a config word (30_encoding.md R94, R95). -/

/-- What `cfgLayoutWf` says of the fields: each ends inside 32 bits, and any two are apart. -/
structure CfgApart (l : CfgLayout) : Prop where
  end0 : l.srcDrqAt + 5 ≤ 32
  end1 : l.srcModeAt + 1 ≤ 32
  end2 : l.srcBurstAt + 2 ≤ 32
  end3 : l.srcWidthAt + 2 ≤ 32
  end4 : l.dstDrqAt + 5 ≤ 32
  end5 : l.dstModeAt + 1 ≤ 32
  end6 : l.dstBurstAt + 2 ≤ 32
  end7 : l.dstWidthAt + 2 ≤ 32
  apart01 : l.srcDrqAt + 5 ≤ l.srcModeAt ∨ l.srcModeAt + 1 ≤ l.srcDrqAt
  apart02 : l.srcDrqAt + 5 ≤ l.srcBurstAt ∨ l.srcBurstAt + 2 ≤ l.srcDrqAt
  apart03 : l.srcDrqAt + 5 ≤ l.srcWidthAt ∨ l.srcWidthAt + 2 ≤ l.srcDrqAt
  apart04 : l.srcDrqAt + 5 ≤ l.dstDrqAt ∨ l.dstDrqAt + 5 ≤ l.srcDrqAt
  apart05 : l.srcDrqAt + 5 ≤ l.dstModeAt ∨ l.dstModeAt + 1 ≤ l.srcDrqAt
  apart06 : l.srcDrqAt + 5 ≤ l.dstBurstAt ∨ l.dstBurstAt + 2 ≤ l.srcDrqAt
  apart07 : l.srcDrqAt + 5 ≤ l.dstWidthAt ∨ l.dstWidthAt + 2 ≤ l.srcDrqAt
  apart12 : l.srcModeAt + 1 ≤ l.srcBurstAt ∨ l.srcBurstAt + 2 ≤ l.srcModeAt
  apart13 : l.srcModeAt + 1 ≤ l.srcWidthAt ∨ l.srcWidthAt + 2 ≤ l.srcModeAt
  apart14 : l.srcModeAt + 1 ≤ l.dstDrqAt ∨ l.dstDrqAt + 5 ≤ l.srcModeAt
  apart15 : l.srcModeAt + 1 ≤ l.dstModeAt ∨ l.dstModeAt + 1 ≤ l.srcModeAt
  apart16 : l.srcModeAt + 1 ≤ l.dstBurstAt ∨ l.dstBurstAt + 2 ≤ l.srcModeAt
  apart17 : l.srcModeAt + 1 ≤ l.dstWidthAt ∨ l.dstWidthAt + 2 ≤ l.srcModeAt
  apart23 : l.srcBurstAt + 2 ≤ l.srcWidthAt ∨ l.srcWidthAt + 2 ≤ l.srcBurstAt
  apart24 : l.srcBurstAt + 2 ≤ l.dstDrqAt ∨ l.dstDrqAt + 5 ≤ l.srcBurstAt
  apart25 : l.srcBurstAt + 2 ≤ l.dstModeAt ∨ l.dstModeAt + 1 ≤ l.srcBurstAt
  apart26 : l.srcBurstAt + 2 ≤ l.dstBurstAt ∨ l.dstBurstAt + 2 ≤ l.srcBurstAt
  apart27 : l.srcBurstAt + 2 ≤ l.dstWidthAt ∨ l.dstWidthAt + 2 ≤ l.srcBurstAt
  apart34 : l.srcWidthAt + 2 ≤ l.dstDrqAt ∨ l.dstDrqAt + 5 ≤ l.srcWidthAt
  apart35 : l.srcWidthAt + 2 ≤ l.dstModeAt ∨ l.dstModeAt + 1 ≤ l.srcWidthAt
  apart36 : l.srcWidthAt + 2 ≤ l.dstBurstAt ∨ l.dstBurstAt + 2 ≤ l.srcWidthAt
  apart37 : l.srcWidthAt + 2 ≤ l.dstWidthAt ∨ l.dstWidthAt + 2 ≤ l.srcWidthAt
  apart45 : l.dstDrqAt + 5 ≤ l.dstModeAt ∨ l.dstModeAt + 1 ≤ l.dstDrqAt
  apart46 : l.dstDrqAt + 5 ≤ l.dstBurstAt ∨ l.dstBurstAt + 2 ≤ l.dstDrqAt
  apart47 : l.dstDrqAt + 5 ≤ l.dstWidthAt ∨ l.dstWidthAt + 2 ≤ l.dstDrqAt
  apart56 : l.dstModeAt + 1 ≤ l.dstBurstAt ∨ l.dstBurstAt + 2 ≤ l.dstModeAt
  apart57 : l.dstModeAt + 1 ≤ l.dstWidthAt ∨ l.dstWidthAt + 2 ≤ l.dstModeAt
  apart67 : l.dstBurstAt + 2 ≤ l.dstWidthAt ∨ l.dstWidthAt + 2 ≤ l.dstBurstAt

theorem cfgLayoutWf_iff {l : CfgLayout} :
    cfgLayoutWf l = true ↔ CfgApart l ∧ [l.bits8, l.bits16, l.bits32, l.bits64].Pairwise (· ≠ ·) := by
  simp only [cfgLayoutWf, cfgFields, Bool.and_eq_true, decide_eq_true_eq, List.all_cons, List.all_nil, List.pairwise_cons,
    List.mem_cons, List.not_mem_nil, or_false, forall_eq_or_imp, forall_eq, Bool.and_true, List.Pairwise.nil, and_true,
    implies_true, false_imp_iff]
  constructor
  · rintro ⟨⟨⟨e0, e1, e2, e3, e4, e5, e6, e7⟩, ⟨a01, a02, a03, a04, a05, a06, a07⟩, ⟨a12, a13, a14, a15, a16, a17⟩,
      ⟨a23, a24, a25, a26, a27⟩, ⟨a34, a35, a36, a37⟩, ⟨a45, a46, a47⟩, ⟨a56, a57⟩, a67⟩, c⟩
    exact ⟨⟨e0, e1, e2, e3, e4, e5, e6, e7, a01, a02, a03, a04, a05, a06, a07, a12, a13, a14, a15, a16, a17, a23, a24,
      a25, a26, a27, a34, a35, a36, a37, a45, a46, a47, a56, a57, a67⟩, c⟩
  · rintro ⟨⟨e0, e1, e2, e3, e4, e5, e6, e7, a01, a02, a03, a04, a05, a06, a07, a12, a13, a14, a15, a16, a17, a23, a24,
      a25, a26, a27, a34, a35, a36, a37, a45, a46, a47, a56, a57, a67⟩, c⟩
    exact ⟨⟨⟨e0, e1, e2, e3, e4, e5, e6, e7⟩, ⟨a01, a02, a03, a04, a05, a06, a07⟩, ⟨a12, a13, a14, a15, a16, a17⟩,
      ⟨a23, a24, a25, a26, a27⟩, ⟨a34, a35, a36, a37⟩, ⟨a45, a46, a47⟩, ⟨a56, a57⟩, a67⟩, c⟩

/-- The default layout of 30_encoding.md R94 describes a config word. -/
theorem cfgLayoutWf_default : cfgLayoutWf {} = true := by decide

theorem widthOfCode_widthCode {l : CfgLayout} (h : cfgLayoutWf l = true) (w : Width) : widthOfCode l (widthCode l w) = w := by
  have h := (cfgLayoutWf_iff.1 h).2
  simp only [List.pairwise_cons, List.mem_cons, List.not_mem_nil, or_false, forall_eq_or_imp, forall_eq] at h
  obtain ⟨⟨h1, h2, h3⟩, ⟨h4, h5⟩, h6, _⟩ := h
  cases w <;> simp [widthOfCode, widthCode, h1.symm, h2.symm, h3.symm, h4.symm, h5.symm, h6.symm]

/-- Four different codes of two bits are all of them (30_encoding.md R95: none is reserved). -/
theorem widthCode_widthOfCode {l : CfgLayout} (h : cfgLayoutWf l = true) (c : BitVec 2) :
    widthCode l (widthOfCode l c) = c := by
  have h := (cfgLayoutWf_iff.1 h).2
  have all : ∀ a b c d x : BitVec 2, [a, b, c, d].Pairwise (· ≠ ·) → x = a ∨ x = b ∨ x = c ∨ x = d := by decide
  rcases all _ _ _ _ c h with rfl | rfl | rfl | rfl <;> simp only [widthOfCode]
  all_goals repeat' split
  all_goals first | rfl | simp_all

/-- Under the default codes an element has `2 ^ code` bytes (30_encoding.md R95). -/
theorem bytes_widthOfCode (c : BitVec 2) : (widthOfCode {} c).bytes = 2 ^ c.toNat := by
  revert c
  decide

/-! Bits of a word put together from fields. -/

theorem shifted_bit {k : Nat} (x : BitVec k) (b i : Nat) (hi : i < 32) :
    (x.setWidth 32 <<< b).getLsbD i = (decide (b ≤ i) && x.getLsbD (i - b)) := by
  simp only [BitVec.getLsbD_shiftLeft, BitVec.getLsbD_setWidth, hi, decide_true, Bool.true_and]
  by_cases h : b ≤ i
  · simp [h, show ¬ i < b by omega, show i - b < 32 by omega]
  · simp [h, show i < b by omega]

/-- A field has no bit outside its place. -/
theorem shifted_off {k : Nat} (x : BitVec k) {b i : Nat} (h : i < b ∨ b + k ≤ i) :
    (x.setWidth 32 <<< b).getLsbD i = false := by
  by_cases hi : i < 32
  · rw [shifted_bit x b i hi]
    rcases h with h | h
    · simp [show ¬ b ≤ i by omega]
    · rw [BitVec.getLsbD_of_ge x (i - b) (by omega), Bool.and_false]
  · exact BitVec.getLsbD_of_ge _ _ (by omega)

/-- A field's bits are in its place. -/
theorem shifted_on {k : Nat} (x : BitVec k) {b j : Nat} (hj : j < k) (hb : b + k ≤ 32) :
    (x.setWidth 32 <<< b).getLsbD (b + j) = x.getLsbD j := by
  rw [shifted_bit x b _ (by omega)]
  simp

/-- A word's field put back in its place is the word inside that place and 0 outside. -/
theorem shifted_extract (w : Word) (b k i : Nat) (hi : i < 32) :
    ((w.extractLsb' b k).setWidth 32 <<< b).getLsbD i = (decide (b ≤ i) && decide (i < b + k) && w.getLsbD i) := by
  rw [shifted_bit _ b i hi]
  by_cases h : b ≤ i
  · by_cases h' : i < b + k
    · simp [h, h', show i - b < k by omega, show b + (i - b) = i by omega]
    · simp [BitVec.getLsbD_extractLsb', h, h', show ¬ i - b < k by omega]
  · simp [h]

theorem apart_left {a k b m j : Nat} (h : a + k ≤ b ∨ b + m ≤ a) (hj : j < k) : a + j < b ∨ b + m ≤ a + j := by omega

theorem apart_right {a k b m j : Nat} (h : a + k ≤ b ∨ b + m ≤ a) (hj : j < m) : b + j < a ∨ a + k ≤ b + j := by omega

theorem outside {a k i : Nat} (h : ¬ (a ≤ i ∧ i < a + k)) : i < a ∨ a + k ≤ i := by omega

/-- A word's field from its bits. -/
theorem extract_eq {k : Nat} {w : Word} {b : Nat} {x : BitVec k} (h : ∀ j, j < k → w.getLsbD (b + j) = x.getLsbD j) :
    w.extractLsb' b k = x := by
  refine BitVec.eq_of_getLsbD_eq fun j hj => ?_
  rw [BitVec.getLsbD_extractLsb', h j hj]
  simp [hj]

/-- The fields of a config word put together (30_encoding.md R94), and its reserved bits. -/
theorem configWord_fields {l : CfgLayout} (h : CfgApart l) (srcDrq : BitVec 5) (srcMode : BitVec 1) (sb ws : BitVec 2)
    (dstDrq : BitVec 5) (dstMode : BitVec 1) (db wd : BitVec 2) :
    let w := configWord l srcDrq srcMode sb ws dstDrq dstMode db wd
    cfgSrcDrq l w = srcDrq ∧ cfgSrcMode l w = srcMode ∧ cfgSrcBurst l w = sb ∧ cfgSrcWidth l w = ws ∧
    cfgDstDrq l w = dstDrq ∧ cfgDstMode l w = dstMode ∧ cfgDstBurst l w = db ∧ cfgDstWidth l w = wd ∧
    cfgReservedClear l w = true := by
  refine ⟨extract_eq fun j hj => ?_, extract_eq fun j hj => ?_, extract_eq fun j hj => ?_, extract_eq fun j hj => ?_,
    extract_eq fun j hj => ?_, extract_eq fun j hj => ?_, extract_eq fun j hj => ?_, extract_eq fun j hj => ?_, ?_⟩
  · simp only [configWord, BitVec.getLsbD_or]
    rw [shifted_on _ hj h.end0, shifted_off _ (apart_left h.apart01 hj), shifted_off _ (apart_left h.apart02 hj), shifted_off _ (apart_left h.apart03 hj),
      shifted_off _ (apart_left h.apart04 hj), shifted_off _ (apart_left h.apart05 hj), shifted_off _ (apart_left h.apart06 hj), shifted_off _ (apart_left h.apart07 hj)]
    simp
  · simp only [configWord, BitVec.getLsbD_or]
    rw [shifted_off _ (apart_right h.apart01 hj), shifted_on _ hj h.end1, shifted_off _ (apart_left h.apart12 hj), shifted_off _ (apart_left h.apart13 hj),
      shifted_off _ (apart_left h.apart14 hj), shifted_off _ (apart_left h.apart15 hj), shifted_off _ (apart_left h.apart16 hj), shifted_off _ (apart_left h.apart17 hj)]
    simp
  · simp only [configWord, BitVec.getLsbD_or]
    rw [shifted_off _ (apart_right h.apart02 hj), shifted_off _ (apart_right h.apart12 hj), shifted_on _ hj h.end2, shifted_off _ (apart_left h.apart23 hj),
      shifted_off _ (apart_left h.apart24 hj), shifted_off _ (apart_left h.apart25 hj), shifted_off _ (apart_left h.apart26 hj), shifted_off _ (apart_left h.apart27 hj)]
    simp
  · simp only [configWord, BitVec.getLsbD_or]
    rw [shifted_off _ (apart_right h.apart03 hj), shifted_off _ (apart_right h.apart13 hj), shifted_off _ (apart_right h.apart23 hj), shifted_on _ hj h.end3,
      shifted_off _ (apart_left h.apart34 hj), shifted_off _ (apart_left h.apart35 hj), shifted_off _ (apart_left h.apart36 hj), shifted_off _ (apart_left h.apart37 hj)]
    simp
  · simp only [configWord, BitVec.getLsbD_or]
    rw [shifted_off _ (apart_right h.apart04 hj), shifted_off _ (apart_right h.apart14 hj), shifted_off _ (apart_right h.apart24 hj), shifted_off _ (apart_right h.apart34 hj),
      shifted_on _ hj h.end4, shifted_off _ (apart_left h.apart45 hj), shifted_off _ (apart_left h.apart46 hj), shifted_off _ (apart_left h.apart47 hj)]
    simp
  · simp only [configWord, BitVec.getLsbD_or]
    rw [shifted_off _ (apart_right h.apart05 hj), shifted_off _ (apart_right h.apart15 hj), shifted_off _ (apart_right h.apart25 hj), shifted_off _ (apart_right h.apart35 hj),
      shifted_off _ (apart_right h.apart45 hj), shifted_on _ hj h.end5, shifted_off _ (apart_left h.apart56 hj), shifted_off _ (apart_left h.apart57 hj)]
    simp
  · simp only [configWord, BitVec.getLsbD_or]
    rw [shifted_off _ (apart_right h.apart06 hj), shifted_off _ (apart_right h.apart16 hj), shifted_off _ (apart_right h.apart26 hj), shifted_off _ (apart_right h.apart36 hj),
      shifted_off _ (apart_right h.apart46 hj), shifted_off _ (apart_right h.apart56 hj), shifted_on _ hj h.end6, shifted_off _ (apart_left h.apart67 hj)]
    simp
  · simp only [configWord, BitVec.getLsbD_or]
    rw [shifted_off _ (apart_right h.apart07 hj), shifted_off _ (apart_right h.apart17 hj), shifted_off _ (apart_right h.apart27 hj), shifted_off _ (apart_right h.apart37 hj),
      shifted_off _ (apart_right h.apart47 hj), shifted_off _ (apart_right h.apart57 hj), shifted_off _ (apart_right h.apart67 hj), shifted_on _ hj h.end7]
    simp
  · simp only [cfgReservedClear, List.all_eq_true, List.mem_range, Bool.not_eq_true', Bool.and_eq_false_iff]
    intro i _
    cases hr : cfgReservedBit l i with
    | false => exact .inl rfl
    | true =>
      right
      simp only [cfgReservedBit, cfgFields, List.all_cons, List.all_nil, Bool.and_true, Bool.and_eq_true, Bool.or_eq_true,
        decide_eq_true_eq] at hr
      obtain ⟨h0, h1, h2, h3, h4, h5, h6, h7⟩ := hr
      simp only [configWord, BitVec.getLsbD_or]
      rw [shifted_off _ h0, shifted_off _ h1, shifted_off _ h2, shifted_off _ h3, shifted_off _ h4, shifted_off _ h5,
        shifted_off _ h6, shifted_off _ h7]
      rfl

/-- A word whose reserved bits are 0 is its fields put together. -/
theorem configWord_of_fields {l : CfgLayout} {w : Word} (h : cfgReservedClear l w = true) :
    configWord l (cfgSrcDrq l w) (cfgSrcMode l w) (cfgSrcBurst l w) (cfgSrcWidth l w) (cfgDstDrq l w) (cfgDstMode l w)
      (cfgDstBurst l w) (cfgDstWidth l w) = w := by
  refine BitVec.eq_of_getLsbD_eq fun i hi => ?_
  simp only [configWord, cfgSrcDrq, cfgSrcMode, cfgSrcBurst, cfgSrcWidth, cfgDstDrq, cfgDstMode, cfgDstBurst, cfgDstWidth,
    BitVec.getLsbD_or, shifted_extract _ _ _ _ hi]
  simp only [cfgReservedClear, List.all_eq_true, List.mem_range] at h
  have h := h i hi
  cases hw : w.getLsbD i with
  | false => simp
  | true =>
    have hr : cfgReservedBit l i = false := by simpa [hw] using h
    simp only [Bool.and_true]
    by_contra hn
    simp only [Bool.or_eq_true, Bool.and_eq_true, decide_eq_true_eq, not_or] at hn
    obtain ⟨⟨⟨⟨⟨⟨⟨h0, h1⟩, h2⟩, h3⟩, h4⟩, h5⟩, h6⟩, h7⟩ := hn
    have : cfgReservedBit l i = true := by
      simp only [cfgReservedBit, cfgFields, List.all_cons, List.all_nil, Bool.and_true, Bool.and_eq_true, Bool.or_eq_true,
        decide_eq_true_eq]
      exact ⟨outside h0, outside h1, outside h2, outside h3, outside h4, outside h5, outside h6, outside h7⟩
    rw [hr] at this
    cases this

/-! The forms. -/

theorem m2mInstr_inj {n m : Chan} {ws wd ws' wd' : Width} {sb db sb' db' : BitVec 2}
    (h : m2mInstr n ws wd sb db = m2mInstr m ws' wd' sb' db') :
    n = m ∧ ws = ws' ∧ wd = wd' ∧ sb = sb' ∧ db = db' := by
  cases ws <;> cases wd <;> cases ws' <;> cases wd' <;> simp_all [m2mInstr]

theorem descriptorChan_m2mInstr (n : Chan) (ws wd : Width) (sb db : BitVec 2) :
    descriptorChan (m2mInstr n ws wd sb db) = some n := by cases ws <;> cases wd <;> rfl

theorem encode_m2mInstr (l : CfgLayout) (m : RegMap) (n : Chan) (ws wd : Width) (sb db : BitVec 2) :
    encode l m (m2mInstr n ws wd sb db) = .bytes (wordBytes (m2mWord l ws wd sb db)) := by cases ws <;> cases wd <;> rfl

/-- When a config word is an admitted form, and which (30_encoding.md R101 (a) to (c), R102). -/
theorem decodeConfig_eq_ok {l : CfgLayout} {n : Chan} {w : Word} {i : Instr} :
    decodeConfig l n w = .ok i ↔
      (cfgSrcDrq l w = l.drqMemory ∧ cfgDstDrq l w = l.drqMemory ∧ cfgSrcMode l w = l.linear ∧
        cfgDstMode l w = l.linear ∧ cfgReservedClear l w = true) ∧
      i = m2mInstr n (widthOfCode l (cfgSrcWidth l w)) (widthOfCode l (cfgDstWidth l w)) (cfgSrcBurst l w)
        (cfgDstBurst l w) := by
  unfold decodeConfig
  grind

/-- Under a layout that describes a config word, the word a form encodes to decodes to the form. -/
theorem decodeConfig_m2mWord {l : CfgLayout} (h : cfgLayoutWf l = true) (n : Chan) (ws wd : Width) (sb db : BitVec 2) :
    decodeConfig l n (m2mWord l ws wd sb db) = .ok (m2mInstr n ws wd sb db) := by
  obtain ⟨h1, h2, h3, h4, h5, h6, h7, h8, h9⟩ := configWord_fields (cfgLayoutWf_iff.1 h).1 l.drqMemory l.linear sb
    (widthCode l ws) l.drqMemory l.linear db (widthCode l wd)
  refine decodeConfig_eq_ok.2 ⟨⟨h1, h5, h2, h6, h9⟩, ?_⟩
  rw [m2mWord, h3, h4, h7, h8, widthOfCode_widthCode h, widthOfCode_widthCode h]

/-- And a word that decodes to a form is the word of that form: no bit is dropped. -/
theorem m2mWord_of_decodeConfig {l : CfgLayout} (h : cfgLayoutWf l = true) {n : Chan} {w : Word} {ws wd : Width}
    {sb db : BitVec 2} (hd : decodeConfig l n w = .ok (m2mInstr n ws wd sb db)) : w = m2mWord l ws wd sb db := by
  obtain ⟨⟨h1, h2, h3, h4, h5⟩, hi⟩ := decodeConfig_eq_ok.1 hd
  obtain ⟨_, rfl, rfl, rfl, rfl⟩ := m2mInstr_inj hi
  rw [m2mWord, widthCode_widthOfCode h, widthCode_widthOfCode h]
  have hw := configWord_of_fields h5
  rw [h1, h2, h3, h4] at hw
  exact hw.symm

/-- The record that the 24 bytes of a descriptor hold (30_encoding.md R90). -/
theorem descOfBytes_descBytes (d : Desc) : descOfBytes (descBytes d) = d := by
  obtain ⟨c, x, y, l, p, t⟩ := d
  have four : ∀ w : Word, ∃ b0 b1 b2 b3, wordBytes w = [b0, b1, b2, b3] := fun w => ⟨_, _, _, _, rfl⟩
  have hc := leWord_wordBytes c
  have hx := leWord_wordBytes x
  have hy := leWord_wordBytes y
  have hl := leWord_wordBytes l
  have hp := leWord_wordBytes p
  have ht := leWord_wordBytes t
  obtain ⟨_, _, _, _, ec⟩ := four c
  obtain ⟨_, _, _, _, ex⟩ := four x
  obtain ⟨_, _, _, _, ey⟩ := four y
  obtain ⟨_, _, _, _, el⟩ := four l
  obtain ⟨_, _, _, _, ep⟩ := four p
  obtain ⟨_, _, _, _, et⟩ := four t
  rw [ec] at hc
  rw [ex] at hx
  rw [ey] at hy
  rw [el] at hl
  rw [ep] at hp
  rw [et] at ht
  simp [descOfBytes, descBytes, ec, ex, ey, el, ep, et, hc, hx, hy, hl, hp, ht]

end Sys2Proof

namespace Sys2Proof.Machine

/-- What the engine reads of a descriptor whose 24 bytes are in memory, word by word (20_memory.md R62, R66 (a)). -/
theorem memReadWord_of_bytes {m : Memory} {a : Nat} {bs : List Byte} (h : memReadBytes m a 24 = some bs) (i : Fin 6) :
    memReadWord m (a + 4 * i.val) = some (leWord ((bs.drop (4 * i.val)).take 4)) := by
  obtain ⟨hl, hb⟩ := memReadBytes_eq_some.1 h
  have hi := i.isLt
  have : memReadBytes m (a + 4 * i.val) 4 = some ((bs.drop (4 * i.val)).take 4) := by
    have hl4 : ((bs.drop (4 * i.val)).take 4).length = 4 := by
      simp only [List.length_take, List.length_drop, hl]
      omega
    rw [memReadBytes_eq_some]
    refine ⟨hl4, fun j hj => ?_⟩
    have := hb (4 * i.val + j) (by omega)
    rw [Nat.add_assoc, this]
    simp
  simp only [memReadWord, this, Option.map_some]

/-- A read gives no bytes exactly when one of them has never been written. -/
theorem memReadBytes_eq_none {m : Memory} {a k : Nat} :
    memReadBytes m a k = none ↔ ∃ i, i < k ∧ memRead m (a + i) = .unset := by
  induction k generalizing a with
  | zero => simp [memReadBytes]
  | succ k ih =>
    simp only [memReadBytes]
    cases h : memRead m a with
    | unset => exact ⟨fun _ => ⟨0, by omega, h⟩, fun _ => rfl⟩
    | of b =>
      simp only [Option.map_eq_none_iff, ih]
      constructor
      · rintro ⟨i, hi, hu⟩
        exact ⟨i + 1, by omega, by rw [← hu]; congr 1; omega⟩
      · rintro ⟨i, hi, hu⟩
        cases i with
        | zero => simp [h] at hu
        | succ i => exact ⟨i, by omega, by rw [← hu]; congr 1; omega⟩

end Sys2Proof.Machine
end

