-- ==== Sys2Proof/Laws/Ops.lean ====
section
/-! SUPPORT. One lemma per shared operation: when a guard lets a rule go on, and everything an operation can do when it
answers a next state. -/

namespace Sys2Proof.Machine

open Sys2Proof.Safety

/-! Guards. -/

@[simp] theorem guarded_none (k : Outcome) : guarded none k = k := rfl

theorem guarded_eq_next {g : Option Stop} {k : Outcome} {t : State} :
    guarded g k = .next t ↔ g = none ∧ k = .next t := by
  cases g with
  | none => simp
  | some x => cases x <;> simp [guarded, stopOutcome]

theorem both_eq_none {g h : Option Stop} : both g h = none ↔ g = none ∧ h = none := by
  cases g <;> simp [both]

@[simp] theorem both_none (h : Option Stop) : both none h = h := rfl

theorem require_eq_none {b : Bool} {x : Stop} : require b x = none ↔ b = true := by
  cases b <;> simp [require]

theorem requireVal_eq_none {α : Type} [DecidableEq α] {v : Val α} {a : α} {x : Stop} :
    requireVal v a x = none ↔ v = .of a := by
  cases v with
  | unset => simp [requireVal]
  | of b =>
    by_cases h : b = a <;> simp [requireVal, h]

theorem readVal_eq_next {α : Type} {v : Val α} {k : α → Outcome} {t : State} :
    readVal v k = .next t ↔ ∃ a, v = .of a ∧ k a = .next t := by
  cases v <;> simp [readVal]

@[simp] theorem readVal_unset {α : Type} (k : α → Outcome) : readVal .unset k = .refused .unsetState := rfl

@[simp] theorem readVal_of {α : Type} (a : α) (k : α → Outcome) : readVal (.of a) k = k a := rfl

theorem blockUp_eq_none {s : State} :
    blockUp s = none ↔ s.blk.splitDone = true ∧ s.blk.clkOn = .of true ∧ s.blk.inReset = .of false := by
  simp [blockUp, both_eq_none, require_eq_none, requireVal_eq_none]

theorem usable_eq_none {n : Chan} {s : State} : usable n s = none ↔ Usable n s := by
  simp [usable, both_eq_none, require_eq_none, blockUp_eq_none, and_assoc]

theorem live_eq_none {n : Chan} {s : State} : live n s = none ↔ Live n s := by
  simp [live, both_eq_none, requireVal_eq_none]

theorem engineAt_eq_none {n : Chan} {p : Phase} {s : State} :
    engineAt n p s = none ↔ (getCh s n).phase = p ∧ Live n s := by
  simp [engineAt, both_eq_none, require_eq_none, live_eq_none]

theorem finishedAt_eq_none {n : Chan} {s : State} :
    finishedAt n s = none ↔ (getCh s n).phase = .move ∧ Live n s ∧ (getCh s n).bcntLeft = .of 0#32 := by
  simp [finishedAt, both_eq_none, engineAt_eq_none, requireVal_eq_none, and_assoc]

theorem enableStop_eq_none {n : Chan} {s : State} :
    enableStop n s = none ↔
      Usable n s ∧ (getCh s n).phase = .idle ∧ (getCh s n).descAddr ≠ .unset ∧ getSec s n = .of .nonSecure := by
  simp [enableStop, both_eq_none, require_eq_none, usable_eq_none]

theorem writeStop_eq_none {n : Chan} {s : State} : writeStop n s = none ↔ Usable n s ∧ (getCh s n).phase = .idle := by
  simp [writeStop, both_eq_none, require_eq_none, usable_eq_none]

theorem gateStop_eq_none {s : State} : gateStop s = none ↔ s.blk.clkOn = .of true ∧ s.blk.inReset = .of false := by
  simp [gateStop, both_eq_none, requireVal_eq_none]

theorem accessStop_eq_none {s : State} {a k : Nat} : accessStop s a k = none ↔ CpuMayAccess s a k := by
  simp [accessStop, both_eq_none, require_eq_none]

theorem andThen_eq_next {o : Outcome} {k : State → Outcome} {t : State} :
    andThen o k = .next t ↔ ∃ s, o = .next s ∧ k s = .next t := by
  cases o <;> simp [andThen]

@[simp] theorem andThen_next (s : State) (k : State → Outcome) : andThen (.next s) k = k s := rfl

theorem allIdle_eq_true {s : State} : allIdle s = true ↔ ∀ n, (getCh s n).phase = .idle := by
  simp only [allIdle, allChans, List.all_cons, List.all_nil, Bool.and_true, Bool.and_eq_true, decide_eq_true_eq]
  constructor
  · rintro ⟨h0, h1, h2, h3, h4, h5, h6, h7⟩ n
    fin_cases n <;> assumption
  · exact fun h => ⟨h 0, h 1, h 2, h 3, h 4, h 5, h 6, h 7⟩

theorem heldByTransfer_eq_true {s : State} {r : Resources} :
    heldByTransfer s r = true ↔ ∃ n, getLife s n = .ready r ∨ getLife s n = .started r := by
  simp only [heldByTransfer, List.any_eq_true, Bool.or_eq_true, decide_eq_true_eq]
  constructor
  · rintro ⟨n, _, h⟩
    exact ⟨n, h⟩
  · rintro ⟨n, h⟩
    refine ⟨n, ?_, h⟩
    fin_cases n <;> simp [allChans]

theorem inCallersHands_eq_true {s : State} {r : Resources} :
    inCallersHands s r = true ↔ r ∈ s.pinned ∧ ∀ n, getLife s n ≠ .ready r ∧ getLife s n ≠ .started r := by
  simp only [inCallersHands, Bool.and_eq_true, decide_eq_true_eq, Bool.not_eq_true', ← Bool.not_eq_true,
    heldByTransfer_eq_true, not_exists, not_or, ne_eq]

/-! The exception entry and the lifecycle check. -/

theorem raiseError_eq_next {e : CpuError} {s t : State} :
    raiseError e s = .next t ↔ t = { s with cpu := { s.cpu with run := .aborted e } } := by
  simp [raiseError, eq_comm]

/-- The lifecycle check raises, changing only `cpu.run`, or lets the operation go on. -/
theorem lifecycleChecked_eq_next {ok : Bool} {op : LifeOp} {n : Chan} {s t : State} {k : Outcome} :
    lifecycleChecked ok op n s k = .next t ↔
      (ok = true ∧ k = .next t) ∨
        (ok = false ∧ t = { s with cpu := { s.cpu with run := .aborted (.lifecycleViolation op (getLife s n)) } }) := by
  cases ok <;> simp [lifecycleChecked, raiseError_eq_next]

theorem isReady_eq_true {x : Transfer} {n : Chan} {s : State} :
    isReady x n s = true ↔ x.state = .ready ∧ getLife s n = .ready x.res := by simp [isReady]

theorem isStarted_eq_true {x : Transfer} {n : Chan} {s : State} :
    isStarted x n s = true ↔ x.state = .started ∧ getLife s n = .started x.res := by simp [isStarted]

/-! The pieces the API operations are made of. -/

theorem storeWord_eq_next {a : Nat} {v : Word} {s t : State} :
    storeWord a v s = .next t ↔ CpuMayAccess s a 4 ∧ t = storeEffect a (wordBytes v) s := by
  simp only [storeWord, guarded_eq_next, accessStop_eq_none, Host.Outcome.next.injEq, eq_comm (a := t)]

/-- What the CPU may touch of a range it may touch. -/
theorem mayAccess_part {s : State} {a k b l : Nat} (h : CpuMayAccess s a k) (h1 : a ≤ b) (h2 : b + l ≤ a + k) :
    CpuMayAccess s b l := by
  refine ⟨?_, rangeRam_part h.2 h1 h2⟩
  have h0 := h.1
  simp only [touchesPinned, touchesResources, List.any_eq_false, List.any_eq_true, not_exists, not_and,
    Bool.not_eq_true, overlaps_eq_false] at h0 ⊢
  intro r hr p hp x hx1 hx2
  have := h0 r hr p hp x hx1 hx2
  omega

/-- A range in four-byte steps. -/
theorem mayAccess_join {s : State} {a k l : Nat} (h1 : CpuMayAccess s a k) (h2 : CpuMayAccess s (a + k) l) :
    CpuMayAccess s a (k + l) := by
  constructor
  · have h3 := h1.1
    have h4 := h2.1
    simp only [touchesPinned, touchesResources, List.any_eq_false, List.any_eq_true, not_exists, not_and,
      Bool.not_eq_true, overlaps_eq_false] at h3 h4 ⊢
    intro r hr p hp x hx1 hx2
    have := h3 r hr p hp x hx1 hx2
    have := h4 r hr p hp x hx1 hx2
    omega
  · have h3 := h1.2
    have h4 := h2.2
    rw [rangeRam_iff] at h3 h4 ⊢
    intro i hi
    by_cases h : i < k
    · exact h3 i h
    · have := h4 (i - k) (by omega)
      rwa [show a + k + (i - k) = a + i by omega] at this

/-- The six stores of a descriptor one after another are made exactly when the CPU may touch all 24 bytes. -/
theorem storeDesc_eq_next {A : Nat} {d : Desc} {s t : State} :
    andThen (storeWord A d.config s) (fun u => andThen (storeMiddle A d u) (storeWord (A + 20) d.nextAddr)) = .next t ↔
      CpuMayAccess s A 24 ∧ t = storeDesc A d s := by
  simp only [storeMiddle, andThen_eq_next, storeWord_eq_next]
  constructor
  · rintro ⟨u1, ⟨m1, rfl⟩, u5, ⟨u4, ⟨u3, ⟨u2, ⟨m2, rfl⟩, m3, rfl⟩, m4, rfl⟩, m5, rfl⟩, m6, rfl⟩
    exact ⟨mayAccess_join (mayAccess_join (mayAccess_join (mayAccess_join (mayAccess_join m1 m2) m3) m4) m5) m6, rfl⟩
  · rintro ⟨m, rfl⟩
    exact ⟨_, ⟨mayAccess_part m (by omega) (by omega), rfl⟩, _, ⟨_, ⟨_, ⟨_, ⟨mayAccess_part m (by omega) (by omega), rfl⟩,
      mayAccess_part m (by omega) (by omega), rfl⟩, mayAccess_part m (by omega) (by omega), rfl⟩, mayAccess_part m (by omega) (by omega), rfl⟩,
      mayAccess_part m (by omega) (by omega), rfl⟩

theorem boundOffered_eq_true {c : Config} {L : Nat} : boundOffered c L = true ↔ c.pollLimit = some L ∧ 0 < L := by
  simp [boundOffered]

/-- Everything one more busy poll can do. -/
theorem stillBusy_next {x : Transfer} {n : Chan} {left : Option Nat} {s t : State}
    (h : stillBusy x n left s = .next t) :
    t = setRet s (.timeout x) ∨ ∃ left', t = pushRest s [.poll x n left'] := by
  unfold stillBusy later at h
  split at h
  · exact .inr ⟨_, (Host.Outcome.next.inj h).symm⟩
  · split at h
    · exact .inl (Host.Outcome.next.inj h).symm
    · exact .inr ⟨_, (Host.Outcome.next.inj h).symm⟩

/-- Everything a poll can do: it goes on when the channel is idle, polls again or gives the timeout when it is busy. -/
theorem pollOnce_next {x : Transfer} {n : Chan} {left : Option Nat} {k : State → Outcome} {s t : State}
    (h : pollOnce x n left k s = .next t) :
    Usable n s ∧ ((getBusy s n = .of false ∧ k s = .next t) ∨
      (getBusy s n = .of true ∧ (t = setRet s (.timeout x) ∨ ∃ left', t = pushRest s [.poll x n left']))) := by
  simp only [pollOnce, guarded_eq_next, usable_eq_none, readVal_eq_next] at h
  obtain ⟨h1, b, hb, h2⟩ := h
  refine ⟨h1, ?_⟩
  cases b
  · exact .inl ⟨hb, h2⟩
  · exact .inr ⟨hb, stillBusy_next h2⟩

/-! The engine's operations. -/

theorem judgeFetch_eq_clear {n : Chan} {s : State} {x : Nat} :
    judgeFetch n s = .clear x ↔
      ∃ a, (getCh s n).dptr = .of a ∧ a.toNat = x ∧ a.toNat % 4 = 0 ∧ a.toNat + 24 ≤ 2 ^ 32 ∧
        rangeRam s.config a.toNat 24 = true ∧ sharesWritten n [(a.toNat, 24)] [] s = false := by
  unfold judgeFetch
  cases (getCh s n).dptr with
  | unset => simp
  | of a =>
    simp only [Val.of.injEq, exists_eq_left']
    split
    · rename_i h
      simp [h]
    · rename_i h1
      simp only [ne_eq, not_not] at h1
      split
      · rename_i h2
        simp only [reduceCtorEq, false_iff]
        rintro ⟨_, _, h, _⟩
        omega
      · rename_i h2
        split
        · rename_i h3
          simp [h3]
        · rename_i h3
          split
          · rename_i h4
            simp [h4]
          · rename_i h4
            simp only [FetchVerdict.clear.injEq]
            exact ⟨fun h => ⟨h, h1, by omega, by simpa using h3, by simpa using h4⟩, fun h => h.1⟩

theorem judgeFetch_eq_misaligned {n : Chan} {s : State} :
    judgeFetch n s = .misaligned ↔ ∃ a, (getCh s n).dptr = .of a ∧ a.toNat % 4 ≠ 0 := by
  unfold judgeFetch
  cases (getCh s n).dptr with
  | unset => simp
  | of a =>
    simp only [Val.of.injEq, exists_eq_left']
    split
    · rename_i h
      simp [h]
    · rename_i h
      simp only [ne_eq, not_not] at h
      simp only [h, ne_eq, not_true_eq_false, iff_false]
      repeat' split
      all_goals simp

/-! Ranges, byte by byte. -/

theorem allRam_iff {c : Config} {a k : Nat} : AllRam c a k ↔ rangeRam c a k = true := by
  rw [rangeRam_iff]
  constructor
  · exact fun h i hi => h (a + i) ⟨by omega, by omega⟩
  · rintro h x ⟨h1, h2⟩
    have := h (x - a) (by omega)
    rwa [show a + (x - a) = x by omega] at this

theorem noCommonByte_iff {a k b l : Nat} : NoCommonByte a k b l ↔ overlaps a k b l = false := by
  rw [overlaps_eq_false]
  exact ⟨fun h x h1 h2 h3 h4 => h x ⟨h1, h2⟩ ⟨h3, h4⟩, fun h x h1 h3 => h x h1.1 h1.2 h3.1 h3.2⟩

theorem unpinned_iff {s : State} {r : Resources} :
    Unpinned s r ↔ ∀ x ∈ resourceRanges r, touchesPinned s.pinned x.1 x.2 = false := by
  simp only [Unpinned, touchesPinned, touchesResources, List.any_eq_false, Bool.not_eq_true, noCommonByte_iff]
  exact ⟨fun h x hx q hq y hy => by rw [overlaps_comm]; exact h q hq x hx y hy,
    fun h q hq x hx y hy => by rw [overlaps_comm]; exact h x hx q hq y hy⟩

/-- Sharing, byte by byte (20_memory.md R84). -/
theorem rangesMeet_eq_true {xs ys : List (Nat × Nat)} :
    rangesMeet xs ys = true ↔ ∃ b, (∃ p ∈ xs, InRange p.1 p.2 b) ∧ ∃ q ∈ ys, InRange q.1 q.2 b := by
  simp only [rangesMeet, List.any_eq_true, overlaps_eq_true]
  constructor
  · rintro ⟨p, hp, q, hq, b, h1, h2, h3, h4⟩
    exact ⟨b, ⟨p, hp, h1, h2⟩, q, hq, h3, h4⟩
  · rintro ⟨b, ⟨p, hp, h1, h2⟩, q, hq, h3, h4⟩
    exact ⟨p, hp, q, hq, b, h1, h2, h3, h4⟩

theorem sharesWritten_eq_true {n : Chan} {reads writes : List (Nat × Nat)} {s : State} :
    sharesWritten n reads writes s = true ↔ ∃ m x, m ≠ n ∧
      (((∃ p ∈ writes, InRange p.1 p.2 x) ∧ (Reads m s x ∨ Writes m s x)) ∨
        ((∃ p ∈ reads, InRange p.1 p.2 x) ∧ Writes m s x)) := by
  have all : ∀ m : Chan, m ∈ allChans := by decide
  simp only [sharesWritten, List.any_eq_true, Bool.and_eq_true, decide_eq_true_eq, Bool.or_eq_true, rangesMeet_eq_true,
    List.mem_append, or_and_right, exists_or]
  constructor
  · rintro ⟨m, _, hm, ⟨x, h1, h2⟩ | ⟨x, h1, h2⟩⟩
    · exact ⟨m, x, hm, .inl ⟨h1, h2⟩⟩
    · exact ⟨m, x, hm, .inr ⟨h1, h2⟩⟩
  · rintro ⟨m, x, hm, ⟨h1, h2⟩ | ⟨h1, h2⟩⟩
    · exact ⟨m, all m, hm, .inl ⟨x, h1, h2⟩⟩
    · exact ⟨m, all m, hm, .inr ⟨x, h1, h2⟩⟩

theorem descShares_eq_true {n : Chan} {d : Desc} {a : Nat} {s : State} :
    descShares n d a s = true ↔ Shares n d a s := by
  simp only [descShares, sharesWritten_eq_true, List.mem_cons, List.not_mem_nil, or_false, exists_eq_or_imp,
    exists_eq_left]
  refine exists_congr fun m => exists_congr fun x => and_congr_right fun _ => or_congr Iff.rfl ?_
  exact and_congr_left fun _ => or_comm

/-- A latch answers a next state only for an admitted descriptor that shares no written memory, and then this one. -/
theorem latchDesc_eq_next {n : Chan} {d : Desc} {s t : State} :
    latchDesc n d s = .next t ↔
      ∃ a, (getCh s n).dptr = .of a ∧ admitted s.config.layout d a.toNat = true ∧ descShares n d a.toNat s = false ∧
        t = latchEffect n d s := by
  simp only [latchDesc, readVal_eq_next]
  refine exists_congr fun a => and_congr_right fun _ => ?_
  by_cases h : admitted s.config.layout d a.toNat = true
  · by_cases h' : descShares n d a.toNat s = true
    · simp [h, h']
    · simp [h, h', eq_comm]
  · simp [h]

/-- A move answers a next state only inside RAM and over written source bytes, and then this one. -/
theorem moveBytes_eq_next {n : Chan} {left : Word} {k : Nat} {s t : State} :
    moveBytes n left k s = .next t ↔
      ∃ src dst v, (getCh s n).curSrc = .of src ∧ (getCh s n).curDst = .of dst ∧
        rangeRam s.config src.toNat k = true ∧ rangeRam s.config dst.toNat k = true ∧
        memReadBytes s.mem src.toNat k = some v ∧
        t = advance n src dst left k (engineWrite s dst.toNat v) := by
  simp only [moveBytes, readVal_eq_next, exists_and_left]
  refine exists_congr fun src => and_congr_right fun _ => exists_congr fun dst => and_congr_right fun _ => ?_
  by_cases h1 : rangeRam s.config src.toNat k = true
  · by_cases h2 : rangeRam s.config dst.toNat k = true
    · cases memReadBytes s.mem src.toNat k <;> simp [h1, h2, eq_comm]
    · simp [h1, h2]
  · simp [h1]

/-- A word of a fetch buffer after one word is latched. -/
theorem fwGet_fwSet (f : FetchBuf) (i j : Fin 6) (w : Word) :
    fwGet (fwSet f i w) j = if j = i then some w else fwGet f j := by
  fin_cases i <;> fin_cases j <;> rfl

theorem fwGet_emptyFetch (i : Fin 6) : fwGet emptyFetch i = none := by fin_cases i <;> rfl

/-! The channel invariant, said as propositions. -/

theorem resetDone_eq_true {s : State} : resetDone s = true ↔ s.blk.splitDone = true ∨ Rest.gates ∈ s.cpu.doing := by
  simp [resetDone]

theorem resetDone_congr {s t : State} (h1 : t.blk.splitDone = s.blk.splitDone) (h2 : t.cpu.doing = s.cpu.doing) :
    resetDone t = resetDone s := by simp [resetDone, h1, h2]

theorem channelInv_eq_true {n : Chan} {s : State} :
    channelInv n s = true ↔
      (getBusy s n = .of true ↔ (getCh s n).phase ≠ .idle) ∧ ((getCh s n).en = .of true ↔ (getCh s n).phase ≠ .idle) ∧
        (getCh s n).pause ≠ .of true ∧
        (resetDone s = true → getBusy s n ≠ .unset ∧ (getCh s n).en ≠ .unset ∧ (getCh s n).pause ≠ .unset) ∧
        ((getCh s n).phase ≠ .idle → s.blk.clkOn = .of true ∧ s.blk.inReset = .of false ∧
          (getCh s n).pause = .of false ∧ getSec s n = .of .nonSecure ∧
          n.val < s.config.nimpl ∧ (getCh s n).dptr ≠ .unset) ∧
        ((getCh s n).phase = .move → workingInv s.config.layout (getCh s n) = true) := by
  simp only [channelInv, Bool.and_eq_true, Bool.or_eq_true, decide_eq_true_eq, Bool.not_eq_true', ← Bool.not_eq_true]
  tauto

theorem workingInv_eq_true {l : CfgLayout} {c : Channel} :
    workingInv l c = true ↔
      ∃ a src dst left w p nx k, c.dptr = .of a ∧ c.curSrc = .of src ∧ c.curDst = .of dst ∧ c.bcntLeft = .of left ∧
        c.cfg = .of w ∧ c.para = .of p ∧ c.nxt = .of nx ∧ c.len = .of k ∧
        left.toNat ≤ k.toNat ∧ src.toNat + left.toNat ≤ 2 ^ 32 ∧ dst.toNat + left.toNat ≤ 2 ^ 32 ∧
        overlaps dst.toNat left.toNat src.toNat left.toNat = false ∧ overlaps dst.toNat left.toNat a.toNat 24 = false ∧
        configAdmitted l w = true ∧ linkAdmitted nx = true := by
  unfold workingInv
  constructor
  · intro h
    split at h
    · simp only [Bool.and_eq_true, decide_eq_true_eq, Bool.not_eq_true'] at h
      exact ⟨_, _, _, _, _, _, _, _, by assumption, by assumption, by assumption, by assumption, by assumption, by assumption,
        by assumption, by assumption, by tauto⟩
    · simp at h
  · rintro ⟨a, src, dst, left, w, p, nx, k, h1, h2, h3, h4, h5, h6, h7, h8, h9, h10, h11, h12, h13, h14, h15⟩
    simp only [h1, h2, h3, h4, h5, h6, h7, h8, Bool.and_eq_true, decide_eq_true_eq, Bool.not_eq_true']
    exact ⟨⟨⟨⟨⟨⟨h9, h10⟩, h11⟩, h12⟩, h13⟩, h14⟩, h15⟩

/-! Turns. -/

theorem step_of_sched {s : State} {t : Turn} {rest : List Turn} (h : s.sched = t :: rest) :
    step s = takeTurn t { s with sched := rest } := by
  simp [step, turnOf, afterTurn, h]

theorem step_of_empty {s : State} (h : s.sched = []) :
    step s = takeTurn (freeTurn s.tick) { s with tick := s.tick + 1 } := by
  simp [step, turnOf, afterTurn, h]

/-- Taking a turn leaves everything but the schedule and the counter. -/
theorem afterTurn_fields (s : State) :
    (afterTurn s).config = s.config ∧ (afterTurn s).ch = s.ch ∧ (afterTurn s).blk = s.blk ∧ (afterTurn s).mem = s.mem ∧
      (afterTurn s).cpu = s.cpu ∧ (afterTurn s).life = s.life ∧ (afterTurn s).pinned = s.pinned := by
  unfold afterTurn
  cases s.sched <;> simp

/-- What the decoder gives is a descriptor row, which no software writes. -/
theorem decode_not_software {l : CfgLayout} {n : Chan} {bs : List Byte} {i : Instr} (h : decode l n bs = .ok i) :
    instrIsSoftware i = false := by
  have form : ∀ ws wd sb db, instrIsSoftware (m2mInstr n ws wd sb db) = false := by
    intro ws wd sb db
    cases ws <;> cases wd <;> rfl
  have conf : ∀ {w : Word} {i : Instr}, decodeConfig l n w = .ok i → instrIsSoftware i = false := by
    intro w i h
    unfold decodeConfig at h
    repeat' split at h
    all_goals first | (simp at h; done) | (obtain rfl := Except.ok.inj h; exact form _ _ _ _)
  unfold decode decodeWord decodeLink at h
  repeat' split at h
  all_goals first
    | (simp at h; done)
    | (obtain rfl := Except.ok.inj h; first | rfl | exact conf (by assumption))

theorem decodeConfig_not_software {l : CfgLayout} {n : Chan} {w : Word} {i : Instr} (h : decodeConfig l n w = .ok i) :
    instrIsSoftware i = false := by
  refine decode_not_software (l := l) (n := n) (bs := wordBytes w) ?_
  simp [decode, decodeWord, h]

theorem decodeLink_not_software {n : Chan} {w : Word} {i : Instr} (h : decodeLink n w = .ok i) :
    instrIsSoftware i = false := by
  unfold decodeLink at h
  repeat' split at h
  all_goals first | (simp at h; done) | (obtain rfl := Except.ok.inj h; rfl)

theorem whenSet_eq {α : Type} {v : Val α} {k : α → Fetched} {f : Fetched} (h : whenSet v k = f) :
    f = .refuse .unsetState ∨ ∃ a, v = .of a ∧ k a = f := by
  cases v with
  | unset => exact .inl h.symm
  | of a => exact .inr ⟨a, rfl, h⟩

theorem decoded_eq_instr {e : Except DecodeError Instr} {i : Instr} (h : decoded e = .instr i) : e = .ok i := by
  cases e <;> simp_all [decoded]

theorem decoded_ne_misaligned {e : Except DecodeError Instr} : decoded e ≠ .misaligned := by
  cases e <;> simp [decoded]

theorem interpret_not_software {n : Chan} {s : State} {i : Instr} (h : interpret n s = .instr i) :
    instrIsSoftware i = false := by
  unfold interpret whenLive at h
  repeat' split at h
  all_goals first
    | simp at h
    | exact decode_not_software (decoded_eq_instr h)
    | skip
  obtain h | ⟨left, _, h⟩ := whenSet_eq h
  · simp at h
  split at h <;> obtain h | ⟨w, _, h⟩ := whenSet_eq h
  · simp at h
  · exact decodeLink_not_software (decoded_eq_instr h)
  · simp at h
  · exact decodeConfig_not_software (decoded_eq_instr h)

theorem engineStep_not_software {n : Chan} {pick : Nat} {s : State} {i : Instr} (h : engineStep n pick s = .instr i) :
    instrIsSoftware i = false := by
  unfold engineStep whenLive at h
  repeat' split at h
  all_goals first
    | (simp at h; done)
    | (obtain rfl := Fetched.instr.inj h; rfl)
    | skip
  obtain h | ⟨left, _, h⟩ := whenSet_eq h
  · simp at h
  split at h
  · obtain h | ⟨w, _, h⟩ := whenSet_eq h
    · simp at h
    · split at h <;> (obtain rfl := Fetched.instr.inj h; rfl)
  · obtain rfl := Fetched.instr.inj h
    rfl

theorem drainStep_not_software {pick : Nat} {s : State} {i : Instr} (h : drainStep pick s = .instr i) :
    instrIsSoftware i = false := by
  unfold drainStep at h
  split at h
  · simp at h
  · obtain rfl := Fetched.instr.inj h
    rfl

/-- A named step is never a misaligned fetch: that is the effect of `ENG_FETCH` itself. -/
theorem engineStep_ne_misaligned {n : Chan} {pick : Nat} {s : State} : engineStep n pick s ≠ .misaligned := by
  intro h
  unfold engineStep whenLive at h
  repeat' split at h
  all_goals first
    | simp at h
    | skip
  obtain h | ⟨left, _, h⟩ := whenSet_eq h
  · simp at h
  split at h
  · obtain h | ⟨w, _, h⟩ := whenSet_eq h
    · simp at h
    · split at h <;> simp at h
  · simp at h

/-- Only an engine in Fetch with a misaligned descriptor pointer is found misaligned (43_engine.md R177). -/
theorem interpret_eq_misaligned {n : Chan} {s : State} (h : interpret n s = .misaligned) :
    (getCh s n).phase = .fetch ∧ ∃ a, (getCh s n).dptr = .of a ∧ a.toNat % 4 ≠ 0 := by
  unfold interpret whenLive at h
  repeat' split at h
  all_goals first
    | (simp at h; done)
    | exact absurd h decoded_ne_misaligned
    | exact ⟨by assumption, judgeFetch_eq_misaligned.1 (by assumption)⟩
    | skip
  obtain h | ⟨left, _, h⟩ := whenSet_eq h
  · simp at h
  split at h <;> obtain h | ⟨w, _, h⟩ := whenSet_eq h
  · simp at h
  · exact absurd h decoded_ne_misaligned
  · simp at h
  · exact absurd h decoded_ne_misaligned

/-- Everything a turn can do: nothing, an instruction no software writes, an engine's fault, a CPU step of the operation
under way, or the next operation of the CPU's program. -/
theorem takeTurn_cases {t : Turn} {s u : State} (h : takeTurn t s = .next u) :
    u = s ∨
    (∃ i, instrIsSoftware i = false ∧ t.agent ≠ .cpu ∧ exec i s = .next u) ∨
    (∃ n, t.agent ≠ .cpu ∧ (getCh s n).phase = .fetch ∧ (∃ a, (getCh s n).dptr = .of a ∧ a.toNat % 4 ≠ 0) ∧
      u = engineFault n .misalignedDescriptor s) ∨
    (t.agent = .cpu ∧ s.cpu.run = .running ∧ ∃ r rs, s.cpu.doing = r :: rs ∧
      runRest r { s with cpu := { s.cpu with doing := rs } } = .next u) ∨
    (t.agent = .cpu ∧ s.cpu.run = .running ∧ s.cpu.doing = [] ∧ ∃ op rest, s.cpu.prog = op :: rest ∧ cpuOpWf op = true ∧
      cpuOp op t.pick { s with cpu := { s.cpu with prog := rest } } = .next u) := by
  unfold takeTurn at h
  split at h
  · -- the CPU
    rename_i ha
    unfold cpuTurn at h
    split at h
    · left
      simpa [eq_comm] using h
    · rename_i hr
      split at h
      · rename_i r rs hd
        exact .inr (.inr (.inr (.inl ⟨ha, hr, r, rs, hd, h⟩)))
      · rename_i hd
        split at h
        · left
          simpa [eq_comm] using h
        · rename_i op rest hp
          split at h
          · rename_i hw
            exact .inr (.inr (.inr (.inr ⟨ha, hr, hd, op, rest, hp, hw, h⟩)))
          · simp at h
  · -- the named step
    rename_i n hn
    unfold runFetched at h
    split at h
    · left
      simpa [eq_comm] using h
    · rename_i hi
      exact .inr (.inl ⟨_, engineStep_not_software hi, by simp [hn], h⟩)
    · rename_i he
      exact absurd he engineStep_ne_misaligned
    · simp at h
  · -- the descriptor word
    rename_i n hn
    unfold runFetched at h
    split at h
    · left
      simpa [eq_comm] using h
    · rename_i hi
      exact .inr (.inl ⟨_, interpret_not_software hi, by simp [hn], h⟩)
    · rename_i he
      obtain ⟨hp, ha⟩ := interpret_eq_misaligned he
      exact .inr (.inr (.inl ⟨n, by simp [hn], hp, ha, by simpa [eq_comm] using h⟩))
    · simp at h
  · -- the drain
    unfold runFetched at h
    split at h
    · left
      simpa [eq_comm] using h
    · rename_i hi
      exact .inr (.inl ⟨_, drainStep_not_software hi, by simp [*], h⟩)
    · rename_i he
      unfold drainStep at he
      split at he <;> simp at he
    · simp at h

end Sys2Proof.Machine
end

