-- ==== Sys2Proof/Laws/Exec.lean ====
section
/-! SUPPORT. One inversion lemma per meaning: if it answers a next state, then its guard holds and the next state is this
one. Proofs over all instructions cite these instead of unfolding the meanings. -/

namespace Sys2Proof.Machine

open Sys2Proof.Safety

/-! The engine. -/

theorem execEngFetch_next {n : Chan} {i : Fin 6} {s t : State} (h : execEngFetch n i s = .next t) :
    (getCh s n).phase = .fetch ∧ Live n s ∧ fwGet (getCh s n).fw i = none ∧
      ((∃ a, (getCh s n).dptr = .of a ∧ a.toNat % 4 ≠ 0 ∧ t = engineFault n .misalignedDescriptor s) ∨
        (∃ a w, (getCh s n).dptr = .of a ∧ a.toNat % 4 = 0 ∧ a.toNat + 24 ≤ 2 ^ 32 ∧
          rangeRam s.config a.toNat 24 = true ∧ sharesWritten n [(a.toNat, 24)] [] s = false ∧ memReadWord s.mem (a.toNat + 4 * i.val) = some w ∧
          t = setCh s n { getCh s n with fw := fwSet (getCh s n).fw i w })) := by
  simp only [execEngFetch, guarded_eq_next, both_eq_none, engineAt_eq_none, require_eq_none, Option.isNone_iff_eq_none]
    at h
  obtain ⟨⟨⟨h1, h2⟩, h3⟩, h4⟩ := h
  refine ⟨h1, h2, h3, ?_⟩
  split at h4
  · simp at h4
  · rename_i hj
    obtain ⟨a, ha, hm⟩ := judgeFetch_eq_misaligned.1 hj
    exact .inl ⟨a, ha, hm, by simpa [eq_comm] using h4⟩
  · rename_i x hj
    obtain ⟨a, ha, rfl, h5, h6, h7, h8⟩ := judgeFetch_eq_clear.1 hj
    split at h4
    · simp at h4
    · rename_i w hw
      exact .inr ⟨a, w, ha, h5, h6, h7, h8, hw, by simpa [eq_comm] using h4⟩

theorem execEngDecode_next {n : Chan} {s t : State} (h : execEngDecode n s = .next t) :
    (getCh s n).phase = .fetch ∧ Live n s ∧ ∃ d a, fwDesc (getCh s n).fw = some d ∧ (getCh s n).dptr = .of a ∧
      admitted s.config.layout d a.toNat = true ∧ descShares n d a.toNat s = false ∧ t = latchEffect n d s := by
  simp only [execEngDecode, guarded_eq_next, engineAt_eq_none] at h
  obtain ⟨⟨h1, h2⟩, h3⟩ := h
  split at h3
  · simp at h3
  · rename_i d hd
    obtain ⟨a, ha, hadm, hsh, ht⟩ := latchDesc_eq_next.1 h3
    exact ⟨h1, h2, d, a, hd, ha, hadm, hsh, ht⟩

theorem execDesc_next {n : Chan} {d : Desc} {s t : State} (h : execDesc n d s = .next t) :
    (getCh s n).phase = .fetch ∧ Live n s ∧
      ((∃ a, (getCh s n).dptr = .of a ∧ a.toNat % 4 ≠ 0 ∧ t = engineFault n .misalignedDescriptor s) ∨
        (∃ a, Fetching n s a ∧ descAt n a.toNat s = some d ∧ admitted s.config.layout d a.toNat = true ∧
          descShares n d a.toNat s = false ∧ t = latchEffect n d s)) := by
  simp only [execDesc, guarded_eq_next, engineAt_eq_none] at h
  obtain ⟨⟨h1, h2⟩, h3⟩ := h
  refine ⟨h1, h2, ?_⟩
  split at h3
  · simp at h3
  · rename_i hj
    obtain ⟨a, ha, hm⟩ := judgeFetch_eq_misaligned.1 hj
    exact .inl ⟨a, ha, hm, by simpa [eq_comm] using h3⟩
  · rename_i x hj
    obtain ⟨a, ha, rfl, h5, h6, h7, h8⟩ := judgeFetch_eq_clear.1 hj
    split at h3
    · simp at h3
    · rename_i e he
      split at h3
      · rename_i hed
        subst hed
        obtain ⟨b, hb, hadm, hsh, ht⟩ := latchDesc_eq_next.1 h3
        rw [ha] at hb
        simp only [Val.of.injEq] at hb
        subst hb
        exact .inr ⟨a, ⟨h1, h2, ha, h5, h6, h7, h8⟩, he, hadm, hsh, ht⟩
      · simp at h3

/-- Everything a move can do when it answers a next state. -/
theorem execEngMove_next {n : Chan} {k : Nat} {s t : State} (h : execEngMove n k s = .next t) :
    ∃ src dst left v, Moving n s src dst left ∧ 1 ≤ k ∧ k ≤ left.toNat ∧
      rangeRam s.config src.toNat k = true ∧ rangeRam s.config dst.toNat k = true ∧
      memReadBytes s.mem src.toNat k = some v ∧
      t = advance n src dst left k (engineWrite s dst.toNat v) := by
  simp only [execEngMove, guarded_eq_next, engineAt_eq_none, readVal_eq_next] at h
  obtain ⟨⟨h1, h2⟩, left, hl, h3⟩ := h
  split at h3
  · rename_i hk
    obtain ⟨src, dst, v, hs, hd, hr, hr', hv, ht⟩ := moveBytes_eq_next.1 h3
    exact ⟨src, dst, left, v, ⟨h1, h2, hs, hd, hl⟩, hk.1, hk.2, hr, hr', hv, ht⟩
  · simp at h3

/-- When the latched config word is the form. -/
theorem formStop_eq_none {l : CfgLayout} {v : Val Word} {n : Chan} {ws wd : Width} {sb db : BitVec 2} :
    formStop l v (m2mInstr n ws wd sb db) = none ↔
      ∃ w, v = .of w ∧ decodeConfig l n w = .ok (m2mInstr n ws wd sb db) := by
  cases v with
  | unset => simp [formStop]
  | of w =>
    simp only [formStop, descriptorChan_m2mInstr, Option.getD_some, Val.of.injEq, exists_eq_left']
    cases decodeConfig l n w with
    | error e => simp
    | ok j =>
      simp only [require_eq_none, decide_eq_true_eq, Except.ok.injEq]
      exact eq_comm

/-- A config form is the move of every byte left. -/
theorem moveForm_next {ws wd : Width} {n : Chan} {sb db : BitVec 2} {s t : State}
    (h : moveForm ws wd n sb db s = .next t) :
    (∃ w, (getCh s n).cfg = .of w ∧ decodeConfig s.config.layout n w = .ok (m2mInstr n ws wd sb db)) ∧
      ∃ left, (getCh s n).bcntLeft = .of left ∧ execEngMove n left.toNat s = .next t := by
  simp only [moveForm, guarded_eq_next, both_eq_none, engineAt_eq_none, formStop_eq_none, readVal_eq_next] at h
  obtain ⟨⟨⟨h1, h2⟩, h3⟩, left, hl, h4⟩ := h
  split at h4
  · simp at h4
  · rename_i h0
    have hpos : 1 ≤ left.toNat := by
      rcases Nat.eq_zero_or_pos left.toNat with h5 | h5
      · exact absurd (BitVec.eq_of_toNat_eq (by simpa using h5)) h0
      · exact h5
    refine ⟨h3, left, hl, ?_⟩
    simp only [execEngMove, guarded_eq_next, engineAt_eq_none, hl, readVal_of, hpos, Nat.le_refl, and_self, if_true]
    exact ⟨⟨h1, h2⟩, h4⟩

theorem execEngLink_next {n : Chan} {s t : State} (h : execEngLink n s = .next t) :
    ∃ a, Finished n s a ∧ a ≠ linkEnd ∧ t = linkEffect n a s := by
  simp only [execEngLink, guarded_eq_next, finishedAt_eq_none, readVal_eq_next] at h
  obtain ⟨⟨h1, h2, h3⟩, a, ha, h4⟩ := h
  split at h4
  · simp at h4
  · rename_i hne
    exact ⟨a, ⟨h1, h2, h3, ha⟩, hne, by simpa [eq_comm] using h4⟩

theorem execLinkNext_next {n : Chan} {a : Word} {s t : State} (h : execLinkNext n a s = .next t) :
    Finished n s a ∧ a ≠ linkEnd ∧ t = linkEffect n a s := by
  simp only [execLinkNext, guarded_eq_next, both_eq_none, finishedAt_eq_none, requireVal_eq_none, require_eq_none,
    decide_eq_true_eq, Host.Outcome.next.injEq] at h
  obtain ⟨⟨⟨h1, h2, h3⟩, h4, h5⟩, h6⟩ := h
  exact ⟨⟨h1, h2, h3, h4⟩, h5, h6.symm⟩

theorem execEngComplete_next {n : Chan} {s t : State} (h : execEngComplete n s = .next t) :
    Finished n s linkEnd ∧ t = completeEffect n s := by
  simp only [execEngComplete, guarded_eq_next, both_eq_none, finishedAt_eq_none, requireVal_eq_none,
    Host.Outcome.next.injEq] at h
  obtain ⟨⟨⟨h1, h2, h3⟩, h4⟩, h5⟩ := h
  exact ⟨⟨h1, h2, h3, h4⟩, h5.symm⟩

theorem execLinkEnd_next {n : Chan} {s t : State} (h : execLinkEnd n s = .next t) :
    Finished n s linkEnd ∧ t = completeEffect n s := execEngComplete_next h

/-! Channel commands and set-up. -/

theorem execChEnable_next {n : Chan} {s t : State} (h : execChEnable n s = .next t) :
    Usable n s ∧ (getCh s n).phase = .idle ∧ (getCh s n).descAddr ≠ .unset ∧ getSec s n = .of .nonSecure ∧
      t = enableEffect n s := by
  simp only [execChEnable, guarded_eq_next, enableStop_eq_none, Host.Outcome.next.injEq] at h
  obtain ⟨⟨h1, h2, h3, h4⟩, h5⟩ := h
  exact ⟨h1, h2, h3, h4, h5.symm⟩

theorem execChIsActive_next {n : Chan} {s t : State} (h : execChIsActive n s = .next t) :
    Usable n s ∧ ∃ b, getBusy s n = .of b ∧ t = setRet s (.active b) := by
  simp only [execChIsActive, guarded_eq_next, usable_eq_none, readVal_eq_next, Host.Outcome.next.injEq] at h
  obtain ⟨h1, b, h2, h3⟩ := h
  exact ⟨h1, b, h2, h3.symm⟩

theorem execChSetDescAddr_next {n : Chan} {a : Word} {s t : State} (h : execChSetDescAddr n a s = .next t) :
    Usable n s ∧ (getCh s n).phase = .idle ∧ t = setCh s n { getCh s n with descAddr := .of a } := by
  simp only [execChSetDescAddr, guarded_eq_next, writeStop_eq_none, Host.Outcome.next.injEq] at h
  exact ⟨h.1.1, h.1.2, h.2.symm⟩

theorem execChSetNonsecure_next {n : Chan} {s t : State} (h : execChSetNonsecure n s = .next t) :
    Usable n s ∧ (getCh s n).phase = .idle ∧ t = setSec s n .nonSecure := by
  simp only [execChSetNonsecure, guarded_eq_next, writeStop_eq_none, Host.Outcome.next.injEq] at h
  exact ⟨h.1.1, h.1.2, h.2.symm⟩

theorem execCcuResetAssert_next {s t : State} (h : execCcuResetAssert s = .next t) :
    (∀ n, (getCh s n).phase = .idle) ∧ t = resetEffect s := by
  simp only [execCcuResetAssert, guarded_eq_next, require_eq_none, allIdle_eq_true, Host.Outcome.next.injEq] at h
  exact ⟨h.1, h.2.symm⟩

theorem execBlkAutogateEnable_next {s t : State} (h : execBlkAutogateEnable s = .next t) :
    s.blk.clkOn = .of true ∧ s.blk.inReset = .of false ∧
      t = { s with blk := { s.blk with agMclk := .of .on, agChan := .of .on, agCommon := .of .on } } := by
  simp only [execBlkAutogateEnable, guarded_eq_next, gateStop_eq_none, Host.Outcome.next.injEq] at h
  exact ⟨h.1.1, h.1.2, h.2.symm⟩

/-- What the first piece of `split` can do. -/
theorem splitFrom_next {k : State → Outcome} {s t : State} (h : splitFrom k s = .next t) :
    s.blk.splitDone = false ∧ (∀ n, (getCh s n).phase = .idle) ∧ k (resetEffect s) = .next t := by
  simp only [splitFrom, guarded_eq_next, andThen_eq_next, require_eq_none, Bool.not_eq_true'] at h
  obtain ⟨h0, u, h1, h2⟩ := h
  obtain ⟨hi, rfl⟩ := execCcuResetAssert_next h1
  exact ⟨h0, hi, h2⟩

/-- The block is auto-gated and split, and the channels are handed out. -/
def splitEndEffect (s : State) : State :=
  { s with
    blk := { s.blk with agMclk := .of .on, agChan := .of .on, agCommon := .of .on, splitDone := true }
    cpu := { s.cpu with ret := .dma s.config.nimpl } }

theorem splitEnd_next {s t : State} (h : splitEnd s = .next t) :
    s.blk.clkOn = .of true ∧ s.blk.inReset = .of false ∧ t = splitEndEffect s := by
  simp only [splitEnd, andThen_eq_next, Host.Outcome.next.injEq] at h
  obtain ⟨u, h1, h2⟩ := h
  obtain ⟨h3, h4, rfl⟩ := execBlkAutogateEnable_next h1
  exact ⟨h3, h4, h2.symm⟩

/-- The block as `split` leaves it (45_split.md R220). -/
def splitBlock : Block :=
  { powerOnBlock with
    busy := everyChannel (.of false), agMclk := .of .on, agChan := .of .on, agCommon := .of .on
    clkOn := .of true, inReset := .of false, splitDone := true }

/-- Everything `split` can do: the block as the reset leaves it, alive, auto-gated, split. -/
theorem execSplit_next {s t : State} (h : execSplit s = .next t) :
    s.blk.splitDone = false ∧ (∀ n, (getCh s n).phase = .idle) ∧
      t = { s with
        ch := everyChannel resetChannel
        blk := splitBlock
        cpu := { s.cpu with ret := .dma s.config.nimpl } } := by
  obtain ⟨h0, hi, h⟩ := splitFrom_next h
  simp only [andThen_eq_next, execCcuResetDeassert, execCcuClockEnable, Host.Outcome.next.injEq] at h
  obtain ⟨_, ⟨_, rfl, rfl⟩, h⟩ := h
  obtain ⟨_, _, rfl⟩ := splitEnd_next h
  exact ⟨h0, hi, rfl⟩

/-! Objects, resources, lifecycle. -/

theorem descriptorNewFrom_next {A : Nat} {k : State → Outcome} {s t : State} (h : descriptorNewFrom A k s = .next t) :
    A < 2 ^ 32 - 23 ∧ CpuMayAccess s A 4 ∧ k (storeEffect A (wordBytes freshDesc.config) s) = .next t := by
  simp only [descriptorNewFrom, placeStop, guarded_eq_next, require_eq_none, decide_eq_true_eq, andThen_eq_next,
    storeWord_eq_next] at h
  obtain ⟨h1, u, ⟨h2, rfl⟩, h3⟩ := h
  exact ⟨h1, h2, h3⟩

theorem execDescriptorNew_next {A : Nat} {s t : State} (h : execDescriptorNew A s = .next t) :
    A < 2 ^ 32 - 23 ∧ CpuMayAccess s A 24 ∧ t = storeDesc A freshDesc s := by
  simp only [execDescriptorNew, descriptorNewFrom, placeStop, guarded_eq_next, require_eq_none, decide_eq_true_eq] at h
  exact ⟨h.1, storeDesc_eq_next.1 h.2⟩

theorem execDescriptorAsPtr_next {A : Nat} {s t : State} (h : execDescriptorAsPtr A s = .next t) :
    A < 2 ^ 32 - 23 ∧ t = setRet s (.address A) := by
  simp only [execDescriptorAsPtr, placeStop, guarded_eq_next, require_eq_none, decide_eq_true_eq,
    Host.Outcome.next.injEq] at h
  exact ⟨h.1, h.2.symm⟩

/-- When no model-side check of `mem_to_mem` stops it (41_transfer_resources.md R144). -/
theorem memToMemStop_eq_none {A : Nat} {src dst : Buffer} {s : State} :
    memToMemStop A src dst s = none ↔
      bufferStop s.config src = none ∧ bufferStop s.config dst = none ∧ A + 24 ≤ 2 ^ 32 ∧
        rangeRam s.config A 24 = true ∧ selfOverlap ⟨A, src, dst⟩ = false ∧
        ∀ x ∈ resourceRanges ⟨A, src, dst⟩, touchesPinned s.pinned x.1 x.2 = false := by
  simp only [memToMemStop, descPlaceStop, both_eq_none, require_eq_none, decide_eq_true_eq, Bool.not_eq_true',
    List.any_eq_false, Bool.not_eq_true, and_assoc]

/-- When nothing stops it, the CPU may store to all of the descriptor. -/
theorem mayAccess_of_memToMemStop {A : Nat} {src dst : Buffer} {s : State} (h : memToMemStop A src dst s = none) :
    CpuMayAccess s A 24 := by
  obtain ⟨_, _, _, h1, _, h2⟩ := memToMemStop_eq_none.1 h
  exact ⟨h2 (A, 24) (by simp [resourceRanges]), h1⟩

/-- The resources of `mem_to_mem` exist: the three ranges are pinned. -/
def bindEffect (A : Nat) (src dst : Buffer) (s : State) : State :=
  setRet { s with pinned := ⟨A, src, dst⟩ :: s.pinned } (.resources ⟨A, src, dst⟩)

theorem memToMemFrom_next {A : Nat} {src dst : Buffer} {k : State → Outcome} {s t : State}
    (h : memToMemFrom A src dst k s = .next t) :
    (∃ e, memToMemError A src dst = some e ∧ t = { s with cpu := { s.cpu with run := .aborted e } }) ∨
      (memToMemError A src dst = none ∧ memToMemStop A src dst s = none ∧
        k (storeEffect A (wordBytes (memToMemDesc s.config src dst).config) s) = .next t) := by
  unfold memToMemFrom at h
  split at h
  · rename_i e he
    exact .inl ⟨e, he, raiseError_eq_next.1 h⟩
  · rename_i he
    simp only [guarded_eq_next, andThen_eq_next, storeWord_eq_next] at h
    obtain ⟨h1, u, ⟨_, rfl⟩, h2⟩ := h
    exact .inr ⟨he, h1, h2⟩

theorem bindEnd_next {A : Nat} {src dst : Buffer} {s t : State} (h : bindEnd A src dst s = .next t) :
    CpuMayAccess s (A + 20) 4 ∧ t = bindEffect A src dst (storeEffect (A + 20) (wordBytes linkEnd) s) := by
  simp only [bindEnd, andThen_eq_next, storeWord_eq_next, Host.Outcome.next.injEq] at h
  obtain ⟨u, ⟨h1, rfl⟩, h2⟩ := h
  exact ⟨h1, h2.symm⟩

/-- A raise changes the run state only; else the descriptor is written and the resources exist. -/
theorem execMemToMem_next {A : Nat} {src dst : Buffer} {s t : State} (h : execMemToMem A src dst s = .next t) :
    (∃ e, memToMemError A src dst = some e ∧ t = { s with cpu := { s.cpu with run := .aborted e } }) ∨
      (memToMemError A src dst = none ∧ memToMemStop A src dst s = none ∧
        t = bindEffect A src dst (storeDesc A (memToMemDesc s.config src dst) s)) := by
  rcases memToMemFrom_next h with h | ⟨h1, h2, h3⟩
  · exact .inl h
  · refine .inr ⟨h1, h2, ?_⟩
    simp only [andThen_eq_next, storeMiddle, storeWord_eq_next, storeEffect_config] at h3
    obtain ⟨u5, ⟨u4, ⟨u3, ⟨u2, ⟨_, rfl⟩, _, rfl⟩, _, rfl⟩, _, rfl⟩, h3⟩ := h3
    exact (bindEnd_next h3).2

theorem execResFree_next {r : Resources} {s t : State} (h : execResFree r s = .next t) :
    r ∈ s.pinned ∧ (∀ n, getLife s n ≠ .ready r ∧ getLife s n ≠ .started r) ∧
      t = setRet { s with pinned := s.pinned.filter (fun q => decide (q ≠ r)) } (.parts r.desc r.src r.dst) := by
  simp only [execResFree, guarded_eq_next, require_eq_none, inCallersHands_eq_true, Host.Outcome.next.injEq] at h
  exact ⟨h.1.1, h.1.2, h.2.symm⟩

/-- The raise of a lifecycle operation, the first disjunct of each lemma below. -/
abbrev Violates (op : LifeOp) (n : Chan) (s t : State) : Prop :=
  t = { s with cpu := { s.cpu with run := .aborted (.lifecycleViolation op (getLife s n)) } }

theorem transferNewFrom_next {r : Resources} {n : Chan} {k : State → Outcome} {s t : State}
    (h : transferNewFrom r n k s = .next t) :
    Violates .new n s t ∨
      (getLife s n = .free ∧ r ∈ s.pinned ∧ (∀ m, getLife s m ≠ .ready r ∧ getLife s m ≠ .started r) ∧
        Usable n s ∧ (getCh s n).phase = .idle ∧ k (setSec s n .nonSecure) = .next t) := by
  simp only [transferNewFrom, lifecycleChecked_eq_next, decide_eq_true_eq, guarded_eq_next, require_eq_none,
    inCallersHands_eq_true, andThen_eq_next] at h
  rcases h with ⟨h1, ⟨h2, h3⟩, u, h4, h5⟩ | ⟨_, h⟩
  · obtain ⟨hu, hp, rfl⟩ := execChSetNonsecure_next h4
    exact .inr ⟨h1, h2, h3, hu, hp, h5⟩
  · exact .inl h

/-- The channel carries the new transfer: the descriptor address is programmed (44_transfer_lifecycle.md R201). -/
def readyEffect (r : Resources) (n : Chan) (s : State) : State :=
  setRet (setLife (setCh s n { getCh s n with descAddr := .of (BitVec.ofNat 32 r.desc) }) n (.ready r))
    (.transfer ⟨r, .ready⟩)

theorem newAddr_next {r : Resources} {n : Chan} {s t : State} (h : newAddr r n s = .next t) :
    Usable n s ∧ (getCh s n).phase = .idle ∧ t = readyEffect r n s := by
  simp only [newAddr, andThen_eq_next, Host.Outcome.next.injEq] at h
  obtain ⟨u, h1, h2⟩ := h
  obtain ⟨hu, hp, rfl⟩ := execChSetDescAddr_next h1
  exact ⟨hu, hp, h2.symm⟩

theorem execTransferNew_next {r : Resources} {n : Chan} {s t : State} (h : execTransferNew r n s = .next t) :
    Violates .new n s t ∨
      (getLife s n = .free ∧ r ∈ s.pinned ∧ (∀ m, getLife s m ≠ .ready r ∧ getLife s m ≠ .started r) ∧
        Usable n s ∧ (getCh s n).phase = .idle ∧ t = readyEffect r n (setSec s n .nonSecure)) := by
  rcases transferNewFrom_next h with h | ⟨h1, h2, h3, h4, h5, h6⟩
  · exact .inl h
  · exact .inr ⟨h1, h2, h3, h4, h5, (newAddr_next h6).2.2⟩

theorem transferStartFrom_next {x : Transfer} {n : Chan} {k : State → Outcome} {s t : State}
    (h : transferStartFrom x n k s = .next t) :
    Violates .start n s t ∨ (x.state = .ready ∧ getLife s n = .ready x.res ∧ k (fenceEffect s) = .next t) := by
  simp only [transferStartFrom, lifecycleChecked_eq_next, isReady_eq_true] at h
  rcases h with ⟨⟨h1, h2⟩, h3⟩ | ⟨_, h⟩
  · exact .inr ⟨h1, h2, h3⟩
  · exact .inl h

/-- The engine is started and the transfer with it (44_transfer_lifecycle.md R202). -/
def startEffect (x : Transfer) (n : Chan) (s : State) : State :=
  setRet (setLife (enableEffect n s) n (.started x.res)) (.transfer ⟨x.res, .started⟩)

theorem startEnable_next {x : Transfer} {n : Chan} {s t : State} (h : startEnable x n s = .next t) :
    Usable n s ∧ (getCh s n).phase = .idle ∧ (getCh s n).descAddr ≠ .unset ∧ getSec s n = .of .nonSecure ∧
      t = startEffect x n s := by
  simp only [startEnable, andThen_eq_next, Host.Outcome.next.injEq] at h
  obtain ⟨u, h1, h2⟩ := h
  obtain ⟨hu, hp, hd, hs, rfl⟩ := execChEnable_next h1
  exact ⟨hu, hp, hd, hs, h2.symm⟩

theorem execTransferStart_next {x : Transfer} {n : Chan} {s t : State} (h : execTransferStart x n s = .next t) :
    Violates .start n s t ∨
      (x.state = .ready ∧ getLife s n = .ready x.res ∧ Usable n s ∧ (getCh s n).phase = .idle ∧
        (getCh s n).descAddr ≠ .unset ∧ getSec s n = .of .nonSecure ∧ t = startEffect x n (fenceEffect s)) := by
  rcases transferStartFrom_next h with h | ⟨h1, h2, h3⟩
  · exact .inl h
  · exact .inr ⟨h1, h2, startEnable_next h3⟩

/-- A wait whose channel is busy: the timeout of a bounded one, or another poll. -/
abbrev PollsOn (x : Transfer) (n : Chan) (s t : State) : Prop :=
  t = setRet s (.timeout x) ∨ ∃ left, t = pushRest s [.poll x n left]

theorem transferWaitFrom_next {x : Transfer} {n : Chan} {k : State → Outcome} {s t : State}
    (h : transferWaitFrom x n k s = .next t) :
    Violates .wait n s t ∨
      (x.state = .started ∧ getLife s n = .started x.res ∧ Usable n s ∧
        ((getBusy s n = .of false ∧ k s = .next t) ∨ (getBusy s n = .of true ∧ PollsOn x n s t))) := by
  simp only [transferWaitFrom, lifecycleChecked_eq_next, isStarted_eq_true] at h
  rcases h with ⟨⟨h1, h2⟩, h3⟩ | ⟨_, h⟩
  · exact .inr ⟨h1, h2, pollOnce_next h3⟩
  · exact .inl h

/-- One poll of `wait`: the violation, the end of the wait, or a busy poll. -/
theorem execTransferWait_next {x : Transfer} {n : Chan} {s t : State} (h : execTransferWait x n s = .next t) :
    Violates .wait n s t ∨
      (x.state = .started ∧ getLife s n = .started x.res ∧ Usable n s ∧
        ((getBusy s n = .of false ∧ t = waitDone x n s) ∨ (getBusy s n = .of true ∧ PollsOn x n s t))) := by
  rcases transferWaitFrom_next h with h | ⟨h1, h2, h3, ⟨h4, h5⟩ | h4⟩
  · exact .inl h
  · exact .inr ⟨h1, h2, h3, .inl ⟨h4, (Host.Outcome.next.inj h5).symm⟩⟩
  · exact .inr ⟨h1, h2, h3, .inr h4⟩

theorem transferWaitBoundedFrom_next {x : Transfer} {n : Chan} {L : Nat} {k : State → Outcome} {s t : State}
    (h : transferWaitBoundedFrom x n L k s = .next t) :
    Violates .wait n s t ∨
      (x.state = .started ∧ getLife s n = .started x.res ∧ Usable n s ∧
        ((getBusy s n = .of false ∧ k s = .next t) ∨ (getBusy s n = .of true ∧ PollsOn x n s t))) := by
  simp only [transferWaitBoundedFrom, guarded_eq_next, lifecycleChecked_eq_next, isStarted_eq_true] at h
  rcases h with ⟨_, ⟨⟨h1, h2⟩, h3⟩ | ⟨_, h⟩⟩
  · exact .inr ⟨h1, h2, pollOnce_next h3⟩
  · exact .inl h

/-- One poll of `wait_bounded`: the violation, the end of the wait, a busy poll, or the timeout. -/
theorem execTransferWaitBounded_next {x : Transfer} {n : Chan} {L : Nat} {s t : State}
    (h : execTransferWaitBounded x n L s = .next t) :
    Violates .wait n s t ∨
      (x.state = .started ∧ getLife s n = .started x.res ∧ Usable n s ∧
        ((getBusy s n = .of false ∧ t = waitDone x n s) ∨ (getBusy s n = .of true ∧ PollsOn x n s t))) := by
  rcases transferWaitBoundedFrom_next h with h | ⟨h1, h2, h3, ⟨h4, h5⟩ | h4⟩
  · exact .inl h
  · exact .inr ⟨h1, h2, h3, .inl ⟨h4, (Host.Outcome.next.inj h5).symm⟩⟩
  · exact .inr ⟨h1, h2, h3, .inr h4⟩

theorem execTransferIsActive_next {x : Transfer} {n : Chan} {s t : State}
    (h : execTransferIsActive x n s = .next t) :
    Violates .isActive n s t ∨
      (x.state = .started ∧ getLife s n = .started x.res ∧ Usable n s ∧
        ∃ b, getBusy s n = .of b ∧ t = setRet s (.active b)) := by
  simp only [execTransferIsActive, lifecycleChecked_eq_next, isStarted_eq_true] at h
  rcases h with ⟨⟨h1, h2⟩, h3⟩ | ⟨_, h⟩
  · exact .inr ⟨h1, h2, execChIsActive_next h3⟩
  · exact .inl h

/-! The CPU's memory operations and the drain. -/

theorem execDrain_next {j : Nat} {s t : State} (h : execDrain j s = .next t) :
    eligible s.cpu.sb j = true ∧ t = drainEffect j s := by
  simp only [execDrain, guarded_eq_next, require_eq_none, Host.Outcome.next.injEq] at h
  exact ⟨h.1, h.2.symm⟩

theorem cpuLoad_next {a pick : Nat} {w : Width} {s t : State} (h : cpuLoad a w pick s = .next t) :
    CpuMayAccess s a w.bytes ∧ ∃ bs, loadBytes s a pick 0 w.bytes = some bs ∧ t = setRet s (.loaded (leValue bs)) := by
  simp only [cpuLoad, guarded_eq_next, accessStop_eq_none] at h
  obtain ⟨h1, h2⟩ := h
  split at h2
  · simp at h2
  · rename_i bs hb
    exact ⟨h1, bs, hb, by simpa [eq_comm] using h2⟩

theorem cpuStore_next {a v : Nat} {w : Width} {s t : State} (h : cpuStore a w v s = .next t) :
    CpuMayAccess s a w.bytes ∧ t = storeEffect a (leBytes w.bytes v) s := by
  simp only [cpuStore, guarded_eq_next, accessStop_eq_none, Host.Outcome.next.injEq] at h
  exact ⟨h.1, h.2.symm⟩

/-- A command a raw access encodes is one CPU step. -/
theorem decodeAccess_expands {m : RegMap} {r : RegAccess} {i : Instr} (h : decodeAccess m r = .command i) :
    expands i = false := by
  unfold decodeAccess at h
  repeat' split at h
  all_goals first | (simp at h; done) | (obtain rfl := AccessMeaning.command.inj h; rfl)

/-- A raw access that answers a next state is a command, the setting of one auto-gating field, or the read of a status bit
that is not described. -/
theorem cpuAccess_next {r : RegAccess} {pick : Nat} {s t : State} (h : cpuAccess r pick s = .next t) :
    (∃ i, decodeAccess s.config.regMap r = .command i ∧ exec i s = .next t) ∨
      (∃ g, s.blk.clkOn = .of true ∧ s.blk.inReset = .of false ∧ t = setGate s g) ∨
      ∃ b, t = setRet s (.statusBit b) := by
  unfold cpuAccess at h
  split at h
  · rename_i i hi
    exact .inl ⟨i, hi, h⟩
  · rename_i g hg
    simp only [gateAccess, guarded_eq_next, gateStop_eq_none, Host.Outcome.next.injEq] at h
    exact .inr (.inl ⟨g, h.1.1, h.1.2, h.2.symm⟩)
  · simp only [statusAccess, guarded_eq_next, Host.Outcome.next.injEq] at h
    exact .inr (.inr ⟨_, h.2.symm⟩)
  · simp at h

/-- What an operation that expands to several CPU steps does in its first one and leaves for later (30_encoding.md R108):
`u` is the state the first step leaves, `rs` the steps left. -/
inductive FirstPiece (s : State) : State → List Rest → Prop
  | freshStore (A : Nat) (may : CpuMayAccess s A 4) :
      FirstPiece s (storeEffect A (wordBytes freshDesc.config) s)
        (middleRest A freshDesc ++ [.store (A + 20) freshDesc.nextAddr])
  | bindStore (A : Nat) (src dst : Buffer) (go : memToMemStop A src dst s = none) :
      FirstPiece s (storeEffect A (wordBytes (memToMemDesc s.config src dst).config) s)
        (middleRest A (memToMemDesc s.config src dst) ++ [.bind A src dst])
  | domain (r : Resources) (n : Chan) (free : getLife s n = .free) (hands : inCallersHands s r = true) (use : Usable n s)
      (idle : (getCh s n).phase = .idle) : FirstPiece s (setSec s n .nonSecure) [.newAddr r n]
  | fence (x : Transfer) (n : Chan) (life : getLife s n = .ready x.res) : FirstPiece s (fenceEffect s) [.startEnable x n]
  | lastPoll (x : Transfer) (n : Chan) (life : getLife s n = .started x.res) (idle : getBusy s n = .of false) :
      FirstPiece s s [.waitEnd x n]
  | busyPoll (x : Transfer) (n : Chan) (left : Option Nat) (life : getLife s n = .started x.res)
      (busy : getBusy s n = .of true) : FirstPiece s s [.poll x n left]
  | reset (idle : ∀ n, (getCh s n).phase = .idle) : FirstPiece s (resetEffect s) [.release, .clock, .gates]

/-- Everything the first CPU step of an instruction can do: all of it, a raise, a timeout, or the first piece. -/
theorem cpuInstr_next {i : Instr} {s t : State} (h : cpuInstr i s = .next t) :
    (expands i = false ∧ exec i s = .next t) ∨ (∃ e, t = { s with cpu := { s.cpu with run := .aborted e } }) ∨ (∃ x, t = setRet s (.timeout x)) ∨
      ∃ u rs, FirstPiece s u rs ∧ t = pushRest u rs := by
  unfold cpuInstr at h
  split at h
  · obtain ⟨_, h2, h3⟩ := descriptorNewFrom_next h
    exact .inr (.inr (.inr ⟨_, _, .freshStore _ h2, (Host.Outcome.next.inj h3).symm⟩))
  · rcases memToMemFrom_next h with ⟨e, _, rfl⟩ | ⟨_, h2, h3⟩
    · exact .inr (.inl ⟨e, rfl⟩)
    · exact .inr (.inr (.inr ⟨_, _, .bindStore _ _ _ h2, (Host.Outcome.next.inj h3).symm⟩))
  · rcases transferNewFrom_next h with rfl | ⟨h1, h2, h3, h4, h5, h6⟩
    · exact .inr (.inl ⟨_, rfl⟩)
    · exact .inr (.inr (.inr ⟨_, _, .domain _ _ h1 (inCallersHands_eq_true.2 ⟨h2, h3⟩) h4 h5,
        (Host.Outcome.next.inj h6).symm⟩))
  · rcases transferStartFrom_next h with rfl | ⟨_, h2, h3⟩
    · exact .inr (.inl ⟨_, rfl⟩)
    · exact .inr (.inr (.inr ⟨_, _, .fence _ _ h2, (Host.Outcome.next.inj h3).symm⟩))
  · rcases transferWaitFrom_next h with rfl | ⟨_, h2, _, ⟨h3, h4⟩ | ⟨h3, rfl | ⟨left, rfl⟩⟩⟩
    · exact .inr (.inl ⟨_, rfl⟩)
    · exact .inr (.inr (.inr ⟨_, _, .lastPoll _ _ h2 h3, (Host.Outcome.next.inj h4).symm⟩))
    · exact .inr (.inr (.inl ⟨_, rfl⟩))
    · exact .inr (.inr (.inr ⟨_, _, .busyPoll _ _ left h2 h3, rfl⟩))
  · rcases transferWaitBoundedFrom_next h with rfl | ⟨_, h2, _, ⟨h3, h4⟩ | ⟨h3, rfl | ⟨left, rfl⟩⟩⟩
    · exact .inr (.inl ⟨_, rfl⟩)
    · exact .inr (.inr (.inr ⟨_, _, .lastPoll _ _ h2 h3, (Host.Outcome.next.inj h4).symm⟩))
    · exact .inr (.inr (.inl ⟨_, rfl⟩))
    · exact .inr (.inr (.inr ⟨_, _, .busyPoll _ _ left h2 h3, rfl⟩))
  · obtain ⟨_, h2, h3⟩ := splitFrom_next h
    exact .inr (.inr (.inr ⟨_, _, .reset h2, (Host.Outcome.next.inj h3).symm⟩))
  · rename_i h1 h2 h3 h4 h5 h6 h7
    refine .inl ⟨?_, h⟩
    cases i <;> first
      | rfl
      | exact absurd rfl (h1 _)
      | exact absurd rfl (h2 _ _ _)
      | exact absurd rfl (h3 _ _)
      | exact absurd rfl (h4 _ _)
      | exact absurd rfl (h5 _ _)
      | exact absurd rfl (h6 _ _ _)
      | exact absurd rfl h7

/-- Everything a later CPU step of an operation can do. -/
theorem runRest_next {r : Rest} {s t : State} (h : runRest r s = .next t) :
    (∃ a v, r = .store a v ∧ CpuMayAccess s a 4 ∧ t = storeEffect a (wordBytes v) s) ∨
      (∃ A src dst, r = .bind A src dst ∧ CpuMayAccess s (A + 20) 4 ∧
        t = bindEffect A src dst (storeEffect (A + 20) (wordBytes linkEnd) s)) ∨
      (∃ q n, r = .newAddr q n ∧ Usable n s ∧ (getCh s n).phase = .idle ∧ t = readyEffect q n s) ∨
      (∃ x n, r = .startEnable x n ∧ Usable n s ∧ (getCh s n).phase = .idle ∧ (getCh s n).descAddr ≠ .unset ∧
        getSec s n = .of .nonSecure ∧ t = startEffect x n s) ∨
      (∃ x n left, r = .poll x n left ∧ Usable n s ∧
        ((getBusy s n = .of false ∧ t = pushRest s [.waitEnd x n]) ∨ (getBusy s n = .of true ∧ PollsOn x n s t))) ∨
      (∃ x n, r = .waitEnd x n ∧ t = waitDone x n s) ∨
      (r = .release ∧ t = { s with blk := { s.blk with inReset := .of false } }) ∨
      (r = .clock ∧ t = { s with blk := { s.blk with clkOn := .of true } }) ∨
      (r = .gates ∧ s.blk.clkOn = .of true ∧ s.blk.inReset = .of false ∧ t = splitEndEffect s) := by
  cases r with
  | store a v => exact .inl ⟨a, v, rfl, storeWord_eq_next.1 h⟩
  | bind A src dst => exact .inr (.inl ⟨A, src, dst, rfl, bindEnd_next h⟩)
  | newAddr q n => exact .inr (.inr (.inl ⟨q, n, rfl, newAddr_next h⟩))
  | startEnable x n => exact .inr (.inr (.inr (.inl ⟨x, n, rfl, startEnable_next h⟩)))
  | poll x n left =>
    obtain ⟨h1, h2⟩ := pollOnce_next h
    refine .inr (.inr (.inr (.inr (.inl ⟨x, n, left, rfl, h1, ?_⟩))))
    exact h2.imp_left (fun h => ⟨h.1, (Host.Outcome.next.inj h.2).symm⟩)
  | waitEnd x n => exact .inr (.inr (.inr (.inr (.inr (.inl ⟨x, n, rfl, (Host.Outcome.next.inj h).symm⟩)))))
  | release => exact .inr (.inr (.inr (.inr (.inr (.inr (.inl ⟨rfl, (Host.Outcome.next.inj h).symm⟩))))))
  | clock => exact .inr (.inr (.inr (.inr (.inr (.inr (.inr (.inl ⟨rfl, (Host.Outcome.next.inj h).symm⟩)))))))
  | gates => exact .inr (.inr (.inr (.inr (.inr (.inr (.inr (.inr ⟨rfl, splitEnd_next h⟩)))))))

/-- Everything one operation of the CPU's program can do in its first step. -/
theorem cpuOp_next {op : CpuOp} {pick : Nat} {s t : State} (h : cpuOp op pick s = .next t) :
    (∃ i, cpuInstr i s = .next t) ∨ (∃ i, expands i = false ∧ exec i s = .next t) ∨ (∃ a w, cpuLoad a w pick s = .next t) ∨
      (∃ a w v, cpuStore a w v s = .next t) ∨
      (∃ g, s.blk.clkOn = .of true ∧ s.blk.inReset = .of false ∧ t = setGate s g) ∨
      ∃ b, t = setRet s (.statusBit b) := by
  unfold cpuOp at h
  split at h
  · exact .inl ⟨_, h⟩
  · exact .inr (.inr (.inl ⟨_, _, h⟩))
  · exact .inr (.inr (.inr (.inl ⟨_, _, _, h⟩)))
  · rcases cpuAccess_next h with ⟨i, hi, h⟩ | h
    · exact .inr (.inl ⟨i, decodeAccess_expands hi, h⟩)
    · exact .inr (.inr (.inr (.inr h)))
  · simp at h

end Sys2Proof.Machine
end

