-- ==== Sys2Proof/Laws/Effect.lean ====
section
/-! SUPPORT. What all instructions together can do: 25 effects. A statement about every instruction is proved by cases over
these, not over the 47 constructors. -/

namespace Sys2Proof.Machine

open Sys2Proof.Safety

/-- `Effect i s t`: instruction `i` takes `s` to `t` in one of these ways. -/
inductive Effect : Instr → State → State → Prop
  | engineFaults (i : Instr) (n : Chan) (s : State) (notSoft : instrIsSoftware i = false) (notDrain : ∀ j, i ≠ .drain j)
      (fetch : (getCh s n).phase = .fetch) (alive : Live n s) : Effect i s (engineFault n .misalignedDescriptor s)
  | fetchesWord (n : Chan) (j : Fin 6) (s : State) (w : Word) (fetch : (getCh s n).phase = .fetch) (alive : Live n s)
      (unread : fwGet (getCh s n).fw j = none) :
      Effect (.engFetch n j) s (setCh s n { getCh s n with fw := fwSet (getCh s n).fw j w })
  | latches (i : Instr) (n : Chan) (s : State) (d : Desc) (a : Word) (notSoft : instrIsSoftware i = false)
      (notDrain : ∀ j, i ≠ .drain j) (fetch : (getCh s n).phase = .fetch) (alive : Live n s)
      (pointer : (getCh s n).dptr = .of a) (adm : admitted s.config.layout d a.toNat = true)
      (apart : descShares n d a.toNat s = false) : Effect i s (latchEffect n d s)
  | moves (i : Instr) (n : Chan) (k : Nat) (s : State) (src dst left : Word) (v : List Byte)
      (which : i = .engMove n k ∨ ∃ ws wd sb db, i = m2mInstr n ws wd sb db) (moving : Moving n s src dst left)
      (pos : 1 ≤ k) (le : k ≤ left.toNat) (srcRam : rangeRam s.config src.toNat k = true)
      (dstRam : rangeRam s.config dst.toNat k = true) (read : memReadBytes s.mem src.toNat k = some v) :
      Effect i s (advance n src dst left k (engineWrite s dst.toNat v))
  | links (i : Instr) (n : Chan) (a : Word) (s : State) (notSoft : instrIsSoftware i = false)
      (notDrain : ∀ j, i ≠ .drain j) (fin : Finished n s a) (ne : a ≠ linkEnd) : Effect i s (linkEffect n a s)
  | completes (i : Instr) (n : Chan) (s : State) (which : i = .engComplete n ∨ i = .linkEnd n)
      (fin : Finished n s linkEnd) : Effect i s (completeEffect n s)
  | drains (j : Nat) (s : State) (can : eligible s.cpu.sb j = true) : Effect (.drain j) s (drainEffect j s)
  | enables (n : Chan) (s : State) (use : Usable n s) (idle : (getCh s n).phase = .idle)
      (addr : (getCh s n).descAddr ≠ .unset) (dom : getSec s n = .of .nonSecure) : Effect (.chEnable n) s (enableEffect n s)
  | setsAddr (n : Chan) (a : Word) (s : State) (use : Usable n s) (idle : (getCh s n).phase = .idle) :
      Effect (.chSetDescAddr n a) s (setCh s n { getCh s n with descAddr := .of a })
  | setsDomain (n : Chan) (s : State) (use : Usable n s) (idle : (getCh s n).phase = .idle) :
      Effect (.chSetNonsecure n) s (setSec s n .nonSecure)
  | autogates (s : State) (clk : s.blk.clkOn = .of true) (rel : s.blk.inReset = .of false) :
      Effect .blkAutogateEnable s
        { s with blk := { s.blk with agMclk := .of .on, agChan := .of .on, agCommon := .of .on } }
  | resets (s : State) (idle : ∀ n, (getCh s n).phase = .idle) : Effect .ccuResetAssert s (resetEffect s)
  | releases (s : State) : Effect .ccuResetDeassert s { s with blk := { s.blk with inReset := .of false } }
  | clocks (s : State) : Effect .ccuClockEnable s { s with blk := { s.blk with clkOn := .of true } }
  | splits (s : State) (first : s.blk.splitDone = false) (idle : ∀ n, (getCh s n).phase = .idle) :
      Effect .split s { s with
        ch := everyChannel resetChannel
        blk := splitBlock
        cpu := { s.cpu with ret := .dma s.config.nimpl } }
  | fences (s : State) : Effect .fence s (fenceEffect s)
  | storesFresh (A : Nat) (s : State) (may : CpuMayAccess s A 24) :
      Effect (.descriptorNew A) s (storeDesc A freshDesc s)
  | returns (i : Instr) (s : State) (v : Ret) (soft : instrIsSoftware i = true) : Effect i s (setRet s v)
  | raises (i : Instr) (s : State) (e : CpuError) (soft : instrIsSoftware i = true) :
      Effect i s { s with cpu := { s.cpu with run := .aborted e } }
  | binds (A : Nat) (src dst : Buffer) (s : State) (ok : memToMemError A src dst = none)
      (go : memToMemStop A src dst s = none) :
      Effect (.memToMem A src dst) s (bindEffect A src dst (storeDesc A (memToMemDesc s.config src dst) s))
  | frees (r : Resources) (s : State) (pin : r ∈ s.pinned)
      (held : ∀ n, getLife s n ≠ .ready r ∧ getLife s n ≠ .started r) :
      Effect (.resFree r) s
        (setRet { s with pinned := s.pinned.filter (fun q => decide (q ≠ r)) } (.parts r.desc r.src r.dst))
  | readies (r : Resources) (n : Chan) (s : State) (free : getLife s n = .free) (pin : r ∈ s.pinned)
      (held : ∀ m, getLife s m ≠ .ready r ∧ getLife s m ≠ .started r) (use : Usable n s)
      (idle : (getCh s n).phase = .idle) :
      Effect (.transferNew r n) s (readyEffect r n (setSec s n .nonSecure))
  | starts (x : Transfer) (n : Chan) (s : State) (ready : x.state = .ready) (life : getLife s n = .ready x.res)
      (use : Usable n s) (idle : (getCh s n).phase = .idle) (addr : (getCh s n).descAddr ≠ .unset)
      (dom : getSec s n = .of .nonSecure) :
      Effect (.transferStart x n) s (startEffect x n (fenceEffect s))
  | polls (i : Instr) (s : State) (x : Transfer) (n : Chan) (left : Option Nat) (started : x.state = .started)
      (life : getLife s n = .started x.res) (busy : getBusy s n = .of true)
      (which : i = .transferWait x n ∨ ∃ k, i = .transferWaitBounded x n k) : Effect i s (pushRest s [.poll x n left])
  | waitEnds (i : Instr) (x : Transfer) (n : Chan) (s : State) (started : x.state = .started)
      (life : getLife s n = .started x.res) (idle : getBusy s n = .of false)
      (which : i = .transferWait x n ∨ ∃ k, i = .transferWaitBounded x n k) : Effect i s (waitDone x n s)

theorem moveForm_effect {ws wd : Width} {n : Chan} {sb db : BitVec 2} {s t : State}
    (h : moveForm ws wd n sb db s = .next t) : Effect (m2mInstr n ws wd sb db) s t := by
  obtain ⟨_, l, _, h⟩ := moveForm_next h
  obtain ⟨src, dst, left, v, h1, h2, h3, h4, h5, h6, rfl⟩ := execEngMove_next h
  exact .moves _ n _ s src dst left v (.inr ⟨_, _, _, _, rfl⟩) h1 h2 h3 h4 h5 h6

/-- What moves bytes is neither written by software nor a drain. -/
theorem moves_which {i : Instr} {n : Chan} {k : Nat} (h : i = .engMove n k ∨ ∃ ws wd sb db, i = m2mInstr n ws wd sb db) :
    instrIsSoftware i = false ∧ ∀ j, i ≠ .drain j := by
  rcases h with rfl | ⟨ws, wd, sb, db, rfl⟩
  · exact ⟨rfl, fun _ h => Instr.noConfusion h⟩
  · cases ws <;> cases wd <;> exact ⟨rfl, fun _ h => Instr.noConfusion h⟩

/-- Everything an instruction can do when it answers a next state. -/
theorem exec_effect {i : Instr} {s t : State} (h : exec i s = .next t) : Effect i s t := by
  cases i <;> simp only [exec] at h <;> try exact moveForm_effect h
  · obtain ⟨h1, h2, ⟨a, h3, h4, rfl⟩ | ⟨a, h3, _, h4, h5, rfl⟩⟩ := execDesc_next h
    · exact .engineFaults _ _ _ rfl (by simp) h1 h2
    · exact .latches _ _ _ _ a rfl (by simp) h1 h2 h3.2.2.1 h4 h5
  · obtain ⟨h1, rfl⟩ := execLinkEnd_next h
    exact .completes _ _ _ (.inr rfl) h1
  · obtain ⟨h1, h2, rfl⟩ := execLinkNext_next h
    exact .links _ _ _ _ rfl (by simp) h1 h2
  · obtain ⟨h1, h2, h3, h4, rfl⟩ := execChEnable_next h
    exact .enables _ _ h1 h2 h3 h4
  · obtain ⟨h1, b, h2, rfl⟩ := execChIsActive_next h
    exact .returns _ _ _ rfl
  · obtain ⟨h1, h2, rfl⟩ := execChSetDescAddr_next h
    exact .setsAddr _ _ _ h1 h2
  · obtain ⟨h1, h2, rfl⟩ := execChSetNonsecure_next h
    exact .setsDomain _ _ h1 h2
  · obtain ⟨h1, h2, rfl⟩ := execBlkAutogateEnable_next h
    exact .autogates _ h1 h2
  · obtain ⟨h1, rfl⟩ := execCcuResetAssert_next h
    exact .resets _ h1
  · obtain rfl := Host.Outcome.next.inj h
    exact .releases _
  · obtain rfl := Host.Outcome.next.inj h
    exact .clocks _
  · obtain rfl := Host.Outcome.next.inj h
    exact .fences _
  · obtain ⟨h1, h2, rfl⟩ := execDescriptorNew_next h
    exact .storesFresh _ _ h2
  · obtain ⟨h1, rfl⟩ := execDescriptorAsPtr_next h
    exact .returns _ _ _ rfl
  · obtain rfl := Host.Outcome.next.inj h
    exact .returns _ _ _ rfl
  · obtain rfl := Host.Outcome.next.inj h
    exact .returns _ _ _ rfl
  · obtain rfl := Host.Outcome.next.inj h
    exact .returns _ _ _ rfl
  · obtain ⟨e, he, rfl⟩ | ⟨h1, h2, rfl⟩ := execMemToMem_next h
    · exact .raises _ _ _ rfl
    · exact .binds _ _ _ _ h1 h2
  · obtain ⟨h1, h2, rfl⟩ := execResFree_next h
    exact .frees _ _ h1 h2
  · obtain rfl | ⟨h1, h2, h3, h4, h5, rfl⟩ := execTransferNew_next h
    · exact .raises _ _ _ rfl
    · exact .readies _ _ _ h1 h2 h3 h4 h5
  · obtain rfl | ⟨h1, h2, h3, h4, h5, h6, rfl⟩ := execTransferStart_next h
    · exact .raises _ _ _ rfl
    · exact .starts _ _ _ h1 h2 h3 h4 h5 h6
  · obtain rfl | ⟨h1, h2, h3, ⟨h4, rfl⟩ | ⟨h4, rfl | ⟨left, rfl⟩⟩⟩ := execTransferWait_next h
    · exact .raises _ _ _ rfl
    · exact .waitEnds _ _ _ _ h1 h2 h4 (.inl rfl)
    · exact .returns _ _ _ rfl
    · exact .polls _ _ _ _ _ h1 h2 h4 (.inl rfl)
  · obtain rfl | ⟨h1, h2, h3, b, h4, rfl⟩ := execTransferIsActive_next h
    · exact .raises _ _ _ rfl
    · exact .returns _ _ _ rfl
  · obtain rfl | ⟨h1, h2, h3, ⟨h4, rfl⟩ | ⟨h4, rfl | ⟨left, rfl⟩⟩⟩ := execTransferWaitBounded_next h
    · exact .raises _ _ _ rfl
    · exact .waitEnds _ _ _ _ h1 h2 h4 (.inr ⟨_, rfl⟩)
    · exact .returns _ _ _ rfl
    · exact .polls _ _ _ _ _ h1 h2 h4 (.inr ⟨_, rfl⟩)
  · obtain ⟨h1, h2, rfl⟩ := execSplit_next h
    exact .splits _ h1 h2
  · obtain ⟨h1, h2, h3, ⟨a, h4, h5, rfl⟩ | ⟨a, w, h4, h5, h6, h7, h8, h9, rfl⟩⟩ := execEngFetch_next h
    · exact .engineFaults _ _ _ rfl (by simp) h1 h2
    · exact .fetchesWord _ _ _ _ h1 h2 h3
  · obtain ⟨h1, h2, d, a, h3, h4, h5, h6, rfl⟩ := execEngDecode_next h
    exact .latches _ _ _ _ a rfl (by simp) h1 h2 h4 h5 h6
  · obtain ⟨src, dst, left, v, h1, h2, h3, h4, h5, h6, rfl⟩ := execEngMove_next h
    exact .moves _ _ _ _ _ _ _ _ (.inl rfl) h1 h2 h3 h4 h5 h6
  · obtain ⟨a, h1, h2, rfl⟩ := execEngLink_next h
    exact .links _ _ _ _ rfl (by simp) h1 h2
  · obtain ⟨h1, rfl⟩ := execEngComplete_next h
    exact .completes _ _ _ (.inl rfl) h1
  · obtain ⟨h1, rfl⟩ := execDrain_next h
    exact .drains _ _ h1

/-- A drain moves bytes from the store buffer to memory and touches nothing else. -/
theorem drainEffect_fields (j : Nat) (s : State) :
    (drainEffect j s).config = s.config ∧ (drainEffect j s).ch = s.ch ∧ (drainEffect j s).blk = s.blk ∧
      (drainEffect j s).life = s.life ∧ (drainEffect j s).pinned = s.pinned ∧
      (drainEffect j s).cpu.stale = s.cpu.stale ∧ (drainEffect j s).cpu.run = s.cpu.run ∧
      (drainEffect j s).cpu.prog = s.cpu.prog ∧ (drainEffect j s).cpu.doing = s.cpu.doing ∧ (drainEffect j s).cpu.ret = s.cpu.ret := by
  unfold drainEffect
  split <;> simp

end Sys2Proof.Machine
end

