-- ==== Sys2Proof/Tests/Slice0.lean ====
section
/-! SUPPORT. The author's own tests. Expected values are from 95_test_vectors.md (V1 to V73, PG1) or worked out by hand
from the rule named. `test_wf_…` is the WellFormed smoke test, `test_decode_…` words written out from 30_encoding.md,
`test_exec_…` and `test_step_…` one instruction or one step, `witness_<Obligation>_<clause>` a state and operands that meet
the hypotheses of a statement. -/

namespace Sys2Proof.Tests

open Sys2Proof Sys2Proof.Machine Sys2Proof.Safety

/-! ## Helpers -/

/-- The next state, if there is one. -/
def nextOf : Outcome → Option State
  | .next s => some s
  | .fault _ => none
  | .refused _ => none

/-- The refusal, if there is one. -/
def refusalOf : Outcome → Option Refusal
  | .next _ => none
  | .fault _ => none
  | .refused r => some r

/-- The fault, if there is one. -/
def faultOf : Outcome → Option Fault
  | .next _ => none
  | .fault f => some f
  | .refused _ => none

/-- One field of the next state. -/
def nextField {α : Type} (f : State → α) (o : Outcome) : Option α := (nextOf o).map f

/-- The instruction a fetch gives, if it gives one. -/
def fetchedInstr : Fetched → Option Instr
  | .instr i => some i
  | .nothing => none
  | .misaligned => none
  | .refuse _ => none

/-- The instruction a decode gives, if it gives one. -/
def decodedOk (e : Except DecodeError Instr) : Option Instr :=
  match e with
  | .ok i => some i
  | .error _ => none

/-- The error a decode gives, if it gives one. -/
def decodedError (e : Except DecodeError Instr) : Option DecodeError :=
  match e with
  | .ok _ => none
  | .error e => some e

/-- After `split` (V60): the block is up, channel 0 is handed out. -/
def stUp : State :=
  { State.reset with
    ch := everyChannel resetChannel
    blk := { powerOnBlock with
      busy := everyChannel (.of false), clkOn := .of true, inReset := .of false, splitDone := true, agMclk := .of .on
      agChan := .of .on, agCommon := .of .on } }

/-- Channel 0 set NonSecure with a descriptor address, idle (V22). -/
def stSet : State := setSec (setCh stUp 0 { resetChannel with descAddr := .of 0x40000000#32 }) 0 .nonSecure

/-- Buffers and resources of V10. -/
def bufA : Buffer := ⟨0x40001000, 8, .b32⟩
def bufB : Buffer := ⟨0x40002000, 8, .b32⟩
def resAB : Resources := ⟨0x40000000, bufA, bufB⟩

/-- The descriptor of V10. -/
def descV10 : Desc := ⟨0x04810481, 0x40001000, 0x40002000, 0x20, 8, 0xFFFFF800⟩

/-- The descriptor of V30, three bytes. -/
def descV30 : Desc := ⟨0x00810081, 0x40001000, 0x40002000, 3, 8, 0xFFFFF800⟩

/-- Memory with the descriptor of V30 and the source bytes AA BB CC. -/
def memV30 : Memory :=
  memWriteBytes (memWriteBytes [] 0x40000000 (descBytes descV30)) 0x40001000 [0xAA, 0xBB, 0xCC]

/-- Channel 0 busy: `en` and `busy` are 1. -/
def busyWith (s : State) (c : Channel) : State := setBusy (setCh s 0 { c with en := .of true }) 0 true

/-- Channel 0 enabled over `memV30`, nothing fetched yet. -/
def stFetch : State :=
  busyWith { stSet with mem := memV30 }
    { resetChannel with descAddr := .of 0x40000000#32, dptr := .of 0x40000000#32, phase := .fetch }

/-- The same with all six words read. -/
def stFetched : State :=
  setCh stFetch 0 { getCh stFetch 0 with
    fw := ⟨some 0x00810081, some 0x40001000, some 0x40002000, some 3, some 8, some 0xFFFFF800⟩ }

/-- The same after the decode. -/
def stMove : State :=
  setCh stFetch 0 { getCh stFetch 0 with
    cfg := .of 0x00810081#32, curSrc := .of 0x40001000#32, curDst := .of 0x40002000#32, bcntLeft := .of 3#32
    para := .of 8#32, nxt := .of 0xFFFFF800#32, len := .of 3#32, phase := .move }

/-- The same with no byte left. -/
def stDone : State :=
  setCh stMove 0 { getCh stMove 0 with curSrc := .of 0x40001003#32, curDst := .of 0x40002003#32, bcntLeft := .of 0#32 }

/-- The same with a link word. -/
def stLink : State := setCh stDone 0 { getCh stDone 0 with nxt := .of 0x40000020#32 }

/-- The engine has faulted (V38). -/
def stFault : State := engineFault 0 .misalignedDescriptor stFetch

/-- Resources of V10 in the caller's hands. -/
def stHeld : State := { stUp with pinned := [resAB] }

/-- A Ready transfer on channel 0 (V50). -/
def stReady : State := setLife { stSet with pinned := [resAB] } 0 (.ready resAB)

/-- A Started transfer on channel 0, its engine still busy (V51). -/
def stStarted : State := setLife { stFetch with pinned := [resAB] } 0 (.started resAB)

/-- A Started transfer whose engine is idle again (V54). -/
def stFinished : State := setLife { stSet with pinned := [resAB] } 0 (.started resAB)

/-- With busy flags that nothing has written. -/
def noBusy (s : State) : State := { s with blk := { s.blk with busy := everyChannel .unset } }

/-- With a `POLL_LIMIT` (V55 has 3). -/
def withLimit (L : Nat) (s : State) : State := { s with config := { s.config with pollLimit := some L } }

/-- With steps left of an operation under way. -/
def withDoing (s : State) (rs : List Rest) : State := { s with cpu := { s.cpu with doing := rs } }

/-- Two channels handed out, channel 1 in Move over the descriptor of V10: it reads 0x4000_1000 .. 1F and the descriptor
at 0x4000_0100, and writes 0x4000_2000 .. 1F, of which 8 bytes are left. -/
def withOther (s : State) : State :=
  setCh { s with config := { s.config with nimpl := 2 } } 1 { resetChannel with
    en := .of true, dptr := .of 0x40000100#32, curSrc := .of 0x40001018#32, curDst := .of 0x40002018#32
    bcntLeft := .of 8#32, len := .of 0x20#32, phase := .move }

/-- The two halves of the config word change places, and the width codes run the other way. -/
def swapped : CfgLayout where
  srcDrqAt := 16
  srcModeAt := 21
  srcBurstAt := 22
  srcWidthAt := 25
  dstDrqAt := 0
  dstModeAt := 5
  dstBurstAt := 6
  dstWidthAt := 9
  bits8 := 3#2
  bits16 := 2#2
  bits32 := 1#2
  bits64 := 0#2

/-- The state with a turn to take and a program. -/
def withTurns (s : State) (ts : List Turn) : State := { s with sched := ts }
def withProg (s : State) (ops : List CpuOp) : State := { s with cpu := { s.cpu with prog := ops } }

/-- With pending CPU stores. -/
def withStores (s : State) (sb : List PendingStore) : State := { s with cpu := { s.cpu with sb := sb } }

/-! ## WellFormed: an ill-formed term for each check -/

theorem test_wf_link_sentinel : instrWf (.linkNext 0 0xFFFFF800) = false := by decide
theorem test_wf_link_misaligned : instrWf (.linkNext 0 0x40000022) = false := by decide
theorem test_wf_link_out_of_range : instrWf (.linkNext 0 0xFFFFFFEC) = false := by decide
theorem test_wf_link_last : instrWf (.linkNext 0 0xFFFFFFE8) = true := by decide
theorem test_wf_place : instrWf (.descriptorNew (2 ^ 64)) = false := by decide
theorem test_wf_as_ptr : instrWf (.descriptorAsPtr (2 ^ 64)) = false := by decide
theorem test_wf_buffer_base : instrWf (.bufferBaseAddress ⟨2 ^ 64, 1, .b8⟩) = false := by decide
theorem test_wf_buffer_count : instrWf (.bufferElementCount ⟨0, 2 ^ 64, .b8⟩) = false := by decide
theorem test_wf_buffer_size : instrWf (.bufferSizeBytes ⟨2 ^ 64, 1, .b8⟩) = false := by decide
theorem test_wf_mem_to_mem :
    instrWf (.memToMem (2 ^ 64) bufA bufB) = false ∧ instrWf (.memToMem 0 ⟨2 ^ 64, 1, .b8⟩ bufB) = false ∧
      instrWf (.memToMem 0 bufA ⟨2 ^ 64, 1, .b8⟩) = false := by decide
theorem test_wf_resources :
    instrWf (.resFree ⟨2 ^ 64, bufA, bufB⟩) = false ∧ instrWf (.transferNew ⟨0, ⟨2 ^ 64, 1, .b8⟩, bufB⟩ 0) = false ∧
      instrWf (.transferStart ⟨⟨0, bufA, ⟨0, 2 ^ 64, .b8⟩⟩, .ready⟩ 0) = false := by decide
theorem test_wf_transfers :
    instrWf (.transferWait ⟨⟨2 ^ 64, bufA, bufB⟩, .started⟩ 0) = false ∧
      instrWf (.transferIsActive ⟨⟨2 ^ 64, bufA, bufB⟩, .started⟩ 0) = false := by decide
theorem test_wf_no_poll : instrWf (.transferWaitBounded ⟨resAB, .started⟩ 0 0) = false := by decide
theorem test_wf_chunk : instrWf (.engMove 0 0) = false ∧ instrWf (.engMove 0 (2 ^ 32)) = false := by decide
theorem test_wf_program_engine_row : cpuOpWf (.instr (.engDecode 0)) = false ∧ cpuOpWf (.instr (.linkEnd 0)) = false := by
  decide
theorem test_wf_program_ill_formed : cpuOpWf (.instr (.descriptorNew (2 ^ 64))) = false := by decide
theorem test_wf_load : cpuOpWf (.load (2 ^ 64) .b8) = false := by decide
theorem test_wf_store_address : cpuOpWf (.store (2 ^ 64) .b8 0) = false := by decide
theorem test_wf_store_value :
    cpuOpWf (.store 0 .b8 (2 ^ 8)) = false ∧ cpuOpWf (.store 0 .b16 (2 ^ 16)) = false ∧
      cpuOpWf (.store 0 .b32 (2 ^ 32)) = false ∧ cpuOpWf (.store 0 .b64 (2 ^ 64)) = false := by decide
theorem test_wf_drop : cpuOpWf (.dropTransfer ⟨⟨2 ^ 64, bufA, bufB⟩, .ready⟩) = false := by decide

/-! ## Decoding -/

/-- V2, V3 and the table of 2.1: the EC words decode to their form with both burst codes 2. -/
theorem test_decode_config_table :
    decodedOk (decodeConfig {} 0 0x00810081) = some (.m2mB8B8 0 2 2) ∧
    decodedOk (decodeConfig {} 0 0x02810081) = some (.m2mB8B16 0 2 2) ∧
    decodedOk (decodeConfig {} 0 0x04810081) = some (.m2mB8B32 0 2 2) ∧
    decodedOk (decodeConfig {} 0 0x06810081) = some (.m2mB8B64 0 2 2) ∧
    decodedOk (decodeConfig {} 0 0x00810281) = some (.m2mB16B8 0 2 2) ∧
    decodedOk (decodeConfig {} 0 0x02810281) = some (.m2mB16B16 0 2 2) ∧
    decodedOk (decodeConfig {} 0 0x04810281) = some (.m2mB16B32 0 2 2) ∧
    decodedOk (decodeConfig {} 0 0x06810281) = some (.m2mB16B64 0 2 2) ∧
    decodedOk (decodeConfig {} 0 0x00810481) = some (.m2mB32B8 0 2 2) ∧
    decodedOk (decodeConfig {} 0 0x02810481) = some (.m2mB32B16 0 2 2) ∧
    decodedOk (decodeConfig {} 0 0x04810481) = some (.m2mB32B32 0 2 2) ∧
    decodedOk (decodeConfig {} 0 0x06810481) = some (.m2mB32B64 0 2 2) ∧
    decodedOk (decodeConfig {} 0 0x00810681) = some (.m2mB64B8 0 2 2) ∧
    decodedOk (decodeConfig {} 0 0x02810681) = some (.m2mB64B16 0 2 2) ∧
    decodedOk (decodeConfig {} 0 0x04810681) = some (.m2mB64B32 0 2 2) ∧
    decodedOk (decodeConfig {} 0 0x06810681) = some (.m2mB64B64 0 2 2) := by decide

/-- V2, the fields bit by bit: `00000 10 0 10 0 00001 00000 10 0 10 0 00001`. -/
theorem test_decode_config_bits :
    decodedOk (decodeConfig {} 5 (0b00000#5 ++ 0b10#2 ++ 0b0#1 ++ 0b10#2 ++ 0b0#1 ++ 0b00001#5 ++
      0b00000#5 ++ 0b10#2 ++ 0b0#1 ++ 0b10#2 ++ 0b0#1 ++ 0b00001#5)) = some (.m2mB32B32 5 2 2) := by decide

/-- The two sides do not change places: source 1 byte and burst 1, destination 8 bytes and burst 3. -/
theorem test_decode_config_sides :
    decodedOk (decodeConfig {} 0 (0b00000#5 ++ 0b11#2 ++ 0b0#1 ++ 0b11#2 ++ 0b0#1 ++ 0b00001#5 ++
      0b00000#5 ++ 0b00#2 ++ 0b0#1 ++ 0b01#2 ++ 0b0#1 ++ 0b00001#5)) = some (.m2mB8B64 0 1 3) := by decide

/-- V4: the burst code is free. -/
theorem test_decode_burst_free :
    decodedOk (decodeConfig {} 0 0x04010401) = some (.m2mB32B32 0 0 0) ∧
    decodedOk (decodeConfig {} 0 0x044104C1) = some (.m2mB32B32 0 3 1) := by decide

/-- V5, the config words that are not admitted. -/
theorem test_decode_config_refused :
    decodedError (decodeConfig {} 0 0x04810480) = some .srcDrq ∧ decodedError (decodeConfig {} 0 0x04800481) = some .dstDrq ∧
    decodedError (decodeConfig {} 0 0x048104A1) = some .srcMode ∧ decodedError (decodeConfig {} 0 0x04A10481) = some .dstMode ∧
    decodedError (decodeConfig {} 0 0x04810581) = some .reserved ∧
    decodedError (decodeConfig {} 0 0x05810481) = some .reserved ∧
    decodedError (decodeConfig {} 0 0x84810481) = some .reserved ∧
    decodedError (decodeConfig {} 0 0x04818481) = some .reserved := by decide

/-- V40 and V5: link words. -/
theorem test_decode_link :
    decodedOk (decode {} 0 [0x00, 0xF8, 0xFF, 0xFF]) = some (.linkEnd 0) ∧
    decodedOk (decode {} 0 [0x20, 0x00, 0x00, 0x40]) = some (.linkNext 0 0x40000020) ∧
    decodedError (decodeLink 0 0xFFFFF801) = some .linkMisaligned ∧
    decodedError (decodeLink 0 0x40000022) = some .linkMisaligned ∧
    decodedError (decodeLink 0 0xFFFFFFEC) = some .linkOutOfRange := by decide

/-- V10: the bytes of a descriptor. -/
theorem test_decode_desc :
    decodedOk (decode {} 0 [0x81, 0x04, 0x81, 0x04, 0x00, 0x10, 0x00, 0x40, 0x00, 0x20, 0x00, 0x40,
      0x20, 0x00, 0x00, 0x00, 0x08, 0x00, 0x00, 0x00, 0x00, 0xF8, 0xFF, 0xFF]) = some (.desc 0 descV10) := by decide

/-- No other number of bytes is an instruction. -/
theorem test_decode_length :
    decodedError (decode {} 0 []) = some .length ∧ decodedError (decode {} 0 [0x81]) = some .length ∧
    decodedError (decode {} 0 [0x81, 0x04, 0x81, 0x04, 0]) = some .length := by decide

/-- Host commands under the default RegMap (R105): enable at 0x01C0_2100, channel 1's descriptor address at 0x01C0_2148. -/
theorem test_decode_access :
    decodeAccess {} (.modify 0x01C02100 0 true) = .command (.chEnable 0) ∧
    decodeAccess {} (.write 0x01C02148 0x40000000) = .command (.chSetDescAddr 1 0x40000000) ∧
    decodeAccess {} (.read 0x01C02030 7) = .command (.chIsActive 7) ∧
    decodeAccess {} (.modify 0x01C02020 3 true) = .command (.chSetNonsecure 3) ∧
    decodeAccess {} (.modify 0x01C02028 2 false) = .gateOn .mclk := by decide

/-- Bit positions and polarity are the RegMap's (R37, R105). -/
theorem test_decode_access_bits :
    decodeAccess { enBit := 3 } (.write 0x01C02100 8) = .command (.chEnable 0) ∧
    decodeAccess { enBit := 3 } (.write 0x01C02100 7) = .disable ∧
    decodeAccess { agChanBit := 7, agChanOnIs := true } (.modify 0x01C02028 7 true) = .gateOn .chan ∧
    decodeAccess { agChanBit := 7, agChanOnIs := true } (.modify 0x01C02028 2 false) = .gateOn .mclk ∧
    decodeAccess { secBit := ⟨7, 6, 5, 4, 3, 2, 1, 0⟩ } (.modify 0x01C02020 7 true) = .command (.chSetNonsecure 0) := by
  decide

/-- The fields and codes of the config word are the CfgLayout's (R94, R95): V3's word 0x0681_0081 with the halves and the
width codes the other way round. -/
theorem test_decode_config_layout :
    decodedOk (decodeConfig swapped 0 0x06810081) = some (.m2mB8B64 0 2 2) ∧
    decodedOk (decodeConfig swapped 0 0x00410481) = some (.m2mB64B16 0 1 2) ∧
    decodedError (decodeConfig { drqMemory := 2#5 } 0 0x04810481) = some .srcDrq := by decide

/-- The table's words as the host numbers them. -/
theorem test_decode_table :
    decodeTableWord 32 0x04010401 = some (.m2mB32B32 0 0 0) ∧ decodeTableWord 32 0xFFFFF800 = some (.linkEnd 0) ∧
    decodeTableWord 192 0 = some (.desc 0 ⟨0, 0, 0, 0, 0, 0⟩) ∧ decodeTableWord 8 0 = some (.linkNext 0 0) := by decide

/-- Admitted or not (V5 with the fields of V10, R101 (d) to (h)). -/
theorem test_admitted :
    admitted {} descV10 0x40000000 = true ∧
    admitted {} { descV10 with length := 0 } 0x40000000 = false ∧
    admitted {} { descV10 with length := 6 } 0x40000000 = false ∧
    admitted {} { descV10 with srcAddr := 0x40001002 } 0x40000000 = false ∧
    admitted {} { descV10 with config := 0x06810481, dstAddr := 0x40002004 } 0x40000000 = false ∧
    admitted {} { descV10 with dstAddr := 0x40000000 } 0x40000000 = false ∧
    admitted {} { descV10 with dstAddr := 0x40001010 } 0x40000000 = false ∧
    admitted {} { descV10 with nextAddr := 0x40000022 } 0x40000000 = false ∧
    admitted {} { descV10 with srcAddr := 0xFFFFFFF0 } 0x40000000 = false ∧
    admitted {} { descV10 with nextAddr := 0x00001000 } 0x40000000 = true := by decide

/-! ## One instruction -/

/-- V20 and V22: the enable before `split`, and on a channel that is set. -/
theorem test_exec_enable_power_on : refusalOf (exec (.chEnable 0) State.reset) = some .channelNotUsable := by decide
theorem test_exec_enable :
    nextField (fun t => (getCh t 0, getBusy t 0)) (exec (.chEnable 0) stSet) =
      some ({ resetChannel with
        descAddr := .of 0x40000000, en := .of true, dptr := .of 0x40000000, phase := .fetch }, .of true) := by decide
/-- V22: the order of the refusals. -/
theorem test_exec_enable_refused :
    refusalOf (exec (.chEnable 0) stUp) = some .unsetState ∧
    refusalOf (exec (.chEnable 0) (setCh stUp 0 (getCh stSet 0))) = some .secureChannel ∧
    refusalOf (exec (.chEnable 0) stMove) = some .enableWhileBusy := by decide
/-- V21, V54. -/
theorem test_exec_is_active :
    nextField (fun t => t.cpu.ret) (exec (.chIsActive 0) stUp) = some (.active false) ∧
    nextField (fun t => t.cpu.ret) (exec (.chIsActive 0) stMove) = some (.active true) := by decide
/-- V24. -/
theorem test_exec_set_desc_addr :
    nextField (fun t => (getCh t 0).descAddr) (exec (.chSetDescAddr 0 0x40000040) stSet) = some (.of 0x40000040) := by
  decide
/-- V23. -/
theorem test_exec_write_while_busy :
    refusalOf (exec (.chSetDescAddr 0 0) stFault) = some .writeWhileBusy ∧
    refusalOf (exec (.chSetNonsecure 0) stFault) = some .writeWhileBusy := by decide
/-- V24: the other channels' bits stay. -/
theorem test_exec_set_nonsecure :
    nextField (fun t => t.blk.sec) (exec (.chSetNonsecure 0) stUp) =
      some ⟨.of .nonSecure, .unset, .unset, .unset, .unset, .unset, .unset, .unset⟩ := by decide
/-- V61. -/
theorem test_exec_autogate_power_on :
    refusalOf (exec .blkAutogateEnable State.reset) = some .unsetState ∧
    refusalOf (exec .blkAutogateEnable
      { State.reset with blk := { powerOnBlock with clkOn := .of true, inReset := .of true } }) = some .channelNotUsable := by
  decide
theorem test_exec_autogate :
    nextField (fun t => (t.blk.agMclk, t.blk.agChan, t.blk.agCommon)) (exec .blkAutogateEnable stUp) =
      some (.of .on, .of .on, .of .on) := by decide
/-- R221, V61. -/
theorem test_exec_reset_assert :
    nextField (fun t => (t.ch, t.blk.inReset, t.blk.clkOn, t.blk.splitDone)) (exec .ccuResetAssert stSet) =
      some (everyChannel resetChannel, .of true, .of true, true) := by decide
theorem test_exec_reset_while_busy : refusalOf (exec .ccuResetAssert stMove) = some .resetWhileBusy := by decide
/-- R221, R222. -/
theorem test_exec_reset_deassert :
    nextField (fun t => (t.blk.inReset, t.blk.clkOn)) (exec .ccuResetDeassert State.reset) = some (.of false, .unset) := by
  decide
theorem test_exec_clock_enable :
    nextField (fun t => (t.blk.clkOn, t.blk.inReset)) (exec .ccuClockEnable State.reset) = some (.of true, .unset) := by
  decide
/-- V60, V61. -/
theorem test_exec_split :
    nextField (fun t => (t.blk, t.cpu.ret)) (exec .split State.reset) = some (stUp.blk, .dma 1) ∧
    nextField (fun t => (t.ch, t.blk.busy)) (exec .split State.reset) =
      some (everyChannel resetChannel, everyChannel (.of false)) := by decide
/-- R260, R13, D36: at power-on the three flags have no value; a poll of such a flag refuses. -/
theorem test_power_on_flags :
    ((getCh State.reset 5).en, (getCh State.reset 5).pause, getBusy State.reset 5) = (.unset, .unset, .unset) ∧
    refusalOf (exec (.chIsActive 0) (noBusy stUp)) = some .unsetState := by decide
theorem test_exec_second_split : refusalOf (exec .split stUp) = some .secondSplit := by decide
/-- V72: program order to one byte. -/
theorem test_exec_fence :
    nextField (fun t => (t.mem, t.cpu.sb, t.cpu.stale))
      (exec .fence (withStores { State.reset with cpu := { resetCpu with stale := [(0x40000000, .of 9)] } }
        [⟨0x40000000, [1]⟩, ⟨0x40000000, [2]⟩])) = some ([(0x40000000, 2)], [], []) := by decide
/-- R74: the second store to the same byte may not drain first, one to another byte may. -/
theorem test_exec_drain :
    faultOf (exec (.drain 1) (withStores State.reset [⟨0x40000000, [1]⟩, ⟨0x40000000, [2]⟩])) = some .notEnabled ∧
    nextField (fun t => (t.mem, t.cpu.sb))
      (exec (.drain 1) (withStores State.reset [⟨0x40000000, [1]⟩, ⟨0x40000001, [2]⟩])) =
        some ([(0x40000001, 2)], [⟨0x40000000, [1]⟩]) := by decide
/-- V1: the bytes of a fresh descriptor after a fence. -/
theorem test_exec_descriptor_new :
    nextField (fun t => memReadBytes (drainAll t.mem t.cpu.sb) 0x40000000 24) (exec (.descriptorNew 0x40000000) State.reset) =
      some (some [0, 0, 0, 0, 0, 0, 0, 0, 0, 0, 0, 0, 0, 0, 0, 0, 0, 0, 0, 0, 0x00, 0xF8, 0xFF, 0xFF]) := by decide
/-- R121: the last place is 2^32 - 24. -/
theorem test_exec_place :
    refusalOf (exec (.descriptorAsPtr 0xFFFFFFE9) State.reset) = some .addressOutOfRange ∧
    nextField (fun t => t.cpu.ret) (exec (.descriptorAsPtr 0xFFFFFFE8) State.reset) = some (.address 0xFFFFFFE8) := by decide
/-- Log 12: the place is looked at before what is pinned there. -/
theorem test_exec_descriptor_new_place_first :
    refusalOf (exec (.descriptorNew 0xFFFFFFE9) { stUp with pinned := [⟨0xFFFFFFE8, bufA, bufB⟩] }) =
      some .addressOutOfRange := by decide
/-- V7. -/
theorem test_exec_buffers :
    nextField (fun t => t.cpu.ret) (exec (.bufferBaseAddress bufA) State.reset) = some (.address 0x40001000) ∧
    nextField (fun t => t.cpu.ret) (exec (.bufferElementCount bufA) State.reset) = some (.count 8) := by decide
theorem test_exec_size_bytes :
    nextField (fun t => t.cpu.ret) (exec (.bufferSizeBytes bufA) State.reset) = some (.size 32) ∧
    nextField (fun t => t.cpu.ret) (exec (.bufferSizeBytes ⟨0, 8, .b64⟩) State.reset) = some (.size 64) := by decide
/-- V10: the bytes after a fence, and what is pinned. -/
theorem test_exec_mem_to_mem :
    nextField (fun t => (memReadBytes (drainAll t.mem t.cpu.sb) 0x40000000 24, t.pinned))
      (exec (.memToMem 0x40000000 bufA bufB) stUp) =
      some (some [0x81, 0x04, 0x81, 0x04, 0x00, 0x10, 0x00, 0x40, 0x00, 0x20, 0x00, 0x40,
        0x20, 0x00, 0x00, 0x00, 0x08, 0x00, 0x00, 0x00, 0x00, 0xF8, 0xFF, 0xFF], [resAB]) := by decide
/-- V12, V14: the mismatch comes before the odd address. -/
theorem test_exec_mem_to_mem_mismatch :
    nextField (fun t => t.cpu.run) (exec (.memToMem 0x40000001 ⟨0x40001000, 100, .b8⟩ ⟨0x40002000, 99, .b8⟩) stUp) =
      some (.aborted (.sizeMismatch 100 99)) := by decide
/-- R281: an address of 2^32 is out of range even for an empty buffer. -/
theorem test_exec_mem_to_mem_empty_above :
    refusalOf (exec (.memToMem 0x40000000 ⟨0x100000000, 0, .b8⟩ ⟨0x40002000, 0, .b8⟩) stUp) = some .addressOutOfRange := by
  decide
/-- V16. -/
theorem test_exec_free :
    nextField (fun t => (t.pinned, t.cpu.ret)) (exec (.resFree resAB) stHeld) =
      some ([], .parts 0x40000000 bufA bufB) := by decide
theorem test_exec_free_held : refusalOf (exec (.resFree resAB) stStarted) = some .ownershipViolation := by decide
/-- V50, V52. -/
theorem test_exec_transfer_new :
    nextField (fun t => (getSec t 0, (getCh t 0).descAddr, getLife t 0, getBusy t 0)) (exec (.transferNew resAB 0) stHeld) =
      some (.of .nonSecure, .of 0x40000000, .ready resAB, .of false) := by decide
theorem test_exec_transfer_new_twice :
    nextField (fun t => t.cpu.run) (exec (.transferNew resAB 0) stReady) =
      some (.aborted (.lifecycleViolation .new (.ready resAB))) := by decide
/-- V51, V53. -/
theorem test_exec_start :
    nextField (fun t => (t.cpu.sb, (getCh t 0).en, getBusy t 0, (getCh t 0).phase, getLife t 0))
      (exec (.transferStart ⟨resAB, .ready⟩ 0) (withStores stReady [⟨0x40003000, [1]⟩])) =
      some ([], .of true, .of true, .fetch, .started resAB) := by decide
theorem test_exec_start_twice :
    nextField (fun t => t.cpu.run) (exec (.transferStart ⟨resAB, .started⟩ 0) stStarted) =
      some (.aborted (.lifecycleViolation .start (.started resAB))) := by decide
/-- R203, V55. -/
theorem test_exec_wait :
    nextField (fun t => (getLife t 0, t.pinned, t.cpu.ret)) (exec (.transferWait ⟨resAB, .started⟩ 0) stFinished) =
      some (.free, [resAB], .resources resAB) := by decide
theorem test_exec_wait_busy :
    nextField (fun t => (getLife t 0, t.cpu.doing)) (exec (.transferWait ⟨resAB, .started⟩ 0) stStarted) =
      some (.started resAB, [.poll ⟨resAB, .started⟩ 0 none]) := by decide
/-- V54, V53. -/
theorem test_exec_transfer_is_active :
    nextField (fun t => (t.cpu.ret, getLife t 0)) (exec (.transferIsActive ⟨resAB, .started⟩ 0) stStarted) =
      some (.active true, .started resAB) := by decide
theorem test_exec_transfer_is_active_ready :
    nextField (fun t => t.cpu.run) (exec (.transferIsActive ⟨resAB, .ready⟩ 0) stReady) =
      some (.aborted (.lifecycleViolation .isActive (.ready resAB))) := by decide
/-- V55: the bound is `POLL_LIMIT` and nothing else, and the last poll gives the transfer back. -/
theorem test_exec_wait_bounded :
    nextField (fun t => t.cpu.doing) (exec (.transferWaitBounded ⟨resAB, .started⟩ 0 3) (withLimit 3 stStarted)) =
      some [.poll ⟨resAB, .started⟩ 0 (some 2)] ∧
    refusalOf (exec (.transferWaitBounded ⟨resAB, .started⟩ 0 100) (withLimit 3 stStarted)) = some .operationAbsent ∧
    refusalOf (exec (.transferWaitBounded ⟨resAB, .started⟩ 0 0) (withLimit 0 stStarted)) = some .operationAbsent := by
  decide
theorem test_exec_wait_bounded_last_poll :
    nextField (fun t => (t.cpu.ret, getLife t 0, t.pinned, t.cpu.run))
      (runRest (.poll ⟨resAB, .started⟩ 0 (some 1)) (withLimit 3 stStarted)) =
      some (.timeout ⟨resAB, .started⟩, .started resAB, [resAB], .running) := by decide
/-- V30, V37. -/
theorem test_exec_fetch :
    nextField (fun t => (getCh t 0).fw) (exec (.engFetch 0 1) stFetch) =
      some ⟨none, some 0x40001000, none, none, none, none⟩ := by decide
/-- V38. -/
theorem test_exec_fetch_misaligned :
    nextField (fun t => ((getCh t 0).phase, getBusy t 0, (getCh t 0).en))
      (exec (.engFetch 0 0) (setCh stFetch 0 { getCh stFetch 0 with dptr := .of 0x40000002 })) =
      some (.fault .misalignedDescriptor, .of true, .of true) := by decide
/-- V30, V37. -/
theorem test_exec_decode : nextOf (exec (.engDecode 0) stFetched) = some stMove := by decide
theorem test_exec_decode_early : faultOf (exec (.engDecode 0) stFetch) = some .notEnabled := by decide
/-- R84, U23: channel 1 writes 0x4000_2000 .. 1F, the destination of channel 0's descriptor; a move there that is over
stays shared while channel 1 runs. Another destination is not. -/
theorem test_exec_decode_shared :
    refusalOf (exec (.engDecode 0) (withOther stFetched)) = some .ownershipViolation ∧
    nextField (fun t => (getCh t 0).phase) (exec (.engDecode 0) (setCh (withOther stFetched) 0
      { getCh stFetched 0 with
        fw := ⟨some 0x00810081, some 0x40001000, some 0x40002020, some 3, some 8, some 0xFFFFF800⟩ })) = some .move ∧
    refusalOf (exec (.engFetch 0 0) (withOther (setCh stFetch 0 { getCh stFetch 0 with dptr := .of 0x40002000 }))) =
      some .ownershipViolation := by decide
/-- V30: two of three bytes; the bytes written are stale (`unset` before). -/
theorem test_exec_move :
    nextField (fun t => ((getCh t 0).curSrc, (getCh t 0).curDst, (getCh t 0).bcntLeft)) (exec (.engMove 0 2) stMove) =
      some (.of 0x40001002, .of 0x40002002, .of 1) ∧
    nextField (fun t => memReadBytes t.mem 0x40002000 2) (exec (.engMove 0 2) stMove) = some (some [0xAA, 0xBB]) ∧
    nextField (fun t => memRead t.mem 0x40002002) (exec (.engMove 0 2) stMove) = some .unset ∧
    nextField (fun t => t.cpu.stale) (exec (.engMove 0 2) stMove) =
      some [(0x40002001, .unset), (0x40002000, .unset)] := by decide
theorem test_exec_move_too_much : faultOf (exec (.engMove 0 4) stMove) = some .notEnabled := by decide
/-- V40. -/
theorem test_exec_link :
    nextField (fun t => ((getCh t 0).dptr, (getCh t 0).phase, getBusy t 0)) (exec (.engLink 0) stLink) =
      some (.of 0x40000020, .fetch, .of true) := by decide
theorem test_exec_link_at_end : faultOf (exec (.engLink 0) stDone) = some .notEnabled := by decide
/-- V30, V40. -/
theorem test_exec_complete :
    nextField (fun t => ((getCh t 0).en, getBusy t 0, (getCh t 0).phase, (getCh t 0).curSrc)) (exec (.engComplete 0) stDone) =
      some (.of false, .of false, .idle, .of 0x40001003) := by decide
theorem test_exec_complete_at_link : faultOf (exec (.engComplete 0) stLink) = some .notEnabled := by decide
/-- The rows of descriptor words. -/
theorem test_exec_desc : nextOf (exec (.desc 0 descV30) stFetch) = some stMove := by decide
theorem test_exec_link_end :
    nextField (fun t => (getBusy t 0, (getCh t 0).phase)) (exec (.linkEnd 0) stDone) = some (.of false, .idle) := by decide
theorem test_exec_link_next :
    nextField (fun t => ((getCh t 0).dptr, (getCh t 0).phase)) (exec (.linkNext 0 0x40000020) stLink) =
      some (.of 0x40000020, .fetch) := by decide

/-- The eight source bytes of PG2. -/
def stForm (w : Word) : State :=
  setCh { stMove with mem := memWriteBytes [] 0x40001000 [0x11, 0x22, 0x33, 0x44, 0x55, 0x66, 0x77, 0x88] } 0
    { getCh stMove 0 with cfg := .of w, bcntLeft := .of 8#32 }

/-- What PG2 says every form leaves: the destination bytes, the source pointer, no byte left. -/
def formRight (i : Instr) (w : Word) : Bool :=
  decide (nextField (fun t => memReadBytes t.mem 0x40002000 8) (exec i (stForm w)) =
      some (some [0x11, 0x22, 0x33, 0x44, 0x55, 0x66, 0x77, 0x88])) &&
    decide (nextField (fun t => ((getCh t 0).curSrc, (getCh t 0).bcntLeft)) (exec i (stForm w)) =
      some (.of 0x40001008, .of 0))

theorem test_exec_m2m_b8 :
    formRight (.m2mB8B8 0 2 2) 0x00810081 = true ∧ formRight (.m2mB8B16 0 2 2) 0x02810081 = true ∧
    formRight (.m2mB8B32 0 2 2) 0x04810081 = true ∧ formRight (.m2mB8B64 0 2 2) 0x06810081 = true := by decide
theorem test_exec_m2m_b16 :
    formRight (.m2mB16B8 0 2 2) 0x00810281 = true ∧ formRight (.m2mB16B16 0 2 2) 0x02810281 = true ∧
    formRight (.m2mB16B32 0 2 2) 0x04810281 = true ∧ formRight (.m2mB16B64 0 2 2) 0x06810281 = true := by decide
theorem test_exec_m2m_b32 :
    formRight (.m2mB32B8 0 2 2) 0x00810481 = true ∧ formRight (.m2mB32B16 0 2 2) 0x02810481 = true ∧
    formRight (.m2mB32B32 0 2 2) 0x04810481 = true ∧ formRight (.m2mB32B64 0 2 2) 0x06810481 = true := by decide
theorem test_exec_m2m_b64 :
    formRight (.m2mB64B8 0 2 2) 0x00810681 = true ∧ formRight (.m2mB64B16 0 2 2) 0x02810681 = true ∧
    formRight (.m2mB64B32 0 2 2) 0x04810681 = true ∧ formRight (.m2mB64B64 0 2 2) 0x06810681 = true := by decide
/-- A form that the config register does not hold is not enabled. -/
theorem test_exec_m2m_other_form : faultOf (exec (.m2mB8B16 0 2 2) (stForm 0x00810081)) = some .notEnabled := by decide

/-- V70: an own pending store is what a load returns. -/
theorem test_cpu_store_then_load :
    nextField (fun t => t.cpu.ret)
      (cpuLoad 0x40001000 .b32 0 (withStores stUp [⟨0x40001000, [0x44, 0x33, 0x22, 0x11]⟩])) =
      some (.loaded 0x11223344) := by decide
theorem test_cpu_store :
    nextField (fun t => (t.cpu.sb, t.mem)) (cpuStore 0x40001000 .b32 0x11223344 stUp) =
      some ([⟨0x40001000, [0x44, 0x33, 0x22, 0x11]⟩], []) := by decide
/-- LT2: each byte is the new or the stale one by itself. -/
theorem test_cpu_load_stale :
    nextField (fun t => t.cpu.ret)
      (cpuLoad 0x40002000 .b16 512 { stUp with
        mem := [(0x40002000, 0x11), (0x40002001, 0x11)]
        cpu := { resetCpu with stale := [(0x40002000, .of 0), (0x40002001, .of 0)] } }) = some (.loaded 0x0011) := by decide
/-- PG4: a load of a byte nothing has written; V73: a pinned byte. -/
theorem test_cpu_load_refused :
    refusalOf (cpuLoad 0x40003004 .b32 0 stUp) = some .unsetState ∧
    refusalOf (cpuLoad 0x40002000 .b32 0 stHeld) = some .ownershipViolation ∧
    refusalOf (cpuStore 0x40000004 .b32 0 stHeld) = some .ownershipViolation := by decide
/-- V25. -/
theorem test_cpu_access :
    refusalOf (cpuAccess (.write 0x01C02104 1) 0 stUp) = some .pauseNotModelled ∧
    refusalOf (cpuAccess (.write 0x01C02100 0) 0 stUp) = some .disableNotModelled ∧
    refusalOf (cpuAccess (.read 0x01C02110 0) 0 stUp) = some .registerAccessNotModelled := by decide
/-- R35: a status bit beside the busy flags is any value, channel 7's bit is none of them. -/
theorem test_cpu_access_status_bit :
    nextField (fun t => t.cpu.ret) (cpuAccess (.read 0x01C02030 8) 0 stUp) = some (.statusBit false) ∧
    nextField (fun t => t.cpu.ret) (cpuAccess (.read 0x01C02030 31) 1 stUp) = some (.statusBit true) ∧
    refusalOf (cpuAccess (.read 0x01C02030 7) 0 stUp) = some .channelNotUsable ∧
    refusalOf (cpuAccess (.read 0x01C02030 32) 0 stUp) = some .registerAccessNotModelled := by decide
/-- R221, R155 (log 35): after a bare reset and its release channel 0 is usable, with auto-gating unset. -/
theorem test_usable_after_bare_reset :
    nextField (fun t => (usable 0 t, t.blk.agMclk, t.blk.splitDone)) (andThen (exec .ccuResetAssert stUp) (exec .ccuResetDeassert)) =
      some (none, .unset, true) := by decide

/-! ## One step -/

/-- V56 and an ill-formed program. -/
theorem test_step_drop :
    refusalOf (step (withTurns (withProg stStarted [.dropTransfer ⟨resAB, .started⟩]) [⟨.cpu, 0⟩])) =
      some .transferDropped := by decide
theorem test_step_ill_formed :
    refusalOf (step (withTurns (withProg stUp [.store 0x40000000 .b8 256]) [⟨.cpu, 0⟩])) = some .illFormed := by decide
/-- R243: an aborted CPU does nothing. -/
theorem test_step_aborted :
    nextField (fun t => t.cpu.prog)
      (step (withTurns { stUp with cpu := { resetCpu with run := .aborted (.alignmentViolation 1), prog := [.instr .fence] } }
        [⟨.cpu, 0⟩])) = some [.instr .fence] := by decide
/-- PG1 steps: `Transfer::new` is two CPU steps (R201), and the engine's or the drain's turn may fall between them. -/
theorem test_step_transfer_new :
    nextField (fun t => (getSec t 0, (getCh t 0).descAddr, getLife t 0, t.cpu.doing))
      (step (withTurns (withProg stHeld [.instr (.transferNew resAB 0)]) [⟨.cpu, 0⟩])) =
      some (.of .nonSecure, .unset, .free, [.newAddr resAB 0]) ∧
    nextField (fun t => ((getCh t 0).descAddr, getLife t 0, t.cpu.doing))
      (step (withTurns (withDoing (setSec stHeld 0 .nonSecure) [.newAddr resAB 0]) [⟨.cpu, 0⟩])) =
      some (.of 0x40000000, .ready resAB, []) := by decide
/-- R202: the fence is a step before the enable. -/
theorem test_step_start :
    nextField (fun t => (t.cpu.sb, (getCh t 0).en, getLife t 0, t.cpu.doing))
      (step (withTurns (withProg (withStores stReady [⟨0x40003000, [1]⟩]) [.instr (.transferStart ⟨resAB, .ready⟩ 0)])
        [⟨.cpu, 0⟩])) =
      some ([], .of false, .ready resAB, [.startEnable ⟨resAB, .ready⟩ 0]) := by decide
/-- R203, PG1 steps 16 and 17: the poll that finds the channel idle, then the fence. -/
theorem test_step_wait :
    nextField (fun t => (getLife t 0, t.cpu.doing))
      (step (withTurns (withProg stFinished [.instr (.transferWait ⟨resAB, .started⟩ 0)]) [⟨.cpu, 0⟩])) =
      some (.started resAB, [.waitEnd ⟨resAB, .started⟩ 0]) ∧
    nextField (fun t => (getLife t 0, t.cpu.ret, t.cpu.doing))
      (step (withTurns (withDoing stFinished [.waitEnd ⟨resAB, .started⟩ 0]) [⟨.cpu, 0⟩])) =
      some (.free, .resources resAB, []) := by decide
/-- R108: the stores of a fresh descriptor are steps of their own; between two of them the first may drain. -/
theorem test_step_descriptor_new :
    nextField (fun t => (t.cpu.sb, t.cpu.doing.length))
      (step (withTurns (withProg stUp [.instr (.descriptorNew 0x40000000)]) [⟨.cpu, 0⟩])) =
      some ([⟨0x40000000, [0, 0, 0, 0]⟩], 5) ∧
    nextField (fun t => (t.cpu.sb, t.cpu.doing))
      (step (withTurns (withDoing stUp [.store 0x40000014 0xFFFFF800]) [⟨.cpu, 0⟩])) =
      some ([⟨0x40000014, [0x00, 0xF8, 0xFF, 0xFF]⟩], []) := by decide
/-- R220: the reset is asserted in one step and released in the next. -/
theorem test_step_split :
    nextField (fun t => (t.blk.inReset, t.blk.splitDone, t.cpu.doing))
      (step (withTurns (withProg State.reset [.instr .split]) [⟨.cpu, 0⟩])) =
      some (.of true, false, [.release, .clock, .gates]) := by decide
/-- Both grains of an engine. -/
theorem test_step_engine_grains :
    nextOf (step (withTurns stFetch [⟨.interp 0, 0⟩])) = some stMove ∧
    nextOf (step (withTurns stFetched [⟨.eng 0, 7⟩])) = some stMove := by decide
/-- The drain's turn. -/
theorem test_step_drain :
    nextField (fun t => t.mem) (step (withTurns (withStores stUp [⟨0x40000000, [5]⟩]) [⟨.drain, 0⟩])) =
      some [(0x40000000, 5)] := by decide

/-- `withFetchWord` makes the next step run the row's instruction: the words of V10, the table of 2.1 and V40. -/
theorem test_fetch_word_desc_v10 :
    nextField (fun t => ((getCh t 0).phase, (getCh t 0).curDst))
      (step (State.reset.withFetchWord 192 0xFFFFF8000000000800000020400020004000100004810481)) =
      some (.move, .of 0x40002000) := by decide
theorem test_fetch_word_config :
    nextField (fun t => ((getCh t 0).bcntLeft, (getCh t 0).curDst)) (step (State.reset.withFetchWord 32 0x04810481)) =
      some (.of 0, .of 0x40002008) := by decide
theorem test_fetch_word_link :
    nextField (fun t => ((getCh t 0).phase, getBusy t 0)) (step (State.reset.withFetchWord 32 0xFFFFF800)) =
      some (.idle, .of false) ∧
    nextField (fun t => ((getCh t 0).phase, (getCh t 0).dptr)) (step (State.reset.withFetchWord 32 0x40000020)) =
      some (.fetch, .of 0x40000020) := by decide

/-! ## Witnesses: the hypotheses of each statement are met -/

theorem witness_DescriptorRowsRoundTrip :
    instrWf (.linkNext 3 0xFFFFFFE8) = true ∧ descriptorChan (.linkNext 3 0xFFFFFFE8) = some 3 ∧
      encode {} {} (.linkNext 3 0xFFFFFFE8) = .bytes [0xE8, 0xFF, 0xFF, 0xFF] ∧
    instrWf (.m2mB64B64 7 3 3) = true ∧ descriptorChan (.m2mB64B64 7 3 3) = some 7 ∧
      encode {} {} (.m2mB64B64 7 3 3) = .bytes [0xC1, 0x06, 0xC1, 0x06] ∧ cfgLayoutWf swapped = true := by decide
theorem witness_DecodeReadsEveryBit :
    decode {} 0 [0xC1, 0x06, 0xC1, 0x06] = .ok (.m2mB64B64 0 3 3) ∧ cfgLayoutWf swapped = true ∧
      decodeConfig swapped 0 0x06810081 = .ok (.m2mB8B64 0 2 2) := ⟨rfl, by decide, rfl⟩
/-- V10 at its place, under the default layout. -/
theorem witness_AdmittedIsConditionsAToH :
    4 = (widthOfCode {} (descV10.config.extractLsb' 9 2)).bytes ∧
      4 = (widthOfCode {} (descV10.config.extractLsb' 25 2)).bytes ∧ admitted {} descV10 0x40000000 = true := by decide
/-- The default register map, and one with every bit and polarity elsewhere. -/
def mapElsewhere : RegMap :=
  { ({} : RegMap) with
    enBit := 5, pauseBit := 6, secBit := ⟨8, 9, 10, 11, 12, 13, 14, 15⟩, busyBit := ⟨7, 6, 5, 4, 3, 2, 1, 0⟩, agMclkBit := 9
    agChanBit := 4, agCommonBit := 0, nonSecureIs := false, agMclkOnIs := true, agChanOnIs := false, agCommonOnIs := true }
theorem witness_HostCommandsRoundTrip :
    ({ stUp with config := { stUp.config with regMap := mapElsewhere } }.config.regMap = mapElsewhere ∧
      (∀ j k, bankGet mapElsewhere.secBit j = bankGet mapElsewhere.secBit k → j = k) ∧
      (∀ j k, bankGet mapElsewhere.busyBit j = bankGet mapElsewhere.busyBit k → j = k) ∧
      9 ≠ 4 ∧ 9 ≠ 0 ∧ 4 ≠ 0) ∧
    stUp.config.regMap = {} ∧ (∀ j k, bankGet ({} : RegMap).secBit j = bankGet ({} : RegMap).secBit k → j = k) := by decide
theorem witness_AccessesOutsideTheSetAreRefused :
    (State.reset.config.regMap = {} ∧ State.reset.blk.splitDone = false) ∧
      (stUp.config.regMap = {} ∧ stUp.blk.splitDone = true ∧ stUp.blk.clkOn = .of true ∧ stUp.blk.inReset = .of false) ∧
      8 ≤ 31 ∧ 31 < 32 := by decide
theorem witness_CpuStoreIsPending :
    CpuMayAccess stHeld 0x7FFFFFF8 8 ∧ CpuMayAccess stHeld 0x40000018 1 := by decide
theorem witness_CpuLoadSeesOwnStore :
    storeFits .b32 0xFFFFFFFF = true ∧ ∃ t, cpuStore 0x40001000 .b32 0xFFFFFFFF stUp = .next t := ⟨by decide, _, rfl⟩
/-- The stale byte 0 beside the byte 0x11 of memory (LT2). -/
def stStale : State :=
  { stUp with mem := [(0x40002000, 0x11)], cpu := { resetCpu with stale := [(0x40002000, .of 0)] } }
theorem witness_CpuLoadChoosesMemoryOrStale :
    CpuMayAccess stStale 0x40002000 1 ∧ forwarded stStale.cpu.sb 0x40002000 = none ∧
      (staleAt stStale.cpu.stale 0x40002000).length < 512 := by decide
/-- Two pending stores that do not overlap, and one that overlaps the second. -/
def stStores : State := withStores stUp [⟨0x40000000, [1]⟩, ⟨0x40000001, [2, 3]⟩, ⟨0x40000002, [4]⟩]
theorem witness_DrainMovesOneStore_eligible :
    stStores.cpu.sb[1]? = some ⟨0x40000001, [2, 3]⟩ ∧
      ∀ i q, i < 1 → stStores.cpu.sb[i]? = some q → storesOverlap q ⟨0x40000001, [2, 3]⟩ = false := by
  refine ⟨by decide, fun i q hi h => ?_⟩
  obtain rfl : i = 0 := by omega
  obtain rfl := Option.some.inj h
  decide
theorem witness_DrainMovesOneStore_blocked :
    stStores.cpu.sb[2]? = some ⟨0x40000002, [4]⟩ ∧
      ∃ i q, i < 2 ∧ stStores.cpu.sb[i]? = some q ∧ storesOverlap q ⟨0x40000002, [4]⟩ = true :=
  ⟨by decide, 1, ⟨0x40000001, [2, 3]⟩, by decide, by decide, by decide⟩
theorem witness_DrainBeforeFenceIsInvisible :
    memoryInv stStores = true ∧ ∃ t, exec (.drain 1) stStores = .next t := ⟨by decide, _, rfl⟩
theorem witness_CpuAccessRefusals_pinned : touchesPinned stHeld.pinned 0x40000017 1 = true := by decide
theorem witness_CpuAccessRefusals_unmapped :
    touchesPinned stHeld.pinned 0x7FFFFFFF 2 = false ∧ rangeRam stHeld.config 0x7FFFFFFF 2 = false := by decide

theorem witness_EnableStartsTheEngine_runs :
    Usable 0 stSet ∧ (getCh stSet 0).phase = .idle ∧ (getCh stSet 0).descAddr = .of 0x40000000 ∧
      getSec stSet 0 = .of .nonSecure := by decide
/-- Each way a channel is not usable, at the boundary `n = NIMPL`. -/
theorem witness_EnableStartsTheEngine_unusable :
    Unusable 0 State.reset ∧ Unusable 1 stUp ∧ Unusable 0 { stUp with blk := { stUp.blk with inReset := .of true } } ∧
      Unusable 0 { stUp with blk := { stUp.blk with clkOn := .of false } } := by decide
theorem witness_EnableStartsTheEngine_busy : Usable 0 stMove ∧ (getCh stMove 0).phase ≠ .idle := by decide
theorem witness_EnableStartsTheEngine_no_address :
    Usable 0 stUp ∧ (getCh stUp 0).phase = .idle ∧ (getCh stUp 0).descAddr = .unset := by decide
/-- A channel with an address whose domain nothing has set, and one whose domain is Secure. -/
def stNoDomain : State := setCh stUp 0 (getCh stSet 0)
theorem witness_EnableStartsTheEngine_secure :
    (Usable 0 stNoDomain ∧ (getCh stNoDomain 0).phase = .idle ∧ (getCh stNoDomain 0).descAddr ≠ .unset ∧
      getSec stNoDomain 0 ≠ .of .nonSecure) ∧
    (Usable 0 (setSec stSet 0 .secure) ∧ (getCh (setSec stSet 0 .secure) 0).phase = .idle ∧
      (getCh (setSec stSet 0 .secure) 0).descAddr ≠ .unset ∧ getSec (setSec stSet 0 .secure) 0 ≠ .of .nonSecure) := by
  decide
theorem witness_IsActiveReturnsBusy :
    (Usable 0 stUp ∧ getBusy stUp 0 = .of false) ∧ Unusable 1 stUp ∧
      (Usable 0 stStarted ∧ getLife stStarted 0 = .started resAB ∧ getBusy stStarted 0 = .of true) := by decide
/-- The same flag in the polls of the wait statements. -/
theorem witness_IsActiveReturnsBusy_unset :
    Usable 0 (noBusy stStarted) ∧ getBusy (noBusy stStarted) 0 = .unset ∧ getLife (noBusy stStarted) 0 = .started resAB ∧
      (withLimit 3 (noBusy stStarted)).config.pollLimit = some 3 := by decide
theorem witness_SetDescAddrWritesTheAddress :
    (Usable 0 stUp ∧ (getCh stUp 0).phase = .idle) ∧ Unusable 7 stUp ∧
      (Usable 0 stFault ∧ (getCh stFault 0).phase ≠ .idle) := by decide
theorem witness_SetNonsecureSetsOneBit :
    (Usable 0 stUp ∧ (getCh stUp 0).phase = .idle) ∧ Unusable 7 stUp ∧
      (Usable 0 stFetch ∧ (getCh stFetch 0).phase ≠ .idle) ∧
      (Usable 0 stNoDomain ∧ (getCh stNoDomain 0).phase = .idle ∧ (getCh stNoDomain 0).descAddr ≠ .unset ∧
        getSec stNoDomain 0 ≠ .of .nonSecure) := by decide
theorem witness_ResetLeavesTheTable :
    (∀ n, (getCh stReady n).phase = .idle) ∧ ∃ n, (getCh stFault n).phase ≠ .idle := ⟨by decide, 0, by decide⟩
theorem witness_ClockAndAutogate_runs : stUp.blk.clkOn = .of true ∧ stUp.blk.inReset = .of false := by decide
/-- Each state of the two guards that stops auto-gating. -/
def stGate (c r : Val Bool) : State := { stUp with blk := { stUp.blk with clkOn := c, inReset := r } }
theorem witness_ClockAndAutogate_refused :
    (stGate (.of false) .unset).blk.clkOn = .of false ∧
    ((stGate (.of true) (.of true)).blk.clkOn = .of true ∧ (stGate (.of true) (.of true)).blk.inReset = .of true) ∧
    State.reset.blk.clkOn = .unset ∧
    ((stGate (.of true) .unset).blk.clkOn = .of true ∧ (stGate (.of true) .unset).blk.inReset = .unset) := by decide
theorem witness_SplitBringsTheBlockUp :
    (State.reset.blk.splitDone = false ∧ (∀ n, (getCh State.reset n).phase = .idle) ∧
      (0 : Chan).val < State.reset.config.nimpl) ∧ stUp.blk.splitDone = true := by decide
theorem witness_SplitBringsTheBlockUp_busy :
    (setCh State.reset 0 (getCh stMove 0)).blk.splitDone = false ∧
      ∃ n, (getCh (setCh State.reset 0 (getCh stMove 0)) n).phase ≠ .idle := ⟨by decide, 0, by decide⟩
theorem witness_PureOperationsReturnTheirValue : 0xFFFFFFE8 < 2 ^ 32 - 23 ∧ 2 ^ 32 - 23 ≤ 0xFFFFFFE9 := by decide
theorem witness_FreshDescriptorIsSixStores :
    (0x7FFFFFE8 < 2 ^ 32 - 23 ∧ CpuMayAccess stUp 0x7FFFFFE8 24) ∧ 2 ^ 32 - 23 ≤ 0xFFFFFFE9 ∧
      (touchesPinned stHeld.pinned 0x40000017 24 = true ∧ rangeRam stHeld.config 0x40000017 24 = true) ∧
      (touchesPinned stHeld.pinned 0x7FFFFFE9 24 = false ∧ rangeRam stHeld.config 0x7FFFFFE9 24 = false) ∧
      (touchesPinned [⟨0x7FFFFFE8, bufA, bufB⟩] 0x7FFFFFF0 24 = true ∧ rangeRam stHeld.config 0x7FFFFFF0 24 = false) := by
  decide
theorem witness_MemToMemWritesTheDescriptor :
    memToMemError 0x40000002 bufA bufB = none ∧ memToMemStop 0x40000002 bufA bufB stUp = none := by decide
/-- V11, V12, V13: one term for each check. -/
theorem witness_MemToMemRaisesInOrder :
    4294967295 < sizeBytes ⟨0, 2 ^ 30, .b32⟩ ∧
    (sizeBytes ⟨0, 5, .b8⟩ ≤ 4294967295 ∧ 4294967295 < sizeBytes ⟨0, 2 ^ 32, .b8⟩) ∧
    (sizeBytes ⟨0, 100, .b8⟩ ≤ 4294967295 ∧ sizeBytes ⟨0, 99, .b8⟩ ≤ 4294967295 ∧
      sizeBytes ⟨0, 100, .b8⟩ ≠ sizeBytes ⟨0, 99, .b8⟩) ∧
    (sizeBytes ⟨0, 2 ^ 32 - 1, .b8⟩ ≤ 4294967295 ∧ 0x40000003 % 2 = 1) := by decide
theorem bufferWf_of {c : Config} {b : Buffer} (h1 : b.base % b.width.bytes = 0) (h2 : b.base < 2 ^ 32)
    (h3 : b.base + sizeBytes b ≤ 2 ^ 32) (h4 : rangeRam c b.base (sizeBytes b) = true) : BufferWf c b :=
  ⟨h1, h2, h3, allRam_iff.2 h4⟩
theorem bufA_wf : BufferWf stUp.config bufA := bufferWf_of (by decide) (by decide) (by decide) (by decide)
theorem bufB_wf : BufferWf stUp.config bufB := bufferWf_of (by decide) (by decide) (by decide) (by decide)
/-- A buffer at an odd address, an empty one at 2^32, one whose last byte is 2^32, one that leaves RAM. -/
theorem witness_MemToMemRefusals_buffers :
    memToMemError 0x40000000 ⟨0x40001002, 8, .b32⟩ bufB = none ∧ (0x40001002 : Nat) % Width.b32.bytes ≠ 0 ∧
    memToMemError 0x40000000 ⟨2 ^ 32, 0, .b8⟩ ⟨0x40002000, 0, .b8⟩ = none ∧ ¬ BufferInRange stUp.config ⟨2 ^ 32, 0, .b8⟩ ∧
    ¬ BufferInRange stUp.config ⟨0xFFFFFFFC, 2, .b32⟩ ∧ ¬ BufferInRange stUp.config ⟨0x7FFFFFFC, 2, .b32⟩ := by
  refine ⟨by decide, by decide, by decide, fun h => absurd h.1 (by decide), fun h => absurd h.2.1 (by decide), fun h => ?_⟩
  have := allRam_iff.1 h.2.2
  revert this
  decide
/-- Two good buffers with a descriptor place above RAM, or at the last address but 22. -/
theorem witness_MemToMemRefusals_place :
    BufferWf stUp.config bufA ∧ BufferWf stUp.config bufB ∧ ¬ PlaceWf stUp.config 0x7FFFFFEA ∧
      ¬ PlaceWf stUp.config 0xFFFFFFEA ∧ memToMemError 0x7FFFFFEA bufA bufB = none := by
  refine ⟨bufA_wf, bufB_wf, fun h => ?_, fun h => absurd h.1 (by decide), by decide⟩
  have := allRam_iff.1 h.2
  revert this
  decide
/-- V15: the descriptor inside the source. -/
theorem witness_MemToMemRefusals_overlap :
    PlaceWf stUp.config 0x40001000 ∧ ¬ RangesApart ⟨0x40001000, bufA, bufB⟩ := by
  refine ⟨⟨by decide, allRam_iff.2 (by decide)⟩, fun h => ?_⟩
  exact h.1 0x40001000 (by decide) (by decide)
/-- The same resources a second time. -/
theorem witness_MemToMemRefusals_pinned :
    PlaceWf stHeld.config 0x40000000 ∧ RangesApart resAB ∧ ¬ Unpinned stHeld resAB ∧ Unpinned stUp resAB := by
  refine ⟨⟨by decide, allRam_iff.2 (by decide)⟩,
    ⟨noCommonByte_iff.2 (by decide), noCommonByte_iff.2 (by decide), noCommonByte_iff.2 (by decide)⟩, fun h => ?_,
    unpinned_iff.2 (by decide)⟩
  have := unpinned_iff.1 h
  revert this
  decide
theorem witness_ApiDescriptorsAreAdmitted :
    memToMemError 0x40000000 ⟨0x40001000, 8, .b8⟩ ⟨0x40002000, 1, .b64⟩ = none ∧
      memToMemStop 0x40000000 ⟨0x40001000, 8, .b8⟩ ⟨0x40002000, 1, .b64⟩ stUp = none ∧ 0 < 8 ∧
      cfgLayoutWf stUp.config.layout = true := by decide
theorem witness_FreeReturnsTheResources_free :
    resAB ∈ stHeld.pinned ∧ ∀ n, getLife stHeld n ≠ .ready resAB ∧ getLife stHeld n ≠ .started resAB := by decide
theorem witness_FreeReturnsTheResources_held :
    ∃ n, getLife stReady n = .ready resAB ∨ getLife stReady n = .started resAB := ⟨0, by decide⟩
theorem witness_TransferNewBindsTheChannel :
    getLife stHeld 0 = .free ∧ Usable 0 stHeld ∧ (getCh stHeld 0).phase = .idle ∧ resAB ∈ stHeld.pinned ∧
      ∀ m, getLife stHeld m ≠ .ready resAB ∧ getLife stHeld m ≠ .started resAB := by decide
theorem witness_StartPublishesAndEnables :
    getLife stReady 0 = .ready resAB ∧ Usable 0 stReady ∧ (getCh stReady 0).phase = .idle ∧
      (getCh stReady 0).descAddr = .of 0x40000000 ∧ getSec stReady 0 = .of .nonSecure := by decide
theorem witness_WaitPollsThenFences :
    (getLife stStarted 0 = .started resAB ∧ Usable 0 stStarted ∧ getBusy stStarted 0 = .of true) ∧
      (getLife stFinished 0 = .started resAB ∧ Usable 0 stFinished ∧ getBusy stFinished 0 = .of false) := by decide
/-- Channel 0 holds the only resources that exist. -/
theorem ownership_of_one {s : State} (hp : s.pinned = [resAB]) (hd : s.cpu.doing = [])
    (hl : ∀ n, n ≠ 0 → getLife s n = .free) (h0 : getLife s 0 = .free ∨ getLife s 0 = .ready resAB ∨ getLife s 0 = .started resAB) :
    OwnershipInv s := by
  have one : ∀ n r, (getLife s n = .ready r ∨ getLife s n = .started r) → n = 0 := by
    intro n r h
    by_contra hn
    rw [hl n hn] at h
    simp at h
  refine ⟨fun n r h => ?_, fun n m r h h' => (one n r h).trans (one m r h').symm, ?_, ?_, ?_⟩
  · obtain rfl := one n r h
    rw [hp]
    rcases h0 with h0 | h0 | h0 <;> rw [h0] at h <;> simp at h <;> simp [h]
  · rw [hp]
    decide
  · rw [hp]
    decide
  · rw [hd]
    trivial
/-- The finished transfer over the destination bytes the engine wrote, of which the first was 0 before: after `wait` and
`free` the CPU may load them. -/
def stWritten : State :=
  { stFinished with
    mem := memWriteBytes [] 0x40002000 [0xAA, 0xBB, 0xCC, 0xDD]
    cpu := { resetCpu with stale := [(0x40002000, .of 0)] } }
theorem witness_LoadsAfterWaitReadMemory :
    getLife stWritten 0 = .started resAB ∧ Usable 0 stWritten ∧ getBusy stWritten 0 = .of false ∧ resAB ∈ stWritten.pinned ∧
      (∀ m, m ≠ 0 → getLife stWritten m ≠ .ready resAB ∧ getLife stWritten m ≠ .started resAB) ∧
      OwnershipInv stWritten ∧ rangeRam stWritten.config resAB.dst.base (sizeBytes resAB.dst) = true ∧
      ∃ t, exec (.transferWait ⟨resAB, .started⟩ 0) stWritten = .next t ∧ ∃ u, exec (.resFree resAB) t = .next u ∧
        CpuMayAccess u 0x40002000 4 ∧ memReadBytes u.mem 0x40002000 4 = some [0xAA, 0xBB, 0xCC, 0xDD] :=
  ⟨by decide, by decide, by decide, by decide, by decide,
    ownership_of_one (by decide) (by decide) (by decide) (.inr (.inr (by decide))), by decide, _, rfl, _, rfl, by decide,
    by decide⟩
/-- The same bytes in a program that pins nothing. -/
theorem witness_LoadsAfterWaitReadMemory_fence :
    ∃ u, exec .fence { stWritten with pinned := [] } = .next u ∧ CpuMayAccess u 0x40002000 4 ∧
      memReadBytes u.mem 0x40002000 4 = some [0xAA, 0xBB, 0xCC, 0xDD] := ⟨_, rfl, by decide, by decide⟩
theorem witness_WaitBoundedCountsPolls :
    ((withLimit 3 stStarted).config.pollLimit = some 3 ∧ getLife (withLimit 3 stStarted) 0 = .started resAB ∧
      Usable 0 (withLimit 3 stStarted) ∧ getBusy (withLimit 3 stStarted) 0 = .of true) ∧
    ((withLimit 1 stStarted).config.pollLimit = some 1 ∧ getLife (withLimit 1 stStarted) 0 = .started resAB ∧
      Usable 0 (withLimit 1 stStarted) ∧ getBusy (withLimit 1 stStarted) 0 = .of true) ∧
    ((withLimit 1 stFinished).config.pollLimit = some 1 ∧ getLife (withLimit 1 stFinished) 0 = .started resAB ∧
      Usable 0 (withLimit 1 stFinished) ∧ getBusy (withLimit 1 stFinished) 0 = .of false) ∧
    stStarted.config.pollLimit ≠ some 3 := by decide
theorem witness_WrongStateRaisesLifecycleViolation :
    getLife stReady 0 ≠ .free ∧ getLife stStarted 0 ≠ .ready resAB ∧ getLife stReady 0 ≠ .started resAB ∧
      (withLimit 3 stReady).config.pollLimit = some 3 ∧ getLife (withLimit 3 stReady) 0 ≠ .started resAB := by decide
theorem witness_StartedEndsOnlyByWait :
    getLife stFinished 0 = .started resAB ∧ ∃ t, exec (.transferWait ⟨resAB, .started⟩ 0) stFinished = .next t :=
  ⟨by decide, _, rfl⟩
/-- The CPU about to make the last step of the wait. -/
def stWaitEnds : State := withTurns (withDoing stFinished [.waitEnd ⟨resAB, .started⟩ 0]) [⟨.cpu, 0⟩]
theorem witness_StartedEndsOnlyByWait_step :
    OwnershipInv stWaitEnds ∧ getLife stWaitEnds 0 = .started resAB ∧ ∃ t, step stWaitEnds = .next t := by
  have base : OwnershipInv stFinished :=
    ownership_of_one (by decide) (by decide) (by decide) (.inr (.inr (by decide)))
  have left : getLife stWaitEnds 0 = .started resAB := by decide
  exact ⟨⟨base.heldExist, base.heldOnce, base.selfDisjoint, base.apart, left⟩, left, _, rfl⟩
theorem witness_FetchLatchesOneWord :
    Fetching 0 stFetch 0x40000000 ∧ fwGet (getCh stFetch 0).fw 5 = none ∧ memRead stFetch.mem 0x40000014 = .of 0x00 ∧
      memRead stFetch.mem 0x40000015 = .of 0xF8 ∧ memRead stFetch.mem 0x40000016 = .of 0xFF ∧
      memRead stFetch.mem 0x40000017 = .of 0xFF := by decide
/-- Channel 0 about to fetch a descriptor whose last byte is the first one channel 1 writes. -/
def stFetchShared : State := withOther (setCh stFetch 0 { getCh stFetch 0 with dptr := .of 0x40001FEC })
theorem witness_FetchLatchesOneWord_shared :
    fwGet (getCh stFetchShared 0).fw 0 = none ∧ (getCh stFetchShared 0).phase = .fetch ∧ Live 0 stFetchShared ∧
      (getCh stFetchShared 0).dptr = .of 0x40001FEC ∧ rangeRam stFetchShared.config 0x40001FEC 24 = true ∧
      ∃ m x, m ≠ 0 ∧ InRange 0x40001FEC 24 x ∧ Writes m stFetchShared x :=
  ⟨by decide, by decide, by decide, by decide, by decide, 1, 0x40002000, by decide, by decide,
    (0x40002000, 0x20), by decide, by decide⟩
/-- The engine about to fetch at `a`. -/
def stFetchAt (a : Word) : State := setCh stFetch 0 { getCh stFetch 0 with dptr := .of a }
theorem witness_MisalignedFetchFaults :
    ((getCh (stFetchAt 0x40000003) 0).phase = .fetch ∧ Live 0 (stFetchAt 0x40000003) ∧
      fwGet (getCh (stFetchAt 0x40000003) 0).fw 0 = none ∧ (getCh (stFetchAt 0x40000003) 0).dptr = .of 0x40000003 ∧
      (0x40000003#32).toNat % 4 ≠ 0) ∧
    (Live 0 (stFetchAt 0x7FFFFFEC) ∧ (0x7FFFFFEC#32).toNat % 4 = 0 ∧
      rangeRam (stFetchAt 0x7FFFFFEC).config (0x7FFFFFEC#32).toNat 24 = false) ∧
    (Live 0 (stFetchAt 0xFFFFFFEC) ∧ 2 ^ 32 < (0xFFFFFFEC#32).toNat + 24) := by decide
/-- All words read of the descriptor of V30 but with length 0. -/
def stBadFetched : State :=
  setCh stFetched 0 { getCh stFetched 0 with
    fw := ⟨some 0x00810081, some 0x40001000, some 0x40002000, some 0, some 8, some 0xFFFFF800⟩ }
theorem not_shares {n : Chan} {d : Desc} {a : Nat} {s : State} (h : descShares n d a s = false) : ¬ Shares n d a s :=
  fun h' => by simp [descShares_eq_true.2 h'] at h
theorem witness_DecodeLatchesAdmittedDescriptors :
    ((getCh stFetched 0).phase = .fetch ∧ Live 0 stFetched ∧ (getCh stFetched 0).dptr = .of 0x40000000 ∧
      (getCh stFetched 0).fw = ⟨some 0x00810081, some 0x40001000, some 0x40002000, some 3, some 8, some 0xFFFFF800⟩ ∧
      admitted {} descV30 0x40000000 = true ∧ stFetched.config.layout = {}) ∧
    ((getCh stBadFetched 0).fw = ⟨some 0x00810081, some 0x40001000, some 0x40002000, some 0, some 8, some 0xFFFFF800⟩ ∧
      admitted {} { descV30 with length := 0 } 0x40000000 = false) ∧
    fwGet (getCh stFetch 0).fw 5 = none := by decide
/-- Channel 1 writes the destination, or nothing of it. -/
theorem witness_DecodeLatchesAdmittedDescriptors_shared :
    ¬ Shares 0 descV30 0x40000000 stFetched ∧ Shares 0 descV30 0x40000000 (withOther stFetched) ∧
      Live 0 (withOther stFetched) := ⟨not_shares (by decide), descShares_eq_true.1 (by decide), by decide⟩
theorem witness_MoveCopiesTheChunk_runs :
    Moving 0 stMove 0x40001000 0x40002000 3 ∧ 3 ≤ (3#32).toNat ∧ rangeRam stMove.config 0x40001000 3 = true ∧
      rangeRam stMove.config 0x40002000 3 = true ∧ ∀ i, i < 3 → memRead stMove.mem (0x40001000 + i) ≠ .unset := by decide
/-- The engine about to move three bytes between other addresses. -/
def stMoveAt (src dst : Word) : State := setCh stMove 0 { getCh stMove 0 with curSrc := .of src, curDst := .of dst }
theorem witness_MoveCopiesTheChunk_unmapped :
    Moving 0 (stMoveAt 0x40001000 0x7FFFFFFE) 0x40001000 0x7FFFFFFE 3 ∧
      rangeRam stMove.config (0x7FFFFFFE#32).toNat 3 = false := by decide
theorem witness_MoveCopiesTheChunk_unset :
    Moving 0 (stMoveAt 0x40001001 0x40002000) 0x40001001 0x40002000 3 ∧
      rangeRam stMove.config (0x40001001#32).toNat 3 = true ∧ memRead (stMoveAt 0x40001001 0x40002000).mem 0x40001003 = .unset := by
  decide
theorem witness_MoveCopiesTheChunk_no_step : Moving 0 stMove 0x40001000 0x40002000 3 ∧ (3#32).toNat < 4 := by decide
theorem witness_LinkGoesOnAtTheNextDescriptor :
    (Finished 0 stLink 0x40000020 ∧ 0x40000020#32 ≠ 0xFFFFF800#32) ∧ Finished 0 stDone 0xFFFFF800 := by decide
theorem witness_SentinelEndsTheChain :
    Finished 0 stDone 0xFFFFF800 ∧ Finished 0 stLink 0x40000020 ∧ 0x40000020#32 ≠ 0xFFFFF800#32 := by decide
theorem witness_DescRowIsFetchesThenDecode :
    Fetching 0 stFetch 0x40000000 ∧ (getCh stFetch 0).fw = emptyFetch ∧
      memReadBytes stFetch.mem 0x40000000 24 = some (descBytes descV30) ∧ stFetch.config.layout = {} ∧
      admitted {} descV30 0x40000000 = true ∧ ¬ Shares 0 descV30 0x40000000 stFetch :=
  ⟨by decide, by decide, by decide, by decide, by decide, not_shares (by decide)⟩
theorem witness_EveryFormMovesTheBytesLeft :
    Moving 0 (stForm 0x06810081) 0x40001000 0x40002000 8 ∧
      (getCh (stForm 0x06810081) 0).cfg = .of 0x06810081 ∧ (stForm 0x06810081).config.layout = {} ∧
      decodedOk (decodeConfig {} 0 0x06810081) = some (m2mInstr 0 .b8 .b64 2 2) ∧ 8#32 ≠ 0 ∧
      rangeRam (stForm 0x06810081).config 0x40001000 8 = true ∧ rangeRam (stForm 0x06810081).config 0x40002000 8 = true ∧
      memReadBytes (stForm 0x06810081).mem 0x40001000 8 = some [0x11, 0x22, 0x33, 0x44, 0x55, 0x66, 0x77, 0x88] := by decide
theorem witness_ChunkSizesDoNotMatter :
    channelInv 0 stMove = true ∧ ∃ t, exec (.engMove 0 1) stMove = .next t ∧ ∃ u, exec (.engMove 0 2) t = .next u :=
  ⟨by decide, _, rfl, _, rfl⟩
/-- The engine's own turns only, as many as the bound says. -/
def stTurns : State := withTurns stFetch (List.replicate 11 ⟨.eng 0, 0⟩)
theorem witness_EngineCopiesEndToEnd :
    Fetching 0 stTurns 0x40000000 ∧ (getCh stTurns 0).fw = emptyFetch ∧
      memReadBytes stTurns.mem 0x40000000 24 = some (descBytes descV30) ∧ admitted {} descV30 0x40000000 = true ∧
      descV30.nextAddr = 0xFFFFF800 ∧ rangeRam stTurns.config 0x40001000 3 = true ∧
      rangeRam stTurns.config 0x40002000 3 = true ∧ memReadBytes stTurns.mem 0x40001000 3 = some [0xAA, 0xBB, 0xCC] ∧
      8 + 3 ≤ stTurns.sched.length ∧ (∀ t ∈ stTurns.sched, t.agent = .eng 0) ∧ ¬ Shares 0 descV30 0x40000000 stTurns :=
  ⟨by decide, by decide, by decide, by decide, by decide, by decide, by decide, by decide, by decide, by decide,
    not_shares (by decide)⟩

theorem witness_StepRunsTheDecodedWord_desc :
    Fetching 0 stFetch 0x40000000 ∧ (getCh stFetch 0).fw = emptyFetch ∧
      memReadBytes stFetch.mem 0x40000000 24 = some (descBytes descV30) ∧
      decodedOk (decode {} 0 (descBytes descV30)) = some (.desc 0 descV30) := by decide
theorem witness_StepRunsTheDecodedWord_config :
    Moving 0 stMove 0x40001000 0x40002000 3 ∧ 3#32 ≠ 0 ∧ (getCh stMove 0).cfg = .of 0x00810081 ∧
      decodedOk (decodeConfig {} 0 0x00810081) = some (.m2mB8B8 0 2 2) := by decide
theorem witness_StepRunsTheDecodedWord_link :
    Finished 0 stLink 0x40000020 ∧ decodedOk (decodeLink 0 0x40000020) = some (.linkNext 0 0x40000020) := by decide
theorem witness_StepRunsTheNamedStep :
    (Live 0 stFetched ∧ (getCh stFetched 0).phase = .fetch ∧ ∀ i, fwGet (getCh stFetched 0).fw i ≠ none) ∧
    (Live 0 stFetch ∧ (getCh stFetch 0).phase = .fetch ∧ fwGet (getCh stFetch 0).fw 5 = none) ∧
    Moving 0 stMove 0x40001000 0x40002000 3 ∧ (3 : Word) ≠ 0 ∧
    (Finished 0 stLink 0x40000020 ∧ Finished 0 stDone 0xFFFFF800) := by decide
/-- The block of a moving engine with other gates. -/
def stMoveGate (c r : Val Bool) : State := { stMove with blk := { stMove.blk with clkOn := c, inReset := r } }
/-- Each way an engine has no step, and each value of the guard that nothing has written. -/
theorem witness_StepRunsTheNamedStep_none :
    (getCh stSet 0).phase = .idle ∧ (getCh stFault 0).phase = .fault .misalignedDescriptor ∧
    (getCh (stMoveGate (.of false) .unset) 0).phase = .move ∧ (stMoveGate (.of false) .unset).blk.clkOn = .of false ∧
    (stMoveGate (.of true) (.of true)).blk.inReset = .of true ∧ (stMoveGate .unset (.of false)).blk.clkOn = .unset ∧
    (stMoveGate (.of true) .unset).blk.inReset = .unset ∧
    (getCh (setCh stMove 0 { getCh stMove 0 with pause := .of true }) 0).pause = .of true ∧
    (getCh (setCh stMove 0 { getCh stMove 0 with pause := .unset }) 0).pause = .unset ∧
    (Live 0 (setCh stMove 0 { getCh stMove 0 with bcntLeft := .unset }) ∧
      (getCh (setCh stMove 0 { getCh stMove 0 with bcntLeft := .unset }) 0).bcntLeft = .unset) ∧
    (Live 0 (setCh stDone 0 { getCh stDone 0 with nxt := .unset }) ∧
      (getCh (setCh stDone 0 { getCh stDone 0 with nxt := .unset }) 0).bcntLeft = .of 0 ∧
      (getCh (setCh stDone 0 { getCh stDone 0 with nxt := .unset }) 0).nxt = .unset) := by decide
/-- R175, R183: a move with bytes left reads no link word, and the move of a config word none either. -/
theorem test_move_reads_no_link_word :
    (∃ t, step (withTurns (setCh stMove 0 { getCh stMove 0 with nxt := .unset }) [⟨.eng 0, 0⟩]) = .next t ∧
      (getCh t 0).bcntLeft = .of 2) ∧
    ∃ t, step (withTurns (setCh stMove 0 { getCh stMove 0 with nxt := .unset }) [⟨.interp 0, 0⟩]) = .next t ∧
      (getCh t 0).bcntLeft = .of 0 := ⟨⟨_, rfl, by decide⟩, _, rfl, by decide⟩
theorem witness_StepRunsTheNextCpuOperation :
    (stUp.cpu.run = .running ∧ instrIsSoftware (.chEnable 0) = true ∧ instrWf (.chEnable 0) = true) ∧
    (2 ^ 64 - 1 < 2 ^ 64 ∧ storeFits .b64 (2 ^ 64 - 1) = true ∧ resourcesWf resAB = true) ∧
    ({ resetCpu with run := .aborted (.alignmentViolation 1) } : Cpu).run ≠ .running ∧ stUp.cpu.prog = [] ∧
    stUp.cpu.doing = [] ∧ stWaitEnds.cpu.doing = [.waitEnd ⟨resAB, .started⟩ 0] := by decide
/-- Operations that expand, and the states their first step needs. -/
theorem witness_StepRunsTheNextCpuOperation_expands :
    (expands (.transferNew resAB 0) = true ∧ getLife stHeld 0 = .free ∧ inCallersHands stHeld resAB = true ∧
      Usable 0 stHeld ∧ (getCh stHeld 0).phase = .idle ∧ stHeld.cpu.doing = []) ∧
    (expands (.transferStart ⟨resAB, .ready⟩ 0) = true ∧ getLife stReady 0 = .ready resAB ∧ Usable 0 stReady) ∧
    (expands (.transferWait ⟨resAB, .started⟩ 0) = true ∧ getLife stFinished 0 = .started resAB ∧
      getBusy stFinished 0 = .of false ∧ Usable 0 stFinished) ∧
    (getBusy (withLimit 1 stStarted) 0 = .of true ∧ (1 : Nat) ≤ 1) := by decide
theorem witness_StepKeepsMemoryCanonical :
    memoryInv (withTurns stStores [⟨.drain, 1⟩]) = true ∧
      ∃ t, step (withTurns stStores [⟨.drain, 1⟩]) = .next t := ⟨by decide, _, rfl⟩
/-- Channel 0 moving to a place channel 1 does not touch. -/
def stMoveAway : State := setCh stMove 0 { getCh stMove 0 with curDst := .of 0x40002020 }
theorem witness_StepKeepsTheChannelInvariant :
    (ChannelsInv State.reset ∧ ChannelsInv (withDoing (resetEffect stUp) [.gates])) ∧
    (ChannelsInv (withTurns stMove [⟨.eng 0, 1⟩]) ∧ ∃ t, step (withTurns stMove [⟨.eng 0, 1⟩]) = .next t) ∧
    (SharingInv (withOther (withTurns stMoveAway [⟨.eng 0, 1⟩])) ∧
      ∃ t, step (withOther (withTurns stMoveAway [⟨.eng 0, 1⟩])) = .next t) :=
  ⟨⟨by decide, by decide⟩, ⟨by decide, _, rfl⟩, ⟨by decide, _, rfl⟩⟩
/-- A CPU whose next operation binds the resources of V10 to channel 0. -/
def stBinding : State := withTurns (withProg stHeld [.instr (.transferNew resAB 0)]) [⟨.cpu, 0⟩]
theorem witness_StepKeepsOwnership : OwnershipInv stBinding ∧ ∃ t, step stBinding = .next t :=
  ⟨ownership_of_one (by decide) (by decide) (by decide) (.inl (by decide)), _, rfl⟩
/-- Between the two steps of `Transfer::new` an operation is under way. -/
theorem witness_StepKeepsOwnership_underWay :
    DoingOk (withDoing stHeld [.newAddr resAB 0]) [.newAddr resAB 0] ∧ OwnershipInv (withDoing stHeld [.newAddr resAB 0]) := by
  have base : OwnershipInv stHeld := ownership_of_one (by decide) (by decide) (by decide) (.inl (by decide))
  have left : getLife (withDoing stHeld [.newAddr resAB 0]) 0 = .free ∧
      inCallersHands (withDoing stHeld [.newAddr resAB 0]) resAB = true := by decide
  exact ⟨left, base.heldExist, base.heldOnce, base.selfDisjoint, base.apart, left⟩
theorem witness_BusyChangesOnlyByEnableAndCompletion :
    (ChannelsInv stSet ∧ getBusy stSet 0 = .of false ∧ ∃ t, exec (.chEnable 0) stSet = .next t ∧ getBusy t 0 = .of true) ∧
    (ChannelsInv stDone ∧ getBusy stDone 0 = .of true ∧ ∃ t, exec (.engComplete 0) stDone = .next t ∧ getBusy t 0 = .of false) ∧
    (ChannelsInv stReady ∧ ∃ t, runRest (.startEnable ⟨resAB, .ready⟩ 0) stReady = .next t ∧ getBusy t 0 = .of true) :=
  ⟨⟨by decide, by decide, _, rfl, by decide⟩, ⟨by decide, by decide, _, rfl, by decide⟩, by decide, _, rfl, by decide⟩
theorem witness_FaultIsAbsorbing :
    (getCh (withTurns stFault [⟨.eng 0, 0⟩]) 0).phase = .fault .misalignedDescriptor ∧
      ∃ t, step (withTurns stFault [⟨.eng 0, 0⟩]) = .next t := ⟨by decide, _, rfl⟩
/-- An aborted CPU with work left, beside an engine that moves. -/
def stAborted (a : Agent) : State :=
  { stMove with
    cpu := { resetCpu with run := .aborted (.sizeMismatch 100 99), prog := [.instr .fence] }
    sched := [⟨a, 0⟩] }
theorem witness_AbortIsFinalForTheCpu :
    ((stAborted .cpu).cpu.run = .aborted (.sizeMismatch 100 99) ∧ (turnOf (stAborted .cpu)).agent = .cpu ∧
      ∃ t, step (stAborted .cpu) = .next t) ∧
    ((stAborted (.eng 0)).cpu.run = .aborted (.sizeMismatch 100 99) ∧ ∃ t, step (stAborted (.eng 0)) = .next t) :=
  ⟨⟨by decide, by decide, _, rfl⟩, ⟨by decide, _, rfl⟩⟩
theorem witness_MemoryChangesOnlyByMoveOrDrain :
    (∃ t, exec (.engMove 0 3) stMove = .next t ∧ memRead t.mem 0x40002002 ≠ memRead stMove.mem 0x40002002) ∧
    (∃ t, exec (.drain 1) stStores = .next t ∧ memRead t.mem 0x40000002 ≠ memRead stStores.mem 0x40000002) ∧
    (∃ t, runRest (.waitEnd ⟨resAB, .started⟩ 0) stStores = .next t ∧
      memRead t.mem 0x40000002 ≠ memRead stStores.mem 0x40000002) :=
  ⟨⟨_, rfl, by decide⟩, ⟨_, rfl, by decide⟩, ⟨_, rfl, by decide⟩⟩
theorem witness_EnginesDoNotSeeTheCpu :
    instrIsSoftware (.engMove 0 3) = false ∧ (∀ j, Instr.engMove 0 3 ≠ .drain j) ∧
      ∃ t, exec (.engMove 0 3) stMove = .next t := ⟨by decide, fun _ h => Instr.noConfusion h, _, rfl⟩
theorem witness_WhatNoInstructionWrites :
    (∃ t, exec (.engMove 0 3) stMove = .next t) ∧ ∃ t, step stWaitEnds = .next t := ⟨⟨_, rfl⟩, _, rfl⟩
end Sys2Proof.Tests
end

section
/-! The turn of an engine at the grain of descriptor words: what `interpret` finds in each phase (43_engine.md R175). -/

namespace Sys2Proof.Machine

open Sys2Proof.Safety

theorem whenLive_of_live {n : Chan} {s : State} (h : Live n s) (f : Fetched) : whenLive n s f = f := by
  simp only [whenLive, live_eq_none.2 h]

theorem judgeFetch_of_fetching {n : Chan} {s : State} {a : Word} (h : Fetching n s a) :
    judgeFetch n s = .clear a.toNat := by
  obtain ⟨_, _, pointer, aligned, fits, ram, apart⟩ := h
  exact judgeFetch_eq_clear.2 ⟨a, pointer, rfl, aligned, fits, ram, apart⟩

/-- With nothing latched, the words of the descriptor are those of memory (43_engine.md R178). -/
theorem descWord_of_bytes {n : Chan} {s : State} {a : Nat} {bs : List Byte} (unread : (getCh s n).fw = emptyFetch)
    (read : memReadBytes s.mem a 24 = some bs) (i : Fin 6) :
    descWord n a i s = some (leWord ((bs.drop (4 * i.val)).take 4)) := by
  simp only [descWord, unread, fwGet_emptyFetch, memReadWord_of_bytes read]

theorem descAt_of_bytes {n : Chan} {s : State} {a : Nat} {bs : List Byte} (unread : (getCh s n).fw = emptyFetch)
    (read : memReadBytes s.mem a 24 = some bs) : descAt n a s = some (descOfBytes bs) := by
  simp only [descAt, descWord_of_bytes unread read]
  rfl

theorem decode_of_length {l : CfgLayout} {n : Chan} {bs : List Byte} (h : bs.length = 24) :
    decode l n bs = .ok (.desc n (descOfBytes bs)) := by
  simp only [decode, h, if_true]

theorem interpret_of_fetching {n : Chan} {s : State} {a : Word} {bs : List Byte} (h : Fetching n s a)
    (unread : (getCh s n).fw = emptyFetch) (read : memReadBytes s.mem a.toNat 24 = some bs) :
    interpret n s = decoded (decode s.config.layout n bs) := by
  have fetched : interpret n s = decoded (decode s.config.layout n (descBytes (descOfBytes bs))) := by
    simp only [interpret, h.1, whenLive_of_live h.2.1, judgeFetch_of_fetching h, descAt_of_bytes unread read]
  rw [fetched, decode_of_length (descBytes_length _), descOfBytes_descBytes,
    decode_of_length (memReadBytes_eq_some.1 read).1]

theorem interpret_of_moving {n : Chan} {s : State} {src dst left c : Word} (h : Moving n s src dst left)
    (ne : left ≠ 0) (cfg : (getCh s n).cfg = .of c) :
    interpret n s = decoded (decodeConfig s.config.layout n c) := by
  obtain ⟨phase, alive, _, _, toGo⟩ := h
  have bytesLeft : left ≠ 0#32 := ne
  simp only [interpret, phase, whenLive_of_live alive, toGo, whenSet, bytesLeft, if_false, cfg]

theorem interpret_of_finished {n : Chan} {s : State} {nx : Word} (h : Finished n s nx) :
    interpret n s = decoded (decodeLink n nx) := by
  obtain ⟨phase, alive, toGo, link⟩ := h
  simp only [interpret, phase, whenLive_of_live alive, toGo, whenSet, if_true, link]

/-- What an engine finds to do does not depend on the schedule. -/
theorem interpret_withSched (n : Chan) (s : State) (ts : List Turn) : interpret n { s with sched := ts } = interpret n s := rfl

theorem step_of_interp {s : State} {n : Chan} {p : Nat} {rest : List Turn} {i : Instr}
    (turn : s.sched = ⟨.interp n, p⟩ :: rest) (found : interpret n s = .instr i) :
    step s = exec i { s with sched := rest } := by
  simp only [step_of_sched turn, takeTurn, interpret_withSched, found, runFetched]

/-- Settles O47: in each of the three places an engine can stand, what it finds is the decoded word, and the turn runs what
it finds. -/
theorem stepRunsTheDecodedWord : Obligations.StepRunsTheDecodedWord := by
  intro s n p rest i turn
  refine ⟨fun a bs fetching unread read dec => step_of_interp turn ?_,
    fun src dst left c moving ne cfg dec => step_of_interp turn ?_, fun nx finished dec => step_of_interp turn ?_⟩
  · rw [interpret_of_fetching fetching unread read, dec, decoded]
  · rw [interpret_of_moving moving ne cfg, dec, decoded]
  · rw [interpret_of_finished finished, dec, decoded]

end Sys2Proof.Machine
end

section
/-! The CPU's turn: which of its cases it takes (00_scope.md R3, 30_encoding.md R107). -/

namespace Sys2Proof.Machine

open Sys2Proof.Safety

theorem step_of_cpu {s : State} {p : Nat} {rest : List Turn} (turn : s.sched = ⟨.cpu, p⟩ :: rest) :
    step s = cpuTurn p { s with sched := rest } := step_of_sched turn

theorem cpuTurn_of_not_running {p : Nat} {s : State} (h : s.cpu.run ≠ .running) : cpuTurn p s = .next s := by
  unfold cpuTurn
  cases hr : s.cpu.run with
  | running => exact absurd hr h
  | aborted e => rfl

theorem cpuTurn_of_doing {p : Nat} {s : State} {q : Rest} {qs : List Rest} (running : s.cpu.run = .running)
    (underWay : s.cpu.doing = q :: qs) :
    cpuTurn p s = runRest q { s with cpu := { s.cpu with doing := qs } } := by
  simp only [cpuTurn, running, underWay]

theorem cpuTurn_of_done {p : Nat} {s : State} (running : s.cpu.run = .running) (noneLeft : s.cpu.doing = [])
    (done : s.cpu.prog = []) : cpuTurn p s = .next s := by
  simp only [cpuTurn, running, noneLeft, done]

theorem cpuTurn_of_prog {p : Nat} {s : State} {op : CpuOp} {ops : List CpuOp} (running : s.cpu.run = .running)
    (noneLeft : s.cpu.doing = []) (next : s.cpu.prog = op :: ops) (wf : cpuOpWf op = true) :
    cpuTurn p s = cpuOp op p { s with cpu := { s.cpu with prog := ops } } := by
  simp only [cpuTurn, running, noneLeft, next, wf, if_true]

/-- An instruction that does not expand is one CPU step (30_encoding.md R108). -/
theorem cpuInstr_of_not_expands {i : Instr} (h : expands i = false) (s : State) : cpuInstr i s = exec i s := by
  cases i with
  | descriptorNew A => cases h
  | memToMem A src dst => cases h
  | transferNew r n => cases h
  | transferStart x n => cases h
  | transferWait x n => cases h
  | transferWaitBounded x n L => cases h
  | split => cases h
  | _ => rfl

end Sys2Proof.Machine
end

section
/-! An operation made in several CPU steps with nothing between them leaves what `exec` leaves (30_encoding.md R108). The
idea: every step left but a poll does the same whatever other steps are left, so taking the steps from `cpu.doing` one by one
is running them in order. -/

namespace Sys2Proof.Machine

open Sys2Proof.Safety

theorem andThen_assoc (o : Outcome) (k l : State → Outcome) :
    andThen (andThen o k) l = andThen o (fun t => andThen (k t) l) := by cases o <;> rfl

theorem andThen_pure (o : Outcome) : andThen o .next = o := by cases o <;> rfl

/-- The state with these CPU steps left. -/
def setDoing (s : State) (rs : List Rest) : State := { s with cpu := { s.cpu with doing := rs } }

theorem setDoing_nil {s : State} (h : s.cpu.doing = []) : setDoing s [] = s := by rw [← h]; rfl

theorem pushRest_eq_setDoing {s : State} (h : s.cpu.doing = []) (rs : List Rest) : pushRest s rs = setDoing s rs := by
  simp [pushRest, setDoing, h]

/-- `f` neither looks at the CPU steps left nor changes them. -/
def KeepsDoing (f : State → Outcome) : Prop :=
  ∀ s rs, f (setDoing s rs) = andThen (f s) (fun t => .next (setDoing t rs))

theorem keepsDoing_next {e : State → State} (h : ∀ s rs, e (setDoing s rs) = setDoing (e s) rs) :
    KeepsDoing (fun s => .next (e s)) := fun s rs => congrArg _ (h s rs)

theorem keepsDoing_guarded {g : State → Option Stop} {e : State → State} (hg : ∀ s rs, g (setDoing s rs) = g s)
    (he : ∀ s rs, e (setDoing s rs) = setDoing (e s) rs) : KeepsDoing (fun s => guarded (g s) (.next (e s))) := by
  intro s rs
  simp only [hg, he]
  cases g s with
  | none => rfl
  | some x => cases x <;> rfl

theorem keepsDoing_andThen {f k : State → Outcome} (hf : KeepsDoing f) (hk : KeepsDoing k) :
    KeepsDoing (fun s => andThen (f s) k) := by
  intro s rs
  simp only [hf s rs, andThen_assoc, andThen_next, hk _ rs]

theorem keepsDoing_storeWord (a : Nat) (v : Word) : KeepsDoing (storeWord a v) :=
  keepsDoing_guarded (fun _ _ => rfl) fun _ _ => rfl

/-- Every step left but a poll, which may put another poll in front of them. -/
theorem keepsDoing_runRest {r : Rest} (h : ∀ x n left, r ≠ .poll x n left) : KeepsDoing (runRest r) := by
  cases r with
  | store a v => exact keepsDoing_storeWord a v
  | bind A src dst => exact keepsDoing_andThen (keepsDoing_storeWord _ _) (keepsDoing_next fun _ _ => rfl)
  | newAddr q n =>
    exact keepsDoing_andThen (keepsDoing_guarded (fun _ _ => rfl) fun _ _ => rfl) (keepsDoing_next fun _ _ => rfl)
  | startEnable x n =>
    exact keepsDoing_andThen (keepsDoing_guarded (fun _ _ => rfl) fun _ _ => rfl) (keepsDoing_next fun _ _ => rfl)
  | poll x n left => exact absurd rfl (h x n left)
  | waitEnd x n => exact keepsDoing_next fun _ _ => rfl
  | release => exact keepsDoing_next fun _ _ => rfl
  | clock => exact keepsDoing_next fun _ _ => rfl
  | gates =>
    exact keepsDoing_andThen (keepsDoing_guarded (fun _ _ => rfl) fun _ _ => rfl) (keepsDoing_next fun _ _ => rfl)

/-- The steps one after another. -/
def runInOrder : List Rest → State → Outcome
  | [], s => .next s
  | r :: rs, s => andThen (runRest r s) (runInOrder rs)

theorem runInOrder_singleton (r : Rest) (s : State) : runInOrder [r] s = runRest r s := andThen_pure _

theorem runInOrder_append_singleton (rs : List Rest) (r : Rest) (s : State) :
    runInOrder (rs ++ [r]) s = andThen (runInOrder rs s) (runRest r) := by
  induction rs generalizing s with
  | nil => exact andThen_pure _
  | cons q rs ih =>
    simp only [List.cons_append, runInOrder, andThen_assoc]
    exact congrArg (andThen _) (funext ih)

theorem runInOrder_middleRest (A : Nat) (d : Desc) (s : State) : runInOrder (middleRest A d) s = storeMiddle A d s := by
  simp only [middleRest, runInOrder, runRest, storeMiddle, andThen_assoc, andThen_pure]

theorem finishDoing_setDoing {rs : List Rest} (h : ∀ x n left, Rest.poll x n left ∉ rs) {k : Nat} (hk : rs.length ≤ k)
    (s : State) : finishDoing k (setDoing s rs) = runInOrder rs (setDoing s []) := by
  induction rs generalizing k s with
  | nil => cases k <;> rfl
  | cons r rs ih =>
    have keeps : KeepsDoing (runRest r) := keepsDoing_runRest fun x n left e => h x n left (e ▸ List.mem_cons_self)
    cases k with
    | zero => cases hk
    | succ k =>
      have rest : ∀ t, finishDoing k (setDoing t rs) = runInOrder rs (setDoing t []) :=
        ih (fun x n left hm => h x n left (List.mem_cons_of_mem _ hm)) (Nat.le_of_succ_le_succ hk)
      calc finishDoing (k + 1) (setDoing s (r :: rs))
        _ = andThen (runRest r (setDoing s rs)) (finishDoing k) := rfl
        _ = andThen (runRest r s) (fun t => runInOrder rs (setDoing t [])) := by
          simp only [keeps s rs, andThen_assoc, andThen_next, rest]
        _ = runInOrder (r :: rs) (setDoing s []) := by
          simp only [runInOrder, keeps s [], andThen_assoc, andThen_next]

/-- A wait that finds the channel busy stays at its poll (44_transfer_lifecycle.md R203, R211). -/
theorem finishDoing_busyPoll {x : Transfer} {n : Chan} {s : State} (hu : usable n s = none)
    (busy : getBusy s n = .of true) (k : Nat) :
    finishDoing k (pushRest s [.poll x n none]) = .next (pushRest s [.poll x n none]) := by
  induction k with
  | zero => rfl
  | succ k ih =>
    have again : pollOnce x n none (later [.waitEnd x n]) s = .next (pushRest s [.poll x n none]) := by
      simp only [pollOnce, hu, busy, guarded_none, readVal_of, if_true, stillBusy, later]
    calc finishDoing (k + 1) (pushRest s [.poll x n none])
      _ = andThen (pollOnce x n none (later [.waitEnd x n]) s) (finishDoing k) := rfl
      _ = .next (pushRest s [.poll x n none]) := by rw [again, andThen_next, ih]

/-- The first step of an operation that answers `o`, and the steps it leaves with nothing between them, answer `o'`; no
operation leaves more than five. -/
def FinishesAs (o o' : Outcome) : Prop := andThen o (finishDoing 5) = o'

theorem finishesAs_next {s : State} (h : s.cpu.doing = []) : FinishesAs (.next s) (.next s) := by
  simp only [FinishesAs, andThen_next, finishDoing, h]

theorem finishesAs_guarded {g : Option Stop} {o o' : Outcome} (h : g = none → FinishesAs o o') :
    FinishesAs (guarded g o) (guarded g o') := by
  cases g with
  | none => exact h rfl
  | some x => cases x <;> rfl

theorem finishesAs_andThen {o : Outcome} {k k' : State → Outcome} (h : ∀ t, o = .next t → FinishesAs (k t) (k' t)) :
    FinishesAs (andThen o k) (andThen o k') := by
  cases o with
  | next t => exact h t rfl
  | fault f => rfl
  | refused r => rfl

/-- The lifecycle check raises or lets the operation go on; a raise leaves no step. -/
theorem finishesAs_checked {ok : Bool} {op : LifeOp} {n : Chan} {s : State} {o o' : Outcome} (hd : s.cpu.doing = [])
    (h : FinishesAs o o') : FinishesAs (lifecycleChecked ok op n s o) (lifecycleChecked ok op n s o') := by
  cases ok with
  | true => exact h
  | false => exact finishesAs_next hd

theorem finishesAs_later {s : State} {rs : List Rest} (hd : s.cpu.doing = []) (h : ∀ x n left, Rest.poll x n left ∉ rs)
    (hk : rs.length ≤ 5) : FinishesAs (later rs s) (runInOrder rs s) := by
  rw [FinishesAs, later, andThen_next, pushRest_eq_setDoing hd, finishDoing_setDoing h hk, setDoing_nil hd]

theorem finishesAs_later_one {s : State} {r : Rest} (hd : s.cpu.doing = []) (h : ∀ x n left, r ≠ .poll x n left) :
    FinishesAs (later [r] s) (runRest r s) := by
  rw [← runInOrder_singleton]
  exact finishesAs_later hd (fun x n left hm => h x n left (List.mem_singleton.1 hm).symm) (Nat.le_add_left 1 4)

/-- The five stores after the first of a descriptor, the last of them with what follows it (41_transfer_resources.md R145). -/
theorem finishesAs_middle {A : Nat} {d : Desc} {r : Rest} {s : State} (hd : s.cpu.doing = [])
    (h : ∀ x n left, r ≠ .poll x n left) :
    FinishesAs (later (middleRest A d ++ [r]) s) (andThen (storeMiddle A d s) (runRest r)) := by
  rw [← runInOrder_middleRest, ← runInOrder_append_singleton]
  refine finishesAs_later hd (fun x n left hm => ?_) (Nat.le_refl 5)
  rcases List.mem_append.1 hm with hm | hm
  · simp [middleRest] at hm
  · exact h x n left (List.mem_singleton.1 hm).symm

/-- A poll, and the end of the wait when it finds the channel idle. -/
theorem finishesAs_pollOnce {x : Transfer} {n : Chan} {left : Option Nat} {s : State} (hd : s.cpu.doing = [])
    (h : usable n s = none → getBusy s n = .of true → FinishesAs (stillBusy x n left s) (stillBusy x n left s)) :
    FinishesAs (pollOnce x n left (later [.waitEnd x n]) s) (pollOnce x n left (waitEnd x n) s) := by
  refine finishesAs_guarded fun hu => ?_
  cases hb : getBusy s n with
  | unset => rfl
  | of b =>
    cases b with
    | true => exact h hu hb
    | false => exact finishesAs_later_one hd (by simp)

theorem descriptorNew_finishesAs {A : Nat} {s : State} (hd : s.cpu.doing = []) :
    FinishesAs (cpuInstr (.descriptorNew A) s) (exec (.descriptorNew A) s) := by
  refine finishesAs_guarded fun _ => finishesAs_andThen fun t ht => ?_
  obtain ⟨_, rfl⟩ := storeWord_eq_next.1 ht
  exact finishesAs_middle hd (by simp)

/-- Both look at the configuration, `exec` after the first store, which leaves it. -/
theorem memToMem_finishesAs {A : Nat} {src dst : Buffer} {s : State} (hd : s.cpu.doing = []) :
    FinishesAs (cpuInstr (.memToMem A src dst) s) (exec (.memToMem A src dst) s) := by
  simp only [cpuInstr, exec, execMemToMem, memToMemFrom]
  cases memToMemError A src dst with
  | some e => exact finishesAs_next hd
  | none =>
    refine finishesAs_guarded fun _ => finishesAs_andThen fun t ht => ?_
    obtain ⟨_, rfl⟩ := storeWord_eq_next.1 ht
    exact finishesAs_middle hd (by simp)

theorem transferNew_finishesAs {r : Resources} {n : Chan} {s : State} (hd : s.cpu.doing = []) :
    FinishesAs (cpuInstr (.transferNew r n) s) (exec (.transferNew r n) s) := by
  refine finishesAs_checked hd (finishesAs_guarded fun _ => finishesAs_andThen fun t ht => ?_)
  obtain ⟨_, _, rfl⟩ := execChSetNonsecure_next ht
  exact finishesAs_later_one hd (by simp)

theorem transferStart_finishesAs {x : Transfer} {n : Chan} {s : State} (hd : s.cpu.doing = []) :
    FinishesAs (cpuInstr (.transferStart x n) s) (exec (.transferStart x n) s) :=
  finishesAs_checked hd (finishesAs_later_one (s := fenceEffect s) hd (by simp))

theorem transferWait_finishesAs {x : Transfer} {n : Chan} {s : State} (hd : s.cpu.doing = []) :
    FinishesAs (cpuInstr (.transferWait x n) s) (exec (.transferWait x n) s) :=
  finishesAs_checked hd (finishesAs_pollOnce hd fun hu busy => finishDoing_busyPoll hu busy 5)

/-- A bounded wait whose first poll is its last, or finds the channel idle. -/
theorem transferWaitBounded_finishesAs {x : Transfer} {n : Chan} {L : Nat} {s : State} (hd : s.cpu.doing = [])
    (last : getBusy s n = .of true → L ≤ 1) :
    FinishesAs (cpuInstr (.transferWaitBounded x n L) s) (exec (.transferWaitBounded x n L) s) := by
  refine finishesAs_guarded fun _ => finishesAs_checked hd (finishesAs_pollOnce hd fun _ busy => ?_)
  simp only [stillBusy, last busy, if_true]
  exact finishesAs_next hd

theorem split_finishesAs {s : State} (hd : s.cpu.doing = []) : FinishesAs (cpuInstr .split s) (exec .split s) := by
  refine finishesAs_guarded fun _ => finishesAs_andThen fun t ht => ?_
  obtain ⟨_, rfl⟩ := execCcuResetAssert_next ht
  exact finishesAs_later (s := resetEffect s) (rs := [.release, .clock] ++ [.gates]) hd (by simp) (by decide)

/-- Every operation that expands, made with nothing between its steps, is what `exec` makes of it. -/
theorem cpuInstr_finishesAs {i : Instr} {s : State} (hd : s.cpu.doing = []) (he : expands i = true)
    (last : ∀ x n L, i = .transferWaitBounded x n L → getBusy s n = .of true → L ≤ 1) :
    FinishesAs (cpuInstr i s) (exec i s) := by
  cases i with
  | descriptorNew A => exact descriptorNew_finishesAs hd
  | memToMem A src dst => exact memToMem_finishesAs hd
  | transferNew r n => exact transferNew_finishesAs hd
  | transferStart x n => exact transferStart_finishesAs hd
  | transferWait x n => exact transferWait_finishesAs hd
  | transferWaitBounded x n L => exact transferWaitBounded_finishesAs hd (last x n L rfl)
  | split => exact split_finishesAs hd
  | _ => cases he

end Sys2Proof.Machine
end

section
/-! The first steps of the lifecycle operations, and the obligation. -/

namespace Sys2Proof.Machine

open Sys2Proof.Safety

theorem cpuInstr_transferNew {r : Resources} {n : Chan} {s : State} (use : Usable n s) (free : getLife s n = .free)
    (hands : inCallersHands s r = true) (idle : (getCh s n).phase = .idle) :
    cpuInstr (.transferNew r n) s = .next (pushRest (setSec s n .nonSecure) [.newAddr r n]) := by
  simp only [cpuInstr, transferNewFrom, free, decide_true, lifecycleChecked, if_true, hands, guarded_eq_next,
    require_eq_none, andThen_eq_next, execChSetNonsecure, writeStop_eq_none, true_and]
  exact ⟨_, ⟨⟨use, idle⟩, rfl⟩, rfl⟩

theorem cpuInstr_transferStart {x : Transfer} {n : Chan} {s : State} (ready : x.state = .ready)
    (life : getLife s n = .ready x.res) :
    cpuInstr (.transferStart x n) s = .next (pushRest (fenceEffect s) [.startEnable x n]) := by
  simp only [cpuInstr, transferStartFrom, isReady_eq_true.2 ⟨ready, life⟩, lifecycleChecked, if_true, later]

theorem cpuInstr_transferWait {x : Transfer} {n : Chan} {s : State} (use : Usable n s) (started : x.state = .started)
    (life : getLife s n = .started x.res) (idle : getBusy s n = .of false) :
    cpuInstr (.transferWait x n) s = .next (pushRest s [.waitEnd x n]) := by
  simp only [cpuInstr, transferWaitFrom, isStarted_eq_true.2 ⟨started, life⟩, lifecycleChecked, if_true, pollOnce,
    usable_eq_none.2 use, guarded_none, idle, readVal_of, Bool.false_eq_true, if_false, later]

/-- The CPU's turn at an instruction of its program: its first step where it expands, else all of it. -/
theorem cpuOp_instr (i : Instr) (p : Nat) (s : State) :
    cpuOp (.instr i) p s = if expands i then cpuInstr i s else exec i s := by
  cases h : expands i with
  | true => rfl
  | false => exact cpuInstr_of_not_expands h s

/-- Settles O49: the cases of the CPU's turn, the first steps of the three lifecycle operations, and the steps left one after
another being what `exec` does. -/
theorem stepRunsTheNextCpuOperation : Obligations.StepRunsTheNextCpuOperation := by
  refine ⟨?_, ?_, fun i s hd he last => cpuInstr_finishesAs hd he last⟩
  · rintro s p rest ops u turn rfl
    rw [step_of_cpu turn]
    refine ⟨fun q qs running underWay => cpuTurn_of_doing running underWay,
      fun running noneLeft => ?_, fun stopped => cpuTurn_of_not_running stopped⟩
    have runs {op : CpuOp} (isNext : s.cpu.prog = op :: ops) (wf : cpuOpWf op = true) :=
      cpuTurn_of_prog (p := p) (s := { s with sched := rest }) running noneLeft isNext wf
    refine ⟨fun i isNext soft wf => ?_, fun a w isNext fits => runs isNext (decide_eq_true fits),
      fun a w v isNext fits holds => ?_, fun r isNext => runs isNext rfl, fun x isNext wf => runs isNext wf,
      fun done => cpuTurn_of_done running noneLeft done⟩
    · rw [runs isNext (Bool.and_eq_true_iff.2 ⟨soft, wf⟩), cpuOp_instr]
    · exact runs isNext (Bool.and_eq_true_iff.2 ⟨decide_eq_true fits, holds⟩)
  · intro s r x n _ use
    exact ⟨fun free hands idle => cpuInstr_transferNew use free hands idle,
      fun ready life => cpuInstr_transferStart ready life,
      fun started life idle => cpuInstr_transferWait use started life idle⟩

end Sys2Proof.Machine
end

section
/-! What no instruction writes (10_state.md R22, R23, R29 to R31, R36, R51): the configuration, and the fields of a channel
that only the block reset unsets. -/

namespace Sys2Proof.Machine

/-! The configuration, effect by effect and then step by step (10_state.md R51). -/

theorem effect_config {i : Instr} {s t : State} (h : Effect i s t) : t.config = s.config := by
  cases h with
  | moves => exact engineWrite_config _ _ _
  | drains => exact (drainEffect_fields _ _).1
  | _ => rfl

theorem exec_config {i : Instr} {s t : State} (h : exec i s = .next t) : t.config = s.config :=
  effect_config (exec_effect h)

theorem runRest_config {r : Rest} {s t : State} (h : runRest r s = .next t) : t.config = s.config := by
  obtain ⟨_, _, _, _, rfl⟩ | ⟨_, _, _, _, _, rfl⟩ | ⟨_, _, _, _, _, rfl⟩ | ⟨_, _, _, _, _, _, _, rfl⟩ |
    ⟨_, _, _, _, _, ⟨_, rfl⟩ | ⟨_, rfl | ⟨_, rfl⟩⟩⟩ | ⟨_, _, _, rfl⟩ | ⟨_, rfl⟩ | ⟨_, rfl⟩ | ⟨_, _, _, rfl⟩ :=
      runRest_next h
  all_goals rfl

theorem firstPiece_config {s u : State} {rs : List Rest} (h : FirstPiece s u rs) : u.config = s.config := by
  cases h <;> rfl

theorem cpuInstr_config {i : Instr} {s t : State} (h : cpuInstr i s = .next t) : t.config = s.config := by
  obtain ⟨_, h⟩ | ⟨_, rfl⟩ | ⟨_, rfl⟩ | ⟨_, _, piece, rfl⟩ := cpuInstr_next h
  · exact exec_config h
  · rfl
  · rfl
  · exact (pushRest_config _ _).trans (firstPiece_config piece)

theorem cpuOp_config {op : CpuOp} {pick : Nat} {s t : State} (h : cpuOp op pick s = .next t) : t.config = s.config := by
  obtain ⟨_, h⟩ | ⟨_, _, h⟩ | ⟨_, _, h⟩ | ⟨_, _, _, h⟩ | ⟨g, _, _, rfl⟩ | ⟨_, rfl⟩ := cpuOp_next h
  · exact cpuInstr_config h
  · exact exec_config h
  · obtain ⟨_, _, _, rfl⟩ := cpuLoad_next h
    rfl
  · obtain ⟨_, rfl⟩ := cpuStore_next h
    rfl
  · cases g <;> rfl
  · rfl

theorem takeTurn_config {t : Turn} {s u : State} (h : takeTurn t s = .next u) : u.config = s.config := by
  obtain rfl | ⟨_, _, _, h⟩ | ⟨_, _, _, _, rfl⟩ | ⟨_, _, _, _, _, h⟩ | ⟨_, _, _, _, _, _, _, h⟩ := takeTurn_cases h
  · rfl
  · exact exec_config h
  · rfl
  · exact (runRest_config h).trans rfl
  · exact (cpuOp_config h).trans rfl

theorem step_config {s t : State} (h : step s = .next t) : t.config = s.config :=
  (takeTurn_config h).trans (afterTurn_fields s).1

/-! The registers of a channel. -/

/-- The fields that the engine and the enable leave alone (10_state.md R22, R23, R29 to R31). -/
structure SameSetup (c d : Channel) : Prop where
  pause : d.pause = c.pause
  descAddr : d.descAddr = c.descAddr
  mode : d.mode = c.mode
  fdescAddr : d.fdescAddr = c.fdescAddr
  pkgNum : d.pkgNum = c.pkgNum

theorem SameSetup.refl (c : Channel) : SameSetup c c := ⟨rfl, rfl, rfl, rfl, rfl⟩

/-- A write to one channel that keeps its setup keeps the setup of every channel. -/
theorem sameSetup_setCh {s : State} {n : Chan} {c : Channel} (h : SameSetup (getCh s n) c) (m : Chan) :
    SameSetup (getCh s m) (getCh (setCh s n c) m) := by
  rcases eq_or_ne m n with rfl | other
  · simpa using h
  · simpa [other] using SameSetup.refl _

/-- A write of `desc_addr` seen from any channel. -/
theorem getCh_setDescAddr (s : State) (n : Chan) (a : Word) (m : Chan) :
    getCh (setCh s n { getCh s n with descAddr := .of a }) m = { getCh s m with descAddr := .of a } ∨
      getCh (setCh s n { getCh s n with descAddr := .of a }) m = getCh s m := by
  rcases eq_or_ne m n with rfl | other
  · simp
  · simp [other]

/-- Everything an instruction can do to a channel's setup: software resets it or writes `desc_addr`, and nothing else
touches it. -/
inductive SetupEffect (i : Instr) (c : Channel) : Channel → Prop
  | resets (soft : instrIsSoftware i = true) : SetupEffect i c resetChannel
  | addresses (soft : instrIsSoftware i = true) (a : Word) : SetupEffect i c { c with descAddr := .of a }
  | keeps {d : Channel} (same : SameSetup c d) : SetupEffect i c d

theorem setupEffect_setDescAddr {i : Instr} (soft : instrIsSoftware i = true) (s : State) (n : Chan) (a : Word)
    (m : Chan) : SetupEffect i (getCh s m) (getCh (setCh s n { getCh s n with descAddr := .of a }) m) := by
  rcases getCh_setDescAddr s n a m with h | h
  · exact h ▸ .addresses soft a
  · exact h ▸ .keeps (.refl _)

theorem setupEffect_reset {i : Instr} (soft : instrIsSoftware i = true) {s t : State}
    (h : t.ch = everyChannel resetChannel) (m : Chan) : SetupEffect i (getCh s m) (getCh t m) := by
  have fresh : getCh t m = resetChannel := by rw [getCh, h, bankGet_everyChannel]
  exact fresh ▸ .resets soft

theorem setupEffect_of_effect {i : Instr} {s t : State} (h : Effect i s t) (m : Chan) :
    SetupEffect i (getCh s m) (getCh t m) := by
  cases h with
  | resets => exact setupEffect_reset rfl rfl m
  | splits => exact setupEffect_reset rfl rfl m
  | setsAddr n a => exact setupEffect_setDescAddr rfl s n a m
  | readies r n => exact setupEffect_setDescAddr rfl s n _ m
  | engineFaults _ n | fetchesWord n | latches _ n | links _ n | completes _ n | enables n | starts _ n =>
    refine .keeps (sameSetup_setCh (s := s) (n := n) ?_ m)
    exact ⟨rfl, rfl, rfl, rfl, rfl⟩
  | moves _ n k _ src dst left v =>
    rw [← getCh_engineWrite s dst.toNat v m]
    refine .keeps (sameSetup_setCh ?_ m)
    exact ⟨rfl, rfl, rfl, rfl, rfl⟩
  | drains j => exact .keeps (getCh_congr (drainEffect_fields j s).2.1 m ▸ .refl _)
  | _ => exact .keeps (.refl _)

/-- The fields of R22 and R29 to R31 hold nothing afterwards that they did not hold before. -/
theorem setupEffect_writes_nothing {i : Instr} {c d : Channel} (h : SetupEffect i c d) :
    (d.pause = .of true → c.pause = .of true) ∧ (∀ v, d.mode = .of v → c.mode = .of v) ∧
      (∀ v, d.fdescAddr = .of v → c.fdescAddr = .of v) ∧ ∀ v, d.pkgNum = .of v → c.pkgNum = .of v := by
  cases h with
  | resets => simp [resetChannel, powerOnChannel]
  | addresses => exact ⟨id, fun _ => id, fun _ => id, fun _ => id⟩
  | keeps same => simp [same.pause, same.mode, same.fdescAddr, same.pkgNum]

theorem setupEffect_descAddr {i : Instr} {c d : Channel} (h : SetupEffect i c d) (engine : instrIsSoftware i = false) :
    d.descAddr = c.descAddr := by
  cases h with
  | resets soft => simp [engine] at soft
  | addresses soft => simp [engine] at soft
  | keeps same => exact same.descAddr

/-! The security bits: they are set NonSecure or unset, never Secure (10_state.md R36). -/

theorem secure_of_setSec_nonSecure {s : State} {n m : Chan} (h : getSec (setSec s n .nonSecure) m = .of .secure) :
    getSec s m = .of .secure := by
  rcases eq_or_ne m n with rfl | other
  · simp at h
  · rwa [getSec_setSec_ne _ _ other] at h

theorem not_secure_of_unset {s : State} {m : Chan} (h : s.blk.sec = everyChannel .unset) : getSec s m ≠ .of .secure := by
  simp [getSec, h]

theorem secure_of_effect {i : Instr} {s t : State} (h : Effect i s t) {m : Chan} (secure : getSec t m = .of .secure) :
    getSec s m = .of .secure := by
  cases h with
  | setsDomain => exact secure_of_setSec_nonSecure secure
  | readies => exact secure_of_setSec_nonSecure secure
  | resets => exact absurd secure (not_secure_of_unset rfl)
  | splits => exact absurd secure (not_secure_of_unset rfl)
  | moves => exact (getSec_engineWrite _ _ _ m).symm.trans secure
  | drains j =>
    obtain ⟨_, _, blk, _⟩ := drainEffect_fields j s
    exact (getSec_congr blk m).symm.trans secure
  | _ => exact secure

/-- Settles O60: by cases over the effects of an instruction, and for the configuration over what a turn can do. -/
theorem whatNoInstructionWrites : Obligations.WhatNoInstructionWrites := by
  refine ⟨fun s t h => step_config h, fun i s t n h => ?_⟩
  have effect := exec_effect h
  have setup := setupEffect_of_effect effect n
  obtain ⟨pause, mode, fdescAddr, pkgNum⟩ := setupEffect_writes_nothing setup
  exact ⟨exec_config h, secure_of_effect effect, pause, mode, fdescAddr, pkgNum, setupEffect_descAddr setup⟩

end Sys2Proof.Machine
end

section
/-! The invariants at power-on (10_state.md R53): nothing is stored, every engine is idle, no resources exist. -/

namespace Sys2Proof.Machine

open Sys2Proof.Safety

@[simp] theorem getCh_reset (n : Chan) : getCh State.reset n = powerOnChannel := bankGet_everyChannel _ n
@[simp] theorem getBusy_reset (n : Chan) : getBusy State.reset n = .unset := bankGet_everyChannel _ n
@[simp] theorem getLife_reset (n : Chan) : getLife State.reset n = .free := bankGet_everyChannel _ n

theorem resetDone_reset : resetDone State.reset = false := rfl

/-- An idle channel with no flag written, before the block reset. -/
theorem channelInv_reset (n : Chan) : channelInv n State.reset = true := by
  simp [channelInv, resetDone_reset, powerOnChannel]

theorem sharingInv_reset : SharingInv State.reset := by
  intro n m _ moving
  simp [powerOnChannel] at moving

theorem ownershipInv_reset : OwnershipInv State.reset where
  heldExist n r held := by simp at held
  heldOnce n m r held := by simp at held
  selfDisjoint r pinned := absurd pinned List.not_mem_nil
  apart := List.Pairwise.nil
  underWay := trivial

/-- Settles O51: memory and the store buffer are empty, and the three other invariants by the lemmas above. -/
theorem powerOnMeetsTheInvariants : Obligations.PowerOnMeetsTheInvariants :=
  ⟨rfl, channelInv_reset, sharingInv_reset, ownershipInv_reset⟩

end Sys2Proof.Machine
end

section
/-! Memory in canonical form inside RAM (20_memory.md R60): what each operation on memory and on the store buffer keeps, and
from it the invariant of every step. -/

namespace Sys2Proof.Machine

open Sys2Proof.Safety

/-- Memory has its canonical form and lies in RAM. -/
def RamMemory (c : Config) (m : Memory) : Prop := Memory.wf m = true ∧ ∀ p ∈ m, isRam c p.1 = true

/-- Every pending store lies in RAM. -/
def RamStores (c : Config) (sb : List PendingStore) : Prop := ∀ p ∈ sb, rangeRam c p.addr p.bytes.length = true

theorem memoryInv_eq_true {s : State} :
    memoryInv s = true ↔ RamMemory s.config s.mem ∧ RamStores s.config s.cpu.sb := by
  simp only [memoryInv, Bool.and_eq_true, List.all_eq_true, RamMemory, RamStores]

theorem isRam_of_rangeRam {c : Config} {a k x : Nat} (h : rangeRam c a k = true) (ge : a ≤ x) (lt : x < a + k) :
    isRam c x = true := allRam_iff.2 h x ⟨ge, lt⟩

theorem ramMemory_memWriteBytes {c : Config} {m : Memory} {a : Nat} {bs : List Byte} (h : RamMemory c m)
    (ram : rangeRam c a bs.length = true) : RamMemory c (memWriteBytes m a bs) := by
  obtain ⟨canonical, inRam⟩ := h
  cases bs with
  | nil => exact ⟨canonical, inRam⟩
  | cons b bs =>
    refine ⟨Memory.wf_memWriteBytes canonical (rangeRam_le ram (Nat.succ_pos _)), fun p hp => ?_⟩
    rcases mem_memWriteBytes hp with ⟨ge, lt⟩ | old
    · exact isRam_of_rangeRam ram ge lt
    · exact inRam p old

theorem ramMemory_drainAll {c : Config} {m : Memory} {sb : List PendingStore} (h : RamMemory c m)
    (ram : RamStores c sb) : RamMemory c (drainAll m sb) := by
  induction sb generalizing m with
  | nil => exact h
  | cons p sb ih =>
    obtain ⟨first, others⟩ := List.forall_mem_cons.1 ram
    exact ih (ramMemory_memWriteBytes h first) others

/-! The operations on memory and on the store buffer keep the invariant. -/

theorem memoryInv_storeEffect {s : State} {a : Nat} {bs : List Byte} (inv : memoryInv s = true)
    (ram : rangeRam s.config a bs.length = true) : memoryInv (storeEffect a bs s) = true := by
  obtain ⟨mem, stores⟩ := memoryInv_eq_true.1 inv
  refine memoryInv_eq_true.2 ⟨mem, fun p hp => ?_⟩
  rcases List.mem_append.1 hp with old | new
  · exact stores p old
  · obtain rfl := List.mem_singleton.1 new
    exact ram

theorem memoryInv_storeWord {s : State} {a : Nat} {v : Word} (inv : memoryInv s = true) (may : CpuMayAccess s a 4) :
    memoryInv (storeEffect a (wordBytes v) s) = true :=
  memoryInv_storeEffect inv ((wordBytes_length v).symm ▸ may.2)

theorem memoryInv_storeDesc {s : State} {A : Nat} {d : Desc} (inv : memoryInv s = true) (may : CpuMayAccess s A 24) :
    memoryInv (storeDesc A d s) = true := by
  have part {i : Nat} (le : i + 4 ≤ 24) : CpuMayAccess s (A + i) 4 := mayAccess_part may (by omega) (by omega)
  have first := memoryInv_storeWord (v := d.config) inv (part (i := 0) (by decide))
  have second := memoryInv_storeWord (v := d.srcAddr) first (part (i := 4) (by decide))
  have third := memoryInv_storeWord (v := d.dstAddr) second (part (i := 8) (by decide))
  have fourth := memoryInv_storeWord (v := d.length) third (part (i := 12) (by decide))
  have fifth := memoryInv_storeWord (v := d.param) fourth (part (i := 16) (by decide))
  exact memoryInv_storeWord (v := d.nextAddr) fifth (part (i := 20) (by decide))

theorem memoryInv_bindEffect (A : Nat) (src dst : Buffer) (s : State) :
    memoryInv (bindEffect A src dst s) = memoryInv s := rfl

theorem memoryInv_pushRest (s : State) (rs : List Rest) : memoryInv (pushRest s rs) = memoryInv s := rfl

theorem memoryInv_fenceEffect {s : State} (inv : memoryInv s = true) : memoryInv (fenceEffect s) = true := by
  obtain ⟨mem, stores⟩ := memoryInv_eq_true.1 inv
  exact memoryInv_eq_true.2 ⟨ramMemory_drainAll mem stores, fun _ hp => absurd hp List.not_mem_nil⟩

theorem drainEffect_of_getElem? {s : State} {j : Nat} {p : PendingStore} (here : s.cpu.sb[j]? = some p) :
    drainEffect j s =
      { s with mem := memWriteBytes s.mem p.addr p.bytes, cpu := { s.cpu with sb := s.cpu.sb.eraseIdx j } } := by
  rw [drainEffect, here]

theorem memoryInv_drainEffect {s : State} {j : Nat} (inv : memoryInv s = true) : memoryInv (drainEffect j s) = true := by
  obtain ⟨mem, stores⟩ := memoryInv_eq_true.1 inv
  cases here : s.cpu.sb[j]? with
  | none => rwa [drainEffect, here]
  | some p =>
    rw [drainEffect_of_getElem? here]
    exact memoryInv_eq_true.2 ⟨ramMemory_memWriteBytes mem (stores p (List.mem_of_getElem? here)),
      fun q hq => stores q (List.mem_of_mem_eraseIdx hq)⟩

theorem memoryInv_engineWrite {s : State} {a : Nat} {bs : List Byte} (inv : memoryInv s = true)
    (ram : rangeRam s.config a bs.length = true) : memoryInv (engineWrite s a bs) = true := by
  obtain ⟨mem, stores⟩ := memoryInv_eq_true.1 inv
  rw [engineWrite_eq]
  exact memoryInv_eq_true.2 ⟨ramMemory_memWriteBytes mem ram, stores⟩

/-! From the effects of an instruction to a step. -/

theorem memoryInv_of_effect {i : Instr} {s t : State} (h : Effect i s t) (inv : memoryInv s = true) :
    memoryInv t = true := by
  cases h with
  | moves _ _ k _ src dst _ v _ _ _ _ _ dstRam read =>
    obtain rfl := (memReadBytes_eq_some.1 read).1
    exact memoryInv_engineWrite inv dstRam
  | drains => exact memoryInv_drainEffect inv
  | fences => exact memoryInv_fenceEffect inv
  | starts => exact memoryInv_fenceEffect inv
  | waitEnds => exact memoryInv_fenceEffect inv
  | storesFresh _ _ may => exact memoryInv_storeDesc inv may
  | binds A src dst _ _ go =>
    rw [memoryInv_bindEffect]
    exact memoryInv_storeDesc inv (mayAccess_of_memToMemStop go)
  | _ => exact inv

theorem exec_memoryInv {i : Instr} {s t : State} (h : exec i s = .next t) (inv : memoryInv s = true) :
    memoryInv t = true := memoryInv_of_effect (exec_effect h) inv

theorem runRest_memoryInv {r : Rest} {s t : State} (h : runRest r s = .next t) (inv : memoryInv s = true) :
    memoryInv t = true := by
  obtain ⟨_, _, _, may, rfl⟩ | ⟨_, _, _, _, may, rfl⟩ | ⟨_, _, _, _, _, rfl⟩ | ⟨_, _, _, _, _, _, _, rfl⟩ |
    ⟨_, _, _, _, _, ⟨_, rfl⟩ | ⟨_, rfl | ⟨_, rfl⟩⟩⟩ | ⟨_, _, _, rfl⟩ | ⟨_, rfl⟩ | ⟨_, rfl⟩ | ⟨_, _, _, rfl⟩ :=
      runRest_next h
  · exact memoryInv_storeWord inv may
  · exact (memoryInv_bindEffect ..).trans (memoryInv_storeWord inv may)
  · exact inv
  · exact inv
  · exact inv
  · exact inv
  · exact inv
  · exact memoryInv_fenceEffect inv
  · exact inv
  · exact inv
  · exact inv

theorem firstPiece_memoryInv {s u : State} {rs : List Rest} (h : FirstPiece s u rs) (inv : memoryInv s = true) :
    memoryInv u = true := by
  cases h with
  | freshStore _ may => exact memoryInv_storeWord inv may
  | bindStore _ _ _ go =>
    exact memoryInv_storeWord inv (mayAccess_part (mayAccess_of_memToMemStop go) le_rfl (by omega))
  | fence => exact memoryInv_fenceEffect inv
  | _ => exact inv

theorem cpuInstr_memoryInv {i : Instr} {s t : State} (h : cpuInstr i s = .next t) (inv : memoryInv s = true) :
    memoryInv t = true := by
  obtain ⟨_, h⟩ | ⟨_, rfl⟩ | ⟨_, rfl⟩ | ⟨_, _, piece, rfl⟩ := cpuInstr_next h
  · exact exec_memoryInv h inv
  · exact inv
  · exact inv
  · exact (memoryInv_pushRest ..).trans (firstPiece_memoryInv piece inv)

theorem cpuOp_memoryInv {op : CpuOp} {pick : Nat} {s t : State} (h : cpuOp op pick s = .next t)
    (inv : memoryInv s = true) : memoryInv t = true := by
  obtain ⟨_, h⟩ | ⟨_, _, h⟩ | ⟨_, _, h⟩ | ⟨a, w, v, h⟩ | ⟨g, _, _, rfl⟩ | ⟨_, rfl⟩ := cpuOp_next h
  · exact cpuInstr_memoryInv h inv
  · exact exec_memoryInv h inv
  · obtain ⟨_, _, _, rfl⟩ := cpuLoad_next h
    exact inv
  · obtain ⟨may, rfl⟩ := cpuStore_next h
    exact memoryInv_storeEffect inv ((leBytes_length w.bytes v).symm ▸ may.2)
  · cases g <;> exact inv
  · exact inv

theorem takeTurn_memoryInv {t : Turn} {s u : State} (h : takeTurn t s = .next u) (inv : memoryInv s = true) :
    memoryInv u = true := by
  obtain rfl | ⟨_, _, _, h⟩ | ⟨_, _, _, _, rfl⟩ | ⟨_, _, _, _, _, h⟩ | ⟨_, _, _, _, _, _, _, h⟩ := takeTurn_cases h
  · exact inv
  · exact exec_memoryInv h inv
  · exact inv
  · exact runRest_memoryInv h inv
  · exact cpuOp_memoryInv h inv

theorem memoryInv_afterTurn (s : State) : memoryInv (afterTurn s) = memoryInv s := by
  obtain ⟨config, _, _, mem, cpu, _⟩ := afterTurn_fields s
  simp only [memoryInv, config, mem, cpu]

/-- Settles O52: memory changes by writes inside RAM only, and a store becomes pending only where the CPU may access. -/
theorem stepKeepsMemoryCanonical : Obligations.StepKeepsMemoryCanonical := fun s _ inv h =>
  takeTurn_memoryInv h ((memoryInv_afterTurn s).trans inv)

end Sys2Proof.Machine
end

section
/-! Byte order (20_memory.md R62). -/

namespace Sys2Proof.Machine

/-- A word's bytes are its four bit fields, the lowest first. -/
theorem wordBytes_eq_extracts (w : Word) :
    wordBytes w = [w.extractLsb' 0 8, w.extractLsb' 8 8, w.extractLsb' 16 8, w.extractLsb' 24 8] := by
  have field (k : Nat) : BitVec.ofNat 8 (w.toNat / 2 ^ k) = w.extractLsb' k 8 := by
    apply BitVec.eq_of_toNat_eq
    simp [Nat.shiftRight_eq_div_pow]
  simp [wordBytes, leBytes, Nat.div_div_eq_div_mul, ← field]

/-- Bytes just written are read back. -/
theorem memReadBytes_memWriteBytes (m : Memory) (a : Nat) (bs : List Byte) :
    memReadBytes (memWriteBytes m a bs) a bs.length = some bs := by
  refine memReadBytes_eq_some.2 ⟨rfl, fun i hi => ?_⟩
  simp [memRead_memWriteBytes, hi]

theorem memReadWord_memWriteBytes (m : Memory) (a : Nat) (w : Word) :
    memReadWord (memWriteBytes m a (wordBytes w)) a = some w := by
  have bytes := memReadBytes_memWriteBytes m a (wordBytes w)
  rw [wordBytes_length] at bytes
  rw [memReadWord, bytes, Option.map_some, leWord_wordBytes]

/-- Settles O8: each byte of the word by its place, and the word by reading back what was written. -/
theorem wordsAreLittleEndian : Obligations.WordsAreLittleEndian := by
  intro m a w
  refine ⟨?_, ?_, ?_, ?_, memReadWord_memWriteBytes m a w⟩
  all_goals simp [memRead_memWriteBytes, wordBytes_eq_extracts]

end Sys2Proof.Machine
end

section
/-! A CPU store and load (20_memory.md R71, R72): what they are when the CPU may access the bytes, and which refusal they
give when it may not. -/

namespace Sys2Proof.Machine

open Sys2Proof.Safety

theorem cpuStore_of_mayAccess {s : State} {a : Nat} {w : Width} (may : CpuMayAccess s a w.bytes) (v : Nat) :
    cpuStore a w v s = .next (storeEffect a (leBytes w.bytes v) s) := by
  rw [cpuStore, accessStop_eq_none.2 may, guarded_none]

theorem cpuLoad_of_loadBytes {s : State} {a pick : Nat} {w : Width} {bs : List Byte} (may : CpuMayAccess s a w.bytes)
    (loaded : loadBytes s a pick 0 w.bytes = some bs) : cpuLoad a w pick s = .next (setRet s (.loaded (leValue bs))) := by
  rw [cpuLoad, accessStop_eq_none.2 may, guarded_none, loaded]

/-- What a load of `k` bytes gives: each byte is the one chosen for it. -/
theorem loadBytes_eq_some {s : State} {a pick j k : Nat} {bs : List Byte} :
    loadBytes s a pick j k = some bs ↔ bs.length = k ∧
      ∀ i (h : i < bs.length), loadByte s (a + (j + i)) (pickDigit pick (j + i)) = .of bs[i] := by
  induction k generalizing j bs with
  | zero =>
    rw [loadBytes, Option.some_inj, List.length_eq_zero_iff, eq_comm]
    exact ⟨fun empty => ⟨empty, fun i hi => absurd hi (by simp [empty])⟩, And.left⟩
  | succ k ih =>
    have shift (i : Nat) : j + 1 + i = j + (i + 1) := by omega
    cases bs with
    | nil => cases h : loadByte s (a + j) (pickDigit pick j) <;> simp [loadBytes, h]
    | cons b bs =>
      have cons_iff : loadBytes s a pick j (k + 1) = some (b :: bs) ↔
          loadByte s (a + j) (pickDigit pick j) = .of b ∧ loadBytes s a pick (j + 1) k = some bs := by
        cases h : loadByte s (a + j) (pickDigit pick j) <;> simp [loadBytes, h, and_comm]
      rw [cons_iff, ih]
      simp only [shift, List.length_cons, Nat.add_right_cancel_iff]
      constructor
      · rintro ⟨first, length, others⟩
        exact ⟨length, fun i hi => match i with
          | 0 => first
          | i + 1 => others i (Nat.lt_of_succ_lt_succ hi)⟩
      · rintro ⟨length, each⟩
        exact ⟨each 0 (Nat.succ_pos _), length, fun i hi => each (i + 1) (Nat.succ_lt_succ hi)⟩

theorem loadByte_of_forwarded {s : State} {x : Nat} {v : Byte} (h : forwarded s.cpu.sb x = some v) (pick : Nat) :
    loadByte s x pick = .of v := by simp only [loadByte, h]

/-- A load of the bytes of the store made last is forwarded from it. -/
theorem loadByte_storeEffect {s : State} {a : Nat} {bs : List Byte} {i : Nat} (hi : i < bs.length) (pick : Nat) :
    loadByte (storeEffect a bs s) (a + i) pick = .of bs[i] := by
  refine loadByte_of_forwarded ?_ pick
  simp [forwarded_append, storeCovers, storeByte, hi]

theorem storeFits_lt {w : Width} {v : Nat} (h : storeFits w v = true) : v < 256 ^ w.bytes := by
  cases w <;> simpa [storeFits, Width.bytes] using h

/-- Settles O9: the store's effect is the one of R72, and clearing the stale sets is by byte. -/
theorem cpuStoreIsPending : Obligations.CpuStoreIsPending := by
  intro s a v w may
  refine ⟨_, cpuStore_of_mayAccess may v, rfl, fun x b => ?_, rfl⟩
  rw [storeEffect_cpu_stale, mem_staleClear, leBytes_length]

/-- Settles O10: each byte of the load is forwarded from the store, and the bytes hold the value. -/
theorem cpuLoadSeesOwnStore : Obligations.CpuLoadSeesOwnStore := by
  intro s t a v pick w fits stored
  obtain ⟨may, rfl⟩ := cpuStore_next stored
  have loaded : loadBytes (storeEffect a (leBytes w.bytes v) s) a pick 0 w.bytes = some (leBytes w.bytes v) :=
    loadBytes_eq_some.2 ⟨leBytes_length _ _, fun i hi => by simpa only [Nat.zero_add] using loadByte_storeEffect hi _⟩
  have mayStill : CpuMayAccess (storeEffect a (leBytes w.bytes v) s) a w.bytes := may
  rw [cpuLoad_of_loadBytes mayStill loaded, leValue_leBytes, Nat.mod_eq_of_lt (storeFits_lt fits)]

/-! The free choice of one byte. -/

/-- The candidate a number picks. -/
theorem choose_eq_getElem {α : Type} (first : α) (others : List α) (pick : Nat) :
    choose first others pick = (first :: others)[pick % (others.length + 1)]'(Nat.mod_lt _ (Nat.succ_pos _)) := by
  rw [choose, List.getElem?_eq_getElem, Option.getD_some]

/-- One digit of the pick reaches every candidate of a set that small (log 16). -/
theorem exists_pickDigit_choose {α : Type} {first v : α} {others : List α} (small : others.length < 512) :
    (∃ pick, choose first others (pickDigit pick 0) = v) ↔ v = first ∨ v ∈ others := by
  simp only [choose_eq_getElem, ← List.mem_cons]
  constructor
  · rintro ⟨pick, rfl⟩
    exact List.getElem_mem _
  · intro candidate
    obtain ⟨i, hi, rfl⟩ := List.getElem_of_mem candidate
    have digit : pickDigit i 0 % (others.length + 1) = i := by
      rw [List.length_cons] at hi
      rw [pickDigit, Nat.pow_zero, Nat.div_one, Nat.mod_eq_of_lt (by omega : i < 512), Nat.mod_eq_of_lt hi]
    exact ⟨i, by simp only [digit]⟩

/-- Bytes are determined by their number and the value they hold. -/
theorem leValue_inj {bs cs : List Byte} (length : bs.length = cs.length) (value : leValue bs = leValue cs) : bs = cs := by
  rw [← leBytes_leValue bs, ← leBytes_leValue cs, length, value]

/-- A load of one byte returns `b` exactly when `b` is what is chosen. -/
theorem cpuLoad_b8_eq_next {s : State} {a pick : Nat} {b : Byte} (may : CpuMayAccess s a 1) :
    cpuLoad a .b8 pick s = .next (setRet s (.loaded b.toNat)) ↔ loadByte s a (pickDigit pick 0) = .of b := by
  have one : loadBytes s a pick 0 1 = some [b] ↔ loadByte s a (pickDigit pick 0) = .of b := by
    simp [loadBytes_eq_some]
  rw [← one]
  constructor
  · intro h
    obtain ⟨_, bs, loaded, same⟩ := cpuLoad_next h
    have value : Ret.loaded b.toNat = .loaded (leValue bs) := congrArg (fun t => t.cpu.ret) same
    have length : bs.length = 1 := (loadBytes_eq_some.1 loaded).1
    obtain rfl : bs = [b] := leValue_inj length (by simpa [leValue] using (Ret.loaded.inj value).symm)
    exact loaded
  · intro loaded
    exact cpuLoad_of_loadBytes (w := .b8) may loaded

/-- Settles O11: with nothing forwarded the byte is one of the candidates, and one digit of the pick reaches each. -/
theorem cpuLoadChoosesMemoryOrStale : Obligations.CpuLoadChoosesMemoryOrStale := by
  intro s a may unforwarded small b
  simp only [cpuLoad_b8_eq_next may, loadByte, unforwarded, exists_pickDigit_choose small, mem_staleAt, eq_comm]

/-! The refusals (20_memory.md R60, R83; log 12). -/

theorem accessStop_of_pinned {s : State} {a k : Nat} (h : touchesPinned s.pinned a k = true) :
    accessStop s a k = some (.refuse .ownershipViolation) := by
  simp [accessStop, h, require, both]

theorem accessStop_of_unmapped {s : State} {a k : Nat} (free : touchesPinned s.pinned a k = false)
    (h : rangeRam s.config a k = false) : accessStop s a k = some (.refuse .unmappedAccess) := by
  simp [accessStop, free, h, require, both]

/-- An access that is stopped is refused with the reason, a load and a store alike. -/
theorem cpuAccess_of_stop {s : State} {a : Nat} {w : Width} {r : Refusal} (h : accessStop s a w.bytes = some (.refuse r))
    (v pick : Nat) : cpuLoad a w pick s = .refused r ∧ cpuStore a w v s = .refused r := by
  simp [cpuLoad, cpuStore, h, guarded, stopOutcome]

/-- Settles O15: the ownership check comes first and the RAM check after it, for loads and stores alike. -/
theorem cpuAccessRefusals : Obligations.CpuAccessRefusals := fun _ _ v pick _ =>
  ⟨fun pinned => cpuAccess_of_stop (accessStop_of_pinned pinned) v pick,
    fun free unmapped => cpuAccess_of_stop (accessStop_of_unmapped free unmapped) v pick⟩

end Sys2Proof.Machine
end

section
/-! FENCE and DRAIN (20_memory.md R74, R75). A drain before a fence is invisible because a store that no earlier one overlaps
commutes with all of them. -/

namespace Sys2Proof.Machine

open Sys2Proof.Safety

theorem memRead_fenceEffect (s : State) (x : Nat) : memRead (fenceEffect s).mem x = cpuView s x :=
  memRead_drainAll s.mem s.cpu.sb x

/-- Settles O12: draining everything leaves at each byte what the CPU would load if nothing were stale. -/
theorem fenceDrainsAndForgets : Obligations.FenceDrainsAndForgets := fun s =>
  ⟨fenceEffect s, rfl, rfl, rfl, memRead_fenceEffect s, rfl⟩

theorem eligible_eq_true {sb : List PendingStore} {j : Nat} {p : PendingStore} (here : sb[j]? = some p) :
    eligible sb j = true ↔ ∀ i q, i < j → sb[i]? = some q → storesOverlap q p = false := by
  simp only [eligible, here, List.all_eq_true, Bool.not_eq_true', List.mem_take_iff_getElem, lt_min_iff]
  constructor
  · intro apart i q before there
    obtain ⟨hi, rfl⟩ := List.getElem?_eq_some_iff.1 there
    exact apart _ ⟨i, ⟨before, hi⟩, rfl⟩
  · rintro apart _ ⟨i, ⟨before, hi⟩, rfl⟩
    exact apart i _ before (List.getElem?_eq_getElem hi)

theorem exec_drain_of_eligible {s : State} {j : Nat} (can : eligible s.cpu.sb j = true) :
    exec (.drain j) s = .next (drainEffect j s) := by
  simp [exec, execDrain, can, require]

theorem exec_drain_of_not_eligible {s : State} {j : Nat} (blocked : eligible s.cpu.sb j = false) :
    exec (.drain j) s = .fault .notEnabled := by
  simp [exec, execDrain, blocked, require, guarded, stopOutcome]

/-- Settles O13: when the store may drain, and what its bytes leave in memory. -/
theorem drainMovesOneStore : Obligations.DrainMovesOneStore := by
  intro s j p here
  constructor
  · intro apart
    refine ⟨_, exec_drain_of_eligible ((eligible_eq_true here).2 apart), ?_⟩
    rw [drainEffect_of_getElem? here]
    refine ⟨fun i hi => ?_, fun x outside => ?_, rfl, rfl⟩
    · simp [memRead_memWriteBytes, hi]
    · rw [memRead_memWriteBytes, dif_neg outside]
  · rintro ⟨i, q, before, there, overlap⟩
    refine exec_drain_of_not_eligible (Bool.eq_false_iff.2 fun can => ?_)
    have apart := (eligible_eq_true here).1 can i q before there
    simp [apart] at overlap

/-! Stores that do not overlap commute. -/

/-- No byte is covered by both stores. -/
theorem not_storeCovers_of_not_overlap {p q : PendingStore} {x : Nat} (apart : storesOverlap q p = false)
    (h : storeCovers p x = true) : storeCovers q x = false := by
  simp only [storesOverlap, overlaps_eq_false] at apart
  simp only [storeCovers, Bool.and_eq_true, decide_eq_true_eq, Bool.and_eq_false_iff, decide_eq_false_iff_not] at h ⊢
  by_contra both
  have := apart x
  omega

theorem memWriteBytes_comm {c : Config} {m : Memory} {p q : PendingStore} (mem : RamMemory c m)
    (hp : rangeRam c p.addr p.bytes.length = true) (hq : rangeRam c q.addr q.bytes.length = true)
    (apart : storesOverlap q p = false) :
    memWriteBytes (memWriteBytes m p.addr p.bytes) q.addr q.bytes =
      memWriteBytes (memWriteBytes m q.addr q.bytes) p.addr p.bytes := by
  have pFirst := ramMemory_memWriteBytes (ramMemory_memWriteBytes mem hp) hq
  have qFirst := ramMemory_memWriteBytes (ramMemory_memWriteBytes mem hq) hp
  refine memory_ext pFirst.1 qFirst.1 fun x => ?_
  simp only [memRead_storeBytes]
  cases h : storeCovers p x with
  | true => simp [not_storeCovers_of_not_overlap apart h]
  | false => simp

/-- A store written before others that it does not overlap might as well be written after them. -/
theorem drainAll_memWriteBytes {c : Config} {m : Memory} {sb : List PendingStore} {p : PendingStore}
    (mem : RamMemory c m) (hp : rangeRam c p.addr p.bytes.length = true) (stores : RamStores c sb)
    (apart : ∀ q ∈ sb, storesOverlap q p = false) :
    drainAll (memWriteBytes m p.addr p.bytes) sb = memWriteBytes (drainAll m sb) p.addr p.bytes := by
  induction sb generalizing m with
  | nil => rfl
  | cons q sb ih =>
    obtain ⟨hq, others⟩ := List.forall_mem_cons.1 stores
    obtain ⟨first, rest⟩ := List.forall_mem_cons.1 apart
    simp only [drainAll, memWriteBytes_comm mem hp hq first]
    exact ih (ramMemory_memWriteBytes mem hq) others rest

/-- Draining one store that may drain, and then the others, leaves what draining all in program order leaves. -/
theorem drainAll_eraseIdx {c : Config} {m : Memory} {sb : List PendingStore} {j : Nat} {p : PendingStore}
    (mem : RamMemory c m) (stores : RamStores c sb) (here : sb[j]? = some p) (can : eligible sb j = true) :
    drainAll (memWriteBytes m p.addr p.bytes) (sb.eraseIdx j) = drainAll m sb := by
  obtain ⟨hj, rfl⟩ := List.getElem?_eq_some_iff.1 here
  have before : ∀ q ∈ sb.take j, storesOverlap q sb[j] = false := by
    simpa [eligible, here] using can
  have ram := stores _ (List.getElem_mem hj)
  have earlier : RamStores c (sb.take j) := fun q hq => stores q (List.mem_of_mem_take hq)
  calc drainAll (memWriteBytes m sb[j].addr sb[j].bytes) (sb.eraseIdx j)
    _ = drainAll (memWriteBytes (drainAll m (sb.take j)) sb[j].addr sb[j].bytes) (sb.drop (j + 1)) := by
      rw [List.eraseIdx_eq_take_drop_succ, drainAll_append, drainAll_memWriteBytes mem ram earlier before]
    _ = drainAll m (sb.take j ++ sb[j] :: sb.drop (j + 1)) := by rw [drainAll_append, drainAll]
    _ = drainAll m sb := by rw [List.cons_getElem_drop_succ, List.take_append_drop]

/-- A fence leaves the same whether or not a store drains before it. -/
theorem fenceEffect_drainEffect {s : State} {j : Nat} (inv : memoryInv s = true) (can : eligible s.cpu.sb j = true) :
    fenceEffect (drainEffect j s) = fenceEffect s := by
  obtain ⟨mem, stores⟩ := memoryInv_eq_true.1 inv
  cases here : s.cpu.sb[j]? with
  | none => rw [drainEffect, here]
  | some p =>
    rw [drainEffect_of_getElem? here]
    simp only [fenceEffect, drainAll_eraseIdx mem stores here can]

/-- Settles O14: after the drain the fence leaves the memory of program order, and nothing else of the drain is left. -/
theorem drainBeforeFenceIsInvisible : Obligations.DrainBeforeFenceIsInvisible := by
  intro s t j inv h
  obtain ⟨can, rfl⟩ := execDrain_next h
  exact ⟨fenceEffect s, congrArg Host.Outcome.next (fenceEffect_drainEffect inv can), rfl⟩

end Sys2Proof.Machine
end

section
/-! Guarantee 2 (20_memory.md R78): with no store pending and nothing stale, a CPU load returns the bytes of memory. -/

namespace Sys2Proof.Machine

open Sys2Proof.Safety

/-- Nothing of the CPU stands between a load and memory. -/
def Settled (s : State) : Prop := s.cpu.sb = [] ∧ s.cpu.stale = []

theorem loadByte_of_settled {s : State} (settled : Settled s) (x pick : Nat) : loadByte s x pick = memRead s.mem x := by
  obtain ⟨noStore, noStale⟩ := settled
  simp [loadByte, noStore, noStale, forwarded, staleAt, choose, Nat.mod_one]

theorem cpuLoad_of_settled {s : State} {a pick : Nat} {w : Width} {bs : List Byte} (settled : Settled s)
    (may : CpuMayAccess s a w.bytes) (read : memReadBytes s.mem a w.bytes = some bs) :
    cpuLoad a w pick s = .next (setRet s (.loaded (leValue bs))) := by
  obtain ⟨length, bytes⟩ := memReadBytes_eq_some.1 read
  refine cpuLoad_of_loadBytes may (loadBytes_eq_some.2 ⟨length, fun i hi => ?_⟩)
  rw [loadByte_of_settled settled, Nat.zero_add, bytes i hi]

/-! `wait` and `free`. -/

theorem exec_transferWait_of_idle {s : State} {n : Chan} {x : Transfer} (started : x.state = .started)
    (life : getLife s n = .started x.res) (use : Usable n s) (idle : getBusy s n = .of false) :
    exec (.transferWait x n) s = .next (waitDone x n s) := by
  simp only [exec, execTransferWait, transferWaitFrom, isStarted_eq_true.2 ⟨started, life⟩, lifecycleChecked, if_true,
    pollOnce, usable_eq_none.2 use, guarded_none, idle, readVal_of, Bool.false_eq_true, if_false, waitEnd]

/-- The resources no longer exist, and their parts are returned (41_transfer_resources.md R148). -/
def freeEffect (r : Resources) (s : State) : State :=
  setRet { s with pinned := s.pinned.filter (fun q => decide (q ≠ r)) } (.parts r.desc r.src r.dst)

theorem exec_resFree_of_inCallersHands {s : State} {r : Resources} (hands : inCallersHands s r = true) :
    exec (.resFree r) s = .next (freeEffect r s) := by
  simp only [exec, execResFree, require_eq_none.2 hands, guarded_none, freeEffect]

/-- After `wait` the resources are in the caller's hands, unless another channel holds them. -/
theorem inCallersHands_waitDone {s : State} {n : Chan} {x : Transfer} (pinned : x.res ∈ s.pinned)
    (others : ∀ m, m ≠ n → getLife s m ≠ .ready x.res ∧ getLife s m ≠ .started x.res) :
    inCallersHands (waitDone x n s) x.res = true := by
  refine inCallersHands_eq_true.2 ⟨pinned, fun m => ?_⟩
  have life : getLife (waitDone x n s) m = if m = n then .free else getLife s m := getLife_setLife _ n m _
  rcases eq_or_ne m n with rfl | other
  · simp [life]
  · simpa [life, other] using others m other

theorem touchesResources_eq_false {r : Resources} {a k : Nat} :
    touchesResources r a k = false ↔ ∀ p ∈ resourceRanges r, overlaps p.1 p.2 a k = false := by
  simp [touchesResources]

/-- No range of one overlaps a range of the other. -/
def ResourcesApart (p q : Resources) : Prop := ∀ x ∈ resourceRanges p, touchesResources q x.1 x.2 = false

theorem resourcesApart_symm : Std.Symm ResourcesApart := ⟨fun p q h => by
  simp only [ResourcesApart, touchesResources_eq_false] at h ⊢
  intro x hx y hy
  rw [overlaps_comm]
  exact h y hy x hx⟩

/-- With ownership kept, nothing else that is pinned touches a range of `r`. -/
theorem touchesPinned_freeEffect {s : State} (own : OwnershipInv s) {r : Resources} (pinned : r ∈ s.pinned)
    {x : Nat × Nat} (hx : x ∈ resourceRanges r) : touchesPinned (freeEffect r s).pinned x.1 x.2 = false := by
  have symm := resourcesApart_symm
  have apart : s.pinned.Pairwise ResourcesApart := own.apart
  simp only [touchesPinned, List.any_eq_false, Bool.not_eq_true]
  intro q hq
  obtain ⟨hq, other⟩ := List.mem_filter.1 hq
  exact apart.forall pinned hq (of_decide_eq_true other).symm x hx

/-- Settles O33: `wait` ends with a fence and `free` only unpins, so that nothing stands between a load and memory. -/
theorem loadsAfterWaitReadMemory : Obligations.LoadsAfterWaitReadMemory := by
  intro s n x a pick w bs
  constructor
  · intro started life use idle pinned others
    refine ⟨waitDone x n s, freeEffect x.res (waitDone x n s), exec_transferWait_of_idle started life use idle,
      exec_resFree_of_inCallersHands (inCallersHands_waitDone pinned others), rfl,
      cpuLoad_of_settled ⟨rfl, rfl⟩, fun own ram => ⟨?_, ram⟩⟩
    exact touchesPinned_freeEffect own pinned (x := (x.res.dst.base, sizeBytes x.res.dst)) (by simp [resourceRanges])
  · exact ⟨fenceEffect s, rfl, cpuLoad_of_settled ⟨rfl, rfl⟩⟩

end Sys2Proof.Machine
end

section
/-! An engine does not see the CPU (20_memory.md R73, 43_engine.md R192): its guards read registers, flags and memory, and of
the CPU its effects touch the stale sets alone. So two states that differ in the CPU only answer alike. -/

namespace Sys2Proof.Machine

open Sys2Proof.Safety

/-- The same answer, but for the CPU's part of a next state. -/
inductive SameButCpu : Outcome → Outcome → Prop
  | next (s : State) (c : Cpu) : SameButCpu (.next s) (.next { s with cpu := c })
  | fault (f : Fault) : SameButCpu (.fault f) (.fault f)
  | refused (r : Refusal) : SameButCpu (.refused r) (.refused r)

theorem sameButCpu_guarded {g : Option Stop} {o o' : Outcome} (h : SameButCpu o o') :
    SameButCpu (guarded g o) (guarded g o') := by
  match g with
  | none => exact h
  | some .notEnabled => exact .fault _
  | some (.refuse r) => exact .refused r

theorem sameButCpu_readVal {α : Type} {v : Val α} {k k' : α → Outcome} (h : ∀ a, SameButCpu (k a) (k' a)) :
    SameButCpu (readVal v k) (readVal v k') := by
  cases v with
  | unset => exact .refused _
  | of a => exact h a

theorem sameButCpu_ite {p : Prop} [Decidable p] {o o' u u' : Outcome} (h : SameButCpu o o') (h' : SameButCpu u u') :
    SameButCpu (if p then o else u) (if p then o' else u') := by
  split
  · exact h
  · exact h'

section

variable (s : State) (c : Cpu) (n : Chan)

theorem sameButCpu_latchDesc (d : Desc) : SameButCpu (latchDesc n d s) (latchDesc n d { s with cpu := c }) :=
  sameButCpu_readVal fun _ => sameButCpu_ite (sameButCpu_ite (.refused _) (.next _ c)) (.refused _)

/-- The bytes come from memory and go to memory; only the stale sets of the CPU are touched. -/
theorem sameButCpu_moveBytes (left : Word) (k : Nat) :
    SameButCpu (moveBytes n left k s) (moveBytes n left k { s with cpu := c }) := by
  refine sameButCpu_readVal fun src => sameButCpu_readVal fun dst => sameButCpu_ite ?_ (.refused _)
  cases memReadBytes s.mem src.toNat k with
  | none => exact .refused _
  | some v =>
    simp only
    rw [engineWrite_eq s, engineWrite_eq { s with cpu := c }]
    exact .next _ _

/-- The guard of a fetch reads nothing of the CPU. -/
theorem judgeFetch_withCpu : judgeFetch n { s with cpu := c } = judgeFetch n s := rfl

theorem descAt_withCpu (a : Nat) : descAt n a { s with cpu := c } = descAt n a s := rfl

theorem sameButCpu_execDesc (d : Desc) : SameButCpu (execDesc n d s) (execDesc n d { s with cpu := c }) := by
  refine sameButCpu_guarded ?_
  rw [judgeFetch_withCpu s c n]
  cases judgeFetch n s with
  | refuse r => exact .refused r
  | misaligned => exact .next _ c
  | clear a =>
    simp only
    rw [descAt_withCpu s c n a]
    cases descAt n a s with
    | none => exact .refused _
    | some e => exact sameButCpu_ite (sameButCpu_latchDesc s c n d) (.fault _)

theorem sameButCpu_execEngFetch (i : Fin 6) :
    SameButCpu (execEngFetch n i s) (execEngFetch n i { s with cpu := c }) := by
  refine sameButCpu_guarded ?_
  rw [judgeFetch_withCpu s c n]
  cases judgeFetch n s with
  | refuse r => exact .refused r
  | misaligned => exact .next _ c
  | clear a =>
    simp only
    cases memReadWord s.mem (a + 4 * i.val) with
    | none => exact .refused _
    | some w => exact .next _ c

theorem sameButCpu_execEngDecode : SameButCpu (execEngDecode n s) (execEngDecode n { s with cpu := c }) := by
  refine sameButCpu_guarded ?_
  rw [getCh_withCpu s c n]
  cases fwDesc (getCh s n).fw with
  | none => exact .fault _
  | some d => exact sameButCpu_latchDesc s c n d

theorem sameButCpu_execEngMove (k : Nat) : SameButCpu (execEngMove n k s) (execEngMove n k { s with cpu := c }) :=
  sameButCpu_guarded (sameButCpu_readVal fun left => sameButCpu_ite (sameButCpu_moveBytes s c n left k) (.fault _))

theorem sameButCpu_moveForm (ws wd : Width) (sb db : BitVec 2) :
    SameButCpu (moveForm ws wd n sb db s) (moveForm ws wd n sb db { s with cpu := c }) :=
  sameButCpu_guarded (sameButCpu_readVal fun left => sameButCpu_ite (.fault _) (sameButCpu_moveBytes s c n left _))

theorem sameButCpu_execEngLink : SameButCpu (execEngLink n s) (execEngLink n { s with cpu := c }) :=
  sameButCpu_guarded (sameButCpu_readVal fun _ => sameButCpu_ite (.fault _) (.next _ c))

/-- Every instruction of an engine: the record, the config forms, the link words and the named steps. -/
theorem sameButCpu_exec {i : Instr} (engine : instrIsSoftware i = false) (notDrain : ∀ j, i ≠ .drain j) :
    SameButCpu (exec i s) (exec i { s with cpu := c }) := by
  cases i with
  | desc n d => exact sameButCpu_execDesc s c n d
  | m2mB8B8 n | m2mB8B16 n | m2mB8B32 n | m2mB8B64 n | m2mB16B8 n | m2mB16B16 n | m2mB16B32 n | m2mB16B64 n
  | m2mB32B8 n | m2mB32B16 n | m2mB32B32 n | m2mB32B64 n | m2mB64B8 n | m2mB64B16 n | m2mB64B32 n | m2mB64B64 n =>
    exact sameButCpu_moveForm s c n _ _ _ _
  | linkEnd n => exact sameButCpu_guarded (.next _ c)
  | linkNext n a => exact sameButCpu_guarded (.next _ c)
  | engFetch n i => exact sameButCpu_execEngFetch s c n i
  | engDecode n => exact sameButCpu_execEngDecode s c n
  | engMove n k => exact sameButCpu_execEngMove s c n k
  | engLink n => exact sameButCpu_execEngLink s c n
  | engComplete n => exact sameButCpu_guarded (.next _ c)
  | drain j => exact absurd rfl (notDrain j)
  | _ => cases engine

end

/-- Settles O59: with another CPU the engine answers alike, so its next state has the same registers, flags and memory. -/
theorem enginesDoNotSeeTheCpu : Obligations.EnginesDoNotSeeTheCpu := by
  intro i s t c engine notDrain h
  have same := sameButCpu_exec s c engine notDrain
  rw [h] at same
  generalize exec i { s with cpu := c } = o at same
  cases same with
  | next _ d => exact ⟨_, rfl, rfl, rfl, rfl⟩

end Sys2Proof.Machine
end

section
/-! The descriptor rows (30_encoding.md R90 to R102): a row and the bytes it is encoded to determine each other. -/

namespace Sys2Proof

/-! From bytes to a row. -/

theorem decode_wordBytes (l : CfgLayout) (n : Chan) (w : Word) : decode l n (wordBytes w) = decodeWord l n w := by
  simp only [decode, wordBytes_length, leWord_wordBytes, if_true, if_false, Nat.reduceEqDiff]

theorem decodeWord_of_config {l : CfgLayout} {n : Chan} {w : Word} {i : Instr} (h : decodeConfig l n w = .ok i) :
    decodeWord l n w = .ok i := by
  simp only [decodeWord, h]

/-- The source DRQ port 1 sits in the lowest bits of the default layout, so no config form is a multiple of 4, as a link
word is. -/
theorem mod_four_of_decodeConfig {n : Chan} {w : Word} {i : Instr} (h : decodeConfig {} n w = .ok i) :
    w.toNat % 4 = 1 := by
  obtain ⟨⟨srcDrq, _⟩, _⟩ := decodeConfig_eq_ok.1 h
  have low : w.toNat % 32 = 1 := by simpa [cfgSrcDrq] using congrArg BitVec.toNat srcDrq
  omega

theorem decodeWord_of_link {n : Chan} {w : Word} (aligned : w.toNat % 4 = 0) :
    decodeWord {} n w = decodeLink n w := by
  cases h : decodeConfig {} n w with
  | ok i =>
    have := mod_four_of_decodeConfig h
    omega
  | error e => simp only [decodeWord, h, aligned, if_true]

theorem linkNextWf_eq_true {w : Word} :
    linkNextWf w = true ↔ w ≠ linkEnd ∧ w.toNat % 4 = 0 ∧ w.toNat + 24 ≤ 2 ^ 32 := by
  simp only [linkNextWf, Bool.and_eq_true, decide_eq_true_eq, and_assoc]

/-- A link word is the sentinel, or the address of a descriptor that may lie there (30_encoding.md R101 (h), R102). -/
theorem decodeLink_eq_ok {n : Chan} {w : Word} {i : Instr} :
    decodeLink n w = .ok i ↔ (w = linkEnd ∧ i = .linkEnd n) ∨ (linkNextWf w = true ∧ i = .linkNext n w) := by
  rw [linkNextWf_eq_true, decodeLink]
  by_cases last : w = linkEnd
  · simp [last, eq_comm]
  · simp only [last, if_false, false_and, false_or, ne_eq, not_false_eq_true, true_and]
    split
    case isTrue misaligned => simp [misaligned]
    case isFalse aligned =>
      split
      case isTrue passes => simp only [Nat.not_le.2 passes, and_false, false_and, reduceCtorEq]
      case isFalse fits =>
        simp only [not_not.1 aligned, Nat.not_lt.1 fits, true_and, Except.ok.injEq, eq_comm]

/-- What decodes is a record of 24 bytes, or a config or a link word of 4. -/
theorem decode_eq_ok {l : CfgLayout} {n : Chan} {bs : List Byte} {i : Instr} (h : decode l n bs = .ok i) :
    (bs.length = 24 ∧ i = .desc n (descOfBytes bs)) ∨
      (bs.length = 4 ∧ (decodeConfig l n (leWord bs) = .ok i ∨ decodeLink n (leWord bs) = .ok i)) := by
  unfold decode at h
  split at h
  case isTrue record => exact .inl ⟨record, (Except.ok.inj h).symm⟩
  case isFalse =>
    split at h
    case isTrue word =>
      refine .inr ⟨word, ?_⟩
      unfold decodeWord at h
      split at h
      case h_1 j config => exact .inl (config.trans h)
      case h_2 =>
        split at h
        case isTrue => exact .inr h
        case isFalse => cases h
    case isFalse => cases h

/-! From a row to bytes. -/

theorem take_drop_append_drop (bs : List Byte) (k : Nat) : (bs.drop k).take 4 ++ bs.drop (k + 4) = bs.drop k := by
  rw [← List.drop_drop, List.take_append_drop]

/-- Six words and no byte more: the record of 24 bytes has them all (30_encoding.md R90). -/
theorem descBytes_descOfBytes {bs : List Byte} (h : bs.length = 24) : descBytes (descOfBytes bs) = bs := by
  have word : ∀ k, k + 4 ≤ 24 → wordBytes (leWord ((bs.drop k).take 4)) = (bs.drop k).take 4 := fun k hk =>
    wordBytes_leWord (by simp only [List.length_take, List.length_drop, h]; omega)
  have last : (bs.drop 20).take 4 = bs.drop 20 := List.take_of_length_le (by simp [h])
  have first := word 0 (by decide)
  rw [List.drop_zero] at first
  simp only [descBytes, descOfBytes, first, word 4 (by decide), word 8 (by decide), word 12 (by decide),
    word 16 (by decide), word 20 (by decide)]
  rw [last, take_drop_append_drop bs 16, take_drop_append_drop bs 12, take_drop_append_drop bs 8,
    take_drop_append_drop bs 4, List.take_append_drop]

/-- The descriptor rows of the opcode table that engine `n` carries out: the record, the sixteen forms, the two links. -/
inductive DescriptorRow (n : Chan) : Instr → Prop
  | record (d : Desc) : DescriptorRow n (.desc n d)
  | form (ws wd : Width) (sb db : BitVec 2) : DescriptorRow n (m2mInstr n ws wd sb db)
  | linkEnd : DescriptorRow n (.linkEnd n)
  | linkNext (a : Word) : DescriptorRow n (.linkNext n a)

theorem descriptorRow_of_descriptorChan {i : Instr} {n : Chan} (h : descriptorChan i = some n) : DescriptorRow n i := by
  cases i <;> cases h
  case desc d => exact .record d
  case m2mB8B8 sb db => exact .form .b8 .b8 sb db
  case m2mB8B16 sb db => exact .form .b8 .b16 sb db
  case m2mB8B32 sb db => exact .form .b8 .b32 sb db
  case m2mB8B64 sb db => exact .form .b8 .b64 sb db
  case m2mB16B8 sb db => exact .form .b16 .b8 sb db
  case m2mB16B16 sb db => exact .form .b16 .b16 sb db
  case m2mB16B32 sb db => exact .form .b16 .b32 sb db
  case m2mB16B64 sb db => exact .form .b16 .b64 sb db
  case m2mB32B8 sb db => exact .form .b32 .b8 sb db
  case m2mB32B16 sb db => exact .form .b32 .b16 sb db
  case m2mB32B32 sb db => exact .form .b32 .b32 sb db
  case m2mB32B64 sb db => exact .form .b32 .b64 sb db
  case m2mB64B8 sb db => exact .form .b64 .b8 sb db
  case m2mB64B16 sb db => exact .form .b64 .b16 sb db
  case m2mB64B32 sb db => exact .form .b64 .b32 sb db
  case m2mB64B64 sb db => exact .form .b64 .b64 sb db
  case linkEnd => exact .linkEnd
  case linkNext a => exact .linkNext a

theorem instrWf_m2mInstr (n : Chan) (ws wd : Width) (sb db : BitVec 2) : instrWf (m2mInstr n ws wd sb db) = true := by
  cases ws <;> cases wd <;> rfl

/-! The two round trips. -/

theorem decode_encode {m : RegMap} {i : Instr} {n : Chan} {bs : List Byte} (row : DescriptorRow n i)
    (wf : instrWf i = true) (h : encode {} m i = .bytes bs) : decode {} n bs = .ok i := by
  cases row with
  | record d =>
    obtain rfl := Code.bytes.inj h
    rw [Machine.decode_of_length (descBytes_length d), descOfBytes_descBytes]
  | form ws wd sb db =>
    obtain rfl := Code.bytes.inj ((encode_m2mInstr {} m n ws wd sb db).symm.trans h)
    rw [decode_wordBytes, decodeWord_of_config (decodeConfig_m2mWord cfgLayoutWf_default n ws wd sb db)]
  | linkEnd =>
    obtain rfl := Code.bytes.inj h
    rw [decode_wordBytes, decodeWord_of_link (by decide), decodeLink_eq_ok]
    exact .inl ⟨rfl, rfl⟩
  | linkNext a =>
    obtain rfl := Code.bytes.inj h
    rw [decode_wordBytes, decodeWord_of_link (linkNextWf_eq_true.1 wf).2.1, decodeLink_eq_ok]
    exact .inr ⟨wf, rfl⟩

/-- A config word that decodes is a form, and the form's word (30_encoding.md R102). -/
theorem encode_of_decodeConfig {l : CfgLayout} (hl : cfgLayoutWf l = true) (m : RegMap) {n : Chan} {w : Word} {i : Instr}
    (h : decodeConfig l n w = .ok i) :
    (∃ ws wd sb db, i = m2mInstr n ws wd sb db) ∧ encode l m i = .bytes (wordBytes w) := by
  obtain ⟨_, rfl⟩ := decodeConfig_eq_ok.1 h
  refine ⟨⟨_, _, _, _, rfl⟩, ?_⟩
  rw [encode_m2mInstr, ← m2mWord_of_decodeConfig hl h]

theorem encode_decode {m : RegMap} {n : Chan} {bs : List Byte} {i : Instr} (h : decode {} n bs = .ok i) :
    encode {} m i = .bytes bs ∧ instrWf i = true ∧ descriptorChan i = some n := by
  rcases decode_eq_ok h with ⟨record, rfl⟩ | ⟨word, config | link⟩
  · exact ⟨congrArg Code.bytes (descBytes_descOfBytes record), rfl, rfl⟩
  · obtain ⟨⟨ws, wd, sb, db, rfl⟩, bytes⟩ := encode_of_decodeConfig cfgLayoutWf_default m config
    rw [wordBytes_leWord word] at bytes
    exact ⟨bytes, instrWf_m2mInstr n ws wd sb db, descriptorChan_m2mInstr n ws wd sb db⟩
  · have bytes := wordBytes_leWord word
    rcases decodeLink_eq_ok.1 link with ⟨last, rfl⟩ | ⟨wf, rfl⟩
    · exact ⟨congrArg Code.bytes (last ▸ bytes), rfl, rfl⟩
    · exact ⟨congrArg Code.bytes bytes, wf, rfl⟩

/-- Settles O2: row by row under the default layout, and for the forms by the fields of the config word put together. -/
theorem descriptorRowsRoundTrip : Obligations.DescriptorRowsRoundTrip :=
  ⟨fun _ _ _ _ wf chan h => decode_encode (descriptorRow_of_descriptorChan chan) wf h,
    fun l m n ws wd sb db hl => ⟨m2mWord l ws wd sb db, encode_m2mInstr l m n ws wd sb db, leWord_wordBytes _,
      decodeConfig_m2mWord hl n ws wd sb db⟩⟩

/-- Settles O3: the bytes are the record's or the word's, and a config word is its fields put together. -/
theorem decodeReadsEveryBit : Obligations.DecodeReadsEveryBit :=
  ⟨fun _ _ _ _ h => encode_decode h, fun _ m _ _ _ hl h => encode_of_decodeConfig hl m h⟩

/-- Settles O1: the decoder run on each word of the tables. -/
theorem specWordsDecodeToTheirInstructions : Obligations.SpecWordsDecodeToTheirInstructions :=
  ⟨rfl, rfl, rfl, rfl, rfl, rfl, rfl, rfl, rfl, rfl, rfl, rfl, rfl, rfl⟩

end Sys2Proof
end

section
/-! The opcode table's rows of the config word (30_encoding.md R102), and the admitted descriptors (R101). -/

namespace Sys2Proof

/-- A config word decodes to a form exactly when it is the word of that form. -/
theorem decodeConfig_eq_m2mInstr {l : CfgLayout} (hl : cfgLayoutWf l = true) {n : Chan} {w : Word} {ws wd : Width}
    {sb db : BitVec 2} : decodeConfig l n w = .ok (m2mInstr n ws wd sb db) ↔ w = m2mWord l ws wd sb db :=
  ⟨m2mWord_of_decodeConfig hl, fun h => h ▸ decodeConfig_m2mWord hl n ws wd sb db⟩

/-! Mask and match under the default layout. -/

/-- The match value of the row of a pair of width codes. -/
def formMatch (ws wd : Width) : Word :=
  0x00010001#32 ||| ((widthCode {} ws).setWidth 32 <<< 9) ||| ((widthCode {} wd).setWidth 32 <<< 25)

/-- The two burst codes in their places. -/
def burstBits (sb db : BitVec 2) : Word := (sb.setWidth 32 <<< 6) ||| (db.setWidth 32 <<< 22)

/-- Under the default layout the word of a form is the match value of its row beside the two burst codes. -/
theorem m2mWord_default (ws wd : Width) (sb db : BitVec 2) :
    m2mWord {} ws wd sb db = formMatch ws wd ||| burstBits sb db := by
  have all : ∀ cs cd sb db : BitVec 2, configWord {} 1#5 0#1 sb cs 1#5 0#1 db cd =
      (0x00010001#32 ||| (cs.setWidth 32 <<< 9) ||| (cd.setWidth 32 <<< 25)) ||| burstBits sb db := by decide
  exact all (widthCode {} ws) (widthCode {} wd) sb db

theorem formMatch_masked (ws wd : Width) : formMatch ws wd &&& 0xFF3FFF3F#32 = formMatch ws wd := by
  cases ws <;> cases wd <;> rfl

theorem burstBits_masked (sb db : BitVec 2) : burstBits sb db &&& 0xFF3FFF3F#32 = 0#32 := by
  revert sb db
  decide

theorem maskBit {i : Nat} (hi : i < 32) :
    (0xFF3FFF3F#32).getLsbD i = !(decide (6 ≤ i) && decide (i < 8) || decide (22 ≤ i) && decide (i < 24)) := by
  revert i
  decide

/-- The mask leaves out the two burst fields and nothing else. -/
theorem masked_or_bursts (w : Word) :
    (w &&& 0xFF3FFF3F#32) ||| burstBits (w.extractLsb' 6 2) (w.extractLsb' 22 2) = w := by
  refine BitVec.eq_of_getLsbD_eq fun i hi => ?_
  rw [burstBits, BitVec.getLsbD_or, BitVec.getLsbD_or, BitVec.getLsbD_and, shifted_extract w 6 2 i hi,
    shifted_extract w 22 2 i hi, maskBit hi]
  cases w.getLsbD i
  · simp only [Bool.and_false, Bool.or_false, Bool.false_and]
  · simp only [Bool.and_true, Bool.true_and, Nat.reduceAdd, Bool.not_or_self]

/-- The words of a form are those of its row's mask and match (30_encoding.md R102). -/
theorem eq_m2mWord_default {w : Word} {ws wd : Width} {sb db : BitVec 2} :
    w = m2mWord {} ws wd sb db ↔
      w &&& 0xFF3FFF3F#32 = formMatch ws wd ∧ w.extractLsb' 6 2 = sb ∧ w.extractLsb' 22 2 = db := by
  constructor
  · rintro rfl
    obtain ⟨-, -, hsb, -, -, -, hdb, -⟩ := configWord_fields (cfgLayoutWf_iff.1 cfgLayoutWf_default).1 1#5 0#1 sb
      (widthCode {} ws) 1#5 0#1 db (widthCode {} wd)
    refine ⟨?_, hsb, hdb⟩
    rw [m2mWord_default, BitVec.and_or_distrib_right, formMatch_masked, burstBits_masked, BitVec.or_zero]
  · rintro ⟨masked, rfl, rfl⟩
    rw [m2mWord_default, ← masked, masked_or_bursts]

/-- Settles O4: the words that decode to a form are its word, with the bursts free. -/
theorem configFormsAreTheMaskTable : Obligations.ConfigFormsAreTheMaskTable := fun _ _ _ _ _ _ =>
  (decodeConfig_eq_m2mInstr cfgLayoutWf_default).trans eq_m2mWord_default

/-! The admitted descriptors (30_encoding.md R101), condition by condition. -/

theorem cfgReservedBit_eq_false {l : CfgLayout} {i : Nat} :
    cfgReservedBit l i = false ↔ ∃ f ∈ cfgFields l, f.1 ≤ i ∧ i < f.1 + f.2 := by
  simp only [cfgReservedBit, List.all_eq_false, Bool.or_eq_true, decide_eq_true_eq, not_or, not_lt, not_le]

/-- Condition (c): a bit that is 1 lies in a field. -/
theorem cfgReservedClear_eq_true {l : CfgLayout} {w : Word} :
    cfgReservedClear l w = true ↔
      ∀ i, i < 32 → w.getLsbD i = true → ∃ f ∈ cfgFields l, f.1 ≤ i ∧ i < f.1 + f.2 := by
  simp only [cfgReservedClear, List.all_eq_true, List.mem_range, Bool.not_eq_true', ← cfgReservedBit_eq_false,
    Bool.and_comm (cfgReservedBit l _), Bool.and_eq_false_imp]

end Sys2Proof

namespace Sys2Proof.Machine

open Sys2Proof.Safety

theorem configAdmitted_iff_decodes {l : CfgLayout} {w : Word} :
    configAdmitted l w = true ↔ ∃ i, decodeConfig l 0 w = .ok i := by
  unfold configAdmitted
  cases decodeConfig l 0 w <;> simp

/-- Conditions (a) to (c). -/
theorem configAdmitted_eq_true {l : CfgLayout} {w : Word} :
    configAdmitted l w = true ↔ cfgSrcDrq l w = l.drqMemory ∧ cfgDstDrq l w = l.drqMemory ∧
      cfgSrcMode l w = l.linear ∧ cfgDstMode l w = l.linear ∧ cfgReservedClear l w = true := by
  simp only [configAdmitted_iff_decodes, decodeConfig_eq_ok, exists_and_left, exists_eq, and_true]

/-- Condition (h). -/
theorem linkAdmitted_eq_true {w : Word} :
    linkAdmitted w = true ↔ w = linkEnd ∨ (w.toNat % 4 = 0 ∧ w.toNat + 24 ≤ 2 ^ 32) := by
  simp only [linkAdmitted, Bool.or_eq_true, Bool.and_eq_true, decide_eq_true_eq]

/-- An admitted descriptor, condition by condition, by the functions the model judges it with. -/
theorem admitted_eq_true {l : CfgLayout} {d : Desc} {a : Nat} :
    admitted l d a = true ↔
      configAdmitted l d.config = true ∧ 1 ≤ d.length.toNat ∧
      d.length.toNat % srcAccess l d = 0 ∧ d.length.toNat % dstAccess l d = 0 ∧
      d.srcAddr.toNat % srcAccess l d = 0 ∧ d.dstAddr.toNat % dstAccess l d = 0 ∧
      d.srcAddr.toNat + d.length.toNat ≤ 2 ^ 32 ∧ d.dstAddr.toNat + d.length.toNat ≤ 2 ^ 32 ∧
      overlaps d.dstAddr.toNat d.length.toNat d.srcAddr.toNat d.length.toNat = false ∧
      overlaps d.dstAddr.toNat d.length.toNat a 24 = false ∧ linkAdmitted d.nextAddr = true := by
  simp only [admitted, Bool.and_eq_true, decide_eq_true_eq, Bool.not_eq_true', and_assoc]

/-- Under the default layout an admitted config word has nothing but its widths and bursts to choose. -/
theorem config_masked_of_configAdmitted {w : Word} (h : configAdmitted {} w = true) :
    w &&& 0xF93FF93F#32 = 0x00010001#32 := by
  have widthsOut : ∀ ws wd, formMatch ws wd &&& 0xF93FF93F#32 = 0x00010001#32 := by
    intro ws wd
    cases ws <;> cases wd <;> rfl
  obtain ⟨i, decodes⟩ := configAdmitted_iff_decodes.1 h
  obtain ⟨⟨ws, wd, sb, db, rfl⟩, -⟩ := encode_of_decodeConfig cfgLayoutWf_default {} decodes
  obtain ⟨masked, -, -⟩ := eq_m2mWord_default.1 (m2mWord_of_decodeConfig cfgLayoutWf_default decodes)
  rw [show 0xF93FF93F#32 = 0xFF3FFF3F#32 &&& 0xF93FF93F#32 from rfl, ← BitVec.and_assoc, masked, widthsOut]

/-- Settles O5: the conditions one by one, the ranges of (g) byte by byte; and the widths by their codes. -/
theorem admittedIsConditionsAToH : Obligations.AdmittedIsConditionsAToH := by
  rintro l d a sw dw rfl rfl
  refine ⟨?_, ?_, ?_⟩
  · simp only [admitted_eq_true, configAdmitted_eq_true, cfgReservedClear_eq_true, linkAdmitted_eq_true,
      ← noCommonByte_iff, imp_and, forall_and, and_assoc]
    exact Iff.rfl
  · rintro rfl h
    exact config_masked_of_configAdmitted (admitted_eq_true.1 h).1
  · rintro rfl
    exact ⟨bytes_widthOfCode _, bytes_widthOfCode _⟩

end Sys2Proof.Machine
end

section
/-! What `mem_to_mem` writes (30_encoding.md R99, 41_transfer_resources.md R145) is admitted (30_encoding.md R101). -/

namespace Sys2Proof.Machine

/-- A check that stops lets go on exactly when its condition does not hold. -/
theorem check_eq_none {α : Type} {p : Prop} [Decidable p] {x : α} {o : Option α} :
    (if p then some x else o) = none ↔ ¬ p ∧ o = none := by
  by_cases h : p <;> simp [h]

theorem memToMemError_eq_none {A : Nat} {src dst : Buffer} :
    memToMemError A src dst = none ↔ sizeBytes src ≤ maxLen ∧ sizeBytes dst ≤ maxLen ∧
      sizeBytes src = sizeBytes dst ∧ A % 2 = 0 := by
  simp only [memToMemError, check_eq_none, not_lt, ne_eq, not_not, and_true]

theorem bufferStop_eq_none {c : Config} {b : Buffer} :
    bufferStop c b = none ↔ b.base % b.width.bytes = 0 ∧ b.base < 2 ^ 32 ∧ b.base + sizeBytes b ≤ 2 ^ 32 ∧
      rangeRam c b.base (sizeBytes b) = true := by
  simp only [bufferStop, check_eq_none, ne_eq, not_not, not_or, not_le, not_lt, Bool.not_eq_false, and_true, and_assoc]

theorem selfOverlap_eq_false {r : Resources} :
    selfOverlap r = false ↔ overlaps r.desc 24 r.src.base (sizeBytes r.src) = false ∧
      overlaps r.desc 24 r.dst.base (sizeBytes r.dst) = false ∧
      overlaps r.src.base (sizeBytes r.src) r.dst.base (sizeBytes r.dst) = false := by
  simp only [selfOverlap, Bool.or_eq_false_iff, and_assoc]

theorem sizeBytes_pos {b : Buffer} (h : 0 < b.count) : 0 < sizeBytes b := Nat.mul_pos h b.width.bytes_pos

theorem sizeBytes_mod_width (b : Buffer) : sizeBytes b % b.width.bytes = 0 := Nat.mul_mod_left _ _

section

variable {c : Config} (src dst : Buffer) (hl : cfgLayoutWf c.layout = true)
include hl

theorem configAdmitted_memToMemDesc : configAdmitted c.layout (memToMemDesc c src dst).config = true :=
  configAdmitted_iff_decodes.2 ⟨_, decodeConfig_m2mWord hl 0 _ _ _ _⟩

/-- The access widths of the descriptor are the element widths of the buffers (30_encoding.md R99, R100). -/
theorem access_memToMemDesc :
    srcAccess c.layout (memToMemDesc c src dst) = src.width.bytes ∧
      dstAccess c.layout (memToMemDesc c src dst) = dst.width.bytes := by
  obtain ⟨-, -, -, hws, -, -, -, hwd, -⟩ := configWord_fields (cfgLayoutWf_iff.1 hl).1 c.layout.drqMemory c.layout.linear
    c.burstDefault (widthCode c.layout src.width) c.layout.drqMemory c.layout.linear c.burstDefault
    (widthCode c.layout dst.width)
  simp only [srcAccess, dstAccess, memToMemDesc, m2mWord, hws, hwd, widthOfCode_widthCode hl, and_self]

end

theorem toNat_ofNat_word {x : Nat} (h : x < 2 ^ 32) : (BitVec.ofNat 32 x).toNat = x := by
  rw [BitVec.toNat_ofNat, Nat.mod_eq_of_lt h]

/-- Settles O28: each condition of R101 is one of what `mem_to_mem` has checked. -/
theorem apiDescriptorsAreAdmitted : Obligations.ApiDescriptorsAreAdmitted := by
  intro s A src dst noError go filled hl
  obtain ⟨fits, -, same, -⟩ := memToMemError_eq_none.1 noError
  obtain ⟨srcOk, dstOk, -, -, apart, -⟩ := memToMemStop_eq_none.1 go
  obtain ⟨srcAligned, srcBase, srcEnd, -⟩ := bufferStop_eq_none.1 srcOk
  obtain ⟨dstAligned, dstBase, dstEnd, -⟩ := bufferStop_eq_none.1 dstOk
  obtain ⟨-, descDst, srcDst⟩ := selfOverlap_eq_false.1 apart
  obtain ⟨srcWidth, dstWidth⟩ := access_memToMemDesc src dst hl
  have dstWhole := sizeBytes_mod_width dst
  rw [← same] at dstEnd descDst srcDst dstWhole
  have src32 : (memToMemDesc s.config src dst).srcAddr.toNat = src.base := toNat_ofNat_word srcBase
  have dst32 : (memToMemDesc s.config src dst).dstAddr.toNat = dst.base := toNat_ofNat_word dstBase
  have len32 : (memToMemDesc s.config src dst).length.toNat = sizeBytes src :=
    toNat_ofNat_word (Nat.lt_of_le_of_lt fits (by decide))
  rw [admitted_eq_true, srcWidth, dstWidth, src32, dst32, len32]
  exact ⟨configAdmitted_memToMemDesc src dst hl, sizeBytes_pos filled, sizeBytes_mod_width src, dstWhole, srcAligned,
    dstAligned, srcEnd, dstEnd, overlaps_comm _ _ _ _ ▸ srcDst, overlaps_comm _ _ _ _ ▸ descDst,
    linkAdmitted_eq_true.2 (.inl rfl)⟩

end Sys2Proof.Machine
end

section
/-! Host commands as raw accesses (30_encoding.md R103 to R105): what the address and the bit of each access are decoded to. -/

namespace Sys2Proof.Machine

/-! Registers by their address, fields by their bit. -/

/-- What keeps the accesses of R103 apart: the address of a register they go to is that of no register that is looked for
before it, and of no other channel's. -/
structure RegistersApart (m : RegMap) : Prop where
  en : ∀ n, chanAt m m.pauseOff (chanReg m n m.enOff) = none ∧ chanAt m m.enOff (chanReg m n m.enOff) = some n
  descAddr : ∀ n, chanAt m m.pauseOff (chanReg m n m.descAddrOff) = none ∧
    chanAt m m.enOff (chanReg m n m.descAddrOff) = none ∧ chanAt m m.descAddrOff (chanReg m n m.descAddrOff) = some n
  sec : chanAt m m.pauseOff (m.base + m.secOff) = none ∧ chanAt m m.enOff (m.base + m.secOff) = none
  autogate : chanAt m m.pauseOff (m.base + m.autogateOff) = none ∧ chanAt m m.enOff (m.base + m.autogateOff) = none ∧
    m.base + m.autogateOff ≠ m.base + m.secOff

/-- The default addresses of 30_encoding.md R105 are apart. -/
theorem registersApart_default : RegistersApart {} := ⟨by decide, by decide, by decide, by decide⟩

/-- A bit that each channel has to itself is found to be that channel's. -/
theorem chanOfBit_bankGet {bits : PerChannel Nat} (inj : ∀ j k, bankGet bits j = bankGet bits k → j = k) (n : Chan) :
    chanOfBit bits (bankGet bits n) = some n := by
  have all : n ∈ allChans := by
    revert n
    decide
  cases found : chanOfBit bits (bankGet bits n) with
  | none => simpa using List.find?_eq_none.1 found n all
  | some k =>
    have same : bankGet bits n = bankGet bits k := by simpa using List.find?_some found
    rw [inj n k same]

/-- The three auto-gating fields have three bits. -/
abbrev GateBitsApart (m : RegMap) : Prop :=
  m.agMclkBit ≠ m.agChanBit ∧ m.agMclkBit ≠ m.agCommonBit ∧ m.agChanBit ≠ m.agCommonBit

theorem gateOfBit_gateBit {m : RegMap} (apart : GateBitsApart m) (g : GateField) : gateOfBit m (gateBit m g) = some g := by
  obtain ⟨mclkChan, mclkCommon, chanCommon⟩ := apart
  cases g
  · simp [gateOfBit, gateBit]
  · simp [gateOfBit, gateBit, mclkChan.symm]
  · simp [gateOfBit, gateBit, mclkCommon.symm, chanCommon.symm]

/-! The accesses of 30_encoding.md R103, decoded. -/

section

variable {m : RegMap} (apart : RegistersApart m)
include apart

theorem decodeAccess_enable (n : Chan) :
    decodeAccess m (.modify (chanReg m n m.enOff) m.enBit true) = .command (.chEnable n) := by
  simp [decodeAccess, apart.en n]

theorem decodeAccess_setDescAddr (n : Chan) (a : Word) :
    decodeAccess m (.write (chanReg m n m.descAddrOff) a) = .command (.chSetDescAddr n a) := by
  simp [decodeAccess, apart.descAddr n]

theorem decodeAccess_setNonsecure (n : Chan) (inj : ∀ j k, bankGet m.secBit j = bankGet m.secBit k → j = k) :
    decodeAccess m (.modify (m.base + m.secOff) (bankGet m.secBit n) m.nonSecureIs) = .command (.chSetNonsecure n) := by
  simp [decodeAccess, apart.sec, chanOfBit_bankGet inj]

/-- The modify-field access that sets one auto-gating field to `AutoGateOn` (45_split.md R223). -/
theorem decodeAccess_gateOn (bits : GateBitsApart m) (g : GateField) :
    decodeAccess m (.modify (m.base + m.autogateOff) (gateBit m g) (gateOnIs m g)) = .gateOn g := by
  obtain ⟨noPause, noEn, notSec⟩ := apart.autogate
  simp only [decodeAccess, noPause, noEn, notSec, if_false, if_true, gateOfBit_gateBit bits]

end

theorem decodeAccess_isActive {m : RegMap} (n : Chan)
    (inj : ∀ j k, bankGet m.busyBit j = bankGet m.busyBit k → j = k) :
    decodeAccess m (.read (m.base + m.staOff) (bankGet m.busyBit n)) = .command (.chIsActive n) := by
  simp [decodeAccess, chanOfBit_bankGet inj]

/-! The accesses, carried out. -/

theorem cpuAccess_of_command {r : RegAccess} {i : Instr} {s : State} (h : decodeAccess s.config.regMap r = .command i)
    (pick : Nat) : cpuAccess r pick s = exec i s := by
  simp only [cpuAccess, h]

theorem cpuAccess_of_gateOn {r : RegAccess} {g : GateField} {s : State} (h : decodeAccess s.config.regMap r = .gateOn g)
    (pick : Nat) : cpuAccess r pick s = gateAccess g s := by
  simp only [cpuAccess, h]

@[simp] theorem setGate_config (s : State) (g : GateField) : (setGate s g).config = s.config := by cases g <;> rfl

/-- Setting an auto-gating field leaves the guard of the next one as it was. -/
@[simp] theorem gateStop_setGate (s : State) (g : GateField) : gateStop (setGate s g) = gateStop s := by cases g <;> rfl

/-- The three accesses to the auto-gating fields together do what the command does (45_split.md R223): with the guard met
each sets its field, and else the first one stops. -/
theorem autogate_together {a b c : RegAccess} {s : State} (pick : Nat)
    (ha : decodeAccess s.config.regMap a = .gateOn .mclk) (hb : decodeAccess s.config.regMap b = .gateOn .chan)
    (hc : decodeAccess s.config.regMap c = .gateOn .common) :
    andThen (andThen (cpuAccess a pick s) (cpuAccess b pick)) (cpuAccess c pick) = exec .blkAutogateEnable s := by
  rw [cpuAccess_of_gateOn ha]
  cases guard : gateStop s with
  | none =>
    have first : gateAccess .mclk s = .next (setGate s .mclk) := by simp only [gateAccess, guard, guarded_none]
    have second : cpuAccess b pick (setGate s .mclk) = .next (setGate (setGate s .mclk) .chan) := by
      rw [cpuAccess_of_gateOn (by rwa [setGate_config])]
      simp only [gateAccess, gateStop_setGate, guard, guarded_none]
    rw [first, andThen_next, second, andThen_next, cpuAccess_of_gateOn (by rwa [setGate_config, setGate_config])]
    simp only [gateAccess, gateStop_setGate, exec, execBlkAutogateEnable]
  | some x =>
    simp only [gateAccess, exec, execBlkAutogateEnable, guard]
    cases x <;> rfl

/-- Settles O6: each access is decoded to its command, and the three auto-gating accesses set the three fields. -/
theorem hostCommandsRoundTrip : Obligations.HostCommandsRoundTrip := by
  intro e z mclk chan common sec busy ns gm gc gb m n a pick s hm config secInj busyInj mclkChan mclkCommon chanCommon
  have apart : RegistersApart m := by
    subst hm
    obtain ⟨en, descAddr, secure, autogate⟩ := registersApart_default
    exact ⟨en, descAddr, secure, autogate⟩
  have bits : GateBitsApart m := hm ▸ ⟨mclkChan, mclkCommon, chanCommon⟩
  have secBits : m.secBit = sec := hm ▸ rfl
  have busyBits : m.busyBit = busy := hm ▸ rfl
  rw [← secBits] at secInj
  rw [← busyBits] at busyInj
  clear hm
  subst config
  refine ⟨?_, _, _, _, rfl, autogate_together pick (decodeAccess_gateOn apart bits .mclk)
    (decodeAccess_gateOn apart bits .chan) (decodeAccess_gateOn apart bits .common)⟩
  simp only [List.forall_mem_cons, List.not_mem_nil, false_imp_iff, implies_true, and_true]
  exact ⟨⟨_, rfl, cpuAccess_of_command (decodeAccess_enable apart n) pick⟩,
    ⟨_, rfl, cpuAccess_of_command (decodeAccess_isActive n busyInj) pick⟩,
    ⟨_, rfl, cpuAccess_of_command (decodeAccess_setDescAddr apart n a) pick⟩,
    _, rfl, cpuAccess_of_command (decodeAccess_setNonsecure apart n secInj) pick⟩

end Sys2Proof.Machine
end

section
/-! Objects and buffers (40_descriptor_and_buffers.md R120 to R125): the pure operations, and the six stores of a descriptor,
what they leave and which refusal they end in when the CPU may not access all 24 bytes. -/

namespace Sys2Proof.Machine

open Sys2Proof.Safety

theorem placeStop_of_lt {A : Nat} (place : A < 2 ^ 32 - 23) : placeStop A = none :=
  require_eq_none.2 (decide_eq_true place)

theorem placeStop_of_le {A : Nat} (high : 2 ^ 32 - 23 ≤ A) : placeStop A = some (.refuse .addressOutOfRange) := by
  simp only [placeStop, require, decide_eq_false (Nat.not_lt.2 high), Bool.false_eq_true, if_false]

/-- Settles O23: each operation sets the return value; the place of a descriptor is checked first. -/
theorem pureOperationsReturnTheirValue : Obligations.PureOperationsReturnTheirValue := by
  intro s A b
  refine ⟨fun place => ?_, fun high => ?_, rfl, rfl, ?_⟩
  · rw [exec, execDescriptorAsPtr, placeStop_of_lt place, guarded_none, setRet]
  · rw [exec, execDescriptorAsPtr, placeStop_of_le high, guarded, stopOutcome]
  · obtain ⟨base, count, width⟩ := b
    cases width <;> rfl

/-! The six stores of a descriptor (41_transfer_resources.md R145), when they are made. -/

theorem storeDesc_cpu_sb (s : State) (A : Nat) (d : Desc) :
    (storeDesc A d s).cpu.sb = s.cpu.sb ++
      [⟨A, wordBytes d.config⟩, ⟨A + 4, wordBytes d.srcAddr⟩, ⟨A + 8, wordBytes d.dstAddr⟩, ⟨A + 12, wordBytes d.length⟩,
        ⟨A + 16, wordBytes d.param⟩, ⟨A + 20, wordBytes d.nextAddr⟩] := by
  simp only [storeDesc, storeEffect_cpu_sb, List.append_assoc, List.cons_append, List.nil_append]

/-- The four bytes of each of the six words are the 24 bytes of the descriptor. -/
theorem mem_storeDesc_stale {s : State} {A x : Nat} {d : Desc} {b : Val Byte} :
    (x, b) ∈ (storeDesc A d s).cpu.stale ↔ (x, b) ∈ s.cpu.stale ∧ ¬ (A ≤ x ∧ x < A + 24) := by
  simp only [storeDesc, storeEffect_cpu_stale, mem_staleClear, wordBytes_length, and_assoc]
  refine and_congr_right fun _ => ?_
  omega

/-- The six stores change nothing but the store buffer and the stale sets. -/
theorem storeDesc_frame (s : State) (A : Nat) (d : Desc) :
    storeDesc A d s =
      { s with cpu := { s.cpu with sb := (storeDesc A d s).cpu.sb, stale := (storeDesc A d s).cpu.stale } } := rfl

/-! The six stores, when one of them is refused. -/

/-- What overlaps `pinned` in a part overlaps it in the whole. -/
theorem touchesPinned_of_part {p : List Resources} {a k b l : Nat} (touches : touchesPinned p b l = true) (ge : a ≤ b)
    (le : b + l ≤ a + k) : touchesPinned p a k = true := by
  simp only [touchesPinned, touchesResources, List.any_eq_true, overlaps_eq_true] at touches ⊢
  obtain ⟨r, hr, q, hq, x, h1, h2, h3, h4⟩ := touches
  exact ⟨r, hr, q, hq, x, h1, h2, by omega, by omega⟩

/-- What CPU stores inside `[a, a + k)` can end in: they are all made, which leaves `pinned` and the configuration, or one
of them is refused because the range overlaps `pinned` (20_memory.md R83) or leaves RAM (R60). -/
inductive StoresInside (s : State) (a k : Nat) : Outcome → Prop
  | made {t : State} (pinned : t.pinned = s.pinned) (config : t.config = s.config) : StoresInside s a k (.next t)
  | pinned (touches : touchesPinned s.pinned a k = true) : StoresInside s a k (.refused .ownershipViolation)
  | unmapped (outside : rangeRam s.config a k = false) : StoresInside s a k (.refused .unmappedAccess)

theorem storesInside_storeWord {s t : State} {a k b : Nat} (pinned : t.pinned = s.pinned) (config : t.config = s.config)
    (ge : a ≤ b) (le : b + 4 ≤ a + k) (v : Word) : StoresInside s a k (storeWord b v t) := by
  unfold storeWord
  cases touches : touchesPinned t.pinned b 4 with
  | true =>
    rw [accessStop_of_pinned touches]
    exact .pinned (touchesPinned_of_part (pinned ▸ touches) ge le)
  | false =>
    cases ram : rangeRam t.config b 4 with
    | true =>
      rw [accessStop_eq_none.2 ⟨touches, ram⟩]
      exact .made pinned config
    | false =>
      rw [accessStop_of_unmapped touches ram]
      refine .unmapped (Bool.eq_false_iff.2 fun whole => ?_)
      rw [config, rangeRam_part whole ge le] at ram
      cases ram

/-- Stores inside the range, and more of them after those. -/
theorem StoresInside.andThen {s : State} {a k : Nat} {o : Outcome} {f : State → Outcome} (first : StoresInside s a k o)
    (others : ∀ t : State, t.pinned = s.pinned → t.config = s.config → StoresInside s a k (f t)) :
    StoresInside s a k (andThen o f) := by
  cases first with
  | made pinned config => exact others _ pinned config
  | pinned touches => exact .pinned touches
  | unmapped outside => exact .unmapped outside

theorem storesInside_storeMiddle {s t : State} {A : Nat} {d : Desc} (pinned : t.pinned = s.pinned)
    (config : t.config = s.config) : StoresInside s A 24 (storeMiddle A d t) :=
  have word (i : Nat) (le : i + 4 ≤ 24) (v : Word) (u : State) (pinned : u.pinned = s.pinned) (config : u.config = s.config) :
      StoresInside s A 24 (storeWord (A + i) v u) :=
    storesInside_storeWord pinned config (Nat.le_add_right A i) (by omega) v
  (((word 4 (by decide) _ t pinned config).andThen (word 8 (by decide) _)).andThen (word 12 (by decide) _)).andThen
    (word 16 (by decide) _)

theorem execDescriptorNew_of_mayAccess {A : Nat} {s : State} (place : A < 2 ^ 32 - 23) (may : CpuMayAccess s A 24) :
    execDescriptorNew A s = .next (storeDesc A freshDesc s) := by
  rw [execDescriptorNew, descriptorNewFrom, placeStop_of_lt place, guarded_none, storeDesc_eq_next.2 ⟨may, rfl⟩]

theorem storesInside_execDescriptorNew {A : Nat} (s : State) (place : A < 2 ^ 32 - 23) :
    StoresInside s A 24 (execDescriptorNew A s) := by
  rw [execDescriptorNew, descriptorNewFrom, placeStop_of_lt place, guarded_none]
  refine (storesInside_storeWord rfl rfl le_rfl (by omega) _).andThen fun t pinned config => ?_
  refine (storesInside_storeMiddle pinned config).andThen fun u pinned config => ?_
  exact storesInside_storeWord pinned config (by omega) (by omega) _

/-- Where the CPU may not access all 24 bytes, the operation is refused, and the refusal tells what is wrong. -/
theorem execDescriptorNew_refused {A : Nat} {s : State} (place : A < 2 ^ 32 - 23) (mayNot : ¬ CpuMayAccess s A 24) :
    (touchesPinned s.pinned A 24 = true ∧ execDescriptorNew A s = .refused .ownershipViolation) ∨
      (rangeRam s.config A 24 = false ∧ execDescriptorNew A s = .refused .unmappedAccess) := by
  have inside := storesInside_execDescriptorNew s place
  cases outcome : execDescriptorNew A s with
  | next t =>
    obtain ⟨_, may, _⟩ := execDescriptorNew_next outcome
    exact absurd may mayNot
  | fault f =>
    rw [outcome] at inside
    cases inside
  | refused r =>
    rw [outcome] at inside
    cases inside with
    | pinned touches => exact .inl ⟨touches, rfl⟩
    | unmapped outside => exact .inr ⟨outside, rfl⟩

/-- Settles O24: the six stores together when the CPU may access the bytes, and else the refusal of the first that may not
be made, which the whole range explains. -/
theorem freshDescriptorIsSixStores : Obligations.FreshDescriptorIsSixStores := by
  intro s A
  simp only [exec]
  refine ⟨fun place may => ?_, fun high => ?_, fun place touches ram => ?_, fun place free outside => ?_,
    fun place touches _ => ?_⟩
  · exact ⟨_, execDescriptorNew_of_mayAccess place may, storeDesc_cpu_sb s A freshDesc, fun _ _ => mem_storeDesc_stale,
      storeDesc_frame s A freshDesc⟩
  · rw [execDescriptorNew, descriptorNewFrom, placeStop_of_le high, guarded, stopOutcome]
  · obtain ⟨_, refused⟩ | ⟨outside, _⟩ := execDescriptorNew_refused (s := s) place (by simp [touches])
    · exact refused
    · simp [ram] at outside
  · obtain ⟨touches, _⟩ | ⟨_, refused⟩ := execDescriptorNew_refused (s := s) place (by simp [outside])
    · simp [free] at touches
    · exact refused
  · exact (execDescriptorNew_refused (s := s) place (by simp [touches])).imp And.right And.right

end Sys2Proof.Machine
end

section
/-! `mem_to_mem` (41_transfer_resources.md R140 to R147): the raise of the first check that fails, the refusal of the first
model-side condition that fails, and the descriptor it writes when none does. -/

namespace Sys2Proof.Machine

open Sys2Proof.Safety

/-! The software checks (41_transfer_resources.md R141 to R143). -/

/-- A check that fails is raised, and nothing but `cpu.run` changes. -/
theorem exec_memToMem_of_error {A : Nat} {src dst : Buffer} {e : CpuError} (error : memToMemError A src dst = some e)
    (s : State) : exec (.memToMem A src dst) s = .next { s with cpu := { s.cpu with run := .aborted e } } := by
  simp only [exec, execMemToMem, memToMemFrom, error, raiseError]

theorem memToMemError_of_src_large {A : Nat} {src dst : Buffer} (large : maxLen < sizeBytes src) :
    memToMemError A src dst = some (.sizeOverflow .src (sizeBytes src)) := if_pos large

theorem memToMemError_of_dst_large {A : Nat} {src dst : Buffer} (fits : sizeBytes src ≤ maxLen)
    (large : maxLen < sizeBytes dst) : memToMemError A src dst = some (.sizeOverflow .dst (sizeBytes dst)) := by
  rw [memToMemError, if_neg (Nat.not_lt.2 fits), if_pos large]

theorem memToMemError_of_sizes_differ {A : Nat} {src dst : Buffer} (srcFits : sizeBytes src ≤ maxLen)
    (dstFits : sizeBytes dst ≤ maxLen) (differ : sizeBytes src ≠ sizeBytes dst) :
    memToMemError A src dst = some (.sizeMismatch (sizeBytes src) (sizeBytes dst)) := by
  rw [memToMemError, if_neg (Nat.not_lt.2 srcFits), if_neg (Nat.not_lt.2 dstFits), if_pos differ]

theorem memToMemError_of_odd {A : Nat} {src dst : Buffer} (fits : sizeBytes src ≤ maxLen)
    (same : sizeBytes src = sizeBytes dst) (odd : A % 2 = 1) :
    memToMemError A src dst = some (.alignmentViolation A) := by
  rw [memToMemError, if_neg (Nat.not_lt.2 fits), if_neg (Nat.not_lt.2 (same ▸ fits)), if_neg (not_not.2 same),
    if_pos (by omega)]

/-- Settles O26: the first check that fails gives the error, and the raise sets `cpu.run` alone. -/
theorem memToMemRaisesInOrder : Obligations.MemToMemRaisesInOrder := by
  rintro s A src dst _ _ rfl rfl
  exact ⟨fun large => exec_memToMem_of_error (memToMemError_of_src_large large) s,
    fun fits large => exec_memToMem_of_error (memToMemError_of_dst_large fits large) s,
    fun srcFits dstFits differ => exec_memToMem_of_error (memToMemError_of_sizes_differ srcFits dstFits differ) s,
    fun fits same odd => exec_memToMem_of_error (memToMemError_of_odd fits same odd) s⟩

/-! The conditions of R144 and R128, each with the guard that judges it and the stop when it fails. -/

theorem require_of_false {b : Bool} (fails : b = false) (x : Stop) : require b x = some x := by
  rw [require, fails, if_neg Bool.false_ne_true]

@[simp] theorem both_some (x : Stop) (h : Option Stop) : both (some x) h = some x := rfl

theorem bufferStop_eq_none_iff_bufferWf {c : Config} {b : Buffer} : bufferStop c b = none ↔ BufferWf c b := by
  rw [bufferStop_eq_none, ← allRam_iff]

theorem bufferStop_of_misaligned (c : Config) {b : Buffer} (misaligned : b.base % b.width.bytes ≠ 0) :
    bufferStop c b = some (.refuse .misalignedBuffer) := if_pos misaligned

/-- An aligned buffer has one reason left to be refused for. -/
theorem bufferStop_of_not_inRange {c : Config} {b : Buffer} (aligned : b.base % b.width.bytes = 0)
    (outside : ¬ BufferInRange c b) : bufferStop c b = some (.refuse .addressOutOfRange) := by
  rw [bufferStop, if_neg (not_not.2 aligned)]
  by_cases high : 2 ^ 32 ≤ b.base ∨ 2 ^ 32 < b.base + sizeBytes b
  · rw [if_pos high]
  · obtain ⟨base, last⟩ := not_or.1 high
    have noRam : rangeRam c b.base (sizeBytes b) = false := Bool.eq_false_iff.2 fun ram =>
      outside ⟨Nat.not_le.1 base, Nat.not_lt.1 last, allRam_iff.2 ram⟩
    rw [if_neg high, if_pos noRam]

theorem descPlaceStop_eq_none {c : Config} {A : Nat} : descPlaceStop c A = none ↔ PlaceWf c A := by
  rw [descPlaceStop, both_eq_none, require_eq_none, require_eq_none, decide_eq_true_eq, ← allRam_iff]

theorem descPlaceStop_of_not_placeWf {c : Config} {A : Nat} (wrong : ¬ PlaceWf c A) :
    descPlaceStop c A = some (.refuse .addressOutOfRange) := by
  rw [descPlaceStop]
  by_cases below : A + 24 ≤ 2 ^ 32
  · have noRam : rangeRam c A 24 = false := Bool.eq_false_iff.2 fun ram => wrong ⟨below, allRam_iff.2 ram⟩
    rw [require_eq_none.2 (decide_eq_true below), both_none, require_of_false noRam]
  · rw [require_of_false (decide_eq_false below), both_some]

theorem not_selfOverlap_eq_true {r : Resources} : (!selfOverlap r) = true ↔ RangesApart r := by
  simp only [Bool.not_eq_true', selfOverlap_eq_false, ← noCommonByte_iff]

theorem not_touched_eq_true {s : State} {r : Resources} :
    (!(resourceRanges r).any (fun p => touchesPinned s.pinned p.1 p.2)) = true ↔ Unpinned s r := by
  simp only [Bool.not_eq_true', List.any_eq_false, Bool.not_eq_true, unpinned_iff]

/-- The first clause of the statement: the guard of `mem_to_mem` lets it go on when all conditions hold. -/
theorem memToMemStop_eq_none_iff_conditions {A : Nat} {src dst : Buffer} {s : State} :
    memToMemStop A src dst s = none ↔ BufferWf s.config src ∧ BufferWf s.config dst ∧ PlaceWf s.config A ∧
      RangesApart ⟨A, src, dst⟩ ∧ Unpinned s ⟨A, src, dst⟩ := by
  simp only [memToMemStop, both_eq_none, require_eq_none, bufferStop_eq_none_iff_bufferWf, descPlaceStop_eq_none,
    not_selfOverlap_eq_true, not_touched_eq_true]

/-! Which condition stops `mem_to_mem` when those before it hold (log 14). -/

section

variable {A : Nat} {src dst : Buffer} {s : State} {x : Stop}

theorem memToMemStop_of_src (stop : bufferStop s.config src = some x) : memToMemStop A src dst s = some x := by
  rw [memToMemStop, stop, both_some]

theorem memToMemStop_of_dst (srcOk : BufferWf s.config src) (stop : bufferStop s.config dst = some x) :
    memToMemStop A src dst s = some x := by
  rw [memToMemStop, bufferStop_eq_none_iff_bufferWf.2 srcOk, both_none, stop, both_some]

theorem memToMemStop_of_place (srcOk : BufferWf s.config src) (dstOk : BufferWf s.config dst)
    (stop : descPlaceStop s.config A = some x) : memToMemStop A src dst s = some x := by
  rw [memToMemStop, bufferStop_eq_none_iff_bufferWf.2 srcOk, both_none, bufferStop_eq_none_iff_bufferWf.2 dstOk, both_none,
    stop, both_some]

/-- With the buffers and the place in order, the ranges decide: first against each other, then against `pinned`. -/
theorem memToMemStop_of_wf (srcOk : BufferWf s.config src) (dstOk : BufferWf s.config dst) (place : PlaceWf s.config A) :
    memToMemStop A src dst s = both (require (!selfOverlap ⟨A, src, dst⟩) (.refuse .overlappingResources))
      (require (!(resourceRanges ⟨A, src, dst⟩).any (fun p => touchesPinned s.pinned p.1 p.2))
        (.refuse .ownershipViolation)) := by
  rw [memToMemStop, bufferStop_eq_none_iff_bufferWf.2 srcOk, both_none, bufferStop_eq_none_iff_bufferWf.2 dstOk, both_none,
    descPlaceStop_eq_none.2 place, both_none]

theorem memToMemStop_of_overlap (srcOk : BufferWf s.config src) (dstOk : BufferWf s.config dst) (place : PlaceWf s.config A)
    (overlap : ¬ RangesApart ⟨A, src, dst⟩) : memToMemStop A src dst s = some (.refuse .overlappingResources) := by
  rw [memToMemStop_of_wf srcOk dstOk place, require_of_false (Bool.eq_false_iff.2 (mt not_selfOverlap_eq_true.1 overlap)),
    both_some]

theorem memToMemStop_of_pinned (srcOk : BufferWf s.config src) (dstOk : BufferWf s.config dst) (place : PlaceWf s.config A)
    (apart : RangesApart ⟨A, src, dst⟩) (pinned : ¬ Unpinned s ⟨A, src, dst⟩) :
    memToMemStop A src dst s = some (.refuse .ownershipViolation) := by
  rw [memToMemStop_of_wf srcOk dstOk place, require_eq_none.2 (not_selfOverlap_eq_true.2 apart), both_none,
    require_of_false (Bool.eq_false_iff.2 (mt not_touched_eq_true.1 pinned))]

end

theorem exec_memToMem_of_stop {A : Nat} {src dst : Buffer} {s : State} {r : Refusal}
    (noError : memToMemError A src dst = none) (stop : memToMemStop A src dst s = some (.refuse r)) :
    exec (.memToMem A src dst) s = .refused r := by
  simp only [exec, execMemToMem, memToMemFrom, noError, stop, guarded, stopOutcome]

/-- Settles O27: the guard is the conjunction of the conditions, and each stop is the one of the first that fails. -/
theorem memToMemRefusals : Obligations.MemToMemRefusals := by
  intro s A src dst
  refine ⟨memToMemStop_eq_none_iff_conditions, fun noError => ?_⟩
  have refused {r : Refusal} := exec_memToMem_of_stop (s := s) (r := r) noError
  exact ⟨fun misaligned => refused (memToMemStop_of_src (bufferStop_of_misaligned _ misaligned)),
    fun aligned outside => refused (memToMemStop_of_src (bufferStop_of_not_inRange aligned outside)),
    fun srcOk misaligned => refused (memToMemStop_of_dst srcOk (bufferStop_of_misaligned _ misaligned)),
    fun srcOk aligned outside => refused (memToMemStop_of_dst srcOk (bufferStop_of_not_inRange aligned outside)),
    fun srcOk dstOk wrong => refused (memToMemStop_of_place srcOk dstOk (descPlaceStop_of_not_placeWf wrong)),
    fun srcOk dstOk place overlap => refused (memToMemStop_of_overlap srcOk dstOk place overlap),
    fun srcOk dstOk place apart pinned => refused (memToMemStop_of_pinned srcOk dstOk place apart pinned)⟩

/-! The descriptor that is written (41_transfer_resources.md R145). -/

/-- The six stores and the binding change nothing but the store buffer, the stale sets, `pinned` and the return value. -/
theorem bindEffect_storeDesc_frame (A : Nat) (src dst : Buffer) (d : Desc) (s : State) :
    bindEffect A src dst (storeDesc A d s) = { s with
      cpu := { s.cpu with
        sb := (storeDesc A d s).cpu.sb, stale := (storeDesc A d s).cpu.stale, ret := .resources ⟨A, src, dst⟩ }
      pinned := ⟨A, src, dst⟩ :: s.pinned } :=
  congrArg (bindEffect A src dst) (storeDesc_frame s A d)

/-- When nothing stops it, the six stores are made and the resources exist. -/
theorem exec_memToMem_of_none {A : Nat} {src dst : Buffer} {s : State} (noError : memToMemError A src dst = none)
    (go : memToMemStop A src dst s = none) :
    exec (.memToMem A src dst) s = .next (bindEffect A src dst (storeDesc A (memToMemDesc s.config src dst) s)) := by
  have stores := storeDesc_eq_next (d := memToMemDesc s.config src dst).2 ⟨mayAccess_of_memToMemStop go, rfl⟩
  obtain ⟨u, first, others⟩ := andThen_eq_next.1 stores
  obtain ⟨v, middle, last⟩ := andThen_eq_next.1 others
  have sameConfig : u.config = s.config := by
    obtain ⟨-, rfl⟩ := storeWord_eq_next.1 first
    rfl
  have last : storeWord (A + 20) linkEnd v = _ := last
  simp only [exec, execMemToMem, memToMemFrom, noError, go, guarded_none, first, andThen_next, sameConfig, middle, bindEnd,
    last, bindEffect]

/-- Writing a number that fits as a word loses nothing (41_transfer_resources.md R145). -/
theorem wordBytes_ofNat {x : Nat} (fits : x < 2 ^ 32) : wordBytes (BitVec.ofNat 32 x) = leBytes 4 x := by
  rw [wordBytes, toNat_ofNat_word fits]

theorem or_interleave (a x y u v : Word) : a ||| x ||| y ||| (u ||| v) = a ||| u ||| x ||| v ||| y := by
  ac_rfl

theorem wordBytes_linkEnd : wordBytes linkEnd = [0x00, 0xF8, 0xFF, 0xFF] := by decide

/-- The config word of R99 under the default layout, its fields from the lowest bit up. -/
theorem m2mWord_default_fields (ws wd : Width) (b : BitVec 2) :
    m2mWord {} ws wd b b = 0x00010001#32 ||| (b.setWidth 32 <<< 6) ||| ((widthCode {} ws).setWidth 32 <<< 9) |||
      (b.setWidth 32 <<< 22) ||| ((widthCode {} wd).setWidth 32 <<< 25) := by
  rw [m2mWord_default, formMatch, burstBits]
  exact or_interleave _ _ _ _ _

/-- Settles O25: the six words are those of `memToMemDesc`, which hold the addresses and the size whole because the checks
bound them. -/
theorem memToMemWritesTheDescriptor : Obligations.MemToMemWritesTheDescriptor := by
  rintro s A src dst l _ w layout rfl wordEq noError go
  have word : w = m2mWord l src.width dst.width s.config.burstDefault s.config.burstDefault := wordEq
  obtain ⟨fits, -⟩ := memToMemError_eq_none.1 noError
  obtain ⟨⟨-, srcBase, -⟩, ⟨-, dstBase, -⟩, -⟩ := memToMemStop_eq_none_iff_conditions.1 go
  have size : sizeBytes src < 2 ^ 32 := Nat.lt_of_le_of_lt fits (by decide)
  have bound := exec_memToMem_of_none noError go
  rw [bindEffect_storeDesc_frame] at bound
  refine ⟨⟨_, bound, ?_, rfl, rfl, fun _ _ => mem_storeDesc_stale, rfl⟩, ?_⟩
  · simp only [storeDesc_cpu_sb, word, layout, memToMemDesc, wordBytes_ofNat srcBase, wordBytes_ofNat dstBase,
      wordBytes_ofNat size, wordBytes_linkEnd]
  · rintro rfl
    rw [word, m2mWord_default_fields]

end Sys2Proof.Machine
end

section
/-! `free` (41_transfer_resources.md R148, R149): carried out for resources in the caller's hands, refused for those a
`Transfer` holds. -/

namespace Sys2Proof.Machine

theorem mem_freeEffect_pinned {r q : Resources} {s : State} : q ∈ (freeEffect r s).pinned ↔ q ∈ s.pinned ∧ q ≠ r :=
  List.mem_filter.trans (and_congr_right fun _ => decide_eq_true_iff)

theorem exec_resFree_of_heldByTransfer {s : State} {r : Resources} (held : heldByTransfer s r = true) :
    exec (.resFree r) s = .refused .ownershipViolation := by
  have notInHands : inCallersHands s r = false := by rw [inCallersHands, held, Bool.not_true, Bool.and_false]
  rw [exec, execResFree, require_of_false notInHands, guarded, stopOutcome]

/-- Settles O29: `freeEffect` unpins `r` alone, and what a `Transfer` holds is not in the caller's hands. -/
theorem freeReturnsTheResources : Obligations.FreeReturnsTheResources := by
  intro s r
  refine ⟨fun pinned notHeld => ?_, fun held => exec_resFree_of_heldByTransfer (heldByTransfer_eq_true.2 held)⟩
  exact ⟨freeEffect r s, exec_resFree_of_inCallersHands (inCallersHands_eq_true.2 ⟨pinned, notHeld⟩), rfl,
    fun _ => mem_freeEffect_pinned, rfl⟩

end Sys2Proof.Machine
end

section
/-! The four host commands on a channel (42_channel_commands.md R155 to R162): what stops them, in the order of their guards,
and what they do when nothing does. -/

namespace Sys2Proof.Machine

open Sys2Proof.Safety

/-! The guards, when they stop a command. -/

theorem guarded_refuse (r : Refusal) (k : Outcome) : guarded (some (.refuse r)) k = .refused r := rfl

theorem requireVal_of_ne {α : Type} [DecidableEq α] {v : Val α} {a b : α} (holds : v = .of b) (differ : b ≠ a) (x : Stop) :
    requireVal v a x = some x := by
  rw [holds, requireVal, if_neg differ]

theorem blockUp_of_not_split {s : State} (notSplit : s.blk.splitDone = false) :
    blockUp s = some (.refuse .channelNotUsable) := by
  rw [blockUp, require_of_false notSplit, both_some]

theorem usable_of_blockUp_some {n : Chan} {s : State} {x : Stop} (down : blockUp s = some x) : usable n s = some x := by
  rw [usable, down, both_some]

theorem usable_of_unusable {n : Chan} {s : State} (unusable : Unusable n s) :
    usable n s = some (.refuse .channelNotUsable) := by
  rcases unusable with notSplit | ⟨split, clockOff⟩ | ⟨split, clockOn, reset⟩ | ⟨split, clockOn, released, notHandedOut⟩
  · exact usable_of_blockUp_some (blockUp_of_not_split notSplit)
  · apply usable_of_blockUp_some
    rw [blockUp, require_eq_none.2 split, both_none, requireVal_of_ne clockOff Bool.false_ne_true, both_some]
  · apply usable_of_blockUp_some
    rw [blockUp, require_eq_none.2 split, both_none, requireVal_eq_none.2 clockOn, both_none,
      requireVal_of_ne reset Bool.false_ne_true.symm]
  · rw [usable, blockUp_eq_none.2 ⟨split, clockOn, released⟩, both_none,
      require_of_false (decide_eq_false (Nat.not_lt.2 notHandedOut))]

section

variable {n : Chan} {s : State}

theorem writeStop_of_unusable (unusable : Unusable n s) : writeStop n s = some (.refuse .channelNotUsable) := by
  rw [writeStop, usable_of_unusable unusable, both_some]

theorem writeStop_of_not_idle (use : Usable n s) (busy : (getCh s n).phase ≠ .idle) :
    writeStop n s = some (.refuse .writeWhileBusy) := by
  rw [writeStop, usable_eq_none.2 use, both_none, require_of_false (decide_eq_false busy)]

theorem enableStop_of_unusable (unusable : Unusable n s) : enableStop n s = some (.refuse .channelNotUsable) := by
  rw [enableStop, usable_of_unusable unusable, both_some]

theorem enableStop_of_not_idle (use : Usable n s) (busy : (getCh s n).phase ≠ .idle) :
    enableStop n s = some (.refuse .enableWhileBusy) := by
  rw [enableStop, usable_eq_none.2 use, both_none, require_of_false (decide_eq_false busy), both_some]

/-- On a usable idle channel the descriptor address is looked at first and the domain after it (R156). -/
theorem enableStop_of_idle (use : Usable n s) (idle : (getCh s n).phase = .idle) :
    enableStop n s = both (require (decide ((getCh s n).descAddr ≠ .unset)) (.refuse .unsetState))
      (require (decide (getSec s n = .of .nonSecure)) (.refuse .secureChannel)) := by
  rw [enableStop, usable_eq_none.2 use, both_none, require_eq_none.2 (decide_eq_true idle), both_none]

theorem enableStop_of_no_address (use : Usable n s) (idle : (getCh s n).phase = .idle)
    (unset : (getCh s n).descAddr = .unset) : enableStop n s = some (.refuse .unsetState) := by
  rw [enableStop_of_idle use idle, require_of_false (decide_eq_false (not_not.2 unset)), both_some]

theorem enableStop_of_not_nonSecure (use : Usable n s) (idle : (getCh s n).phase = .idle)
    (address : (getCh s n).descAddr ≠ .unset) (domain : getSec s n ≠ .of .nonSecure) :
    enableStop n s = some (.refuse .secureChannel) := by
  rw [enableStop_of_idle use idle, require_eq_none.2 (decide_eq_true address), both_none,
    require_of_false (decide_eq_false domain)]

/-! The commands, carried out and refused. -/

theorem exec_chEnable_of_stop {r : Refusal} (stop : enableStop n s = some (.refuse r)) :
    exec (.chEnable n) s = .refused r := by
  rw [exec, execChEnable, stop, guarded_refuse]

theorem exec_chEnable_of_ready (use : Usable n s) (idle : (getCh s n).phase = .idle)
    (address : (getCh s n).descAddr ≠ .unset) (domain : getSec s n = .of .nonSecure) :
    exec (.chEnable n) s = .next (enableEffect n s) := by
  rw [exec, execChEnable, enableStop_eq_none.2 ⟨use, idle, address, domain⟩, guarded_none]

theorem exec_chSetDescAddr_of_stop {r : Refusal} (stop : writeStop n s = some (.refuse r)) (a : Word) :
    exec (.chSetDescAddr n a) s = .refused r := by
  rw [exec, execChSetDescAddr, stop, guarded_refuse]

theorem exec_chSetDescAddr_of_idle (use : Usable n s) (idle : (getCh s n).phase = .idle) (a : Word) :
    exec (.chSetDescAddr n a) s = .next (setCh s n { getCh s n with descAddr := .of a }) := by
  rw [exec, execChSetDescAddr, writeStop_eq_none.2 ⟨use, idle⟩, guarded_none]

theorem exec_chSetNonsecure_of_stop {r : Refusal} (stop : writeStop n s = some (.refuse r)) :
    exec (.chSetNonsecure n) s = .refused r := by
  rw [exec, execChSetNonsecure, stop, guarded_refuse]

theorem exec_chSetNonsecure_of_idle (use : Usable n s) (idle : (getCh s n).phase = .idle) :
    exec (.chSetNonsecure n) s = .next (setSec s n .nonSecure) := by
  rw [exec, execChSetNonsecure, writeStop_eq_none.2 ⟨use, idle⟩, guarded_none]

theorem exec_chIsActive_of_unusable (unusable : Unusable n s) : exec (.chIsActive n) s = .refused .channelNotUsable := by
  rw [exec, execChIsActive, usable_of_unusable unusable, guarded_refuse]

/-- On a usable channel the busy flag alone decides: it is returned, or refused when nothing has written it (R13). -/
theorem exec_chIsActive_of_usable (use : Usable n s) :
    exec (.chIsActive n) s = readVal (getBusy s n) (fun b => .next (setRet s (.active b))) := by
  rw [exec, execChIsActive, usable_eq_none.2 use, guarded_none]

/-- `is_active` of the Started transfer is the command (44_transfer_lifecycle.md R204). -/
theorem exec_transferIsActive_of_started {x : Transfer} (started : x.state = .started)
    (life : getLife s n = .started x.res) : exec (.transferIsActive x n) s = exec (.chIsActive n) s := by
  simp only [exec, execTransferIsActive, isStarted_eq_true.2 ⟨started, life⟩, lifecycleChecked, if_true]

end

/-! What the enable trigger writes (42_channel_commands.md R156). -/

@[simp] theorem getCh_enableEffect_same (s : State) (n : Chan) :
    getCh (enableEffect n s) n =
      { getCh s n with en := .of true, dptr := (getCh s n).descAddr, phase := .fetch } := by
  rw [enableEffect, getCh_setBusy, getCh_setCh_same]

@[simp] theorem getCh_enableEffect_ne (s : State) {n m : Chan} (other : m ≠ n) :
    getCh (enableEffect n s) m = getCh s m := by
  rw [enableEffect, getCh_setBusy, getCh_setCh_ne _ _ other]

@[simp] theorem getBusy_enableEffect_same (s : State) (n : Chan) : getBusy (enableEffect n s) n = .of true := by
  rw [enableEffect, getBusy_setBusy_same]

@[simp] theorem getBusy_enableEffect_ne (s : State) {n m : Chan} (other : m ≠ n) :
    getBusy (enableEffect n s) m = getBusy s m := by
  rw [enableEffect, getBusy_setBusy_ne _ _ other, getBusy_setCh]

/-- The trigger changes nothing but the channels and the busy flags. -/
theorem enableEffect_frame (s : State) (n : Chan) :
    enableEffect n s =
      { s with ch := (enableEffect n s).ch, blk := { s.blk with busy := (enableEffect n s).blk.busy } } := rfl

/-! The obligations. -/

/-- Settles O16: with the guard met the trigger is what is left, and each stop is the one of the first requirement that
fails. -/
theorem enableStartsTheEngine : Obligations.EnableStartsTheEngine := by
  intro s n
  refine ⟨fun a use idle address domain => ?_,
    fun unusable => exec_chEnable_of_stop (enableStop_of_unusable unusable),
    fun use busy => exec_chEnable_of_stop (enableStop_of_not_idle use busy),
    fun use idle unset => exec_chEnable_of_stop (enableStop_of_no_address use idle unset),
    fun use idle address domain => exec_chEnable_of_stop (enableStop_of_not_nonSecure use idle address domain)⟩
  have written : (getCh s n).descAddr ≠ .unset := by simp [address]
  refine ⟨enableEffect n s, exec_chEnable_of_ready use idle written domain, ?_, getBusy_enableEffect_same s n,
    fun m other => ⟨getCh_enableEffect_ne s other, getBusy_enableEffect_ne s other⟩, enableEffect_frame s n⟩
  rw [getCh_enableEffect_same, address]

/-- Settles O17: on a usable channel the flag decides, and `is_active` of the Started transfer is the command. -/
theorem isActiveReturnsBusy : Obligations.IsActiveReturnsBusy := by
  intro s n
  have returned (b : Bool) (use : Usable n s) (flag : getBusy s n = .of b) :
      exec (.chIsActive n) s = .next (setRet s (.active b)) := by
    rw [exec_chIsActive_of_usable use, flag, readVal_of]
  have unwritten (use : Usable n s) (flag : getBusy s n = .unset) : exec (.chIsActive n) s = .refused .unsetState := by
    rw [exec_chIsActive_of_usable use, flag, readVal_unset]
  refine ⟨returned, unwritten, exec_chIsActive_of_unusable, fun x use started life => ?_⟩
  rw [exec_transferIsActive_of_started started life]
  exact ⟨fun b => returned b use, unwritten use⟩

/-- Settles O18: the write replaces one register of one channel, and `writeStop` is what stops it. -/
theorem setDescAddrWritesTheAddress : Obligations.SetDescAddrWritesTheAddress := by
  intro s n a
  exact ⟨fun use idle => ⟨_, exec_chSetDescAddr_of_idle use idle a, getCh_setCh_same s n _,
      fun _ other => getCh_setCh_ne s _ other, rfl⟩,
    fun unusable => exec_chSetDescAddr_of_stop (writeStop_of_unusable unusable) a,
    fun use busy => exec_chSetDescAddr_of_stop (writeStop_of_not_idle use busy) a⟩

/-- Settles O19: the write replaces one domain, `writeStop` is what stops it, and the enable looks at the domain. -/
theorem setNonsecureSetsOneBit : Obligations.SetNonsecureSetsOneBit := by
  intro s n
  exact ⟨fun use idle => ⟨_, exec_chSetNonsecure_of_idle use idle, getSec_setSec_same s n _,
      fun _ other => getSec_setSec_ne s _ other, rfl⟩,
    fun unusable => exec_chSetNonsecure_of_stop (writeStop_of_unusable unusable),
    fun use busy => exec_chSetNonsecure_of_stop (writeStop_of_not_idle use busy),
    fun use idle address domain => exec_chEnable_of_stop (enableStop_of_not_nonSecure use idle address domain)⟩

end Sys2Proof.Machine
end

section
/-! Raw accesses outside the admitted set (42_channel_commands.md R168, R169): what their address is decoded to, and their
refusal; and a read of a status bit that is no busy flag (10_state.md R35; log 26). -/

namespace Sys2Proof.Machine

/-! Which channel a register or a bit belongs to. -/

theorem mem_allChans (n : Chan) : n ∈ allChans := by
  revert n
  decide

theorem chanAt_eq_none {m : RegMap} {off a : Nat} : chanAt m off a = none ↔ ∀ n, a ≠ chanReg m n off := by
  simp [chanAt, mem_allChans]

/-- A register at the offset is found to be some channel's. -/
theorem exists_chanAt_chanReg (m : RegMap) (n : Chan) (off : Nat) : ∃ k, chanAt m off (chanReg m n off) = some k :=
  Option.ne_none_iff_exists'.1 fun notFound => chanAt_eq_none.1 notFound n rfl

theorem chanOfBit_eq_none {bits : PerChannel Nat} {bit : Nat} :
    chanOfBit bits bit = none ↔ ∀ n, bit ≠ bankGet bits n := by
  simp [chanOfBit, mem_allChans]

/-! The accesses, decoded under any `RegMap`. -/

section

variable {m : RegMap}

theorem decodeAccess_disable (apart : RegistersApart m) (n : Chan) {v : Word} (zero : v.getLsbD m.enBit = false) :
    decodeAccess m (.write (chanReg m n m.enOff) v) = .disable ∧
      decodeAccess m (.modify (chanReg m n m.enOff) m.enBit false) = .disable := by
  simp [decodeAccess, apart.en n, zero]

theorem decodeAccess_pause (n : Chan) (v : Word) (bit : Nat) (b : Bool) :
    decodeAccess m (.write (chanReg m n m.pauseOff) v) = .pause ∧
      decodeAccess m (.modify (chanReg m n m.pauseOff) bit b) = .pause := by
  obtain ⟨k, found⟩ := exists_chanAt_chanReg m n m.pauseOff
  simp [decodeAccess, found]

/-- No register but the status register can be read. -/
theorem decodeAccess_read_of_ne_status {a : Nat} (notStatus : a ≠ m.base + m.staOff) (bit : Nat) :
    decodeAccess m (.read a bit) = .other := by
  rw [decodeAccess, if_neg notStatus]

/-- A bit of the status register that is no busy flag. -/
theorem decodeAccess_status {bit : Nat} (noFlag : chanOfBit m.busyBit bit = none) :
    decodeAccess m (.read (m.base + m.staOff) bit) = if bit < 32 then .statusBit else .other := by
  simp only [decodeAccess, if_true, noFlag]

/-- The address is that of no channel register a command or a refused access of R168 writes. -/
structure NoChannelWrite (m : RegMap) (a : Nat) : Prop where
  pause : chanAt m m.pauseOff a = none
  en : chanAt m m.enOff a = none
  descAddr : chanAt m m.descAddrOff a = none

theorem decodeAccess_write_other {a : Nat} (noWrite : NoChannelWrite m a) (v : Word) :
    decodeAccess m (.write a v) = .other := by
  simp only [decodeAccess, noWrite.pause, noWrite.en, noWrite.descAddr]

theorem decodeAccess_modify_other {a : Nat} (noWrite : NoChannelWrite m a) (notSec : a ≠ m.base + m.secOff)
    (notAutogate : a ≠ m.base + m.autogateOff) (bit : Nat) (b : Bool) : decodeAccess m (.modify a bit b) = .other := by
  simp only [decodeAccess, noWrite.pause, noWrite.en, if_neg notSec, if_neg notAutogate]

theorem decodeAccess_setSecure (apart : RegistersApart m) {b : Bool} (secure : b ≠ m.nonSecureIs) (bit : Nat) :
    decodeAccess m (.modify (m.base + m.secOff) bit b) = .other := by
  obtain ⟨noPause, noEn⟩ := apart.sec
  simp only [decodeAccess, noPause, noEn, if_true, if_neg secure]
  cases chanOfBit m.secBit bit <;> rfl

theorem decodeAccess_gateOff (apart : RegistersApart m) {b : Bool} (off : ∀ g, b ≠ gateOnIs m g) (bit : Nat) :
    decodeAccess m (.modify (m.base + m.autogateOff) bit b) = .other := by
  obtain ⟨noPause, noEn, notSec⟩ := apart.autogate
  simp only [decodeAccess, noPause, noEn, if_neg notSec, if_true, if_neg (off _)]
  cases gateOfBit m bit <;> rfl

end

/-! The default addresses and bits (30_encoding.md R105). -/

/-- The channel blocks lie behind the shared registers. -/
theorem le_chanReg_default (n : Chan) (off : Nat) : 0x01C02100 ≤ chanReg {} n off := by
  simp only [chanReg]
  omega

/-- Each channel block is 0x40 bytes, so that an address in one tells the offset. -/
theorem chanReg_default_ne {off off' : Nat} (inBlock : off < 0x40) (inBlock' : off' < 0x40) (differ : off ≠ off')
    (n k : Chan) : chanReg {} n off ≠ chanReg {} k off' := by
  simp only [chanReg]
  omega

theorem noChannelWrite_default {n : Chan} {off : Nat} (inBlock : off < 0x40) (notEn : off ≠ 0x00) (notPause : off ≠ 0x04)
    (notDescAddr : off ≠ 0x08) : NoChannelWrite {} (chanReg {} n off) where
  pause := chanAt_eq_none.2 (chanReg_default_ne inBlock (by decide) notPause n)
  en := chanAt_eq_none.2 (chanReg_default_ne inBlock (by decide) notEn n)
  descAddr := chanAt_eq_none.2 (chanReg_default_ne inBlock (by decide) notDescAddr n)

theorem noChannelWrite_default_of_lt {a : Nat} (shared : a < 0x01C02100) : NoChannelWrite {} a :=
  have atNoChannel (off : Nat) : chanAt {} off a = none :=
    chanAt_eq_none.2 fun n => (shared.trans_le (le_chanReg_default n off)).ne
  ⟨atNoChannel _, atNoChannel _, atNoChannel _⟩

/-- The registers from `cfg` to `pkg_num` are written by no command (R169). -/
theorem decodeAccess_workingRegister_default {off : Nat}
    (listed : off ∈ [0x0C, 0x10, 0x14, 0x18, 0x1C, 0x28, 0x2C, 0x30]) (n : Chan) (v : Word) (bit : Nat) (b : Bool) :
    decodeAccess {} (.write (chanReg {} n off) v) = .other ∧
      decodeAccess {} (.modify (chanReg {} n off) bit b) = .other := by
  have inBlock : ∀ off ∈ [0x0C, 0x10, 0x14, 0x18, 0x1C, 0x28, 0x2C, 0x30],
      off < 0x40 ∧ off ≠ 0x00 ∧ off ≠ 0x04 ∧ off ≠ 0x08 := by decide
  obtain ⟨lt, notEn, notPause, notDescAddr⟩ := inBlock off listed
  have noWrite := noChannelWrite_default (n := n) lt notEn notPause notDescAddr
  have notShared {a : Nat} (shared : a < 0x01C02100) : chanReg {} n off ≠ a :=
    (shared.trans_le (le_chanReg_default n off)).ne'
  exact ⟨decodeAccess_write_other noWrite v,
    decodeAccess_modify_other noWrite (notShared (by decide)) (notShared (by decide)) bit b⟩

theorem chanOfBit_busyBit_default {bit : Nat} (high : 8 ≤ bit) : chanOfBit ({} : RegMap).busyBit bit = none := by
  have place : ∀ n, bankGet ({} : RegMap).busyBit n = n.val := by decide
  refine chanOfBit_eq_none.2 fun n => ?_
  rw [place]
  omega

theorem decodeAccess_status_default {bit : Nat} (high : 8 ≤ bit) :
    decodeAccess {} (.read 0x01C02030 bit) = if bit < 32 then .statusBit else .other :=
  decodeAccess_status (chanOfBit_busyBit_default high)

/-! The accesses, carried out. -/

theorem cpuAccess_of_disable {r : RegAccess} {s : State} (h : decodeAccess s.config.regMap r = .disable) (pick : Nat) :
    cpuAccess r pick s = .refused .disableNotModelled := by
  simp only [cpuAccess, h, accessRefusal]

theorem cpuAccess_of_pause {r : RegAccess} {s : State} (h : decodeAccess s.config.regMap r = .pause) (pick : Nat) :
    cpuAccess r pick s = .refused .pauseNotModelled := by
  simp only [cpuAccess, h, accessRefusal]

theorem cpuAccess_of_other {r : RegAccess} {s : State} (h : decodeAccess s.config.regMap r = .other) (pick : Nat) :
    cpuAccess r pick s = .refused .registerAccessNotModelled := by
  simp only [cpuAccess, h, accessRefusal]

theorem cpuAccess_of_statusBit {r : RegAccess} {s : State} (h : decodeAccess s.config.regMap r = .statusBit) (pick : Nat) :
    cpuAccess r pick s = statusAccess pick s := by
  simp only [cpuAccess, h]

theorem statusAccess_of_blockUp {s : State} (up : blockUp s = none) (pick : Nat) :
    statusAccess pick s = .next (setRet s (.statusBit (choose false [true] pick))) := by
  rw [statusAccess, up, guarded_none]

theorem statusAccess_of_not_split {s : State} (notSplit : s.blk.splitDone = false) (pick : Nat) :
    statusAccess pick s = .refused .channelNotUsable := by
  rw [statusAccess, blockUp_of_not_split notSplit, guarded_refuse]

/-- Each of the two values of a bit is chosen by some number. -/
theorem exists_choose_bit : ∀ b, ∃ pick, choose false [true] pick = b
  | false => ⟨0, rfl⟩
  | true => ⟨1, rfl⟩

/-- A status bit beside the busy flags (10_state.md R35): with the block set up it reads as either value, each for some
choice. -/
theorem statusAccess_any_value {s : State} (up : blockUp s = none) (b : Bool) (pick : Nat) :
    (∃ q, statusAccess q s = .next (setRet s (.statusBit b))) ∧
      ∃ c, statusAccess pick s = .next (setRet s (.statusBit c)) := by
  obtain ⟨q, chosen⟩ := exists_choose_bit b
  exact ⟨⟨q, by rw [statusAccess_of_blockUp up, chosen]⟩, _, statusAccess_of_blockUp up pick⟩

/-- Settles O7: each access is decoded to no command, and refused by the name of what it is. -/
theorem accessesOutsideTheSetAreRefused : Obligations.AccessesOutsideTheSetAreRefused := by
  intro n s v bit p b config
  have disable {r : RegAccess} (h : decodeAccess {} r = .disable) := cpuAccess_of_disable (s := s) (config ▸ h) p
  have pause {r : RegAccess} (h : decodeAccess {} r = .pause) := cpuAccess_of_pause (s := s) (config ▸ h) p
  have other {r : RegAccess} (h : decodeAccess {} r = .other) := cpuAccess_of_other (s := s) (config ▸ h) p
  have unreadable {a : Nat} (notStatus : a ≠ 0x01C02030) := other (decodeAccess_read_of_ne_status notStatus bit)
  have statusBit (high : 8 ≤ bit) (low : bit < 32) (q : Nat) :
      cpuAccess (.read 0x01C02030 bit) q s = statusAccess q s :=
    cpuAccess_of_statusBit (config ▸ (decodeAccess_status_default high).trans (if_pos low)) q
  obtain ⟨writeZero, modifyZero⟩ := decodeAccess_disable registersApart_default n (v := 0) rfl
  obtain ⟨writePause, modifyPause⟩ := decodeAccess_pause (m := {}) n v bit b
  have statusNoWrite : NoChannelWrite {} 0x01C02030 := noChannelWrite_default_of_lt (by decide)
  refine ⟨disable modifyZero, disable writeZero, pause writePause, pause modifyPause, fun off _ => ?_, fun a shared => ?_,
    fun off listed => ?_, other (decodeAccess_write_other statusNoWrite v),
    other (decodeAccess_modify_other statusNoWrite (by decide) (by decide) bit b),
    other (decodeAccess_setSecure registersApart_default (by decide) n.val),
    other (decodeAccess_gateOff registersApart_default (fun g => by cases g <;> decide) bit),
    fun high low split clock released => ?_, fun high low notSplit => ?_, fun high => ?_⟩
  · have behind := le_chanReg_default n off
    exact unreadable (by omega)
  · have notStatus : ∀ a ∈ [0x01C02020, 0x01C02028], a ≠ 0x01C02030 := by decide
    exact unreadable (notStatus a shared)
  · obtain ⟨write, modify⟩ := decodeAccess_workingRegister_default listed n v bit b
    exact ⟨other write, other modify⟩
  · simp only [statusBit high low]
    exact statusAccess_any_value (blockUp_eq_none.2 ⟨split, clock, released⟩) b p
  · rw [statusBit high low, statusAccess_of_not_split notSplit]
  · exact other ((decodeAccess_status_default (by omega)).trans (if_neg (by omega)))

end Sys2Proof.Machine
end

section
/-! What the engine's effects write to the channels (43_engine.md R178 to R190). -/

namespace Sys2Proof.Machine

/-- The registers of a channel that has latched `d` (43_engine.md R179). -/
def latched (c : Channel) (d : Desc) : Channel :=
  { c with
    cfg := .of d.config, curSrc := .of d.srcAddr, curDst := .of d.dstAddr, bcntLeft := .of d.length
    para := .of d.param, nxt := .of d.nextAddr, len := .of d.length, fw := emptyFetch, phase := .move }

/-- The registers of a channel that has moved `k` bytes (43_engine.md R183, R185). -/
def advanced (c : Channel) (src dst left : Word) (k : Nat) : Channel :=
  { c with
    curSrc := .of (src + BitVec.ofNat 32 k), curDst := .of (dst + BitVec.ofNat 32 k)
    bcntLeft := .of (left - BitVec.ofNat 32 k) }

variable (s : State) (n : Chan)

@[simp] theorem getCh_engineFault_same (r : FaultReason) :
    getCh (engineFault n r s) n = { getCh s n with phase := .fault r } := getCh_setCh_same ..

@[simp] theorem getCh_latchEffect_same (d : Desc) : getCh (latchEffect n d s) n = latched (getCh s n) d :=
  getCh_setCh_same ..

@[simp] theorem getCh_advance_same (src dst left : Word) (k : Nat) :
    getCh (advance n src dst left k s) n = advanced (getCh s n) src dst left k := getCh_setCh_same ..

@[simp] theorem getCh_linkEffect_same (a : Word) :
    getCh (linkEffect n a s) n = { getCh s n with dptr := .of a, fw := emptyFetch, phase := .fetch } :=
  getCh_setCh_same ..

@[simp] theorem getCh_completeEffect_same :
    getCh (completeEffect n s) n = { getCh s n with en := .of false, phase := .idle } := by
  rw [completeEffect, getCh_setBusy, getCh_setCh_same]

@[simp] theorem getBusy_completeEffect_same : getBusy (completeEffect n s) n = .of false := by
  rw [completeEffect, getBusy_setBusy_same]

variable {n} {m : Chan} (other : m ≠ n)
include other

@[simp] theorem getCh_engineFault_ne (r : FaultReason) : getCh (engineFault n r s) m = getCh s m :=
  getCh_setCh_ne _ _ other

@[simp] theorem getCh_latchEffect_ne (d : Desc) : getCh (latchEffect n d s) m = getCh s m := getCh_setCh_ne _ _ other

@[simp] theorem getCh_advance_ne (src dst left : Word) (k : Nat) :
    getCh (advance n src dst left k s) m = getCh s m := getCh_setCh_ne _ _ other

@[simp] theorem getCh_linkEffect_ne (a : Word) : getCh (linkEffect n a s) m = getCh s m := getCh_setCh_ne _ _ other

@[simp] theorem getCh_completeEffect_ne : getCh (completeEffect n s) m = getCh s m := by
  rw [completeEffect, getCh_setBusy, getCh_setCh_ne _ _ other]

@[simp] theorem getBusy_completeEffect_ne : getBusy (completeEffect n s) m = getBusy s m := by
  rw [completeEffect, getBusy_setBusy_ne _ _ other, getBusy_setCh]

end Sys2Proof.Machine
end

section
/-! Arithmetic of the working registers (43_engine.md R185): nothing wraps while the bytes left fit below 2^32. -/

namespace Sys2Proof.Machine

open Sys2Proof.Safety

theorem toNat_add_ofNat {w : Word} {k : Nat} (fits : w.toNat + k < 2 ^ 32) :
    (w + BitVec.ofNat 32 k).toNat = w.toNat + k := by
  rw [BitVec.toNat_add, BitVec.toNat_ofNat, Nat.add_mod_mod, Nat.mod_eq_of_lt fits]

theorem toNat_sub_ofNat {w : Word} {k : Nat} (le : k ≤ w.toNat) : (w - BitVec.ofNat 32 k).toNat = w.toNat - k := by
  have small : (BitVec.ofNat 32 k).toNat = k := by
    rw [BitVec.toNat_ofNat, Nat.mod_eq_of_lt (le.trans_lt w.isLt)]
  rw [BitVec.toNat_sub_of_le (by rwa [BitVec.le_def, small]), small]

/-- A word `k` further on, when the range of `l ≥ k` bytes from it ends at 2^32 or below: it stands `k` further, but at the
very end of the address space, where no byte is left. -/
theorem add_ofNat_in_range {w : Word} {k l : Nat} (le : k ≤ l) (fits : w.toNat + l ≤ 2 ^ 32) :
    (w + BitVec.ofNat 32 k).toNat = w.toNat + k ∨ ((w + BitVec.ofNat 32 k).toNat = 0 ∧ k = l) := by
  by_cases wraps : w.toNat + k < 2 ^ 32
  · exact .inl (toNat_add_ofNat wraps)
  · refine .inr ⟨?_, by omega⟩
    rw [BitVec.toNat_add, BitVec.toNat_ofNat]
    omega

/-- A part of one range against a part of another: ranges apart stay apart. -/
theorem overlaps_part {a k b l a' k' b' l' : Nat} (apart : overlaps a k b l = false)
    (left : k' = 0 ∨ (a ≤ a' ∧ a' + k' ≤ a + k)) (right : l' = 0 ∨ (b ≤ b' ∧ b' + l' ≤ b + l)) :
    overlaps a' k' b' l' = false := by
  rw [overlaps_eq_false] at apart ⊢
  intro x ge lt ge' lt'
  exact apart x (by omega) (by omega) (by omega) (by omega)

end Sys2Proof.Machine
end

section
/-! The engine invariants, channel by channel: what a step can do to one channel's registers and flags, and what that keeps
(43_engine.md R176, R185; 20_memory.md R84). -/

namespace Sys2Proof.Machine

open Sys2Proof.Safety

/-- The block's part of what a running channel needs stays as it is (43_engine.md R175). -/
structure StaysUp (n : Chan) (s t : State) : Prop where
  clkOn : s.blk.clkOn = .of true → t.blk.clkOn = .of true
  inReset : s.blk.inReset = .of false → t.blk.inReset = .of false
  sec : getSec s n = .of .nonSecure → getSec t n = .of .nonSecure

theorem staysUp_of_blk {n : Chan} {s t : State} (h : t.blk = s.blk) : StaysUp n s t := by
  refine ⟨?_, ?_, ?_⟩ <;> simp [getSec, h]

/-- What an engine does to its registers in a step that neither latches a descriptor nor ends the chain. -/
structure Progress (l : CfgLayout) (c d : Channel) : Prop where
  en : d.en = c.en
  pause : d.pause = c.pause
  running : d.phase ≠ .idle
  pointer : c.dptr ≠ .unset → d.dptr ≠ .unset
  phase : d.phase = .move → c.phase = .move
  reads : d.phase = .move → engineReads d = engineReads c
  writes : d.phase = .move → engineWrites d = engineWrites c
  working : d.phase = .move → workingInv l c = true → workingInv l d = true

/-- A step that leaves an engine elsewhere than in Move. -/
theorem Progress.of_not_move {l : CfgLayout} {c d : Channel} (en : d.en = c.en) (pause : d.pause = c.pause)
    (running : d.phase ≠ .idle) (pointer : c.dptr ≠ .unset → d.dptr ≠ .unset) (h : d.phase ≠ .move) :
    Progress l c d :=
  ⟨en, pause, running, pointer, fun move => absurd move h, fun move => absurd move h, fun move => absurd move h,
    fun move => absurd move h⟩

/-- The bytes of a side that are read or written under one descriptor do not change while they are moved (log 30). -/
theorem sideRange_advanced (cur left : Word) (k : Nat) (len : Val Word) :
    sideRange (.of (cur + BitVec.ofNat 32 k)) (.of (left - BitVec.ofNat 32 k)) len =
      sideRange (.of cur) (.of left) len := by
  have total : cur + BitVec.ofNat 32 k + (left - BitVec.ofNat 32 k) = cur + left := by
    ring
  cases len with
  | unset => rfl
  | of l => simp only [sideRange, total]

/-- Moving bytes keeps the working registers inside the ranges they had (43_engine.md R185). -/
theorem workingInv_advanced {l : CfgLayout} {c : Channel} {src dst left : Word} {k : Nat} (inv : workingInv l c = true)
    (source : c.curSrc = .of src) (dest : c.curDst = .of dst) (toGo : c.bcntLeft = .of left) (le : k ≤ left.toNat) :
    workingInv l (advanced c src dst left k) = true := by
  obtain ⟨a, src', dst', left', w, p, nx, len, pointer, source', dest', toGo', cfg, para, nxt, length, within, srcFits,
    dstFits, apart, clear, config, link⟩ := workingInv_eq_true.1 inv
  obtain rfl := Val.of.inj (source'.symm.trans source)
  obtain rfl := Val.of.inj (dest'.symm.trans dest)
  obtain rfl := Val.of.inj (toGo'.symm.trans toGo)
  have remaining := toNat_sub_ofNat le
  have srcMoved := add_ofNat_in_range le srcFits
  have dstMoved := add_ofNat_in_range le dstFits
  refine workingInv_eq_true.2 ⟨a, _, _, _, w, p, nx, len, pointer, rfl, rfl, rfl, cfg, para, nxt, length, by omega,
    by omega, by omega, overlaps_part apart ?_ ?_, overlaps_part clear ?_ ?_, config, link⟩
  all_goals omega

theorem progress_advanced {l : CfgLayout} {c : Channel} {src dst left : Word} {k : Nat} (move : c.phase = .move)
    (source : c.curSrc = .of src) (dest : c.curDst = .of dst) (toGo : c.bcntLeft = .of left) (le : k ≤ left.toNat) :
    Progress l c (advanced c src dst left k) where
  en := rfl
  pause := rfl
  running := by simp [advanced, move]
  pointer := id
  phase _ := move
  reads _ := by
    simp only [engineReads, advanced, move, descRange, sideRange_advanced, source, toGo]
  writes _ := by
    simp only [engineWrites, advanced, move, sideRange_advanced, dest, toGo]
  working _ inv := workingInv_advanced inv source dest toGo le

/-- An admitted descriptor makes good working registers (30_encoding.md R101, 43_engine.md R179). -/
theorem workingInv_latched {l : CfgLayout} {c : Channel} {d : Desc} {a : Word} (pointer : c.dptr = .of a)
    (adm : admitted l d a.toNat = true) : workingInv l (latched c d) = true := by
  obtain ⟨config, -, -, -, -, -, srcFits, dstFits, apart, clear, link⟩ := admitted_eq_true.1 adm
  exact workingInv_eq_true.2 ⟨a, _, _, _, _, _, _, _, pointer, rfl, rfl, rfl, rfl, rfl, rfl, rfl, le_rfl, srcFits, dstFits,
    apart, clear, config, link⟩

/-- Everything a step can do to channel `n`. `starts` and `ends` say which steps enable it and which complete it. -/
inductive ChannelEffect (starts ends : Prop) (n : Chan) (s t : State) : Prop
  | keeps (ch : getCh t n = getCh s n) (busy : getBusy t n = getBusy s n) (up : StaysUp n s t)
  | steps (engine : (getCh s n).phase = .fetch ∨ (getCh s n).phase = .move)
      (progress : Progress s.config.layout (getCh s n) (getCh t n)) (busy : getBusy t n = getBusy s n)
      (up : StaysUp n s t)
  | latches (d : Desc) (a : Word) (fetch : (getCh s n).phase = .fetch) (pointer : (getCh s n).dptr = .of a)
      (adm : admitted s.config.layout d a.toNat = true) (apart : descShares n d a.toNat s = false)
      (ch : getCh t n = latched (getCh s n) d) (others : ∀ m, m ≠ n → getCh t m = getCh s m)
      (busy : getBusy t n = getBusy s n) (up : StaysUp n s t)
  | completes (ended : ends) (move : (getCh s n).phase = .move)
      (ch : getCh t n = { getCh s n with en := .of false, phase := .idle }) (busy : getBusy t n = .of false)
  | enables (started : starts) (idle : (getCh s n).phase = .idle) (use : Usable n s)
      (addr : (getCh s n).descAddr ≠ .unset) (dom : getSec s n = .of .nonSecure)
      (ch : getCh t n = { getCh s n with en := .of true, dptr := (getCh s n).descAddr, phase := .fetch })
      (busy : getBusy t n = .of true) (up : StaysUp n s t)
  | addresses (idle : (getCh s n).phase = .idle) (a : Word) (ch : getCh t n = { getCh s n with descAddr := .of a })
      (busy : getBusy t n = getBusy s n)
  | resets (idle : (getCh s n).phase = .idle) (ch : getCh t n = resetChannel) (busy : getBusy t n = .of false)

variable {starts ends : Prop} {n m : Chan} {s t : State}

theorem channelEffect_of_eq (ch : t.ch = s.ch) (blk : t.blk = s.blk) : ChannelEffect starts ends n s t :=
  .keeps (getCh_congr ch n) (getBusy_congr blk n) (staysUp_of_blk blk)

/-- An effect is told by what the state before holds of channels, block and configuration. -/
theorem ChannelEffect.congr {starts' ends' : Prop} {u : State} (h : ChannelEffect starts ends n u t) (ch : u.ch = s.ch)
    (blk : u.blk = s.blk) (config : u.config = s.config) (hs : starts → starts') (he : ends → ends') :
    ChannelEffect starts' ends' n s t := by
  obtain ⟨_, _, _, _, _, _, _, _, _⟩ := s
  obtain ⟨_, _, _, _, _, _, _, _, _⟩ := u
  obtain rfl : _ = _ := ch
  obtain rfl : _ = _ := blk
  obtain rfl : _ = _ := config
  cases h with
  | keeps ch busy up => exact .keeps ch busy ⟨up.1, up.2, up.3⟩
  | steps engine progress busy up => exact .steps engine progress busy ⟨up.1, up.2, up.3⟩
  | latches d a fetch pointer adm apart ch others busy up =>
    exact .latches d a fetch pointer adm apart ch others busy ⟨up.1, up.2, up.3⟩
  | completes ended move ch busy => exact .completes (he ended) move ch busy
  | enables started idle use addr dom ch busy up =>
    exact .enables (hs started) idle use addr dom ch busy ⟨up.1, up.2, up.3⟩
  | addresses idle a ch busy => exact .addresses idle a ch busy
  | resets idle ch busy => exact .resets idle ch busy

/-! What a channel's step keeps. -/

/-- The three flags have values (10_state.md R53). -/
abbrev FlagsWritten (n : Chan) (s : State) : Prop :=
  getBusy s n ≠ .unset ∧ (getCh s n).en ≠ .unset ∧ (getCh s n).pause ≠ .unset

/-- What a channel outside Idle has (43_engine.md R175, 42_channel_commands.md R155, R156). -/
abbrev Running (n : Chan) (s : State) : Prop :=
  s.blk.clkOn = .of true ∧ s.blk.inReset = .of false ∧ (getCh s n).pause = .of false ∧ getSec s n = .of .nonSecure ∧
    n.val < s.config.nimpl ∧ (getCh s n).dptr ≠ .unset

/-- Every channel is as the block reset leaves it (10_state.md R53). -/
abbrev FreshChannels (s : State) : Prop := ∀ n, getCh s n = resetChannel ∧ getBusy s n = .of false

theorem flagsWritten_of_fresh (fresh : FreshChannels s) (n : Chan) : FlagsWritten n s := by
  obtain ⟨ch, busy⟩ := fresh n
  simp [FlagsWritten, ch, busy, resetChannel]

theorem ChannelEffect.flagsWritten (h : ChannelEffect starts ends n s t) (old : FlagsWritten n s) : FlagsWritten n t := by
  obtain ⟨busyOld, enOld, pauseOld⟩ := old
  cases h with
  | keeps ch busy => exact ⟨busy ▸ busyOld, by rwa [ch], by rwa [ch]⟩
  | steps _ progress busy => exact ⟨busy ▸ busyOld, progress.en ▸ enOld, progress.pause ▸ pauseOld⟩
  | latches d _ _ _ _ _ ch _ busy => exact ⟨busy ▸ busyOld, by rwa [ch], by rwa [ch]⟩
  | completes _ _ ch busy => exact ⟨by simp [busy], by simp [ch], by rwa [ch]⟩
  | enables _ _ _ _ _ ch busy => exact ⟨by simp [busy], by simp [ch], by rwa [ch]⟩
  | addresses _ a ch busy => exact ⟨busy ▸ busyOld, by rwa [ch], by rwa [ch]⟩
  | resets _ ch busy => simp [FlagsWritten, ch, busy, resetChannel]

theorem StaysUp.running (up : StaysUp n s t) (config : t.config = s.config)
    (pause : (getCh t n).pause = (getCh s n).pause) (pointer : (getCh s n).dptr ≠ .unset → (getCh t n).dptr ≠ .unset)
    (old : Running n s) : Running n t := by
  obtain ⟨clk, rel, go, dom, handed, ptr⟩ := old
  exact ⟨up.clkOn clk, up.inReset rel, pause.trans go, up.sec dom, config ▸ handed, pointer ptr⟩

theorem ChannelEffect.channelInv_of (h : ChannelEffect starts ends n s t) (config : t.config = s.config)
    (reset : resetDone t = true → resetDone s = true ∨ FreshChannels t) (inv : channelInv n s = true) :
    channelInv n t = true := by
  obtain ⟨busyRuns, enRuns, noPause, written, running, working⟩ := channelInv_eq_true.1 inv
  have written' (done : resetDone t = true) : FlagsWritten n t :=
    (reset done).elim (fun old => h.flagsWritten (written old)) (fun fresh => flagsWritten_of_fresh fresh n)
  rw [channelInv_eq_true]
  cases h with
  | keeps ch busy up =>
    refine ⟨by rwa [ch, busy], by rwa [ch], by rwa [ch], written', fun runs => ?_, by rwa [ch, config]⟩
    exact up.running config (by rw [ch]) (by rw [ch]; exact id) (running (by rwa [ch] at runs))
  | steps engine progress busy up =>
    have runs : (getCh s n).phase ≠ .idle := by rcases engine with h | h <;> simp [h]
    refine ⟨?_, ?_, by rwa [progress.pause], written', fun _ => ?_, fun move => ?_⟩
    · simpa [progress.running, busy] using busyRuns.2 runs
    · simpa [progress.running, progress.en] using enRuns.2 runs
    · exact up.running config progress.pause progress.pointer (running runs)
    · exact config ▸ progress.working move (working (progress.phase move))
  | latches d a fetch pointer adm _ ch _ busy up =>
    have runs : (getCh s n).phase ≠ .idle := by simp [fetch]
    refine ⟨?_, ?_, by rwa [ch], written', fun _ => ?_, fun _ => ?_⟩
    · simpa [ch, latched, busy] using busyRuns.2 runs
    · simpa [ch, latched] using enRuns.2 runs
    · exact up.running config (by rw [ch]; rfl) (by rw [ch]; exact id) (running runs)
    · rw [ch, config]
      exact workingInv_latched pointer adm
  | completes _ _ ch busy =>
    exact ⟨by simp [ch, busy], by simp [ch], by rwa [ch], written', by simp [ch], by simp [ch]⟩
  | enables _ _ use addr dom ch busy up =>
    obtain ⟨split, clk, rel, handed⟩ := use
    have go : (getCh s n).pause = .of false := by
      obtain ⟨_, _, given⟩ := written (resetDone_eq_true.2 (.inl split))
      match h : (getCh s n).pause with
      | .unset => exact absurd h given
      | .of true => exact absurd h noPause
      | .of false => rfl
    refine ⟨by simp [ch, busy], by simp [ch], by rwa [ch], written', fun _ => ?_, by simp [ch]⟩
    exact ⟨up.clkOn clk, up.inReset rel, by rw [ch, go], up.sec dom, config ▸ handed, by rw [ch]; exact addr⟩
  | addresses idle a ch busy =>
    exact ⟨by rwa [ch, busy], by rwa [ch], by rwa [ch], written', by simp [ch, idle], by simp [ch, idle]⟩
  | resets _ ch busy =>
    have idle : (getCh t n).phase = .idle := by rw [ch]; rfl
    refine ⟨?_, ?_, ?_, written', fun runs => absurd idle runs, fun move => ?_⟩
    · simp [idle, busy]
    · simp [ch, resetChannel, powerOnChannel]
    · simp [ch, resetChannel]
    · simp [idle] at move

/-- A channel leaves Idle, and its busy flag becomes 1, by an enable only; the flag of a busy channel is cleared by the
completion only (43_engine.md R176). -/
theorem ChannelEffect.flag_changes (h : ChannelEffect starts ends n s t) (inv : channelInv n s = true) :
    ((getCh s n).phase = .idle → (getCh t n).phase ≠ .idle → starts) ∧
      (getBusy s n ≠ .of true → getBusy t n = .of true → starts) ∧
      (getBusy s n = .of true → getBusy t n ≠ .of true → ends) := by
  have runs := (channelInv_eq_true.1 inv).1
  have same (busy : getBusy t n = getBusy s n) :
      (getBusy s n ≠ .of true → getBusy t n = .of true → starts) ∧
        (getBusy s n = .of true → getBusy t n ≠ .of true → ends) :=
    ⟨fun off on => absurd (busy ▸ on) off, fun on off => absurd (busy ▸ on) off⟩
  cases h with
  | keeps ch busy => exact ⟨fun idle runs => absurd (ch ▸ idle) runs, same busy⟩
  | steps engine _ busy => exact ⟨fun idle => by simp [idle] at engine, same busy⟩
  | latches _ _ fetch _ _ _ _ _ busy => exact ⟨fun idle => by simp [idle] at fetch, same busy⟩
  | completes ended _ ch busy =>
    exact ⟨fun _ runs => absurd (by rw [ch]) runs, fun _ on => by simp [busy] at on, fun _ _ => ended⟩
  | enables started _ _ _ _ _ busy => exact ⟨fun _ _ => started, fun _ _ => started, fun _ off => absurd busy off⟩
  | addresses idle a ch busy => exact ⟨fun _ runs => absurd (by rw [ch]; exact idle) runs, same busy⟩
  | resets idle ch busy =>
    exact ⟨fun _ runs => absurd (by rw [ch]; rfl) runs, fun _ on => by simp [busy] at on,
      fun on => absurd idle (runs.1 on)⟩

/-! Sharing (20_memory.md R84; log 30). -/

theorem rangesMeet_comm (xs ys : List (Nat × Nat)) : rangesMeet xs ys = rangesMeet ys xs := by
  rw [Bool.eq_iff_iff, rangesMeet_eq_true, rangesMeet_eq_true]
  exact exists_congr fun _ => and_comm

theorem rangesMeet_append_eq_false {xs ys zs : List (Nat × Nat)} :
    rangesMeet xs (ys ++ zs) = false ↔ rangesMeet xs ys = false ∧ rangesMeet xs zs = false := by
  simp only [rangesMeet, List.any_eq_false, List.any_append, Bool.or_eq_true, not_or, forall_and]

theorem sharesWritten_eq_false {reads writes : List (Nat × Nat)} :
    sharesWritten n reads writes s = false ↔ ∀ m, m ≠ n →
      rangesMeet writes (engineReads (getCh s m) ++ engineWrites (getCh s m)) = false ∧
        rangesMeet reads (engineWrites (getCh s m)) = false := by
  simp [sharesWritten, mem_allChans]

/-- A channel that has latched `d` reads and writes the ranges that `descShares` judges. -/
theorem engineReads_latched {c : Channel} {d : Desc} {a : Word} (pointer : c.dptr = .of a) :
    engineReads (latched c d) = [(a.toNat, 24), (d.srcAddr.toNat, d.length.toNat)] := by
  simp [engineReads, latched, descRange, pointer, sideRange]

theorem engineWrites_latched (c : Channel) (d : Desc) :
    engineWrites (latched c d) = [(d.dstAddr.toNat, d.length.toNat)] := by
  simp [engineWrites, latched, sideRange]

/-- A channel in Move after a step was in it before, with the same ranges, or has just latched a descriptor that is apart from
what every other channel has under way. -/
theorem ChannelEffect.underWay (h : ChannelEffect starts ends n s t) (move : (getCh t n).phase = .move) :
    ((getCh s n).phase = .move ∧ engineReads (getCh t n) = engineReads (getCh s n) ∧
        engineWrites (getCh t n) = engineWrites (getCh s n)) ∨
      ∀ m, m ≠ n → getCh t m = getCh s m ∧
        rangesMeet (engineWrites (getCh t n)) (engineReads (getCh s m) ++ engineWrites (getCh s m)) = false ∧
        rangesMeet (engineReads (getCh t n)) (engineWrites (getCh s m)) = false := by
  cases h with
  | keeps ch => exact .inl (ch ▸ ⟨move, rfl, rfl⟩)
  | steps _ progress => exact .inl ⟨progress.phase move, progress.reads move, progress.writes move⟩
  | latches d a _ pointer _ apart ch others =>
    refine .inr fun m other => ⟨others m other, ?_⟩
    rw [ch, engineWrites_latched, engineReads_latched pointer]
    exact sharesWritten_eq_false.1 apart m other
  | completes _ _ ch => simp [ch] at move
  | enables _ _ _ _ _ ch => simp [ch] at move
  | addresses idle _ ch => simp [ch, idle] at move
  | resets _ ch => simp [ch, resetChannel, powerOnChannel] at move

theorem sharingInv_of_channelEffects (h : ∀ n, ChannelEffect starts ends n s t) (inv : SharingInv s) : SharingInv t := by
  intro n m ne moveN moveM
  rcases (h n).underWay moveN with ⟨oldN, readsN, writesN⟩ | newN
  · rcases (h m).underWay moveM with ⟨oldM, readsM, writesM⟩ | newM
    · rw [writesN, readsM, writesM]
      exact inv n m ne oldN oldM
    · obtain ⟨_, wholeM, readsM⟩ := newM n ne
      obtain ⟨-, writesM⟩ := rangesMeet_append_eq_false.1 wholeM
      rw [writesN]
      exact rangesMeet_append_eq_false.2 ⟨rangesMeet_comm _ _ ▸ readsM, rangesMeet_comm _ _ ▸ writesM⟩
  · obtain ⟨same, whole, _⟩ := newN m ne.symm
    rwa [same]

/-! What an instruction does to a channel. -/

/-- An instruction that enables channel `n`. -/
abbrev EnablesChannel (n : Chan) (i : Instr) : Prop := i = .chEnable n ∨ ∃ x, i = .transferStart x n

/-- An instruction that completes the chain of channel `n`. -/
abbrev CompletesChannel (n : Chan) (i : Instr) : Prop := i = .engComplete n ∨ i = .linkEnd n

/-- A write to the registers of one channel leaves every other channel. -/
theorem channelEffect_setCh {c : Channel} (other : m ≠ n) : ChannelEffect starts ends m s (setCh s n c) :=
  .keeps (getCh_setCh_ne s c other) rfl (staysUp_of_blk rfl)

theorem staysUp_setSec (n m : Chan) (s : State) : StaysUp m s (setSec s n .nonSecure) := by
  refine ⟨id, id, fun old => ?_⟩
  rw [getSec_setSec]
  split <;> [rfl; exact old]

theorem channelEffect_enable {s u : State} (n m : Chan) (ch : u.ch = (enableEffect n s).ch)
    (blk : u.blk = (enableEffect n s).blk) (started : m = n → starts) (use : Usable n s)
    (idle : (getCh s n).phase = .idle) (addr : (getCh s n).descAddr ≠ .unset) (dom : getSec s n = .of .nonSecure) :
    ChannelEffect starts ends m s u := by
  have up : StaysUp m s u := by
    refine ⟨?_, ?_, ?_⟩ <;> simp [getSec, blk]
  rcases eq_or_ne m n with rfl | other
  · exact .enables (started rfl) idle use addr dom ((getCh_congr ch m).trans (getCh_enableEffect_same s m))
      ((getBusy_congr blk m).trans (getBusy_enableEffect_same s m)) up
  · exact .keeps ((getCh_congr ch m).trans (getCh_enableEffect_ne s other))
      ((getBusy_congr blk m).trans (getBusy_enableEffect_ne s other)) up

theorem channelEffect_address {s u : State} (n m : Chan) (a : Word)
    (ch : u.ch = (setCh s n { getCh s n with descAddr := .of a }).ch) (busy : getBusy u m = getBusy s m)
    (up : StaysUp m s u) (idle : (getCh s n).phase = .idle) : ChannelEffect starts ends m s u := by
  rcases eq_or_ne m n with rfl | other
  · exact .addresses idle a ((getCh_congr ch m).trans (getCh_setCh_same ..)) busy
  · exact .keeps ((getCh_congr ch m).trans (getCh_setCh_ne s _ other)) busy up

theorem channelEffect_reset (idle : ∀ n, (getCh s n).phase = .idle) (fresh : FreshChannels t) (n : Chan) :
    ChannelEffect starts ends n s t :=
  .resets (idle n) (fresh n).1 (fresh n).2

theorem freshChannels_of_eq (ch : t.ch = everyChannel resetChannel) (busy : t.blk.busy = everyChannel (.of false)) :
    FreshChannels t := fun n => ⟨by rw [getCh, ch, bankGet_everyChannel], by rw [getBusy, busy, bankGet_everyChannel]⟩

theorem channelEffect_engineFault (n m : Chan) (s : State) (r : FaultReason) (fetch : (getCh s n).phase = .fetch) :
    ChannelEffect starts ends m s (engineFault n r s) := by
  rcases eq_or_ne m n with rfl | other
  · refine .steps (.inl fetch) ?_ rfl (staysUp_of_blk rfl)
    rw [getCh_engineFault_same]
    exact .of_not_move rfl rfl (by simp) id (by simp)
  · exact channelEffect_setCh other

theorem effect_channel {i : Instr} {s t : State} (h : Effect i s t) (m : Chan) :
    ChannelEffect (EnablesChannel m i) (CompletesChannel m i) m s t := by
  cases h with
  | engineFaults _ n _ _ _ fetch => exact channelEffect_engineFault n m s _ fetch
  | fetchesWord n j _ w fetch =>
    rcases eq_or_ne m n with rfl | other
    · refine .steps (.inl fetch) ?_ rfl (staysUp_of_blk rfl)
      rw [getCh_setCh_same]
      exact .of_not_move rfl rfl (by simp [fetch]) id (by simp [fetch])
    · exact channelEffect_setCh other
  | latches _ n _ d a _ _ fetch _ pointer adm apart =>
    rcases eq_or_ne m n with rfl | other
    · exact .latches d a fetch pointer adm apart (getCh_latchEffect_same s m d)
        (fun _ other => getCh_latchEffect_ne s other d) rfl (staysUp_of_blk rfl)
    · exact channelEffect_setCh other
  | moves _ n k _ src dst left v _ moving _ le =>
    have busy := getBusy_engineWrite s dst.toNat v m
    have up : StaysUp m s (engineWrite s dst.toNat v) := staysUp_of_blk (engineWrite_blk ..)
    rcases eq_or_ne m n with rfl | other
    · obtain ⟨move, _, source, dest, toGo⟩ := moving
      refine .steps (.inr move) ?_ busy ⟨up.1, up.2, up.3⟩
      rw [getCh_advance_same, getCh_engineWrite]
      exact progress_advanced move source dest toGo le
    · exact .keeps (by rw [getCh_advance_ne _ other, getCh_engineWrite]) busy ⟨up.1, up.2, up.3⟩
  | links _ n a _ _ _ fin =>
    rcases eq_or_ne m n with rfl | other
    · refine .steps (.inr fin.1) ?_ rfl (staysUp_of_blk rfl)
      rw [getCh_linkEffect_same]
      exact .of_not_move rfl rfl (by simp) (by simp) (by simp)
    · exact channelEffect_setCh other
  | completes _ n _ which fin =>
    rcases eq_or_ne m n with rfl | other
    · exact .completes which fin.1 (getCh_completeEffect_same s m) (getBusy_completeEffect_same s m)
    · exact .keeps (getCh_completeEffect_ne s other) (getBusy_completeEffect_ne s other) ⟨id, id, id⟩
  | drains j =>
    obtain ⟨_, ch, blk, _⟩ := drainEffect_fields j s
    exact channelEffect_of_eq ch blk
  | enables n _ use idle addr dom =>
    exact channelEffect_enable n m rfl rfl (fun same => .inl (same ▸ rfl)) use idle addr dom
  | starts x n _ _ _ use idle addr dom =>
    exact channelEffect_enable n m rfl rfl (fun same => .inr ⟨x, same ▸ rfl⟩) use idle addr dom
  | setsAddr n a _ _ idle => exact channelEffect_address n m a rfl rfl (staysUp_of_blk rfl) idle
  | readies r n _ _ _ _ _ idle =>
    have up := staysUp_setSec n m s
    exact channelEffect_address n m _ rfl rfl ⟨up.1, up.2, up.3⟩ idle
  | setsDomain n => exact .keeps rfl rfl (staysUp_setSec n m s)
  | resets _ idle => exact channelEffect_reset idle (freshChannels_of_eq rfl rfl) m
  | splits _ _ idle => exact channelEffect_reset idle (freshChannels_of_eq rfl rfl) m
  | autogates => exact .keeps rfl rfl ⟨id, id, id⟩
  | releases => exact .keeps rfl rfl ⟨id, fun _ => rfl, id⟩
  | clocks => exact .keeps rfl rfl ⟨fun _ => rfl, id, id⟩
  | storesFresh A => exact channelEffect_of_eq (storeDesc_ch s A freshDesc) (storeDesc_blk s A freshDesc)
  | binds A src dst =>
    exact channelEffect_of_eq (storeDesc_ch s A (memToMemDesc s.config src dst))
      (storeDesc_blk s A (memToMemDesc s.config src dst))
  | _ => exact channelEffect_of_eq rfl rfl

theorem exec_channel {i : Instr} {s t : State} (h : exec i s = .next t) (m : Chan) :
    ChannelEffect (EnablesChannel m i) (CompletesChannel m i) m s t := effect_channel (exec_effect h) m

/-- Of the CPU steps left of an operation only the enable of `start` takes a channel out of Idle, and none completes. -/
theorem runRest_channel {r : Rest} {s t : State} (h : runRest r s = .next t) (m : Chan) :
    ChannelEffect (∃ x, r = .startEnable x m) False m s t := by
  obtain ⟨_, _, _, _, rfl⟩ | ⟨_, _, _, _, _, rfl⟩ | ⟨_, n, _, _, idle, rfl⟩ | ⟨x, n, rfl, use, idle, addr, dom, rfl⟩ |
    ⟨_, _, _, _, _, ⟨_, rfl⟩ | ⟨_, rfl | ⟨_, rfl⟩⟩⟩ | ⟨_, _, _, rfl⟩ | ⟨_, rfl⟩ | ⟨_, rfl⟩ | ⟨_, _, _, rfl⟩ :=
      runRest_next h
  · exact channelEffect_of_eq rfl rfl
  · exact channelEffect_of_eq rfl rfl
  · exact channelEffect_address n m _ rfl rfl (staysUp_of_blk rfl) idle
  · exact channelEffect_enable n m rfl rfl (fun same => ⟨x, same ▸ rfl⟩) use idle addr dom
  · exact channelEffect_of_eq rfl rfl
  · exact channelEffect_of_eq rfl rfl
  · exact channelEffect_of_eq rfl rfl
  · exact channelEffect_of_eq rfl rfl
  · exact .keeps rfl rfl ⟨id, fun _ => rfl, id⟩
  · exact .keeps rfl rfl ⟨fun _ => rfl, id, id⟩
  · exact .keeps rfl rfl ⟨id, id, id⟩

theorem firstPiece_channel {s u : State} {rs : List Rest} (h : FirstPiece s u rs) (m : Chan) :
    ChannelEffect starts ends m s (pushRest u rs) := by
  cases h with
  | domain _ n =>
    have up := staysUp_setSec n m s
    exact .keeps rfl rfl ⟨up.1, up.2, up.3⟩
  | reset idle => exact channelEffect_reset idle (freshChannels_of_eq rfl rfl) m
  | _ => exact channelEffect_of_eq rfl rfl

end Sys2Proof.Machine
end

section
/-! What a step does to every channel, and the obligations on steps (43_engine.md R176, R190; 20_memory.md R84). -/

namespace Sys2Proof.Machine

open Sys2Proof.Safety

/-- Everything a step can do once the turn is taken off the schedule. -/
inductive StepEffect : State → State → Prop
  | cpuOnly (s : State) (c : Cpu) (doing : c.doing = s.cpu.doing) : StepEffect s { s with cpu := c }
  | instr {s t : State} (i : Instr) (ops : List CpuOp) (h : exec i { s with cpu := { s.cpu with prog := ops } } = .next t) :
      StepEffect s t
  | misaligned (n : Chan) (s : State) (fetch : (getCh s n).phase = .fetch) :
      StepEffect s (engineFault n .misalignedDescriptor s)
  | rest {s t : State} (r : Rest) (rs : List Rest) (doing : s.cpu.doing = r :: rs)
      (h : runRest r { s with cpu := { s.cpu with doing := rs } } = .next t) : StepEffect s t
  | piece {s u : State} (rs : List Rest) (ops : List CpuOp)
      (h : FirstPiece { s with cpu := { s.cpu with prog := ops } } u rs) : StepEffect s (pushRest u rs)
  | gate (g : GateField) (ops : List CpuOp) (s : State) :
      StepEffect s (setGate { s with cpu := { s.cpu with prog := ops } } g)

theorem cpuInstr_stepEffect {i : Instr} {ops : List CpuOp} {s t : State}
    (h : cpuInstr i { s with cpu := { s.cpu with prog := ops } } = .next t) : StepEffect s t := by
  obtain ⟨_, h⟩ | ⟨_, rfl⟩ | ⟨_, rfl⟩ | ⟨_, _, piece, rfl⟩ := cpuInstr_next h
  · exact .instr i ops h
  · exact .cpuOnly s _ rfl
  · exact .cpuOnly s _ rfl
  · exact .piece _ ops piece

theorem cpuOp_stepEffect {op : CpuOp} {pick : Nat} {ops : List CpuOp} {s t : State}
    (h : cpuOp op pick { s with cpu := { s.cpu with prog := ops } } = .next t) : StepEffect s t := by
  obtain ⟨_, h⟩ | ⟨i, _, h⟩ | ⟨_, _, h⟩ | ⟨a, w, v, h⟩ | ⟨g, _, _, rfl⟩ | ⟨_, rfl⟩ := cpuOp_next h
  · exact cpuInstr_stepEffect h
  · exact .instr i ops h
  · obtain ⟨_, _, _, rfl⟩ := cpuLoad_next h
    exact .cpuOnly s _ rfl
  · obtain ⟨_, rfl⟩ := cpuStore_next h
    exact .cpuOnly s _ rfl
  · exact .gate g ops s
  · exact .cpuOnly s _ rfl

theorem step_effect {s t : State} (h : step s = .next t) : StepEffect (afterTurn s) t := by
  obtain rfl | ⟨i, _, _, h⟩ | ⟨n, _, fetch, _, rfl⟩ | ⟨_, _, r, rs, doing, h⟩ | ⟨_, _, _, _, ops, _, _, h⟩ :=
    takeTurn_cases h
  · exact .cpuOnly _ _ rfl
  · exact .instr i _ h
  · exact .misaligned n _ fetch
  · exact .rest r rs doing h
  · exact cpuOp_stepEffect h

theorem setGate_fields (s : State) (g : GateField) :
    (setGate s g).config = s.config ∧ (setGate s g).ch = s.ch ∧ (setGate s g).mem = s.mem ∧ (setGate s g).cpu = s.cpu ∧
      (setGate s g).blk.busy = s.blk.busy ∧ (setGate s g).blk.sec = s.blk.sec ∧
      (setGate s g).blk.clkOn = s.blk.clkOn ∧ (setGate s g).blk.inReset = s.blk.inReset ∧
      (setGate s g).blk.splitDone = s.blk.splitDone := by
  cases g <;> exact ⟨rfl, rfl, rfl, rfl, rfl, rfl, rfl, rfl, rfl⟩

theorem stepEffect_channel {s t : State} (h : StepEffect s t) (n : Chan) : ChannelEffect True True n s t := by
  have anyway {p : Prop} (_ : p) : True := trivial
  cases h with
  | cpuOnly => exact channelEffect_of_eq rfl rfl
  | instr _ _ h => exact (exec_channel h n).congr rfl rfl rfl anyway anyway
  | misaligned m _ fetch => exact channelEffect_engineFault m n s _ fetch
  | rest _ _ _ h => exact (runRest_channel h n).congr rfl rfl rfl anyway anyway
  | piece _ _ h => exact (firstPiece_channel h n).congr rfl rfl rfl id id
  | gate g => cases g <;> exact .keeps rfl rfl ⟨id, id, id⟩

theorem step_channel {s t : State} (h : step s = .next t) (n : Chan) : ChannelEffect True True n s t := by
  obtain ⟨config, ch, blk, _⟩ := afterTurn_fields s
  exact (stepEffect_channel (step_effect h) n).congr ch blk config id id

/-! The block reset of `split` is over only when the channels have been reset (10_state.md R53, 45_split.md R220). -/

theorem exec_resetDone {i : Instr} {s t : State} (h : exec i s = .next t) :
    resetDone t = resetDone s ∨ FreshChannels t := by
  cases exec_effect h with
  | splits => exact .inr (freshChannels_of_eq rfl rfl)
  | moves => exact .inl (resetDone_congr (congrArg Block.splitDone (engineWrite_blk ..)) (engineWrite_doing ..))
  | drains j =>
    obtain ⟨_, _, blk, _, _, _, _, _, doing, _⟩ := drainEffect_fields j s
    exact .inl (resetDone_congr (congrArg Block.splitDone blk) doing)
  | polls => exact .inl (by simp [resetDone])
  | storesFresh A =>
    exact .inl (resetDone_congr (congrArg Block.splitDone (storeDesc_blk s A freshDesc))
      (storeDesc_cpu_doing s A freshDesc))
  | binds A src dst =>
    exact .inl (resetDone_congr (congrArg Block.splitDone (storeDesc_blk s A (memToMemDesc s.config src dst)))
      (storeDesc_cpu_doing s A (memToMemDesc s.config src dst)))
  | _ => exact .inl rfl

theorem resetDone_pushRest {s : State} {rs : List Rest} (h : Rest.gates ∉ rs) :
    resetDone (pushRest s rs) = resetDone s := by
  simp [resetDone, h]

/-- Only the last step of `split` sets `split_done`. -/
theorem runRest_resetDone {r : Rest} {s t : State} (h : runRest r s = .next t) :
    resetDone t = resetDone s ∨ r = .gates := by
  obtain ⟨_, _, _, _, rfl⟩ | ⟨_, _, _, _, _, rfl⟩ | ⟨_, _, _, _, _, rfl⟩ | ⟨_, _, _, _, _, _, _, rfl⟩ |
    ⟨_, _, _, _, _, ⟨_, rfl⟩ | ⟨_, rfl | ⟨_, rfl⟩⟩⟩ | ⟨_, _, _, rfl⟩ | ⟨_, rfl⟩ | ⟨_, rfl⟩ | ⟨rfl, _, _, rfl⟩ :=
      runRest_next h
  · exact .inl rfl
  · exact .inl rfl
  · exact .inl rfl
  · exact .inl rfl
  · exact .inl (resetDone_pushRest (by simp))
  · exact .inl rfl
  · exact .inl (resetDone_pushRest (by simp))
  · exact .inl rfl
  · exact .inl rfl
  · exact .inl rfl
  · exact .inr rfl

theorem firstPiece_resetDone {s u : State} {rs : List Rest} (h : FirstPiece s u rs) :
    resetDone (pushRest u rs) = resetDone s ∨ FreshChannels (pushRest u rs) := by
  cases h with
  | reset => exact .inr (freshChannels_of_eq rfl rfl)
  | _ => exact .inl (resetDone_pushRest (by simp [middleRest]))

theorem stepEffect_resetDone {s t : State} (h : StepEffect s t) (done : resetDone t = true) :
    resetDone s = true ∨ FreshChannels t := by
  cases h with
  | cpuOnly _ c doing =>
    have same : resetDone { s with cpu := c } = resetDone s := resetDone_congr rfl doing
    exact .inl (same.symm.trans done)
  | instr _ _ h => exact (exec_resetDone h).imp_left fun same => same.symm.trans done
  | misaligned => exact .inl done
  | rest r rs doing h =>
    rw [resetDone_eq_true, doing]
    rcases runRest_resetDone h with same | rfl
    · rw [same, resetDone_eq_true] at done
      exact .inl (done.imp_right (List.mem_cons_of_mem r))
    · exact .inl (.inr List.mem_cons_self)
  | piece _ _ h => exact (firstPiece_resetDone h).imp_left fun same => same.symm.trans done
  | gate g ops =>
    obtain ⟨_, _, _, cpu, _, _, _, _, split⟩ := setGate_fields { s with cpu := { s.cpu with prog := ops } } g
    exact .inl ((resetDone_congr split (congrArg Cpu.doing cpu)).symm.trans done)

theorem step_resetDone {s t : State} (h : step s = .next t) (done : resetDone t = true) :
    resetDone s = true ∨ FreshChannels t := by
  obtain ⟨_, _, blk, _, cpu, _⟩ := afterTurn_fields s
  have same : resetDone (afterTurn s) = resetDone s := resetDone_congr (congrArg Block.splitDone blk) (congrArg Cpu.doing cpu)
  exact same ▸ stepEffect_resetDone (step_effect h) done

/-- Settles O53: every channel makes one of the moves of `ChannelEffect`, each of which keeps its invariant; and a channel that
enters Move has latched a descriptor apart from what the others have under way. -/
theorem stepKeepsTheChannelInvariant : Obligations.StepKeepsTheChannelInvariant := fun _ _ h =>
  ⟨fun inv n => (step_channel h n).channelInv_of (step_config h) (step_resetDone h) (inv n),
    sharingInv_of_channelEffects (step_channel h)⟩

/-- Settles O56: of the moves of a channel none but `keeps` is open to a faulted one. -/
theorem faultIsAbsorbing : Obligations.FaultIsAbsorbing := by
  intro s t n r faulted h
  cases step_channel h n with
  | keeps ch busy => exact ⟨ch ▸ faulted, ch ▸ rfl, busy⟩
  | steps engine => simp [faulted] at engine
  | latches _ _ fetch => simp [faulted] at fetch
  | completes _ move => simp [faulted] at move
  | enables _ idle => simp [faulted] at idle
  | addresses idle => simp [faulted] at idle
  | resets idle => simp [faulted] at idle

/-- Settles O55: by the moves of a channel, each of which names the steps that make it. -/
theorem busyChangesOnlyByEnableAndCompletion : Obligations.BusyChangesOnlyByEnableAndCompletion := by
  refine ⟨fun i s t n inv h => ?_, fun q s t n inv h => ?_⟩
  · exact (exec_channel h n).flag_changes (inv n)
  · obtain ⟨starts, sets, clears⟩ := (runRest_channel h n).flag_changes (inv n)
    exact ⟨starts, sets, fun busy => Classical.byContradiction (clears busy)⟩

end Sys2Proof.Machine
end

section
/-! What changes a byte of memory (43_engine.md R192; 20_memory.md R72 to R75): an engine's move inside its destination, or a
pending store over the byte that drains. -/

namespace Sys2Proof.Machine

open Sys2Proof.Safety

/-- A pending CPU store covers the byte at `x`. -/
abbrev PendingOver (s : State) (x : Nat) : Prop := ∃ p ∈ s.cpu.sb, p.addr ≤ x ∧ x < p.addr + p.bytes.length

theorem memRead_memWriteBytes_outside {m : Memory} {a x : Nat} {bs : List Byte} (h : ¬ (a ≤ x ∧ x < a + bs.length)) :
    memRead (memWriteBytes m a bs) x = memRead m x := by
  rw [memRead_memWriteBytes, dif_neg h]

theorem pendingOver_of_forwarded {s : State} {x : Nat} {v : Byte} (h : forwarded s.cpu.sb x = some v) :
    PendingOver s x := by
  simp only [forwarded, Option.map_eq_some_iff] at h
  obtain ⟨p, found, _⟩ := h
  have covers := List.find?_some found
  simp only [storeCovers, Bool.and_eq_true, decide_eq_true_eq] at covers
  exact ⟨p, List.mem_reverse.1 (List.mem_of_find?_eq_some found), covers⟩

theorem pendingOver_of_fence {s : State} {x : Nat} (changed : memRead (fenceEffect s).mem x ≠ memRead s.mem x) :
    PendingOver s x := by
  rw [memRead_fenceEffect, cpuView] at changed
  cases forward : forwarded s.cpu.sb x with
  | none => simp [forward] at changed
  | some v => exact pendingOver_of_forwarded forward

theorem pendingOver_of_drain {s : State} {j x : Nat} (changed : memRead (drainEffect j s).mem x ≠ memRead s.mem x) :
    PendingOver s x := by
  cases here : s.cpu.sb[j]? with
  | none => simp [drainEffect, here] at changed
  | some p =>
    rw [drainEffect_of_getElem? here] at changed
    exact ⟨p, List.mem_of_getElem? here, by_contra fun outside => changed (memRead_memWriteBytes_outside outside)⟩

/-- Of all effects only a move, a drain and a fence write memory; a store of the CPU stays pending (20_memory.md R72). -/
theorem effect_memory {i : Instr} {s t : State} (h : Effect i s t) {x : Nat}
    (changed : memRead t.mem x ≠ memRead s.mem x) :
    (∃ n src dst left, Moving n s src dst left ∧ dst.toNat ≤ x ∧ x < dst.toNat + left.toNat ∧
      ((∃ k, i = .engMove n k) ∨ ∃ ws wd sb db, i = m2mInstr n ws wd sb db)) ∨
    (PendingOver s x ∧
      ((∃ j, i = .drain j) ∨ i = .fence ∨ (∃ y n, i = .transferStart y n) ∨ (∃ y n, i = .transferWait y n) ∨
        ∃ y n k, i = .transferWaitBounded y n k)) := by
  have same {u : State} (h : u.mem = s.mem) : memRead u.mem x = memRead s.mem x := by rw [h]
  cases h with
  | moves _ n k _ src dst left v which moving _ le _ _ read =>
    have length := (memReadBytes_eq_some.1 read).1
    rw [advance_mem, engineWrite_mem] at changed
    have inside := by_contra fun outside => changed (memRead_memWriteBytes_outside (bs := v) outside)
    exact .inl ⟨n, src, dst, left, moving, inside.1, by omega, which.imp_left fun h => ⟨k, h⟩⟩
  | drains j => exact .inr ⟨pendingOver_of_drain changed, .inl ⟨j, rfl⟩⟩
  | fences => exact .inr ⟨pendingOver_of_fence changed, .inr (.inl rfl)⟩
  | starts y n => exact .inr ⟨pendingOver_of_fence changed, .inr (.inr (.inl ⟨y, n, rfl⟩))⟩
  | waitEnds _ y n _ _ _ _ which =>
    refine .inr ⟨pendingOver_of_fence changed, .inr (.inr (.inr ?_))⟩
    exact which.imp (fun h => ⟨y, n, h⟩) fun ⟨k, h⟩ => ⟨y, n, k, h⟩
  | storesFresh A => exact (changed (same (storeDesc_mem s A freshDesc))).elim
  | binds A src dst => exact (changed (same (storeDesc_mem s A (memToMemDesc s.config src dst)))).elim
  | _ => exact (changed (same rfl)).elim

theorem runRest_memory {q : Rest} {s t : State} (h : runRest q s = .next t) {x : Nat}
    (changed : memRead t.mem x ≠ memRead s.mem x) : PendingOver s x ∧ ∃ y n, q = .waitEnd y n := by
  have same {u : State} (h : u.mem = s.mem) : memRead u.mem x = memRead s.mem x := by rw [h]
  obtain ⟨_, _, _, _, rfl⟩ | ⟨_, _, _, _, _, rfl⟩ | ⟨_, _, _, _, _, rfl⟩ | ⟨_, _, _, _, _, _, _, rfl⟩ |
    ⟨_, _, _, _, _, ⟨_, rfl⟩ | ⟨_, rfl | ⟨_, rfl⟩⟩⟩ | ⟨y, n, rfl, rfl⟩ | ⟨_, rfl⟩ | ⟨_, rfl⟩ | ⟨_, _, _, rfl⟩ :=
      runRest_next h
  case inr.inr.inr.inr.inr.inl => exact ⟨pendingOver_of_fence changed, y, n, rfl⟩
  all_goals exact (changed (same rfl)).elim

/-- Settles O58: an instruction by its effects, and a CPU step left of an operation by the cases of `runRest_next`. -/
theorem memoryChangesOnlyByMoveOrDrain : Obligations.MemoryChangesOnlyByMoveOrDrain :=
  ⟨fun _ _ _ _ h changed => effect_memory (exec_effect h) changed, fun _ _ _ _ h changed => runRest_memory h changed⟩

end Sys2Proof.Machine
end

section
/-! Fetch and decode (43_engine.md R177 to R180): what each verdict on `dptr` makes of a fetch, and when a decode latches. -/

namespace Sys2Proof.Machine

open Sys2Proof.Safety

section

variable {n : Chan} {i : Fin 6} {s : State} {a : Word}

theorem judgeFetch_of_unmapped (pointer : (getCh s n).dptr = .of a) (aligned : a.toNat % 4 = 0)
    (outside : 2 ^ 32 < a.toNat + 24 ∨ rangeRam s.config a.toNat 24 = false) :
    judgeFetch n s = .refuse .unmappedAccess := by
  simp only [judgeFetch, pointer, aligned, ne_eq, not_true_eq_false, if_false]
  rcases outside with high | noRam
  · rw [if_pos high]
  · rw [if_pos noRam, ite_self]

theorem judgeFetch_of_shared (pointer : (getCh s n).dptr = .of a) (aligned : a.toNat % 4 = 0)
    (fits : a.toNat + 24 ≤ 2 ^ 32) (ram : rangeRam s.config a.toNat 24 = true)
    (shared : sharesWritten n [(a.toNat, 24)] [] s = true) : judgeFetch n s = .refuse .ownershipViolation := by
  simp only [judgeFetch, pointer, aligned, ne_eq, not_true_eq_false, if_false, not_lt.2 fits, ram, Bool.true_eq_false,
    shared, if_true]

theorem fetchGuard_eq_none (fetch : (getCh s n).phase = .fetch) (alive : Live n s)
    (unread : fwGet (getCh s n).fw i = none) :
    both (engineAt n .fetch s) (require (fwGet (getCh s n).fw i).isNone .notEnabled) = none :=
  both_eq_none.2 ⟨engineAt_eq_none.2 ⟨fetch, alive⟩, require_eq_none.2 (by rw [unread]; rfl)⟩

theorem exec_engFetch_of_refuse (fetch : (getCh s n).phase = .fetch) (alive : Live n s)
    (unread : fwGet (getCh s n).fw i = none) {r : Refusal} (judged : judgeFetch n s = .refuse r) :
    exec (.engFetch n i) s = .refused r := by
  rw [exec, execEngFetch, fetchGuard_eq_none fetch alive unread, guarded_none, judged]

theorem exec_engFetch_of_misaligned (fetch : (getCh s n).phase = .fetch) (alive : Live n s)
    (unread : fwGet (getCh s n).fw i = none) (judged : judgeFetch n s = .misaligned) :
    exec (.engFetch n i) s = .next (engineFault n .misalignedDescriptor s) := by
  rw [exec, execEngFetch, fetchGuard_eq_none fetch alive unread, guarded_none, judged]

theorem exec_engFetch_of_fetching (fetching : Fetching n s a) (unread : fwGet (getCh s n).fw i = none) {w : Word}
    (read : memReadWord s.mem (a.toNat + 4 * i.val) = some w) :
    exec (.engFetch n i) s = .next (setCh s n { getCh s n with fw := fwSet (getCh s n).fw i w }) := by
  rw [exec, execEngFetch, fetchGuard_eq_none fetching.1 fetching.2.1 unread, guarded_none,
    judgeFetch_of_fetching fetching]
  simp only [read]

end

theorem toNat_append_byte {k : Nat} (w : BitVec k) (b : Byte) : (w ++ b).toNat = b.toNat + 256 * w.toNat := by
  rw [BitVec.toNat_append, ← Nat.shiftLeft_add_eq_or_of_lt b.isLt, Nat.shiftLeft_eq, Nat.add_comm, Nat.mul_comm]

/-- Four bytes of memory as a word, the byte at the lowest address the least significant (20_memory.md R62). -/
theorem memReadWord_of_four {m : Memory} {a : Nat} {b0 b1 b2 b3 : Byte} (h0 : memRead m a = .of b0)
    (h1 : memRead m (a + 1) = .of b1) (h2 : memRead m (a + 2) = .of b2) (h3 : memRead m (a + 3) = .of b3) :
    memReadWord m a = some (b3 ++ b2 ++ b1 ++ b0) := by
  have word : leWord [b0, b1, b2, b3] = b3 ++ b2 ++ b1 ++ b0 := by
    refine BitVec.eq_of_toNat_eq ?_
    have := leValue_lt [b0, b1, b2, b3]
    simp only [toNat_append_byte, leWord, leValue, BitVec.toNat_ofNat, List.length_cons, List.length_nil] at this ⊢
    omega
  simp only [memReadWord, memReadBytes, h0, h1, h2, h3, Nat.add_assoc, Nat.reduceAdd, Option.map_some, word]

/-- Settles O37: the verdict on a good place is to fetch, and on a shared one to refuse. -/
theorem fetchLatchesOneWord : Obligations.FetchLatchesOneWord := by
  intro s n i a unread
  refine ⟨fun b0 b1 b2 b3 fetching h0 h1 h2 h3 => ?_, fun fetch alive pointer aligned fits ram shared => ?_⟩
  · refine ⟨_, exec_engFetch_of_fetching fetching unread (memReadWord_of_four h0 h1 h2 h3), ?_, fun j other => ?_, ?_,
      fun m other => getCh_setCh_ne s _ other, rfl⟩
    · rw [getCh_setCh_same, fwGet_fwSet, if_pos rfl]
    · rw [getCh_setCh_same, fwGet_fwSet, if_neg other]
    · rw [getCh_setCh_same]
  · refine exec_engFetch_of_refuse fetch alive unread (judgeFetch_of_shared pointer aligned fits ram ?_)
    obtain ⟨m, x, other, inside, writes⟩ := shared
    exact sharesWritten_eq_true.2 ⟨m, x, other, .inr ⟨⟨_, List.mem_singleton_self _, inside⟩, writes⟩⟩

/-- Settles O38: a misaligned place faults the engine before anything else is looked at, and an aligned one outside memory is
refused. -/
theorem misalignedFetchFaults : Obligations.MisalignedFetchFaults := by
  intro s n i a fetch alive unread pointer
  refine ⟨fun misaligned => ?_, fun aligned outside =>
    exec_engFetch_of_refuse fetch alive unread (judgeFetch_of_unmapped pointer aligned outside)⟩
  exact ⟨_, exec_engFetch_of_misaligned fetch alive unread (judgeFetch_eq_misaligned.2 ⟨a, pointer, misaligned⟩),
    getCh_engineFault_same s n _, fun m other => getCh_engineFault_ne s other _, rfl⟩

/-! The decode. -/

section

variable {n : Chan} {s : State} {a : Word} {d : Desc}

/-- The fetch buffer that holds the six words of `d`. -/
abbrev fullFetch (d : Desc) : FetchBuf :=
  ⟨some d.config, some d.srcAddr, some d.dstAddr, some d.length, some d.param, some d.nextAddr⟩

theorem latchDesc_of_admitted (pointer : (getCh s n).dptr = .of a) (adm : admitted s.config.layout d a.toNat = true)
    (apart : ¬ Shares n d a.toNat s) : latchDesc n d s = .next (latchEffect n d s) :=
  latchDesc_eq_next.2 ⟨a, pointer, adm, Bool.eq_false_iff.2 (mt descShares_eq_true.1 apart), rfl⟩

theorem exec_engDecode_of_full (fetch : (getCh s n).phase = .fetch) (alive : Live n s)
    (full : (getCh s n).fw = fullFetch d) : exec (.engDecode n) s = latchDesc n d s := by
  rw [exec, execEngDecode, engineAt_eq_none.2 ⟨fetch, alive⟩, guarded_none, full]
  rfl

theorem fwDesc_eq_some {f : FetchBuf} : fwDesc f = some d ↔ f = fullFetch d := by
  constructor
  · intro h
    obtain ⟨_ | _, _ | _, _ | _, _ | _, _ | _, _ | _⟩ := f
    all_goals cases h
    rfl
  · rintro rfl
    rfl

theorem fwGet_fullFetch (d : Desc) (i : Fin 6) : fwGet (fullFetch d) i ≠ none := by
  fin_cases i <;> exact Option.some_ne_none _

theorem fwDesc_eq_none {f : FetchBuf} (h : ∃ i, fwGet f i = none) : fwDesc f = none := by
  obtain ⟨i, unread⟩ := h
  refine Option.eq_none_iff_forall_ne_some.2 fun d full => ?_
  rw [fwDesc_eq_some.1 full] at unread
  exact fwGet_fullFetch d i unread

end

/-- Settles O39: a full buffer leaves the decision to `latchDesc`, and a buffer that is not full is no decode. -/
theorem decodeLatchesAdmittedDescriptors : Obligations.DecodeLatchesAdmittedDescriptors := by
  intro s n a d fetch alive pointer
  refine ⟨fun full => ⟨fun adm apart => ?_, fun notAdm => ?_, fun adm shared => ?_⟩, fun unread => ?_⟩
  · exact ⟨_, (exec_engDecode_of_full fetch alive full).trans (latchDesc_of_admitted pointer adm apart),
      getCh_latchEffect_same s n d, fun m other => getCh_latchEffect_ne s other d, rfl⟩
  · simp [exec_engDecode_of_full fetch alive full, latchDesc, pointer, notAdm]
  · simp [exec_engDecode_of_full fetch alive full, latchDesc, pointer, adm, descShares_eq_true.2 shared]
  · rw [exec, execEngDecode, engineAt_eq_none.2 ⟨fetch, alive⟩, guarded_none, fwDesc_eq_none unread]

end Sys2Proof.Machine
end

section
/-! The move (43_engine.md R183): what it leaves, when it is refused, and that chunk sizes do not matter (70_reset_and_hazards.md
R284). -/

namespace Sys2Proof.Machine

open Sys2Proof.Safety

section

variable {n : Chan} {s : State} {src dst left : Word} {k : Nat} {v : List Byte}

/-- Bytes read from `src` and written to `dst`: the byte at `dst + i` is the one that was at `src + i`. -/
theorem memRead_memWriteBytes_copied {m : Memory} {a b : Nat} (read : memReadBytes m a k = some v) {i : Nat} (hi : i < k)
    (m' : Memory) : memRead (memWriteBytes m' b v) (b + i) = memRead m (a + i) := by
  obtain ⟨rfl, bytes⟩ := memReadBytes_eq_some.1 read
  rw [bytes i hi, memRead_memWriteBytes, dif_pos ⟨Nat.le_add_right b i, Nat.add_lt_add_left hi b⟩]
  simp only [Nat.add_sub_cancel_left]

/-- The state after `v` is moved. -/
abbrev movedState (n : Chan) (src dst left : Word) (k : Nat) (v : List Byte) (s : State) : State :=
  advance n src dst left k (engineWrite s dst.toNat v)

theorem getCh_movedState : getCh (movedState n src dst left k v s) n = advanced (getCh s n) src dst left k := by
  rw [getCh_advance_same, getCh_engineWrite]

theorem getCh_movedState_ne {m : Chan} (other : m ≠ n) : getCh (movedState n src dst left k v s) m = getCh s m := by
  rw [getCh_advance_ne _ other, getCh_engineWrite]

/-- A move changes the channels, memory and the stale sets, and nothing else. -/
theorem movedState_frame (n : Chan) (src dst left : Word) (k : Nat) (v : List Byte) (s : State) :
    movedState n src dst left k v s =
      { s with
        ch := (movedState n src dst left k v s).ch, mem := (movedState n src dst left k v s).mem
        cpu := { s.cpu with stale := (movedState n src dst left k v s).cpu.stale } } := by
  obtain ⟨mem, stale, written⟩ : ∃ mem stale, engineWrite s dst.toNat v =
      { s with mem := mem, cpu := { s.cpu with stale := stale } } := ⟨_, _, engineWrite_eq s dst.toNat v⟩
  rw [movedState, written]
  rfl

theorem memRead_movedState_copied (read : memReadBytes s.mem src.toNat k = some v) {i : Nat} (hi : i < k) :
    memRead (movedState n src dst left k v s).mem (dst.toNat + i) = memRead s.mem (src.toNat + i) := by
  rw [advance_mem, engineWrite_mem, memRead_memWriteBytes_copied read hi]

theorem memRead_movedState_outside (read : memReadBytes s.mem src.toNat k = some v) {x : Nat}
    (outside : ¬ (dst.toNat ≤ x ∧ x < dst.toNat + k)) :
    memRead (movedState n src dst left k v s).mem x = memRead s.mem x := by
  obtain ⟨rfl, -⟩ := memReadBytes_eq_some.1 read
  rw [advance_mem, engineWrite_mem, memRead_memWriteBytes_outside outside]

/-- The registers after a move, counted in natural numbers. -/
theorem advanced_ofNat (c : Channel) (le : k ≤ left.toNat) :
    advanced c src dst left k = { c with
      curSrc := .of (BitVec.ofNat 32 (src.toNat + k)), curDst := .of (BitVec.ofNat 32 (dst.toNat + k))
      bcntLeft := .of (BitVec.ofNat 32 (left.toNat - k)) } := by
  have remaining : left - BitVec.ofNat 32 k = BitVec.ofNat 32 (left.toNat - k) := by
    refine BitVec.eq_of_toNat_eq ?_
    rw [toNat_sub_ofNat le, toNat_ofNat_word (by omega)]
  simp only [advanced, remaining, BitVec.ofNat_add, BitVec.ofNat_toNat, BitVec.setWidth_eq]

/-! Which of its outcomes a move has. -/

theorem exec_engMove_of_chunk (moving : Moving n s src dst left) (pos : 1 ≤ k) (le : k ≤ left.toNat) :
    exec (.engMove n k) s = moveBytes n left k s := by
  obtain ⟨move, alive, _, _, toGo⟩ := moving
  rw [exec, execEngMove, engineAt_eq_none.2 ⟨move, alive⟩, guarded_none, toGo, readVal_of, if_pos ⟨pos, le⟩]

theorem exec_engMove_of_no_chunk (moving : Moving n s src dst left) (h : k = 0 ∨ left.toNat < k) :
    exec (.engMove n k) s = .fault .notEnabled := by
  obtain ⟨move, alive, _, _, toGo⟩ := moving
  rw [exec, execEngMove, engineAt_eq_none.2 ⟨move, alive⟩, guarded_none, toGo, readVal_of, if_neg (by omega)]

theorem moveBytes_of_read (moving : Moving n s src dst left) (srcRam : rangeRam s.config src.toNat k = true)
    (dstRam : rangeRam s.config dst.toNat k = true) (read : memReadBytes s.mem src.toNat k = some v) :
    moveBytes n left k s = .next (movedState n src dst left k v s) := by
  obtain ⟨_, _, source, dest, _⟩ := moving
  exact moveBytes_eq_next.2 ⟨src, dst, v, source, dest, srcRam, dstRam, read, rfl⟩

theorem exec_engMove_of_read (moving : Moving n s src dst left) (pos : 1 ≤ k) (le : k ≤ left.toNat)
    (srcRam : rangeRam s.config src.toNat k = true) (dstRam : rangeRam s.config dst.toNat k = true)
    (read : memReadBytes s.mem src.toNat k = some v) :
    exec (.engMove n k) s = .next (movedState n src dst left k v s) := by
  rw [exec_engMove_of_chunk moving pos le, moveBytes_of_read moving srcRam dstRam read]

theorem moveBytes_of_unmapped (moving : Moving n s src dst left)
    (outside : rangeRam s.config src.toNat k = false ∨ rangeRam s.config dst.toNat k = false) :
    moveBytes n left k s = .refused .unmappedAccess := by
  obtain ⟨_, _, source, dest, _⟩ := moving
  rw [moveBytes, source, readVal_of, dest, readVal_of, if_neg]
  rcases outside with h | h <;> simp [h]

theorem moveBytes_of_unset (moving : Moving n s src dst left) (srcRam : rangeRam s.config src.toNat k = true)
    (dstRam : rangeRam s.config dst.toNat k = true) (unset : memReadBytes s.mem src.toNat k = none) :
    moveBytes n left k s = .refused .unsetState := by
  obtain ⟨_, _, source, dest, _⟩ := moving
  simp only [moveBytes, source, readVal_of, dest, srcRam, dstRam, Bool.and_self, if_true, unset]

end

/-- Settles O40: the chunk is read from the state before, so the move is `movedState`; and each refusal is the one of the first
requirement that fails. -/
theorem moveCopiesTheChunk : Obligations.MoveCopiesTheChunk := by
  intro s n src dst left k moving
  refine ⟨fun pos le srcRam dstRam written => ?_, fun pos le outside => ?_, fun pos le srcRam dstRam unset => ?_,
    exec_engMove_of_no_chunk moving⟩
  · have read : ∃ v, memReadBytes s.mem src.toNat k = some v := by
      refine Option.ne_none_iff_exists'.1 fun none => ?_
      obtain ⟨i, hi, unset⟩ := memReadBytes_eq_none.1 none
      exact written i hi unset
    obtain ⟨v, read⟩ := read
    have length : v.length = k := (memReadBytes_eq_some.1 read).1
    refine ⟨_, exec_engMove_of_read moving pos le srcRam dstRam read, fun i hi => memRead_movedState_copied read hi,
      fun x outside => memRead_movedState_outside read outside, fun x b => ?_, ?_, fun m other => getCh_movedState_ne other,
      movedState_frame n src dst left k v s⟩
    · rw [advance_cpu, mem_engineWrite_stale, length]
    · rw [getCh_movedState, advanced_ofNat _ le]
  · rw [exec_engMove_of_chunk moving pos le, moveBytes_of_unmapped moving outside]
  · rw [exec_engMove_of_chunk moving pos le,
      moveBytes_of_unset moving srcRam dstRam (memReadBytes_eq_none.2 unset)]

/-! The config forms (30_encoding.md R102). -/

theorem exec_m2mInstr (n : Chan) (ws wd : Width) (sb db : BitVec 2) (s : State) :
    exec (m2mInstr n ws wd sb db) s = moveForm ws wd n sb db s := by
  cases ws <;> cases wd <;> rfl

/-- Settles O44: a form that is latched is the move of every byte left. -/
theorem everyFormMovesTheBytesLeft : Obligations.EveryFormMovesTheBytesLeft := by
  intro s n ws wd sb db c src dst left v moving cfg decodes ne srcRam dstRam read
  have bytesLeft : left ≠ 0#32 := ne
  have pos : 1 ≤ left.toNat := Nat.one_le_iff_ne_zero.2 fun zero => ne (BitVec.eq_of_toNat_eq zero)
  have form : exec (m2mInstr n ws wd sb db) s = moveBytes n left left.toNat s := by
    rw [exec_m2mInstr, moveForm, both_eq_none.2 ⟨engineAt_eq_none.2 ⟨moving.1, moving.2.1⟩,
      formStop_eq_none.2 ⟨c, cfg, decodes⟩⟩, guarded_none, moving.2.2.2.2, readVal_of, if_neg bytesLeft]
  refine ⟨_, form.trans (moveBytes_of_read moving srcRam dstRam read), fun i hi => memRead_movedState_copied read hi,
    fun x outside => memRead_movedState_outside read outside, ?_, ?_, fun m other => getCh_movedState_ne other,
    movedState_frame .., exec_engMove_of_read moving pos le_rfl srcRam dstRam read⟩
  · rw [getCh_movedState, advanced_ofNat _ le_rfl, Nat.sub_self]
    rfl
  · rw [getCh_movedState]
    rfl

/-! Two chunks one after the other. -/

theorem engineWrite_setCh (s : State) (n : Chan) (c : Channel) (a : Nat) (bs : List Byte) :
    engineWrite (setCh s n c) a bs = setCh (engineWrite s a bs) n c := by
  induction bs generalizing s a with
  | nil => rfl
  | cons b bs ih =>
    exact ih { s with
      mem := memWrite s.mem a b
      cpu := { s.cpu with stale := staleAdd s.cpu.stale a (memRead s.mem a) } } (a + 1)

theorem memReadBytes_append {m : Memory} {a j k : Nat} {v w : List Byte} (first : memReadBytes m a j = some v)
    (second : memReadBytes m (a + j) k = some w) : memReadBytes m a (j + k) = some (v ++ w) := by
  obtain ⟨rfl, bytes⟩ := memReadBytes_eq_some.1 first
  obtain ⟨rfl, bytes'⟩ := memReadBytes_eq_some.1 second
  refine memReadBytes_eq_some.2 ⟨List.length_append, fun i hi => ?_⟩
  rw [List.getElem_append]
  split
  · exact bytes i _
  · rw [← bytes' (i - v.length) (by rw [List.length_append] at hi; omega)]
    congr 1
    omega

theorem memReadBytes_congr {m m' : Memory} {a k : Nat} (h : ∀ i, i < k → memRead m (a + i) = memRead m' (a + i)) :
    memReadBytes m a k = memReadBytes m' a k := by
  refine Option.ext fun v => ?_
  rw [memReadBytes_eq_some, memReadBytes_eq_some]
  refine and_congr_right fun length => forall_congr' fun i => forall_congr' fun hi => ?_
  rw [h i (length ▸ hi)]

theorem rangeRam_append {c : Config} {a j k : Nat} (first : rangeRam c a j = true) (second : rangeRam c (a + j) k = true) :
    rangeRam c a (j + k) = true := by
  refine allRam_iff.1 fun x ⟨ge, lt⟩ => ?_
  by_cases before : x < a + j
  · exact isRam_of_rangeRam first ge before
  · exact isRam_of_rangeRam second (not_lt.1 before) (by omega)

theorem advanced_advanced (c : Channel) (src dst left : Word) (j k : Nat) :
    advanced (advanced c src dst left j) (src + BitVec.ofNat 32 j) (dst + BitVec.ofNat 32 j) (left - BitVec.ofNat 32 j) k =
      advanced c src dst left (j + k) := by
  simp only [advanced, BitVec.ofNat_add, add_assoc, sub_sub]

/-- The state after two chunks is the state after both at once, when the second is written where the first ended. -/
theorem movedState_movedState (n : Chan) (s : State) {src dst left : Word} {j k : Nat} {v w : List Byte}
    (length : v.length = j) (ends : (dst + BitVec.ofNat 32 j).toNat = dst.toNat + j) :
    movedState n (src + BitVec.ofNat 32 j) (dst + BitVec.ofNat 32 j) (left - BitVec.ofNat 32 j) k w
        (movedState n src dst left j v s) =
      movedState n src dst left (j + k) (v ++ w) s := by
  have advance_eq (src dst left : Word) (k : Nat) (u : State) :
      advance n src dst left k u = setCh u n (advanced (getCh u n) src dst left k) := rfl
  simp only [movedState, ends, advance_eq, engineWrite_setCh, getCh_setCh_same, setCh_setCh, getCh_engineWrite,
    advanced_advanced, engineWrite_append, length]

/-- Settles O45: the second chunk starts where the first ended, and reads bytes that the first did not write. -/
theorem chunkSizesDoNotMatter : Obligations.ChunkSizesDoNotMatter := by
  intro s t u n j k inv first second
  obtain ⟨src, dst, left, v, moving, posJ, leJ, srcRam, dstRam, read, rfl⟩ := execEngMove_next first
  obtain ⟨src', dst', left', w, moving', posK, leK, srcRam', dstRam', read', rfl⟩ := execEngMove_next second
  obtain ⟨move, alive, source, dest, toGo⟩ := moving
  obtain ⟨-, -, source', dest', toGo'⟩ := moving'
  rw [getCh_movedState] at source' dest' toGo'
  obtain rfl := Val.of.inj source'
  obtain rfl := Val.of.inj dest'
  obtain rfl := Val.of.inj toGo'
  obtain ⟨_, _, _, _, _, working⟩ := channelInv_eq_true.1 inv
  obtain ⟨a, x, y, z, -, -, -, -, -, hx, hy, hz, -, -, -, -, -, srcFits, dstFits, apart, -⟩ :=
    workingInv_eq_true.1 (working move)
  obtain rfl := Val.of.inj (hx.symm.trans source)
  obtain rfl := Val.of.inj (hy.symm.trans dest)
  obtain rfl := Val.of.inj (hz.symm.trans toGo)
  have length : v.length = j := (memReadBytes_eq_some.1 read).1
  rw [toNat_sub_ofNat leJ] at leK
  have srcEnds : (x + BitVec.ofNat 32 j).toNat = x.toNat + j := toNat_add_ofNat (by omega)
  have dstEnds : (y + BitVec.ofNat 32 j).toNat = y.toNat + j := toNat_add_ofNat (by omega)
  rw [srcEnds] at read'
  rw [srcEnds, advance_config, engineWrite_config] at srcRam'
  rw [dstEnds, advance_config, engineWrite_config] at dstRam'
  have readThen : memReadBytes s.mem (x.toNat + j) k = some w := by
    refine (memReadBytes_congr fun i hi => ?_).trans read'
    have outside : ¬ (y.toNat ≤ x.toNat + j + i ∧ x.toNat + j + i < y.toNat + j) := fun ⟨ge, lt⟩ =>
      (overlaps_eq_false ..).1 apart _ ge (by omega) (by omega) (by omega)
    exact (memRead_movedState_outside read outside).symm
  have whole := exec_engMove_of_read (k := j + k) ⟨move, alive, source, dest, toGo⟩ (by omega) (by omega)
    (rangeRam_append srcRam srcRam') (rangeRam_append dstRam dstRam') (memReadBytes_append read readThen)
  exact whole.trans (congrArg _ (movedState_movedState n s length dstEnds).symm)

end Sys2Proof.Machine
end

section
/-! The end of a descriptor (43_engine.md R186, R187): the link word decides whether the engine goes on or the chain ends. -/

namespace Sys2Proof.Machine

open Sys2Proof.Safety

section

variable {n : Chan} {s : State} {a : Word}

theorem finishedAt_of_finished (fin : Finished n s a) : finishedAt n s = none := by
  obtain ⟨move, alive, done, _⟩ := fin
  exact finishedAt_eq_none.2 ⟨move, alive, done⟩

theorem exec_engLink_of_finished (fin : Finished n s a) :
    exec (.engLink n) s = if a = linkEnd then .fault .notEnabled else .next (linkEffect n a s) := by
  rw [exec, execEngLink, finishedAt_of_finished fin, guarded_none, fin.2.2.2, readVal_of]

theorem exec_linkNext_of_finished (fin : Finished n s a) (ne : a ≠ linkEnd) :
    exec (.linkNext n a) s = .next (linkEffect n a s) := by
  have go : both (requireVal (getCh s n).nxt a .notEnabled) (require (decide (a ≠ linkEnd)) .notEnabled) = none :=
    both_eq_none.2 ⟨requireVal_eq_none.2 fin.2.2.2, require_eq_none.2 (decide_eq_true ne)⟩
  rw [exec, execLinkNext, finishedAt_of_finished fin, both_none, go, guarded_none]

/-- The named step and the row are the same completion. -/
theorem exec_linkEnd (n : Chan) (s : State) : exec (.linkEnd n) s = exec (.engComplete n) s := rfl

theorem exec_engComplete_of_sentinel (fin : Finished n s linkEnd) :
    exec (.engComplete n) s = .next (completeEffect n s) := by
  rw [exec, execEngComplete, finishedAt_of_finished fin, both_none, requireVal_eq_none.2 fin.2.2.2, guarded_none]

theorem exec_engComplete_of_link (fin : Finished n s a) (ne : a ≠ linkEnd) :
    exec (.engComplete n) s = .fault .notEnabled := by
  rw [exec, execEngComplete, finishedAt_of_finished fin, both_none, fin.2.2.2, requireVal, if_neg ne]
  rfl

end

/-- Settles O41: both forms leave `linkEffect`, and the sentinel is no link. -/
theorem linkGoesOnAtTheNextDescriptor : Obligations.LinkGoesOnAtTheNextDescriptor := by
  intro s n a fin
  refine ⟨fun ne => ⟨_, (exec_engLink_of_finished fin).trans (if_neg ne), exec_linkNext_of_finished fin ne,
    getCh_linkEffect_same s n a, fun m other => getCh_linkEffect_ne s other a, rfl⟩, fun last => ?_⟩
  exact (exec_engLink_of_finished fin).trans (if_pos last)

/-- Settles O42: both forms leave `completeEffect`, and another link word is no completion. -/
theorem sentinelEndsTheChain : Obligations.SentinelEndsTheChain := by
  intro s n a fin
  refine ⟨fun last => ?_, exec_engComplete_of_link fin⟩
  obtain rfl : a = linkEnd := last
  have completed := exec_engComplete_of_sentinel fin
  exact ⟨_, completed, (exec_linkEnd n s).trans completed, getCh_completeEffect_same s n, getBusy_completeEffect_same s n,
    fun m other => ⟨getCh_completeEffect_ne s other, getBusy_completeEffect_ne s other⟩, rfl⟩

end Sys2Proof.Machine
end

section
/-! The row DESC (43_engine.md R178, R179): the six fetches one after another fill the buffer, and the decode latches it. -/

namespace Sys2Proof.Machine

open Sys2Proof.Safety

/-- The state with another fetch buffer at channel `n`. -/
def withFetched (s : State) (n : Chan) (f : FetchBuf) : State := setCh s n { getCh s n with fw := f }

section

variable {s : State} {n : Chan} {a : Word} {d : Desc} {f : FetchBuf}

@[simp] theorem getCh_withFetched (s : State) (n : Chan) (f : FetchBuf) :
    getCh (withFetched s n f) n = { getCh s n with fw := f } := getCh_setCh_same ..

theorem getCh_withFetched_ne (s : State) {m : Chan} (other : m ≠ n) (f : FetchBuf) :
    getCh (withFetched s n f) m = getCh s m := getCh_setCh_ne _ _ other

theorem withFetched_self (unread : (getCh s n).fw = f) : withFetched s n f = s := by
  subst unread
  exact setCh_getCh s n

/-- The word at index `i` of a descriptor. -/
def descWordAt (d : Desc) (i : Fin 6) : Word :=
  match i with
  | 0 => d.config
  | 1 => d.srcAddr
  | 2 => d.dstAddr
  | 3 => d.length
  | 4 => d.param
  | 5 => d.nextAddr

theorem memReadWord_of_descBytes {m : Memory} {a : Nat} (read : memReadBytes m a 24 = some (descBytes d)) (i : Fin 6) :
    memReadWord m (a + 4 * i.val) = some (descWordAt d i) := by
  have fields := descOfBytes_descBytes d
  rw [memReadWord_of_bytes read]
  fin_cases i
  · exact congrArg (some ∘ Desc.config) fields
  · exact congrArg (some ∘ Desc.srcAddr) fields
  · exact congrArg (some ∘ Desc.dstAddr) fields
  · exact congrArg (some ∘ Desc.length) fields
  · exact congrArg (some ∘ Desc.param) fields
  · exact congrArg (some ∘ Desc.nextAddr) fields

/-- What the other engines have under way is not changed by a write to the registers of channel `n`. -/
theorem sharesWritten_of_others {t : State} (others : ∀ m, m ≠ n → getCh t m = getCh s m)
    (reads writes : List (Nat × Nat)) : sharesWritten n reads writes t = sharesWritten n reads writes s := by
  rw [Bool.eq_iff_iff, ← not_iff_not]
  simp only [Bool.not_eq_true, sharesWritten_eq_false]
  exact forall_congr' fun m => forall_congr' fun other => by rw [others m other]

theorem fetching_withFetched (fetching : Fetching n s a) (f : FetchBuf) : Fetching n (withFetched s n f) a := by
  obtain ⟨fetch, ⟨clk, rel, go⟩, pointer, aligned, fits, ram, apart⟩ := fetching
  refine ⟨?_, ⟨clk, rel, ?_⟩, ?_, aligned, fits, ram, ?_⟩
  · rwa [getCh_withFetched]
  · rwa [getCh_withFetched]
  · rwa [getCh_withFetched]
  · rwa [sharesWritten_of_others fun m other => getCh_withFetched_ne s other f]

theorem exec_engFetch_withFetched (fetching : Fetching n s a)
    (read : memReadBytes s.mem a.toNat 24 = some (descBytes d)) {i : Fin 6} (unread : fwGet f i = none) :
    exec (.engFetch n i) (withFetched s n f) = .next (withFetched s n (fwSet f i (descWordAt d i))) := by
  have fetched := exec_engFetch_of_fetching (fetching_withFetched fetching f) (i := i) (by rwa [getCh_withFetched])
    (memReadWord_of_descBytes read i)
  rw [fetched, getCh_withFetched, withFetched, setCh_setCh]
  rfl

theorem shares_withFetched : Shares n d a.toNat (withFetched s n f) ↔ Shares n d a.toNat s := by
  rw [← descShares_eq_true, ← descShares_eq_true, descShares, descShares,
    sharesWritten_of_others fun m other => getCh_withFetched_ne s other f]

theorem latchEffect_withFetched : latchEffect n d (withFetched s n f) = latchEffect n d s := by
  simp only [latchEffect, withFetched, getCh_setCh_same, setCh_setCh]

theorem exec_engDecode_withFetched (fetching : Fetching n s a) (adm : admitted s.config.layout d a.toNat = true)
    (apart : ¬ Shares n d a.toNat s) :
    exec (.engDecode n) (withFetched s n (fullFetch d)) = .next (latchEffect n d s) := by
  obtain ⟨fetch, alive, pointer, _⟩ := fetching_withFetched fetching (fullFetch d)
  have full : (getCh (withFetched s n (fullFetch d)) n).fw = fullFetch d := by rw [getCh_withFetched]
  rw [exec_engDecode_of_full fetch alive full,
    latchDesc_of_admitted pointer adm (mt shares_withFetched.1 apart), latchEffect_withFetched]

theorem exec_desc_of_fetching (fetching : Fetching n s a) (unread : (getCh s n).fw = emptyFetch)
    (read : memReadBytes s.mem a.toNat 24 = some (descBytes d)) (adm : admitted s.config.layout d a.toNat = true)
    (apart : ¬ Shares n d a.toNat s) : exec (.desc n d) s = .next (latchEffect n d s) := by
  rw [exec, execDesc, engineAt_eq_none.2 ⟨fetching.1, fetching.2.1⟩, guarded_none, judgeFetch_of_fetching fetching]
  simp only [descAt_of_bytes unread read, descOfBytes_descBytes, if_true]
  exact latchDesc_of_admitted fetching.2.2.1 adm apart

end

/-- Settles O43: from the empty buffer each fetch adds its word, and after the sixth the buffer is full. -/
theorem descRowIsFetchesThenDecode : Obligations.DescRowIsFetchesThenDecode := by
  intro s n a d fetching unread read adm apart
  have fetch {f : FetchBuf} (i : Fin 6) := exec_engFetch_withFetched (f := f) (i := i) fetching read
  have first := fetch 0 (fwGet_emptyFetch 0)
  rw [withFetched_self unread] at first
  exact ⟨_, _, _, _, _, _, _, exec_desc_of_fetching fetching unread read adm apart, first, fetch 1 rfl, fetch 2 rfl,
    fetch 3 rfl, fetch 4 rfl, fetch 5 rfl, exec_engDecode_withFetched fetching adm apart⟩

end Sys2Proof.Machine
end

section
/-! The turn of an engine at the grain of named steps: which step it finds (43_engine.md R175, R182), and when it finds none at
either grain. -/

namespace Sys2Proof.Machine

open Sys2Proof.Safety

section

variable {s : State} {n : Chan} {p : Nat} {rest : List Turn}

/-- What an engine finds to do does not depend on the schedule. -/
theorem step_of_eng (turn : s.sched = ⟨.eng n, p⟩ :: rest) :
    step s = runFetched n (engineStep n p s) { s with sched := rest } := step_of_sched turn

theorem step_of_eng_instr {i : Instr} (turn : s.sched = ⟨.eng n, p⟩ :: rest) (found : engineStep n p s = .instr i) :
    step s = exec i { s with sched := rest } := by
  rw [step_of_eng turn, found, runFetched]

/-! In Fetch: an unread word, else the decode. -/

theorem mem_unreadWords {f : FetchBuf} {i : Fin 6} : i ∈ unreadWords f ↔ fwGet f i = none := by
  have listed : i ∈ ([0, 1, 2, 3, 4, 5] : List (Fin 6)) := by fin_cases i <;> decide
  simp only [unreadWords, List.mem_filter, listed, true_and, Option.isNone_iff_eq_none]

theorem engineStep_of_full (fetch : (getCh s n).phase = .fetch) (alive : Live n s)
    (full : ∀ i, fwGet (getCh s n).fw i ≠ none) : engineStep n p s = .instr (.engDecode n) := by
  have noneLeft : unreadWords (getCh s n).fw = [] :=
    List.eq_nil_iff_forall_not_mem.2 fun i hi => full i (mem_unreadWords.1 hi)
  simp only [engineStep, fetch, whenLive_of_live alive, noneLeft]

theorem exists_engineStep_of_unread (fetch : (getCh s n).phase = .fetch) (alive : Live n s)
    (unread : ∃ i, fwGet (getCh s n).fw i = none) :
    ∃ first others, unreadWords (getCh s n).fw = first :: others ∧
      ∀ p, engineStep n p s = .instr (.engFetch n (choose first others p)) := by
  obtain ⟨i, hi⟩ := unread
  obtain ⟨first, others, words⟩ := List.exists_cons_of_ne_nil (List.ne_nil_of_mem (mem_unreadWords.2 hi))
  exact ⟨first, others, words, fun p => by simp only [engineStep, fetch, whenLive_of_live alive, words]⟩

theorem choose_mem {α : Type} (first : α) (others : List α) (p : Nat) : choose first others p ∈ first :: others := by
  rw [choose_eq_getElem]
  exact List.getElem_mem _

/-- Every element of the list is chosen by some number. -/
theorem exists_choose_eq {α : Type} {first v : α} {others : List α} (h : v ∈ first :: others) :
    ∃ p, choose first others p = v := by
  obtain ⟨i, hi, rfl⟩ := List.getElem_of_mem h
  refine ⟨i, ?_⟩
  simp only [choose_eq_getElem, Nat.mod_eq_of_lt (List.length_cons ▸ hi : i < others.length + 1)]

/-! In Move: a chunk while bytes are left, else the link or the completion. -/

theorem engineStep_of_moving {src dst left : Word} (moving : Moving n s src dst left) (ne : left ≠ 0) :
    engineStep n p s = .instr (.engMove n (p % left.toNat + 1)) := by
  obtain ⟨move, alive, _, _, toGo⟩ := moving
  have bytesLeft : left ≠ 0#32 := ne
  simp only [engineStep, move, whenLive_of_live alive, toGo, whenSet, if_neg bytesLeft]

theorem engineStep_of_finished {nx : Word} (fin : Finished n s nx) :
    engineStep n p s = if nx = linkEnd then .instr (.engComplete n) else .instr (.engLink n) := by
  obtain ⟨move, alive, toGo, link⟩ := fin
  simp only [engineStep, move, whenLive_of_live alive, toGo, whenSet, if_true, link]

theorem engineStep_of_unset (move : (getCh s n).phase = .move) (alive : Live n s)
    (unset : (getCh s n).bcntLeft = .unset ∨ ((getCh s n).bcntLeft = .of 0 ∧ (getCh s n).nxt = .unset)) :
    engineStep n p s = .refuse .unsetState := by
  rcases unset with noCount | ⟨toGo, noLink⟩
  · simp only [engineStep, move, whenLive_of_live alive, noCount, whenSet]
  · have done : (getCh s n).bcntLeft = .of 0#32 := toGo
    simp only [engineStep, move, whenLive_of_live alive, done, whenSet, if_true, noLink]

/-! At either grain: none for an idle or faulted engine, and what `live` says for one that is not alive. -/

theorem engine_turn {ag : Agent} (agent : ag = .eng n ∨ ag = .interp n) (turn : s.sched = ⟨ag, p⟩ :: rest) :
    ∃ f, step s = runFetched n f { s with sched := rest } ∧
      ((getCh s n).phase = .idle → f = .nothing) ∧ (∀ r, (getCh s n).phase = .fault r → f = .nothing) ∧
      ((getCh s n).phase = .fetch ∨ (getCh s n).phase = .move → ∃ k, f = whenLive n s k) := by
  rcases agent with rfl | rfl
  · refine ⟨engineStep n p s, step_of_eng turn, fun idle => ?_, fun r faulted => ?_, fun running => ?_⟩
    · simp only [engineStep, idle]
    · simp only [engineStep, faulted]
    · rcases running with h | h <;> exact ⟨_, by rw [engineStep, h]⟩
  · refine ⟨interpret n s, step_of_sched turn, fun idle => ?_, fun r faulted => ?_, fun running => ?_⟩
    · simp only [interpret, idle]
    · simp only [interpret, faulted]
    · rcases running with h | h <;> exact ⟨_, by rw [interpret, h]⟩

theorem whenLive_of_not_enabled (notAlive : live n s = some .notEnabled) (k : Fetched) : whenLive n s k = .nothing := by
  rw [whenLive, notAlive]

theorem whenLive_of_refuse {r : Refusal} (refused : live n s = some (.refuse r)) (k : Fetched) :
    whenLive n s k = .refuse r := by
  rw [whenLive, refused]

end

/-- Settles O48: what `engineStep` finds in each place, and for the last clauses what `live` says. -/
theorem stepRunsTheNamedStep : Obligations.StepRunsTheNamedStep := by
  intro s n p rest
  constructor
  · intro turn alive
    refine ⟨fun fetch full => step_of_eng_instr turn (engineStep_of_full fetch alive full), fun fetch unread => ?_,
      fun i fetch unread => ?_, fun src dst left moving ne => step_of_eng_instr turn (engineStep_of_moving moving ne),
      fun nx fin ne => step_of_eng_instr turn ((engineStep_of_finished fin).trans (if_neg ne)),
      fun nx fin last => step_of_eng_instr turn ((engineStep_of_finished fin).trans (if_pos last)), fun move unset => ?_⟩
    · obtain ⟨first, others, words, found⟩ := exists_engineStep_of_unread fetch alive unread
      exact ⟨_, mem_unreadWords.1 (words ▸ choose_mem first others p), step_of_eng_instr turn (found p)⟩
    · obtain ⟨first, others, words, found⟩ := exists_engineStep_of_unread fetch alive ⟨i, unread⟩
      obtain ⟨q, chosen⟩ := exists_choose_eq (words ▸ mem_unreadWords.2 unread)
      exact ⟨q, step_of_eng_instr rfl (chosen ▸ found q)⟩
    · rw [step_of_eng turn, engineStep_of_unset move alive unset, runFetched]
  · intro ag agent turn
    obtain ⟨f, turned, idle, faulted, running⟩ := engine_turn agent turn
    refine ⟨fun h => by rw [turned, idle h, runFetched], fun r h => by rw [turned, faulted r h, runFetched], fun h => ?_⟩
    obtain ⟨k, rfl⟩ := running h
    have nothing (notAlive : live n s = some .notEnabled) : step s = .next { s with sched := rest } := by
      rw [turned, whenLive_of_not_enabled notAlive, runFetched]
    have refuses (unset : live n s = some (.refuse .unsetState)) : step s = .refused .unsetState := by
      rw [turned, whenLive_of_refuse unset, runFetched]
    refine ⟨fun clk => nothing ?_, fun clk rel => nothing ?_, fun clk rel pause => nothing ?_,
      fun clk rel pause => refuses ?_, fun clk => refuses ?_, fun clk rel => refuses ?_⟩
    all_goals simp [live, requireVal, *]

end Sys2Proof.Machine
end

section
/-! An engine alone carries out a last descriptor (43_engine.md R189, R193): each of its turns takes it nearer to the end, whatever
the free choices. -/

namespace Sys2Proof.Machine

open Sys2Proof.Safety

/-- What P1 supposes of memory and of the descriptor when the engine starts to fetch it (43_engine.md R193). -/
structure CopyJob (s : State) (a : Word) (d : Desc) (v : List Byte) : Prop where
  record : memReadBytes s.mem a.toNat 24 = some (descBytes d)
  adm : admitted s.config.layout d a.toNat = true
  last : d.nextAddr = linkEnd
  srcRam : rangeRam s.config d.srcAddr.toNat d.length.toNat = true
  dstRam : rangeRam s.config d.dstAddr.toNat d.length.toNat = true
  read : memReadBytes s.mem d.srcAddr.toNat d.length.toNat = some v

/-- The engine that started in `s` still fetches: some words are latched, memory is as it was, `k` turns suffice. -/
structure FetchStage (s : State) (n : Chan) (a : Word) (d : Desc) (k : Nat) (t : State) : Prop where
  place : Fetching n t a
  apart : ¬ Shares n d a.toNat t
  config : t.config = s.config
  mem : t.mem = s.mem
  words : ∀ i, fwGet (getCh t n).fw i = none ∨ fwGet (getCh t n).fw i = some (descWordAt d i)
  bound : (unreadWords (getCh t n).fw).length + 2 + d.length.toNat ≤ k

/-- The engine that started in `s` has moved the first `moved` bytes, and `k` turns suffice. -/
structure MoveStage (s : State) (n : Chan) (d : Desc) (v : List Byte) (moved k : Nat) (t : State) : Prop where
  le : moved ≤ d.length.toNat
  place : Moving n t (BitVec.ofNat 32 (d.srcAddr.toNat + moved)) (BitVec.ofNat 32 (d.dstAddr.toNat + moved))
    (BitVec.ofNat 32 (d.length.toNat - moved))
  last : (getCh t n).nxt = .of linkEnd
  config : t.config = s.config
  mem : t.mem = memWriteBytes s.mem d.dstAddr.toNat (v.take moved)
  bound : d.length.toNat - moved + 1 ≤ k

/-- The engine that started in `s` has completed. -/
structure DoneStage (s : State) (n : Chan) (d : Desc) (v : List Byte) (t : State) : Prop where
  idle : (getCh t n).phase = .idle
  en : (getCh t n).en = .of false
  busy : getBusy t n = .of false
  mem : t.mem = memWriteBytes s.mem d.dstAddr.toNat v

/-- The engine that started in `s` has at most `k` turns to go. -/
inductive Carrying (s : State) (n : Chan) (a : Word) (d : Desc) (v : List Byte) (k : Nat) (t : State) : Prop
  | fetching (stage : FetchStage s n a d k t)
  | moving (moved : Nat) (stage : MoveStage s n d v moved k t)
  | done (stage : DoneStage s n d v t)

section

variable {s t : State} {n : Chan} {a : Word} {d : Desc} {v : List Byte} {k : Nat}

/-- How far the engine is does not depend on the schedule. -/
theorem Carrying.withSched (h : Carrying s n a d v k t) (rest : List Turn) :
    Carrying s n a d v k { t with sched := rest } := by
  cases h with
  | fetching stage =>
    exact .fetching ⟨stage.place, stage.apart, stage.config, stage.mem, stage.words, stage.bound⟩
  | moving moved stage =>
    exact .moving moved ⟨stage.le, stage.place, stage.last, stage.config, stage.mem, stage.bound⟩
  | done stage => exact .done ⟨stage.idle, stage.en, stage.busy, stage.mem⟩

theorem length_unreadWords_fwSet {f : FetchBuf} {i : Fin 6} (unread : fwGet f i = none) (w : Word) :
    (unreadWords (fwSet f i w)).length < (unreadWords f).length := by
  have others : unreadWords (fwSet f i w) = (unreadWords f).filter (fun j => j ≠ i) := by
    simp only [unreadWords, List.filter_filter, fwGet_fwSet]
    refine List.filter_congr fun j _ => ?_
    by_cases same : j = i <;> simp [same]
  rw [others]
  exact List.length_filter_lt_length_iff_exists.2 ⟨i, mem_unreadWords.2 unread, by simp⟩

theorem eq_fullFetch {f : FetchBuf} (h : ∀ i, fwGet f i = some (descWordAt d i)) : f = fullFetch d := by
  obtain ⟨_, _, _, _, _, _⟩ := f
  obtain ⟨rfl, rfl, rfl, rfl, rfl, rfl⟩ : _ ∧ _ ∧ _ ∧ _ ∧ _ ∧ _ := ⟨h 0, h 1, h 2, h 3, h 4, h 5⟩
  rfl

/-- A fetch latches one word more. -/
theorem carrying_fetch (job : CopyJob s a d v) (stage : FetchStage s n a d k t) {i : Fin 6}
    (unread : fwGet (getCh t n).fw i = none) :
    ∃ u, exec (.engFetch n i) t = .next u ∧ u.sched = t.sched ∧ Carrying s n a d v (k - 1) u := by
  obtain ⟨place, apart, config, mem, words, bound⟩ := stage
  have fetched := exec_engFetch_of_fetching place unread (mem ▸ memReadWord_of_descBytes job.record i)
  have fewer := length_unreadWords_fwSet unread (descWordAt d i)
  refine ⟨withFetched t n (fwSet (getCh t n).fw i (descWordAt d i)), fetched, rfl,
    .fetching ⟨fetching_withFetched place _, mt shares_withFetched.1 apart, config, mem, fun j => ?_, ?_⟩⟩
  · rw [getCh_withFetched, fwGet_fwSet]
    split
    · rename_i same
      exact .inr (same ▸ rfl)
    · exact words j
  · simp only [getCh_withFetched]
    omega

/-- The decode latches the descriptor, with no byte moved. -/
theorem carrying_decode (job : CopyJob s a d v) (stage : FetchStage s n a d k t)
    (full : ∀ i, fwGet (getCh t n).fw i ≠ none) :
    ∃ u, exec (.engDecode n) t = .next u ∧ u.sched = t.sched ∧ Carrying s n a d v (k - 1) u := by
  obtain ⟨⟨fetch, ⟨clk, rel, go⟩, pointer, _⟩, apart, config, mem, words, bound⟩ := stage
  have buffer := eq_fullFetch fun i => (words i).resolve_left (full i)
  have decoded := (exec_engDecode_of_full fetch ⟨clk, rel, go⟩ buffer).trans
    (latchDesc_of_admitted pointer (config ▸ job.adm) apart)
  refine ⟨latchEffect n d t, decoded, rfl, .moving 0 ⟨Nat.zero_le _, ?_, ?_, config, mem, by omega⟩⟩
  · simp only [Moving, getCh_latchEffect_same, latched, Nat.add_zero, Nat.sub_zero, BitVec.ofNat_toNat,
      BitVec.setWidth_eq, and_true, true_and]
    exact ⟨clk, rel, by rwa [getCh_latchEffect_same]⟩
  · rw [getCh_latchEffect_same, ← job.last]
    rfl

/-- A part of the bytes read. -/
theorem memReadBytes_part {m : Memory} {a l j c : Nat} (read : memReadBytes m a l = some v) (le : j + c ≤ l) :
    memReadBytes m (a + j) c = some ((v.drop j).take c) := by
  obtain ⟨rfl, bytes⟩ := memReadBytes_eq_some.1 read
  refine memReadBytes_eq_some.2 ⟨by rw [List.length_take, List.length_drop]; omega, fun i hi => ?_⟩
  rw [List.getElem_take, List.getElem_drop, Nat.add_assoc]
  exact bytes (j + i) _

/-- The chunks before have overwritten no source byte (30_encoding.md R101 (g)). -/
theorem MoveStage.read_chunk (job : CopyJob s a d v) {moved c : Nat} (stage : MoveStage s n d v moved k t)
    (le : moved + c ≤ d.length.toNat) :
    memReadBytes t.mem (d.srcAddr.toNat + moved) c = some ((v.drop moved).take c) := by
  obtain ⟨-, -, -, -, -, -, -, -, clear, -⟩ := admitted_eq_true.1 job.adm
  refine (memReadBytes_congr fun i hi => ?_).trans (memReadBytes_part job.read le)
  have outside : ¬ (d.dstAddr.toNat ≤ d.srcAddr.toNat + moved + i ∧
      d.srcAddr.toNat + moved + i < d.dstAddr.toNat + (v.take moved).length) := by
    rw [List.length_take]
    exact fun ⟨ge, lt⟩ => (overlaps_eq_false ..).1 clear _ ge (by omega) (by omega) (by omega)
  rw [stage.mem, memRead_memWriteBytes_outside outside]

/-- A chunk adds to the bytes moved. -/
theorem carrying_move (job : CopyJob s a d v) {moved c : Nat} (stage : MoveStage s n d v moved k t) (pos : 1 ≤ c)
    (le : moved + c ≤ d.length.toNat) :
    ∃ u, exec (.engMove n c) t = .next u ∧ u.sched = t.sched ∧ Carrying s n a d v (k - 1) u := by
  have read := stage.read_chunk job le
  obtain ⟨-, place, last, config, mem, bound⟩ := stage
  obtain ⟨-, -, -, -, -, -, srcFits, dstFits, -⟩ := admitted_eq_true.1 job.adm
  have small := d.length.isLt
  have source := toNat_ofNat_word (x := d.srcAddr.toNat + moved) (by omega)
  have dest := toNat_ofNat_word (x := d.dstAddr.toNat + moved) (by omega)
  have toGo := toNat_ofNat_word (x := d.length.toNat - moved) (by omega)
  have length : v.length = d.length.toNat := (memReadBytes_eq_some.1 job.read).1
  have srcRam : rangeRam t.config (d.srcAddr.toNat + moved) c = true :=
    config ▸ rangeRam_part job.srcRam (by omega) (by omega)
  have dstRam : rangeRam t.config (d.dstAddr.toNat + moved) c = true :=
    config ▸ rangeRam_part job.dstRam (by omega) (by omega)
  have carried := exec_engMove_of_read place pos (by omega) (source.symm ▸ srcRam) (dest.symm ▸ dstRam) (source.symm ▸ read)
  have registers := advanced_ofNat (src := BitVec.ofNat 32 (d.srcAddr.toNat + moved))
    (dst := BitVec.ofNat 32 (d.dstAddr.toNat + moved)) (getCh t n) (toGo.symm ▸ (by omega : c ≤ d.length.toNat - moved))
  rw [source, dest, toGo, Nat.add_assoc, Nat.add_assoc, Nat.sub_sub] at registers
  obtain ⟨move, ⟨clk, rel, go⟩, -, -, -⟩ := place
  refine ⟨_, carried, by rw [advance_sched, engineWrite_sched], .moving (moved + c) ⟨le, ?_, ?_, ?_, ?_, by omega⟩⟩
  · simp only [Moving, Live, getCh_movedState, registers, advance_blk, engineWrite_blk]
    exact ⟨move, ⟨clk, rel, go⟩, trivial, trivial, trivial⟩
  · rw [getCh_movedState, registers]
    exact last
  · rw [advance_config, engineWrite_config, config]
  · rw [advance_mem, engineWrite_mem, mem, dest, List.take_add, memWriteBytes_append, List.length_take,
      Nat.min_eq_left (by omega)]

theorem carrying_complete (job : CopyJob s a d v) (stage : MoveStage s n d v d.length.toNat k t) :
    ∃ u, exec (.engComplete n) t = .next u ∧ u.sched = t.sched ∧ Carrying s n a d v (k - 1) u := by
  obtain ⟨-, ⟨move, alive, -, -, toGo⟩, last, -, mem, -⟩ := stage
  rw [Nat.sub_self] at toGo
  rw [List.take_of_length_le (memReadBytes_eq_some.1 job.read).1.le] at mem
  refine ⟨_, exec_engComplete_of_sentinel ⟨move, alive, toGo, last⟩, rfl, .done ⟨?_, ?_, ?_, mem⟩⟩
  · rw [getCh_completeEffect_same]
  · rw [getCh_completeEffect_same]
  · rw [getBusy_completeEffect_same]

/-- Whatever the free choice, what the engine finds to do takes it one step nearer to the end. -/
theorem carrying_turn (job : CopyJob s a d v) (h : Carrying s n a d v k t) (p : Nat) :
    ∃ u, runFetched n (engineStep n p t) t = .next u ∧ u.sched = t.sched ∧ Carrying s n a d v (k - 1) u := by
  cases h with
  | fetching stage =>
    obtain ⟨fetch, alive, _⟩ := stage.place
    by_cases full : ∀ i, fwGet (getCh t n).fw i ≠ none
    · rw [engineStep_of_full fetch alive full]
      exact carrying_decode job stage full
    · obtain ⟨first, others, listed, found⟩ := exists_engineStep_of_unread fetch alive (by simpa using full)
      rw [found p]
      exact carrying_fetch job stage (mem_unreadWords.1 (listed ▸ choose_mem first others p))
  | moving moved stage =>
    rcases Nat.eq_or_lt_of_le stage.le with rfl | bytesLeft
    · have fin : Finished n t linkEnd := by
        obtain ⟨move, alive, -, -, toGo⟩ := stage.place
        exact ⟨move, alive, by rwa [Nat.sub_self] at toGo, stage.last⟩
      rw [engineStep_of_finished fin, if_pos rfl]
      exact carrying_complete job stage
    · have toGo := toNat_ofNat_word (x := d.length.toNat - moved) (by have := d.length.isLt; omega)
      have ne : BitVec.ofNat 32 (d.length.toNat - moved) ≠ 0 := fun zero =>
        Nat.sub_ne_zero_of_lt bytesLeft (toGo.symm.trans (congrArg BitVec.toNat zero))
      have chunk := Nat.mod_lt p (Nat.sub_pos_of_lt bytesLeft)
      rw [engineStep_of_moving stage.place ne, toGo]
      exact carrying_move job stage (Nat.succ_pos _) (by omega)
  | done stage => exact ⟨t, by simp only [engineStep, stage.idle, runFetched], rfl, .done stage⟩

theorem carrying_step (job : CopyJob s a d v) (h : Carrying s n a d v k t) {p : Nat} {rest : List Turn}
    (turn : t.sched = ⟨.eng n, p⟩ :: rest) :
    ∃ u, step t = .next u ∧ u.sched = rest ∧ Carrying s n a d v (k - 1) u := by
  rw [step_of_sched turn]
  exact carrying_turn job (h.withSched rest) p

/-- With only its own turns coming, the engine is at the end after as many of them as it has to go. -/
theorem carrying_run (job : CopyJob s a d v) {j : Nat} (h : Carrying s n a d v k t) (enough : j ≤ t.sched.length)
    (own : ∀ r ∈ t.sched, r.agent = .eng n) :
    ∃ u : State, Host.Core.run core j t = .next u ∧ Carrying s n a d v (k - j) u := by
  induction j generalizing k t with
  | zero => exact ⟨t, rfl, h⟩
  | succ j ih =>
    obtain ⟨⟨ag, p⟩, rest, turn⟩ := List.exists_cons_of_length_pos (Nat.zero_lt_of_lt enough)
    rw [turn] at own enough
    obtain ⟨first, others⟩ := List.forall_mem_cons.1 own
    obtain rfl : ag = .eng n := first
    obtain ⟨u, stepped, sched, closer⟩ := carrying_step job h turn
    obtain ⟨w, ran, there⟩ := ih closer (by rw [sched]; exact Nat.le_of_succ_le_succ enough) (by rwa [sched])
    refine ⟨w, ?_, by rwa [Nat.sub_sub, Nat.add_comm 1 j] at there⟩
    have one : core.step t = .next u := stepped
    simp only [Host.Core.run, one, ran]

end

/-- Settles O46: six words, the decode, a byte or more in each move and the completion are no more than `8 + length` turns. -/
theorem engineCopiesEndToEnd : Obligations.EngineCopiesEndToEnd := by
  intro s n a d v fetching unread record adm apart last srcRam dstRam read enough own
  have job : CopyJob s a d v := ⟨record, adm, last, srcRam, dstRam, read⟩
  have start : Carrying s n a d v (8 + d.length.toNat) s := by
    refine .fetching ⟨fetching, apart, rfl, rfl, fun i => .inl (unread ▸ fwGet_emptyFetch i), ?_⟩
    rw [unread]
    exact le_rfl
  obtain ⟨t, ran, there⟩ := carrying_run job start enough own
  rw [Nat.sub_self] at there
  cases there with
  | fetching stage => exact absurd stage.bound (by omega)
  | moving _ stage => exact absurd stage.bound (by omega)
  | done stage =>
    obtain ⟨idle, en, busy, mem⟩ := stage
    have length : v.length = d.length.toNat := (memReadBytes_eq_some.1 read).1
    refine ⟨t, ran, idle, en, busy, fun i hi => ?_, fun x outside => ?_⟩
    · rw [mem, memRead_memWriteBytes_copied read hi]
    · rw [mem, memRead_memWriteBytes_outside (length.symm ▸ outside)]

end Sys2Proof.Machine
end

section
/-! What an instruction or a step does to ownership (10_state.md R49; 44_transfer_lifecycle.md R200 to R207): the records of the
lifecycle arbiter and the resources in existence change in six ways, and each keeps every clause of `OwnershipInv`. -/

namespace Sys2Proof.Machine

open Sys2Proof.Safety

/-- The record `l` says that a `Transfer` holds `r` (44_transfer_lifecycle.md R200). -/
abbrev Carries (l : Life) (r : Resources) : Prop := l = .ready r ∨ l = .started r

/-- One move of ownership, from the records `life` and the resources `pinned` in existence to `life'` and `pinned'`. `ends n r`
is what holds of the move that ends the Started transfer of `r` on channel `n`. -/
inductive OwnershipMove (ends : Chan → Resources → Prop) (life : PerChannel Life) (pinned : List Resources)
    (life' : PerChannel Life) (pinned' : List Resources) : Prop
  | keeps (lives : life' = life) (exist : pinned' = pinned)
  | binds (r : Resources) (self : selfOverlap r = false)
      (apart : ∀ x ∈ resourceRanges r, touchesPinned pinned x.1 x.2 = false) (lives : life' = life)
      (exist : pinned' = r :: pinned)
  | frees (r : Resources) (unheld : ∀ n, ¬ Carries (bankGet life n) r) (lives : life' = life)
      (exist : pinned' = pinned.filter (fun q => decide (q ≠ r)))
  | readies (r : Resources) (n : Chan) (free : bankGet life n = .free) (pin : r ∈ pinned)
      (unheld : ∀ m, ¬ Carries (bankGet life m) r) (lives : life' = bankSet life n (.ready r)) (exist : pinned' = pinned)
  | starts (r : Resources) (n : Chan) (ready : bankGet life n = .ready r) (lives : life' = bankSet life n (.started r))
      (exist : pinned' = pinned)
  | returns (r : Resources) (n : Chan) (started : bankGet life n = .started r) (which : ends n r)
      (lives : life' = bankSet life n .free) (exist : pinned' = pinned)

theorem not_carries_of_ne {l : Life} {r : Resources} (h : l ≠ .ready r ∧ l ≠ .started r) : ¬ Carries l r :=
  not_or.2 h

section

variable {ends : Chan → Resources → Prop} {life life' : PerChannel Life} {pinned pinned' : List Resources}

theorem OwnershipMove.mono {ends' : Chan → Resources → Prop} (h : OwnershipMove ends life pinned life' pinned')
    (imp : ∀ n r, ends n r → ends' n r) : OwnershipMove ends' life pinned life' pinned' := by
  cases h with
  | keeps lives exist => exact .keeps lives exist
  | binds r self apart lives exist => exact .binds r self apart lives exist
  | frees r unheld lives exist => exact .frees r unheld lives exist
  | readies r n free pin unheld lives exist => exact .readies r n free pin unheld lives exist
  | starts r n ready lives exist => exact .starts r n ready lives exist
  | returns r n started which lives exist => exact .returns r n started (imp n r which) lives exist

/-- Only the move that ends a transfer writes over a record that is Started. -/
theorem OwnershipMove.started_or_ends (h : OwnershipMove ends life pinned life' pinned') {n : Chan} {r : Resources}
    (started : bankGet life n = .started r) : bankGet life' n = .started r ∨ ends n r := by
  have other {m : Chan} {l : Life} (found : bankGet life m = l) (differ : l ≠ .started r) (new : Life) :
      bankGet (bankSet life m new) n = .started r := by
    have ne : n ≠ m := by
      rintro rfl
      exact differ (found.symm.trans started)
    rw [bankGet_bankSet_ne _ _ ne, started]
  cases h with
  | keeps lives | binds _ _ _ lives | frees _ _ lives => exact .inl (lives ▸ started)
  | readies _ _ free _ _ lives => exact .inl (lives ▸ other free (by simp) _)
  | starts _ _ ready lives => exact .inl (lives ▸ other ready (by simp) _)
  | returns q m begun which lives =>
    by_cases same : q = r
    · rcases eq_or_ne n m with rfl | ne
      · exact .inr (same ▸ which)
      · exact .inl (by rw [lives, bankGet_bankSet_ne _ _ ne, started])
    · exact .inl (lives ▸ other begun (by simpa using same) _)

end

section

variable {s t : State}

/-- A channel's new record keeps ownership when it carries existing resources that no other channel carries. -/
theorem ownershipInv_of_bankSet (inv : OwnershipInv s) {n : Chan} {l : Life} (lives : t.life = bankSet s.life n l)
    (exist : t.pinned = s.pinned) (left : DoingOk t t.cpu.doing)
    (carried : ∀ r, Carries l r → r ∈ s.pinned ∧ ∀ m, Carries (getLife s m) r → m = n) : OwnershipInv t := by
  have record (m : Chan) : getLife t m = if m = n then l else getLife s m := by rw [getLife, lives, bankGet_bankSet]; rfl
  refine ⟨fun m r held => ?_, fun m k r held held' => ?_, exist ▸ inv.selfDisjoint, exist ▸ inv.apart, left⟩
  · rw [exist]
    rw [record] at held
    split at held
    · exact (carried r held).1
    · exact inv.heldExist m r held
  · rw [record] at held held'
    split at held <;> split at held'
    · exact Eq.trans ‹m = n› (Eq.symm ‹k = n›)
    · exact Eq.trans ‹m = n› ((carried r held).2 k held').symm
    · exact ((carried r held').2 m held).trans (Eq.symm ‹k = n›)
    · exact inv.heldOnce m k r held held'

/-- Every move of ownership keeps ownership, when the steps left of the operation under way still have what they rely on. -/
theorem OwnershipMove.ownershipInv {ends : Chan → Resources → Prop}
    (h : OwnershipMove ends s.life s.pinned t.life t.pinned) (inv : OwnershipInv s) (left : DoingOk t t.cpu.doing) :
    OwnershipInv t := by
  cases h with
  | keeps lives exist =>
    have record := getLife_congr lives
    exact ⟨fun n r => record n ▸ exist ▸ inv.heldExist n r, fun n m r => record n ▸ record m ▸ inv.heldOnce n m r,
      exist ▸ inv.selfDisjoint, exist ▸ inv.apart, left⟩
  | binds r self apart lives exist =>
    have record := getLife_congr lives
    refine ⟨fun n q held => ?_, fun n m r => record n ▸ record m ▸ inv.heldOnce n m r, ?_, ?_, left⟩ <;> rw [exist]
    · exact List.mem_cons_of_mem r (inv.heldExist n q (record n ▸ held))
    · exact List.forall_mem_cons.2 ⟨self, inv.selfDisjoint⟩
    · refine List.pairwise_cons.2 ⟨fun q hq x hx => ?_, inv.apart⟩
      exact Bool.not_eq_true _ ▸ List.any_eq_false.1 (apart x hx) q hq
  | frees r unheld lives exist =>
    have record := getLife_congr lives
    refine ⟨fun n q held => ?_, fun n m r => record n ▸ record m ▸ inv.heldOnce n m r, ?_, ?_, left⟩ <;> rw [exist]
    · rw [record] at held
      have other : q ≠ r := by
        rintro rfl
        exact unheld n held
      exact List.mem_filter.2 ⟨inv.heldExist n q held, decide_eq_true other⟩
    · exact fun q hq => inv.selfDisjoint q (List.mem_filter.1 hq).1
    · exact inv.apart.filter _
  | readies r n free pin unheld lives exist =>
    refine ownershipInv_of_bankSet inv lives exist left fun q carries => ?_
    obtain rfl : r = q := by simpa [Carries] using carries
    exact ⟨pin, fun m held => absurd held (unheld m)⟩
  | starts r n ready lives exist =>
    refine ownershipInv_of_bankSet inv lives exist left fun q carries => ?_
    obtain rfl : r = q := by simpa [Carries] using carries
    exact ⟨inv.heldExist n r (.inl ready), fun m held => inv.heldOnce m n r held (.inl ready)⟩
  | returns r n started which lives exist =>
    exact ownershipInv_of_bankSet inv lives exist left fun q carries => by simp [Carries] at carries

end

/-! Every instruction makes one of the moves. -/

/-- `i` is a wait for `r` on channel `n` whose poll finds the channel idle (44_transfer_lifecycle.md R203, R205). -/
abbrev WaitEnds (i : Instr) (s : State) (n : Chan) (r : Resources) : Prop :=
  getBusy s n = .of false ∧ (i = .transferWait ⟨r, .started⟩ n ∨ ∃ k, i = .transferWaitBounded ⟨r, .started⟩ n k)

theorem effect_ownership {i : Instr} {s t : State} (h : Effect i s t) :
    OwnershipMove (WaitEnds i s) s.life s.pinned t.life t.pinned := by
  cases h with
  | moves => exact .keeps (engineWrite_life ..) (engineWrite_pinned ..)
  | drains j =>
    obtain ⟨_, _, _, lives, exist, _⟩ := drainEffect_fields j s
    exact .keeps lives exist
  | binds A src dst _ _ go =>
    obtain ⟨_, _, _, _, self, apart⟩ := memToMemStop_eq_none.1 go
    exact .binds ⟨A, src, dst⟩ self apart rfl rfl
  | frees r _ _ unheld => exact .frees r (fun n => not_carries_of_ne (unheld n)) rfl rfl
  | readies r n _ free pin unheld => exact .readies r n free pin (fun m => not_carries_of_ne (unheld m)) rfl rfl
  | starts x n _ _ life => exact .starts x.res n life rfl rfl
  | waitEnds _ x n _ started life idle which =>
    obtain ⟨r, _⟩ := x
    obtain rfl := started
    exact .returns r n life ⟨idle, which⟩ rfl rfl
  | _ => exact .keeps rfl rfl

theorem exec_ownership {i : Instr} {s t : State} (h : exec i s = .next t) :
    OwnershipMove (WaitEnds i s) s.life s.pinned t.life t.pinned := effect_ownership (exec_effect h)

/-- What no software writes leaves ownership and the operation under way alone (43_engine.md R192, 20_memory.md R74). -/
theorem exec_engine_frame {i : Instr} {s t : State} (engine : instrIsSoftware i = false) (h : exec i s = .next t) :
    t.life = s.life ∧ t.pinned = s.pinned ∧ t.cpu.doing = s.cpu.doing := by
  cases exec_effect h with
  | moves => exact ⟨engineWrite_life .., engineWrite_pinned .., engineWrite_doing ..⟩
  | drains j =>
    obtain ⟨_, _, _, lives, exist, _, _, _, doing, _⟩ := drainEffect_fields j s
    exact ⟨lives, exist, doing⟩
  | engineFaults | fetchesWord | latches | links | completes => exact ⟨rfl, rfl, rfl⟩
  | returns _ _ _ soft | raises _ _ _ soft => simp [soft] at engine
  | polls _ _ _ _ _ _ _ _ which | waitEnds _ _ _ _ _ _ _ which =>
    rcases which with rfl | ⟨_, rfl⟩ <;> simp [instrIsSoftware] at engine
  | _ => simp [instrIsSoftware] at engine

/-! The operation under way (30_encoding.md R108; log 9). -/

theorem restOk_of_eq {s t : State} {r : Rest} (ok : RestOk s r) (lives : t.life = s.life) (exist : t.pinned = s.pinned) :
    RestOk t r := by
  have same : RestOk t r = RestOk s r := by
    cases r <;> simp only [RestOk, inCallersHands, heldByTransfer, getLife_congr lives, exist]
  exact same ▸ ok

theorem doingOk_of_eq {s t : State} {rs : List Rest} (ok : DoingOk s rs) (lives : t.life = s.life)
    (exist : t.pinned = s.pinned) : DoingOk t rs := by
  induction rs with
  | nil => trivial
  | cons r rs ih =>
    cases rs with
    | nil => exact restOk_of_eq ok lives exist
    | cons => exact ⟨ok.1, ih ok.2⟩

theorem doingOk_of_nil {s : State} (noneLeft : s.cpu.doing = []) : DoingOk s s.cpu.doing := by
  rw [noneLeft]
  trivial

/-- An instruction that runs with no operation under way leaves at most one more poll of its wait. -/
theorem exec_doingOk {i : Instr} {s t : State} (noneLeft : s.cpu.doing = []) (h : exec i s = .next t) :
    DoingOk t t.cpu.doing := by
  have nothingLeft (doing : t.cpu.doing = s.cpu.doing) : DoingOk t t.cpu.doing := doingOk_of_nil (doing.trans noneLeft)
  cases exec_effect h with
  | polls _ _ x n left _ life =>
    rw [pushRest_cpu_doing, noneLeft]
    exact life
  | moves => exact nothingLeft (engineWrite_doing ..)
  | drains j =>
    obtain ⟨_, _, _, _, _, _, _, _, doing, _⟩ := drainEffect_fields j s
    exact nothingLeft doing
  | _ => exact nothingLeft rfl

theorem firstPiece_doing {s u : State} {rs : List Rest} (h : FirstPiece s u rs) : u.cpu.doing = s.cpu.doing := by
  cases h <;> rfl

/-- The first CPU step of an operation does not change ownership, and what it checked is what the steps left rely on. -/
theorem firstPiece_ownership {s u : State} {rs : List Rest} (h : FirstPiece s u rs) :
    u.life = s.life ∧ u.pinned = s.pinned ∧ DoingOk u rs := by
  cases h with
  | freshStore => exact ⟨rfl, rfl, by simp [middleRest, DoingOk, restQuiet, RestOk]⟩
  | bindStore A src dst go =>
    obtain ⟨_, _, _, _, self, apart⟩ := memToMemStop_eq_none.1 go
    exact ⟨rfl, rfl, rfl, rfl, rfl, rfl, self, apart⟩
  | domain _ _ free hands => exact ⟨rfl, rfl, free, hands⟩
  | fence _ _ life => exact ⟨rfl, rfl, life⟩
  | lastPoll _ _ life => exact ⟨rfl, rfl, life⟩
  | busyPoll _ _ _ life => exact ⟨rfl, rfl, life⟩
  | reset => exact ⟨rfl, rfl, rfl, rfl, trivial⟩

end Sys2Proof.Machine
end

section
/-! What a CPU step and a step of any agent do to ownership (30_encoding.md R108; 44_transfer_lifecycle.md R207), and the
obligations on ownership. -/

namespace Sys2Proof.Machine

open Sys2Proof.Safety

/-- The CPU step that comes next is the last one of a wait for `r` on channel `n` (44_transfer_lifecycle.md R203, R205). -/
abbrev AtWaitEnd (doing : List Rest) (n : Chan) (r : Resources) : Prop :=
  ∃ x rest, x.res = r ∧ doing = .waitEnd x n :: rest

/-- A CPU step left that is not the last one changes no ownership. -/
theorem runRest_quiet {q : Rest} {s t : State} (quiet : restQuiet q = true) (h : runRest q s = .next t) :
    t.life = s.life ∧ t.pinned = s.pinned ∧ t.cpu.doing = s.cpu.doing := by
  cases q with
  | store =>
    obtain ⟨_, rfl⟩ := storeWord_eq_next.1 h
    exact ⟨rfl, rfl, rfl⟩
  | release | clock =>
    obtain rfl := Host.Outcome.next.inj h
    exact ⟨rfl, rfl, rfl⟩
  | _ => simp [restQuiet] at quiet

/-- The last CPU step left makes the move its operation is for, or goes on with a wait that is still Started. -/
theorem runRest_last {q : Rest} {s t : State} (ok : RestOk s q) (noneLeft : s.cpu.doing = []) (h : runRest q s = .next t) :
    OwnershipMove (fun n r => ∃ x, x.res = r ∧ q = .waitEnd x n) s.life s.pinned t.life t.pinned ∧
      DoingOk t t.cpu.doing := by
  have done {u : State} (doing : u.cpu.doing = s.cpu.doing) : DoingOk u u.cpu.doing :=
    doingOk_of_nil (doing.trans noneLeft)
  cases q with
  | store =>
    obtain ⟨_, rfl⟩ := storeWord_eq_next.1 h
    exact ⟨.keeps rfl rfl, done rfl⟩
  | bind A src dst =>
    obtain ⟨_, rfl⟩ := bindEnd_next h
    exact ⟨.binds ⟨A, src, dst⟩ ok.1 ok.2 rfl rfl, done rfl⟩
  | newAddr r n =>
    obtain ⟨_, _, rfl⟩ := newAddr_next h
    obtain ⟨free, hands⟩ := ok
    obtain ⟨pin, unheld⟩ := inCallersHands_eq_true.1 hands
    exact ⟨.readies r n free pin (fun m => not_carries_of_ne (unheld m)) rfl rfl, done rfl⟩
  | startEnable x n =>
    obtain ⟨_, _, _, _, rfl⟩ := startEnable_next h
    exact ⟨.starts x.res n ok rfl rfl, done rfl⟩
  | poll x n left =>
    have more {p : Rest} (ok : RestOk s p) : DoingOk (pushRest s [p]) (pushRest s [p]).cpu.doing := by
      rw [pushRest_cpu_doing, noneLeft]
      exact restOk_of_eq ok rfl rfl
    obtain ⟨_, ⟨_, h⟩ | ⟨_, rfl | ⟨again, rfl⟩⟩⟩ := pollOnce_next h
    · obtain rfl := Host.Outcome.next.inj h
      exact ⟨.keeps rfl rfl, more (p := .waitEnd x n) ok⟩
    · exact ⟨.keeps rfl rfl, done rfl⟩
    · exact ⟨.keeps rfl rfl, more (p := .poll x n again) ok⟩
  | waitEnd x n =>
    obtain rfl := Host.Outcome.next.inj h
    exact ⟨.returns x.res n ok ⟨x, rfl, rfl⟩ rfl rfl, done rfl⟩
  | release | clock =>
    obtain rfl := Host.Outcome.next.inj h
    exact ⟨.keeps rfl rfl, done rfl⟩
  | gates =>
    obtain ⟨_, _, rfl⟩ := splitEnd_next h
    exact ⟨.keeps rfl rfl, done rfl⟩

section

variable {s t : State} (noneLeft : s.cpu.doing = [])
include noneLeft

/-- An instruction that is one CPU step is no wait. -/
theorem exec_single_ownership {i : Instr} (single : expands i = false) (h : exec i s = .next t) :
    OwnershipMove (fun _ _ => False) s.life s.pinned t.life t.pinned ∧ DoingOk t t.cpu.doing := by
  refine ⟨(exec_ownership h).mono ?_, exec_doingOk noneLeft h⟩
  rintro n r ⟨_, rfl | ⟨_, rfl⟩⟩ <;> simp [expands] at single

theorem cpuInstr_ownership {i : Instr} (h : cpuInstr i s = .next t) :
    OwnershipMove (fun _ _ => False) s.life s.pinned t.life t.pinned ∧ DoingOk t t.cpu.doing := by
  obtain ⟨single, h⟩ | ⟨_, rfl⟩ | ⟨_, rfl⟩ | ⟨u, rs, piece, rfl⟩ := cpuInstr_next h
  · exact exec_single_ownership noneLeft single h
  · exact ⟨.keeps rfl rfl, doingOk_of_nil noneLeft⟩
  · exact ⟨.keeps rfl rfl, doingOk_of_nil noneLeft⟩
  · obtain ⟨lives, exist, left⟩ := firstPiece_ownership piece
    refine ⟨.keeps lives exist, ?_⟩
    rw [pushRest_cpu_doing, firstPiece_doing piece, noneLeft, List.append_nil]
    exact doingOk_of_eq left rfl rfl

theorem cpuOp_ownership {op : CpuOp} {pick : Nat} (h : cpuOp op pick s = .next t) :
    OwnershipMove (fun _ _ => False) s.life s.pinned t.life t.pinned ∧ DoingOk t t.cpu.doing := by
  obtain ⟨_, h⟩ | ⟨_, single, h⟩ | ⟨_, _, h⟩ | ⟨_, _, _, h⟩ | ⟨g, _, _, rfl⟩ | ⟨_, rfl⟩ := cpuOp_next h
  · exact cpuInstr_ownership noneLeft h
  · exact exec_single_ownership noneLeft single h
  · obtain ⟨_, _, _, rfl⟩ := cpuLoad_next h
    exact ⟨.keeps rfl rfl, doingOk_of_nil noneLeft⟩
  · obtain ⟨_, rfl⟩ := cpuStore_next h
    exact ⟨.keeps rfl rfl, doingOk_of_nil noneLeft⟩
  · cases g <;> exact ⟨.keeps rfl rfl, doingOk_of_nil noneLeft⟩
  · exact ⟨.keeps rfl rfl, doingOk_of_nil noneLeft⟩

end

/-- Every turn makes a move of ownership, and only the last CPU step of a wait ends a Started transfer. -/
theorem takeTurn_ownership {t : Turn} {s u : State} (h : takeTurn t s = .next u) (ok : DoingOk s s.cpu.doing) :
    OwnershipMove (fun n r => t.agent = .cpu ∧ AtWaitEnd s.cpu.doing n r) s.life s.pinned u.life u.pinned ∧
      DoingOk u u.cpu.doing := by
  obtain rfl | ⟨_, engine, _, h⟩ | ⟨_, _, _, _, rfl⟩ | ⟨cpu, _, q, rs, doing, h⟩ |
    ⟨_, _, noneLeft, _, ops, _, _, h⟩ := takeTurn_cases h
  · exact ⟨.keeps rfl rfl, ok⟩
  · obtain ⟨lives, exist, doing⟩ := exec_engine_frame engine h
    exact ⟨.keeps lives exist, doing ▸ doingOk_of_eq ok lives exist⟩
  · exact ⟨.keeps rfl rfl, doingOk_of_eq ok rfl rfl⟩
  · rw [doing] at ok
    cases rs with
    | nil =>
      obtain ⟨move, left⟩ := runRest_last (s := { s with cpu := { s.cpu with doing := [] } }) (restOk_of_eq ok rfl rfl) rfl h
      refine ⟨move.mono ?_, left⟩
      rintro n r ⟨x, res, rfl⟩
      exact ⟨cpu, x, [], res, doing⟩
    | cons p rs =>
      obtain ⟨quiet, left⟩ := ok
      obtain ⟨lives, exist, rest⟩ := runRest_quiet quiet h
      exact ⟨.keeps lives exist, rest ▸ doingOk_of_eq left lives exist⟩
  · obtain ⟨move, left⟩ := cpuOp_ownership (s := { s with cpu := { s.cpu with prog := ops } }) noneLeft h
    exact ⟨move.mono fun _ _ => False.elim, left⟩

theorem step_ownership {s t : State} (h : step s = .next t) (ok : DoingOk s s.cpu.doing) :
    OwnershipMove (fun n r => (turnOf s).agent = .cpu ∧ AtWaitEnd s.cpu.doing n r) s.life s.pinned t.life t.pinned ∧
      DoingOk t t.cpu.doing := by
  obtain ⟨_, _, _, _, cpu, lives, exist⟩ := afterTurn_fields s
  have ok' : DoingOk (afterTurn s) (afterTurn s).cpu.doing := by
    rw [cpu]
    exact doingOk_of_eq ok lives exist
  have move := takeTurn_ownership h ok'
  rwa [lives, exist, cpu] at move

/-- Settles O54: every step makes one of the six moves of ownership, and each of them keeps every clause. -/
theorem stepKeepsOwnership : Obligations.StepKeepsOwnership := by
  intro s t inv h
  obtain ⟨move, left⟩ := step_ownership h inv.underWay
  exact move.ownershipInv inv left

/-- Settles O36: of the six moves of ownership only the return of a wait ends a Started transfer. -/
theorem startedEndsOnlyByWait : Obligations.StartedEndsOnlyByWait :=
  ⟨fun _ _ _ _ _ started h => (exec_ownership h).started_or_ends started,
    fun _ _ _ _ inv started h => (step_ownership h inv.underWay).1.started_or_ends started⟩

end Sys2Proof.Machine
end

section
/-! The lifecycle operations when their check succeeds and when it fails (44_transfer_lifecycle.md R201 to R206). -/

namespace Sys2Proof.Machine

open Sys2Proof.Safety

theorem lifecycleChecked_of_true {ok : Bool} (holds : ok = true) (op : LifeOp) (n : Chan) (s : State) (k : Outcome) :
    lifecycleChecked ok op n s k = k := by
  rw [lifecycleChecked, if_pos holds]

theorem lifecycleChecked_of_not {ok : Bool} (fails : ¬ ok = true) (op : LifeOp) (n : Chan) (s : State) (k : Outcome) :
    lifecycleChecked ok op n s k = raiseError (.lifecycleViolation op (getLife s n)) s := by
  rw [lifecycleChecked, if_neg fails]

section

variable {s : State} {n : Chan} {x : Transfer}

/-! `Transfer::new` and `start` (44_transfer_lifecycle.md R201, R202). -/

theorem newAddr_of_idle (use : Usable n s) (idle : (getCh s n).phase = .idle) (r : Resources) :
    newAddr r n s = .next (readyEffect r n s) := by
  rw [newAddr, execChSetDescAddr, writeStop_eq_none.2 ⟨use, idle⟩, guarded_none, andThen_next, readyEffect]

theorem exec_transferNew_of_free {r : Resources} (free : getLife s n = .free) (hands : inCallersHands s r = true)
    (use : Usable n s) (idle : (getCh s n).phase = .idle) :
    exec (.transferNew r n) s = .next (readyEffect r n (setSec s n .nonSecure)) := by
  rw [exec, execTransferNew, transferNewFrom, lifecycleChecked_of_true (decide_eq_true free), require_eq_none.2 hands,
    guarded_none, execChSetNonsecure, writeStop_eq_none.2 ⟨use, idle⟩, guarded_none, andThen_next]
  exact newAddr_of_idle (s := setSec s n .nonSecure) use idle r

theorem startEnable_of_idle (use : Usable n s) (idle : (getCh s n).phase = .idle)
    (address : (getCh s n).descAddr ≠ .unset) (domain : getSec s n = .of .nonSecure) :
    startEnable x n s = .next (startEffect x n s) := by
  rw [startEnable, execChEnable, enableStop_eq_none.2 ⟨use, idle, address, domain⟩, guarded_none, andThen_next, startEffect]

theorem exec_transferStart_of_ready (ready : x.state = .ready) (life : getLife s n = .ready x.res) :
    exec (.transferStart x n) s = startEnable x n (fenceEffect s) := by
  rw [exec, execTransferStart, transferStartFrom, lifecycleChecked_of_true (isReady_eq_true.2 ⟨ready, life⟩)]

/-! The polls of a wait (44_transfer_lifecycle.md R203, R205): on a usable channel the busy flag alone decides. -/

theorem exec_transferWait_of_started (started : x.state = .started) (life : getLife s n = .started x.res) :
    exec (.transferWait x n) s = pollOnce x n none (waitEnd x n) s := by
  rw [exec, execTransferWait, transferWaitFrom, lifecycleChecked_of_true (isStarted_eq_true.2 ⟨started, life⟩)]

theorem exec_transferWaitBounded_of_started {L : Nat} (offered : boundOffered s.config L = true)
    (started : x.state = .started) (life : getLife s n = .started x.res) :
    exec (.transferWaitBounded x n L) s = pollOnce x n (some L) (waitEnd x n) s := by
  rw [exec, execTransferWaitBounded, transferWaitBoundedFrom, require_eq_none.2 offered, guarded_none,
    lifecycleChecked_of_true (isStarted_eq_true.2 ⟨started, life⟩)]

section

variable (use : Usable n s) (left : Option Nat) (k : State → Outcome)
include use

theorem pollOnce_of_busy (busy : getBusy s n = .of true) : pollOnce x n left k s = stillBusy x n left s := by
  rw [pollOnce, usable_eq_none.2 use, guarded_none, busy, readVal_of, if_pos rfl]

theorem pollOnce_of_idle (idle : getBusy s n = .of false) : pollOnce x n left k s = k s := by
  rw [pollOnce, usable_eq_none.2 use, guarded_none, idle, readVal_of, if_neg Bool.false_ne_true]

theorem pollOnce_of_unset (unset : getBusy s n = .unset) : pollOnce x n left k s = .refused .unsetState := by
  rw [pollOnce, usable_eq_none.2 use, guarded_none, unset, readVal_unset]

end

theorem stillBusy_of_two_le {j : Nat} (more : 2 ≤ j) :
    stillBusy x n (some j) s = .next (pushRest s [.poll x n (some (j - 1))]) := by
  rw [stillBusy, if_neg (by omega), later]

theorem exec_transferWaitBounded_of_absent {L : Nat} (absent : s.config.pollLimit ≠ some L ∨ L = 0) :
    exec (.transferWaitBounded x n L) s = .refused .operationAbsent := by
  have notOffered : boundOffered s.config L = false := by
    rw [Bool.eq_false_iff, Ne, boundOffered_eq_true]
    rintro ⟨limit, pos⟩
    exact absent.elim (· limit) pos.ne'
  rw [exec, execTransferWaitBounded, transferWaitBoundedFrom, require_of_false notOffered, guarded_refuse]

end

/-- Settles O30: the domain and the descriptor address are written, one after the other, and the channel's record. -/
theorem transferNewBindsTheChannel : Obligations.TransferNewBindsTheChannel := by
  intro s n r free use idle pinned notHeld
  refine ⟨readyEffect r n (setSec s n .nonSecure),
    exec_transferNew_of_free free (inCallersHands_eq_true.2 ⟨pinned, notHeld⟩) use idle, ?_, ?_, ?_, rfl,
    fun m other => ⟨?_, ?_, ?_⟩, rfl⟩
  all_goals simp [readyEffect, *]

/-- Settles O31: the fence is the whole effect on memory and the store buffer, and the enable trigger the rest. -/
theorem startPublishesAndEnables : Obligations.StartPublishesAndEnables := by
  intro s n x a ready life use idle address domain
  have written : (getCh s n).descAddr ≠ .unset := by simp [address]
  refine ⟨startEffect x n (fenceEffect s),
    (exec_transferStart_of_ready ready life).trans (startEnable_of_idle use idle written domain), rfl, rfl,
    memRead_fenceEffect s, ?_, ?_, ?_, rfl, fun m other => ⟨?_, ?_, ?_⟩, rfl⟩
  all_goals simp [startEffect, *]

/-- Settles O32: the busy flag decides each poll, and the end of the wait is the fence and the channel's record. -/
theorem waitPollsThenFences : Obligations.WaitPollsThenFences := by
  intro s n x use
  refine ⟨fun started life => ⟨fun busy => ?_, fun idle => ?_, fun unset => ?_⟩,
    fun busy => pollOnce_of_busy use none _ busy, fun idle => pollOnce_of_idle use none _ idle,
    fun unset => pollOnce_of_unset use none _ unset⟩
  · exact (exec_transferWait_of_started started life).trans (pollOnce_of_busy use none _ busy)
  · exact ⟨waitDone x n s, exec_transferWait_of_idle started life use idle, rfl, rfl, memRead_fenceEffect s,
      getLife_setLife_same _ n _, fun _ other => getLife_setLife_ne _ _ other, rfl, rfl⟩
  · exact (exec_transferWait_of_started started life).trans (pollOnce_of_unset use none _ unset)

/-- Settles O34: the polls are those of `wait`, and a busy one counts: the last gives the timeout, another leaves one less. -/
theorem waitBoundedCountsPolls : Obligations.WaitBoundedCountsPolls := by
  intro s n x L k
  refine ⟨fun limit pos started life use => ?_, exec_transferWaitBounded_of_absent,
    fun use => ⟨fun busy => ?_, fun busy => pollOnce_of_busy use (some 1) _ busy,
      fun idle => pollOnce_of_idle use _ _ idle, fun unset => pollOnce_of_unset use _ _ unset⟩⟩
  · rw [exec_transferWaitBounded_of_started (boundOffered_eq_true.2 ⟨limit, pos⟩) started life]
    refine ⟨fun busy more => ?_, fun busy last => ?_, fun idle => ?_, fun unset => pollOnce_of_unset use _ _ unset⟩
    · exact (pollOnce_of_busy use _ _ busy).trans (stillBusy_of_two_le more)
    · exact last ▸ pollOnce_of_busy use (some 1) _ busy
    · exact ⟨waitDone x n s, pollOnce_of_idle use _ _ idle, exec_transferWait_of_idle started life use idle, rfl⟩
  · exact (pollOnce_of_busy use _ _ busy).trans (stillBusy_of_two_le (by omega))

/-- Settles O35: each operation begins with its lifecycle check, which raises when it fails. -/
theorem wrongStateRaisesLifecycleViolation : Obligations.WrongStateRaisesLifecycleViolation := by
  intro s n x r k
  refine ⟨fun notFree => ?_, fun wrong => ?_, fun wrong => ?_⟩
  · exact lifecycleChecked_of_not (mt of_decide_eq_true notFree) .new n s _
  · have notReady : ¬ isReady x n s = true := by
      rw [isReady_eq_true]
      tauto
    exact lifecycleChecked_of_not notReady .start n s _
  · have notStarted : ¬ isStarted x n s = true := by
      rw [isStarted_eq_true]
      tauto
    refine ⟨lifecycleChecked_of_not notStarted .wait n s _, lifecycleChecked_of_not notStarted .isActive n s _,
      fun limit pos => ?_⟩
    rw [exec, execTransferWaitBounded, transferWaitBoundedFrom,
      require_eq_none.2 (boundOffered_eq_true.2 ⟨limit, pos⟩), guarded_none]
    exact lifecycleChecked_of_not notStarted .wait n s _

end Sys2Proof.Machine
end

section
/-! Bring-up (45_split.md R220 to R226): what the block reset, the clock, auto-gating and `split` do, and what stops them. -/

namespace Sys2Proof.Machine

open Sys2Proof.Safety

theorem requireVal_of_unset {α : Type} [DecidableEq α] {v : Val α} (unset : v = .unset) (a : α) (x : Stop) :
    requireVal v a x = some (.refuse .unsetState) := by
  rw [unset, requireVal]

section

variable {s : State}

/-! The block reset (45_split.md R221, R226). -/

theorem execCcuResetAssert_of_idle (idle : ∀ n, (getCh s n).phase = .idle) :
    execCcuResetAssert s = .next (resetEffect s) := by
  rw [execCcuResetAssert, require_eq_none.2 (allIdle_eq_true.2 idle), guarded_none]

theorem execCcuResetAssert_of_busy (busy : ∃ n, (getCh s n).phase ≠ .idle) :
    execCcuResetAssert s = .refused .resetWhileBusy := by
  have notIdle : allIdle s = false := by
    rw [Bool.eq_false_iff, ne_eq, allIdle_eq_true]
    exact not_forall.2 busy
  rw [execCcuResetAssert, require_of_false notIdle, guarded_refuse]

/-- The rows of the reset table that name a channel (10_state.md R53). -/
abbrev ChannelsAsTable (t : State) : Prop :=
  ∀ n, getCh t n = ⟨.of false, .of false, .unset, .unset, .unset, .unset, .unset, .unset, .unset, .unset, .unset, .unset,
      .idle, ⟨none, none, none, none, none, none⟩, .unset, (getCh t n).len⟩ ∧
    getBusy t n = .of false ∧ getSec t n = .unset

theorem channelsAsTable_of_fresh {t : State} (fresh : FreshChannels t) (sec : t.blk.sec = everyChannel .unset) :
    ChannelsAsTable t := by
  intro n
  obtain ⟨ch, busy⟩ := fresh n
  exact ⟨by rw [ch]; rfl, busy, by rw [getSec, sec, bankGet_everyChannel]⟩

theorem not_live_of_inReset {t : State} (reset : t.blk.inReset = .of true) (n : Chan) : ¬ Live n t := by
  rintro ⟨_, released, _⟩
  simp [reset] at released

theorem not_usable_of_inReset {t : State} (reset : t.blk.inReset = .of true) (n : Chan) : ¬ Usable n t := by
  rintro ⟨_, _, released, _⟩
  simp [reset] at released

/-! Auto-gating (45_split.md R223): the guard reads the clock first, and the reset only with the clock on. -/

theorem gateStop_of_clock_stop {x : Stop} (stop : requireVal s.blk.clkOn true (.refuse .channelNotUsable) = some x) :
    gateStop s = some x := by
  rw [gateStop, stop, both_some]

theorem gateStop_of_clock_on (clock : s.blk.clkOn = .of true) :
    gateStop s = requireVal s.blk.inReset false (.refuse .channelNotUsable) := by
  rw [gateStop, requireVal_eq_none.2 clock, both_none]

theorem execBlkAutogateEnable_of_up (clock : s.blk.clkOn = .of true) (released : s.blk.inReset = .of false) :
    execBlkAutogateEnable s =
      .next { s with blk := { s.blk with agMclk := .of .on, agChan := .of .on, agCommon := .of .on } } := by
  rw [execBlkAutogateEnable, gateStop_eq_none.2 ⟨clock, released⟩, guarded_none]
  rfl

theorem execBlkAutogateEnable_of_stop {r : Refusal} (stop : gateStop s = some (.refuse r)) :
    execBlkAutogateEnable s = .refused r := by
  rw [execBlkAutogateEnable, stop, guarded_refuse]

/-! `split` (45_split.md R220, R226). -/

theorem splitEnd_of_up (clock : s.blk.clkOn = .of true) (released : s.blk.inReset = .of false) :
    splitEnd s = .next (splitEndEffect s) := by
  rw [splitEnd, execBlkAutogateEnable_of_up clock released, andThen_next]
  rfl

theorem splitFrom_of_first (first : s.blk.splitDone = false) (k : State → Outcome) :
    splitFrom k s = andThen (execCcuResetAssert s) k := by
  rw [splitFrom, require_eq_none.2 (by simp [first]), guarded_none]

/-- The release and the clock command establish what the guard of auto-gating asks for, whatever the block was before. Every
field of the block is written on the way, so that nothing of the old one is left in `splitBlock`. -/
theorem execSplit_of_first (first : s.blk.splitDone = false) (idle : ∀ n, (getCh s n).phase = .idle) :
    execSplit s = .next { s with
      ch := everyChannel resetChannel
      blk := splitBlock
      cpu := { s.cpu with ret := .dma s.config.nimpl } } := by
  rw [execSplit, splitFrom_of_first first, execCcuResetAssert_of_idle idle, andThen_next, execCcuResetDeassert,
    andThen_next, execCcuClockEnable, andThen_next]
  exact splitEnd_of_up rfl rfl

theorem execSplit_of_busy (first : s.blk.splitDone = false) (busy : ∃ n, (getCh s n).phase ≠ .idle) :
    execSplit s = .refused .resetWhileBusy := by
  rw [execSplit, splitFrom_of_first first, execCcuResetAssert_of_busy busy, andThen]

theorem execSplit_of_second (done : s.blk.splitDone = true) : execSplit s = .refused .secondSplit := by
  rw [execSplit, splitFrom, require_of_false (by simp [done]), guarded_refuse]

end

/-- Settles O20: the reset writes the table and puts the block in reset, so that no guard of an engine step or of a channel
command is met. -/
theorem resetLeavesTheTable : Obligations.ResetLeavesTheTable := by
  intro s
  refine ⟨fun idle => ?_, execCcuResetAssert_of_busy, rfl⟩
  have reset : (resetEffect s).blk.inReset = .of true := rfl
  exact ⟨resetEffect s, execCcuResetAssert_of_idle idle, reset,
    channelsAsTable_of_fresh (freshChannels_of_eq rfl rfl) rfl, rfl, rfl, rfl,
    fun n => ⟨not_live_of_inReset reset n, not_usable_of_inReset reset n⟩, rfl⟩

/-- Settles O22: the first `split` leaves `splitBlock` over freshly reset channels. -/
theorem splitBringsTheBlockUp : Obligations.SplitBringsTheBlockUp := by
  intro s
  refine ⟨fun first idle => ?_, execSplit_of_busy, execSplit_of_second⟩
  exact ⟨_, execSplit_of_first first idle, rfl, rfl, rfl, rfl, rfl, rfl,
    channelsAsTable_of_fresh (freshChannels_of_eq rfl rfl) rfl, fun _ handedOut => ⟨rfl, rfl, rfl, handedOut⟩, rfl⟩

/-- Settles O21: the clock is written without a guard; auto-gating is stopped by the clock, and with the clock on by the
reset. -/
theorem clockAndAutogate : Obligations.ClockAndAutogate := by
  intro s
  refine ⟨rfl, execBlkAutogateEnable_of_up, fun clockOff => ?_, fun clock reset => ?_, fun unset => ?_,
    fun clock unset => ?_⟩ <;> refine execBlkAutogateEnable_of_stop ?_
  · exact gateStop_of_clock_stop (requireVal_of_ne clockOff Bool.false_ne_true _)
  · rw [gateStop_of_clock_on clock, requireVal_of_ne reset Bool.false_ne_true.symm]
  · exact gateStop_of_clock_stop (requireVal_of_unset unset _ _)
  · rw [gateStop_of_clock_on clock, requireVal_of_unset unset]

end Sys2Proof.Machine
end

section
/-! An aborted CPU (60_exceptions.md R243): the turns of the other agents leave what belongs to the software as it is, and its
own turn is empty. -/

namespace Sys2Proof.Machine

/-- What belongs to the software is in `t` as it was in `s`: the CPU but for its store buffer and stale bytes, which engines
and drains change (20_memory.md R73, R74), the records of the lifecycle arbiter, and what is pinned. -/
structure SoftwareStands (s t : State) : Prop where
  run : t.cpu.run = s.cpu.run
  prog : t.cpu.prog = s.cpu.prog
  doing : t.cpu.doing = s.cpu.doing
  ret : t.cpu.ret = s.cpu.ret
  life : t.life = s.life
  pinned : t.pinned = s.pinned

theorem softwareStands_of_eq {s t : State} (cpu : t.cpu = s.cpu) (life : t.life = s.life) (pinned : t.pinned = s.pinned) :
    SoftwareStands s t :=
  ⟨congrArg Cpu.run cpu, congrArg Cpu.prog cpu, congrArg Cpu.doing cpu, congrArg Cpu.ret cpu, life, pinned⟩

theorem SoftwareStands.trans {s t u : State} (first : SoftwareStands s t) (second : SoftwareStands t u) :
    SoftwareStands s u where
  run := second.run.trans first.run
  prog := second.prog.trans first.prog
  doing := second.doing.trans first.doing
  ret := second.ret.trans first.ret
  life := second.life.trans first.life
  pinned := second.pinned.trans first.pinned

/-- Only what software writes raises an error or returns a value. -/
theorem exec_engine_cpu_frame {i : Instr} {s t : State} (engine : instrIsSoftware i = false) (h : exec i s = .next t) :
    t.cpu.run = s.cpu.run ∧ t.cpu.prog = s.cpu.prog ∧ t.cpu.ret = s.cpu.ret := by
  cases exec_effect h with
  | moves => exact ⟨engineWrite_run .., engineWrite_prog .., engineWrite_ret ..⟩
  | drains j =>
    obtain ⟨_, _, _, _, _, _, run, prog, _, ret⟩ := drainEffect_fields j s
    exact ⟨run, prog, ret⟩
  | engineFaults | fetchesWord | latches | links | completes | polls => exact ⟨rfl, rfl, rfl⟩
  | returns _ _ _ soft | raises _ _ _ soft => simp [soft] at engine
  | waitEnds _ _ _ _ _ _ _ which => rcases which with rfl | ⟨_, rfl⟩ <;> simp [instrIsSoftware] at engine
  | _ => simp [instrIsSoftware] at engine

theorem exec_engine_softwareStands {i : Instr} {s t : State} (engine : instrIsSoftware i = false) (h : exec i s = .next t) :
    SoftwareStands s t := by
  obtain ⟨life, pinned, doing⟩ := exec_engine_frame engine h
  obtain ⟨run, prog, ret⟩ := exec_engine_cpu_frame engine h
  exact ⟨run, prog, doing, ret, life, pinned⟩

/-- While the CPU does not run, a turn that does anything is an engine's or the drain's. -/
theorem takeTurn_softwareStands {t : Turn} {s u : State} (stopped : s.cpu.run ≠ .running) (h : takeTurn t s = .next u) :
    SoftwareStands s u := by
  obtain rfl | ⟨_, engine, _, h⟩ | ⟨_, _, _, _, rfl⟩ | ⟨_, running, _⟩ | ⟨_, running, _⟩ := takeTurn_cases h
  · exact softwareStands_of_eq rfl rfl rfl
  · exact exec_engine_softwareStands engine h
  · exact softwareStands_of_eq rfl rfl rfl
  · exact absurd running stopped
  · exact absurd running stopped

theorem afterTurn_softwareStands (s : State) : SoftwareStands s (afterTurn s) := by
  obtain ⟨_, _, _, _, cpu, life, pinned⟩ := afterTurn_fields s
  exact softwareStands_of_eq cpu life pinned

theorem takeTurn_of_cpu {t : Turn} (turn : t.agent = .cpu) (s : State) : takeTurn t s = cpuTurn t.pick s := by
  rw [takeTurn, turn]

/-- Settles O57: no turn moves the software of a stopped CPU, and the CPU's own turn is `cpuTurn`, which is empty then. -/
theorem abortIsFinalForTheCpu : Obligations.AbortIsFinalForTheCpu := by
  intro s t e aborted h
  have taken := afterTurn_softwareStands s
  have stopped : (afterTurn s).cpu.run ≠ .running := by simp [taken.run, aborted]
  obtain ⟨run, prog, doing, ret, life, pinned⟩ := taken.trans (takeTurn_softwareStands stopped h)
  refine ⟨run.trans aborted, prog, doing, ret, life, pinned, fun turn => ?_⟩
  rw [step, takeTurn_of_cpu turn, cpuTurn_of_not_running stopped] at h
  exact (Host.Outcome.next.inj h).symm

end Sys2Proof.Machine
end

section
/-! The machine at power-on (70_reset_and_hazards.md R260, 10_state.md R53), read through the accessors. -/

namespace Sys2Proof.Machine

@[simp] theorem getSec_reset (n : Chan) : getSec State.reset n = .unset := bankGet_everyChannel _ n

/-- Memory at power-on holds no byte, at any address. -/
@[simp] theorem memRead_reset (x : Nat) : memRead State.reset.mem x = .unset := rfl

/-- Settles O50: each channel and each byte by the lemma of its accessor; a field that is no bank is a field of
`State.reset`. -/
theorem powerOnState : Obligations.PowerOnState :=
  ⟨fun n => ⟨getCh_reset n, getBusy_reset n, getSec_reset n, getLife_reset n⟩,
    rfl, rfl, rfl, rfl, rfl, rfl, memRead_reset, rfl, rfl, rfl, rfl, rfl, rfl⟩

end Sys2Proof.Machine
end
